-- ==== Sys2Proof/Word.lean ====
section
/-! DEFINITION. The word type and the smallest vocabulary shared by every file (R3, R45). -/

namespace Sys2Proof

/-- A 64-bit register value (R45). -/
abbrev Word := BitVec 64

/-- A byte of memory (R3: every multi-byte value is little-endian). -/
abbrev Byte := BitVec 8

end Sys2Proof
end

