-- ==== Sys2Proof/Machine/Store.lean ====
section
/-! DEFINITION. Finite maps from numbers to plain data, as sorted lists in one canonical form: keys strictly rise and, under
`put`, no entry equals the default that an unlisted key reads as. -/

namespace Sys2Proof

/-- A finite map by number. -/
abbrev Store (α : Type) := List (Nat × α)

namespace Machine

/-- The entry of a key: the first with that key. -/
def Store.find? {α : Type} : Store α → Nat → Option α
  | [], _ => none
  | (k, v) :: m, i => if i = k then some v else Store.find? m i

/-- The value of a key; an unlisted key reads as `d`. -/
def Store.get {α : Type} (m : Store α) (d : α) (i : Nat) : α := (Store.find? m i).getD d

/-- Replace the entry of a key. -/
def Store.rep {α : Type} : Store α → Nat → α → Store α
  | [], _, _ => []
  | (k, w) :: m, i, v => if i = k then (k, v) :: m else (k, w) :: Store.rep m i v

/-- Insert an entry at its place. -/
def Store.add {α : Type} : Store α → Nat → α → Store α
  | [], i, v => [(i, v)]
  | (k, w) :: m, i, v => if i < k then (i, v) :: (k, w) :: m else (k, w) :: Store.add m i v

/-- Insert or replace. -/
def Store.ins {α : Type} (m : Store α) (i : Nat) (v : α) : Store α :=
  if (Store.find? m i).isSome then Store.rep m i v else Store.add m i v

/-- Remove a key. -/
def Store.del {α : Type} (m : Store α) (i : Nat) : Store α := m.filter fun e => e.1 ≠ i

/-- Write a key, keeping the canonical form for the default `d`. -/
def Store.put {α : Type} [DecidableEq α] (m : Store α) (d : α) (i : Nat) (v : α) : Store α :=
  if v = d then Store.del m i else Store.ins m i v

/-- Every key is above `b` and the keys strictly rise. -/
def Store.above {α : Type} : Store α → Nat → Bool
  | [], _ => true
  | (k, _) :: m, b => b < k && Store.above m k

/-- The keys strictly rise. -/
def Store.sorted {α : Type} : Store α → Bool
  | [] => true
  | (k, _) :: m => Store.above m k

/-- The canonical form for the default `d`. -/
def Store.wf {α : Type} [DecidableEq α] (m : Store α) (d : α) : Bool := Store.sorted m && m.all fun e => e.2 ≠ d

end Machine
end Sys2Proof
end

