-- ==== Sys2Proof/Machine/Bits.lean ====
section
/-! DEFINITION. Bit fields, sign extension and byte order (R3). -/

namespace Sys2Proof.Machine

/-- Little-endian value of a list of bytes (R3). -/
def leNat : List Byte → Nat
  | [] => 0
  | b :: bs => b.toNat + 256 * leNat bs

/-- The first `n` bytes of a value, little-endian (R3). -/
def leBytes : Nat → Nat → List Byte
  | 0, _ => []
  | n + 1, v => BitVec.ofNat 8 v :: leBytes n (v / 256)

/-- Bits [hi:lo] of a word, as a number. -/
def bits (w : Word) (hi lo : Nat) : Nat := w.toNat / 2 ^ lo % 2 ^ (hi + 1 - lo)

/-- One bit of a word. -/
def bit (w : Word) (i : Nat) : Bool := w.getLsbD i

/-- Bits [hi:lo] of a number. -/
def nbits (n hi lo : Nat) : Nat := n / 2 ^ lo % 2 ^ (hi + 1 - lo)

/-- A word with field [hi:lo] holding `v`, as one summand. -/
def field (v lo : Nat) : Word := BitVec.ofNat 64 (v * 2 ^ lo)

/-- A flag as one summand of a word. -/
def flagAt (b : Bool) (i : Nat) : Word := if b then BitVec.ofNat 64 (2 ^ i) else 0

/-- Sign extension of the low `n` bits of a number to a word. -/
def sextN (v n : Nat) : Word :=
  let x := v % 2 ^ n
  if x < 2 ^ (n - 1) then BitVec.ofNat 64 x else BitVec.ofNat 64 (x + (2 ^ 64 - 2 ^ n))

/-- R69, R144, R334: canonical, bits [63:56] equal to bit 55. -/
def canonical (w : Word) : Bool :=
  let h := w.toNat / 2 ^ 55
  h == 0 || h == 511

/-- The 0x1FF... part of a canonical address folded away: the 56-bit address. -/
def va56 (w : Word) : Nat := w.toNat % 2 ^ 56

/-- Sum of a list of numbers. -/
def sumNat : List Nat → Nat
  | [] => 0
  | x :: xs => x + sumNat xs

/-- Number of set bits among the low `n` bits. -/
def popN : Nat → Nat → Nat
  | 0, _ => 0
  | n + 1, v => v % 2 + popN n (v / 2)

/-- Position of the lowest set bit among the low `n` bits; `n` if none. -/
def lowN : Nat → Nat → Nat
  | 0, _ => 0
  | n + 1, v => if v % 2 = 1 then 0 else 1 + lowN n (v / 2)

/-- Bit `i` of a number. -/
def tst (v i : Nat) : Bool := v / 2 ^ i % 2 == 1

/-- Replace `n` bytes at byte `k` of a number by a value. -/
def setBytesN (x k n v : Nat) : Nat :=
  x - (x / 2 ^ (8 * k) % 2 ^ (8 * n)) * 2 ^ (8 * k) + (v % 2 ^ (8 * n)) * 2 ^ (8 * k)

/-- `n` bytes at byte `k` of a number. -/
def getBytesN (x k n : Nat) : Nat := x / 2 ^ (8 * k) % 2 ^ (8 * n)

/-- A list of the numbers 0 to n - 1. -/
def upto (n : Nat) : List Nat := List.range n

/-- Remove repeats, keeping the last of each. -/
def dedup {α : Type} [BEq α] : List α → List α
  | [] => []
  | x :: xs => if xs.contains x then dedup xs else x :: dedup xs

/-- Insert into an ascending list. -/
def insertAsc (x : Nat) : List Nat → List Nat
  | [] => [x]
  | y :: ys => if x ≤ y then x :: y :: ys else y :: insertAsc x ys

/-- Sort ascending. -/
def sortAsc : List Nat → List Nat
  | [] => []
  | x :: xs => insertAsc x (sortAsc xs)

end Sys2Proof.Machine
end

