-- ==== Sys2Proof/Syntax.lean ====
section
/-! DEFINITION. The instructions and events of the opcode table as one inductive, with the operand types they carry, and
the tail formats of R71. One constructor of `Instr` per row of spec/opcode_table.json. -/

namespace Sys2Proof

/-- Scalar floating-point precision, FN[1:0] of R88. -/
inductive Prec where
  | f64 | f32 | f16 | bf16
  deriving DecidableEq, Repr

/-- The rounding field of R88: code 000 is the dynamic mode. -/
inductive Rnd where
  | dyn | rne | rtz | rdn | rup | rna
  deriving DecidableEq, Repr

/-- Element types and tile formats, the codes of R96 (0xF is forbidden everywhere). -/
inductive Ty where
  | b8 | b16 | b32 | b64 | f16 | bf16 | f32 | f64 | e4m3 | e5m2 | e3m2 | e2m3 | e2m1 | e8m10 | e8m0
  deriving DecidableEq, Repr

/-- The W codes of the MEM format (R71); 0b111 is forbidden. -/
inductive MemW where
  | u8 | u16 | u32 | u64 | s8 | s16 | s32
  deriving DecidableEq, Repr

/-- The widths `st` accepts (R89: W 0b000 to 0b011). -/
inductive StW where
  | b1 | b2 | b4 | b8
  deriving DecidableEq, Repr

/-- Scope codes of SYNC and COPY (R71). -/
inductive Scope where
  | die | pkg | sys | pool
  deriving DecidableEq, Repr

/-- The ordering field FN5[1:0] of R90. -/
inductive Ordr where
  | none | acq | rel | ar
  deriving DecidableEq, Repr

/-- `br` conditions (R135). -/
inductive BrCond where
  | eq | ne | lt | ge | ltu | geu
  deriving DecidableEq, Repr

/-- `brz` conditions (R135). -/
inductive BrzCond where
  | eqz | nez | ltz | gez | gtz | lez
  deriving DecidableEq, Repr

/-- `fcmp` conditions (R132). -/
inductive FCmpCond where
  | eq | lt | le | un
  deriving DecidableEq, Repr

/-- The source of an `fcvt` to a float (Table 5 of chapter 04). -/
inductive CvtSrc where
  | float (p : Prec) | s64 | u64
  deriving DecidableEq, Repr

/-- The shape of an `fcvt`: destination and source (R88, R133). -/
inductive FCvt where
  | toFloat (p : Prec) (sat : Bool) (src : CvtSrc)
  | toInt (unsigned : Bool) (sat : Bool) (src : Prec)
  deriving DecidableEq, Repr

/-- `cache` operations (R147). -/
inductive CacheOp where
  | clean | flush | inval | drop | lift
  deriving DecidableEq, Repr

/-- `fence` kinds (R148). -/
inductive FenceKind where
  | acq | rel | full
  deriving DecidableEq, Repr

/-- `amo` operations (R223). -/
inductive AmoOp where
  | add | and | or | swap | min | max | minU | maxU
  deriving DecidableEq, Repr

/-- `cred` operations (R231). -/
inductive CredOp where
  | add | min | max
  deriving DecidableEq, Repr

/-- `vcmp` conditions (R92). -/
inductive VCond where
  | eq | ne | lt | le | gt | ge | un
  deriving DecidableEq, Repr

/-- `vred` and `vscan` operations (R92). -/
inductive RedOp where
  | add | min | max | and | or | xor
  deriving DecidableEq, Repr

/-- `kop` operations (R183). -/
inductive KOp where
  | and | or | xor | andn | not
  deriving DecidableEq, Repr

/-- `ktest` operations (R183). -/
inductive KTest where
  | any | all | count
  deriving DecidableEq, Repr

/-- `vperm` forms (R186). -/
inductive PermMode where
  | index | lo | hi
  deriving DecidableEq, Repr

/-- A MEM operand (R71, R143). -/
structure MemOp where
  disp : BitVec 17
  sc : BitVec 2
  x : BitVec 5
  b : BitVec 5
  deriving DecidableEq, Repr

/-- The address and ordering fields of a SYNC instruction (R90, R214). -/
structure SyncOp where
  imm : BitVec 14
  ord : Ordr
  scope : Scope
  b : BitVec 5
  deriving DecidableEq, Repr

/-- The fields every masked vector instruction carries (R92): element type, zero-masking and predicate. -/
structure VHdr where
  et : Ty
  zm : Bool
  k : BitVec 3
  deriving DecidableEq, Repr

/-- The fields of a COPY instruction but DESC16 (R94, R234). -/
structure CopyOp where
  sinc : BitVec 8
  ssem : BitVec 8
  wthr : BitVec 8
  wsem : BitVec 8
  l : BitVec 5
  c : BitVec 5
  b : BitVec 5
  scope : Scope
  deriving DecidableEq, Repr

/-- Which agent of a core: its thread, or sprig number `i` (R6, R10). -/
inductive Who where
  | thread
  | sprig (i : Nat)
  deriving DecidableEq, Repr

/-- An agent that executes instructions: a physical core number and who on it. -/
structure AgentId where
  core : Nat
  who : Who
  deriving DecidableEq, Repr

/-- What the sensors report at an epoch (R361, R365): power of shared units in W, energy of each core in nJ over the last
epoch, and the dies at 95 degrees Celsius or above. -/
structure PowerMeas where
  pkgOwn : Nat
  dieOwn : List Nat
  vatOwn : List Nat
  coreEnergy : List Nat
  hotDies : List Nat
  deriving DecidableEq, Repr

/-- One partition of a start-up (R385, R393): its vats, its HBM granules of 1 GiB, its host ports, and the boot image Caltik
copies and maps. -/
structure PartBoot where
  vats : List Nat
  granules : List Nat
  ports : List Nat
  /-- Entry point and first virtual address of the image, as its header gives them. -/
  entry : Word
  va : Word
  /-- The 2 MiB frame at which Caltik places the image, and the first of the 4 KiB nodes of the initial page table. -/
  imageAt : Nat
  tableAt : Nat
  image : List Byte
  deriving DecidableEq, Repr

/-- A start-up of the package (R374, R393): the number that Caltik assigns it, the packages of its system image, its partitions. -/
structure Startup where
  pkg : Nat
  present : List Nat
  parts : List PartBoot
  deriving DecidableEq, Repr

/-- Where an uncorrectable error arises (R252, R191): a 32-byte granule of physical memory, or a block-store line of a core. -/
inductive UeTarget where
  | granule (g : Nat)
  | blockLine (core line : Nat)
  deriving DecidableEq, Repr

/-- Every row of the opcode table. Fields hold only values the encodings admit; what remains to check stands in
WellFormed.lean. -/
inductive Instr where
  -- scalar integer, R124 to R128
  | add (d b c : BitVec 5)
  | sub (d b c : BitVec 5)
  | and (d b c : BitVec 5)
  | or (d b c : BitVec 5)
  | xor (d b c : BitVec 5)
  | shl (d b c : BitVec 5)
  | shr (d b c : BitVec 5)
  | sra (d b c : BitVec 5)
  | mul (d b c : BitVec 5)
  | mulh (u : Bool) (d b c : BitVec 5)
  | div (u : Bool) (d b c : BitVec 5)
  | rem (u : Bool) (d b c : BitVec 5)
  | min (u : Bool) (d b c : BitVec 5)
  | max (u : Bool) (d b c : BitVec 5)
  | slt (u : Bool) (d b c : BitVec 5)
  | cmov (d b c : BitVec 5)
  | clz (d b : BitVec 5)
  | ctz (d b : BitVec 5)
  | popc (d b : BitVec 5)
  | sext (d b : BitVec 5) (n : BitVec 6)
  | zext (d b : BitVec 5) (n : BitVec 6)
  | addsh (d b c : BitVec 5) (n : BitVec 6)
  | addi (d b : BitVec 5) (imm : BitVec 16)
  | andi (d b : BitVec 5) (imm : BitVec 16)
  | ori (d b : BitVec 5) (imm : BitVec 16)
  | xori (d b : BitVec 5) (imm : BitVec 16)
  | shli (d b : BitVec 5) (n : BitVec 6)
  | shri (d b : BitVec 5) (n : BitVec 6)
  | srai (d b : BitVec 5) (n : BitVec 6)
  | liTail2 (d : BitVec 5) (imm : BitVec 16)
  | liTail4 (d : BitVec 5) (imm : BitVec 32)
  | liTail8 (d : BitVec 5) (imm : BitVec 64)
  | addpcLine (d : BitVec 5) (imm : BitVec 16)
  | addpcByte (d : BitVec 5) (imm : BitVec 32)
  -- scalar floating point, R129 to R134
  | fadd (p : Prec) (r : Rnd) (d b c : BitVec 5)
  | fsub (p : Prec) (r : Rnd) (d b c : BitVec 5)
  | fmul (p : Prec) (r : Rnd) (d b c : BitVec 5)
  | fdiv (p : Prec) (r : Rnd) (d b c : BitVec 5)
  | fsqrt (p : Prec) (r : Rnd) (d b : BitVec 5)
  | fma (p : Prec) (r : Rnd) (d b c : BitVec 5)
  | fmin (p : Prec) (d b c : BitVec 5)
  | fmax (p : Prec) (d b c : BitVec 5)
  | fcmp (q : FCmpCond) (p : Prec) (d b c : BitVec 5)
  | fcvt (k : FCvt) (r : Rnd) (d b : BitVec 5)
  | fclass (p : Prec) (d b : BitVec 5)
  -- control flow, traps, time, R135 to R142
  | jmp (loff : BitVec 27) (slot : BitVec 5)
  | call (d : BitVec 5) (loff : BitVec 27) (slot : BitVec 5)
  | jmpr (b : BitVec 5)
  | callr (d b : BitVec 5)
  | br (q : BrCond) (loff : BitVec 32) (hint : Bool) (slot b c : BitVec 5)
  | brz (q : BrzCond) (loff : BitVec 21) (hint : Bool) (slot b : BitVec 5)
  | callx (d : BitVec 5) (idx : BitVec 16)
  | svc (code : BitVec 16)
  | brk (code : BitVec 16)
  | time (d : BitVec 5)
  -- memory, special registers, migrate, R143 to R150
  | ld (w : MemW) (d : BitVec 5) (m : MemOp)
  | st (w : StW) (d : BitVec 5) (m : MemOp)
  | pref (wr : Bool) (m : MemOp)
  | cache (op : CacheOp) (m : MemOp)
  | fence (kind : FenceKind) (scope : Scope)
  | rdsr (d : BitVec 5) (n : BitVec 12)
  | wrsr (a : BitVec 5) (n : BitVec 12)
  | migrate (b : BitVec 5)
  -- synchronisation, R214 to R233
  | lrw (d : BitVec 5) (s : SyncOp)
  | sch (d c : BitVec 5) (s : SyncOp)
  | relq (s : SyncOp)
  | amo (op : AmoOp) (d c : BitVec 5) (s : SyncOp)
  | cas (d c : BitVec 5) (s : SyncOp)
  | mcas (d : BitVec 5) (imm : BitVec 14) (scope : Scope) (b : BitVec 5)
  | takew (d : BitVec 5) (s : SyncOp)
  | peekw (d : BitVec 5) (s : SyncOp)
  | putw (c : BitVec 5) (s : SyncOp)
  | fillw (c : BitVec 5) (s : SyncOp)
  | emptyw (s : SyncOp)
  | waitne (d c : BitVec 5) (s : SyncOp)
  | cred (op : CredOp) (c : BitVec 5) (s : SyncOp)
  | semp (o : Ordr) (scope : Scope) (c : BitVec 5) (sem : BitVec 8)
  | semv (o : Ordr) (scope : Scope) (c : BitVec 5) (sem : BitVec 8)
  | semrd (o : Ordr) (scope : Scope) (d : BitVec 5) (sem : BitVec 8)
  | bar (o : Ordr) (scope : Scope) (d c : BitVec 5) (level : BitVec 2)
  | holdLimit (a : AgentId)
  | waitWithdrawal (a : AgentId)
  | idleEnd (core : Nat)
  -- sprig management and sprig only, R161 to R173
  | sconf (b c : BitVec 5)
  | sbcast (b c : BitVec 5) (lend : BitVec 4)
  | swait (d c : BitVec 5)
  | sget (d b : BitVec 5) (sel : BitVec 6)
  | sput (b c : BitVec 5) (sel : BitVec 5)
  | skill (c : BitVec 5)
  | skillSprigStop (core sprig : Nat)
  | bfetch (b : BitVec 5)
  | lsend (et : Ty) (va : BitVec 6) (delta : BitVec 6)
  | lrecv (et : Ty) (vd : BitVec 6) (delta : BitVec 6)
  | sid (d : BitVec 5)
  -- vector, R174 to R190
  | vadd (h : VHdr) (r : Rnd) (vd va vb : BitVec 6)
  | vsub (h : VHdr) (r : Rnd) (vd va vb : BitVec 6)
  | vmul (h : VHdr) (r : Rnd) (vd va vb : BitVec 6)
  | vfma (h : VHdr) (r : Rnd) (vd va vb vc : BitVec 6)
  | vdiv (h : VHdr) (r : Rnd) (vd va vb : BitVec 6)
  | vmin (h : VHdr) (u : Bool) (vd va vb : BitVec 6)
  | vmax (h : VHdr) (u : Bool) (vd va vb : BitVec 6)
  | vand (h : VHdr) (vd va vb : BitVec 6)
  | vor (h : VHdr) (vd va vb : BitVec 6)
  | vxor (h : VHdr) (vd va vb : BitVec 6)
  | vshlVec (h : VHdr) (vd va vb : BitVec 6)
  | vshlImm (h : VHdr) (n : BitVec 6) (vd va : BitVec 6)
  | vshrVec (h : VHdr) (vd va vb : BitVec 6)
  | vshrImm (h : VHdr) (n : BitVec 6) (vd va : BitVec 6)
  | vsraVec (h : VHdr) (vd va vb : BitVec 6)
  | vsraImm (h : VHdr) (n : BitVec 6) (vd va : BitVec 6)
  | vcmp (h : VHdr) (q : VCond) (u : Bool) (kd : BitVec 3) (va vb : BitVec 6)
  | vsel (et : Ty) (k : BitVec 3) (vd va vb : BitVec 6)
  | vneg (h : VHdr) (abs : Bool) (vd va : BitVec 6)
  | vsqrt (h : VHdr) (r : Rnd) (vd va : BitVec 6)
  | vrcp (h : VHdr) (vd va : BitVec 6)
  | vrsq (h : VHdr) (vd va : BitVec 6)
  | vexp2 (h : VHdr) (vd va : BitVec 6)
  | vlog2 (h : VHdr) (vd va : BitVec 6)
  | vcvt (h : VHdr) (src : Ty) (r : Rnd) (sat u : Bool) (vd va : BitVec 6)
  | vcvts (h : VHdr) (src : Ty) (sat : Bool) (vd va vb : BitVec 6)
  | vrng (h : VHdr) (vd va : BitVec 6)
  | vperm (h : VHdr) (m : PermMode) (vd va vb : BitVec 6)
  | valign (h : VHdr) (n : BitVec 6) (vd va vb : BitVec 6)
  | vbcast (h : VHdr) (fromV : Bool) (vd va : BitVec 6)
  | vextr (et : Ty) (idx : BitVec 16) (gd : BitVec 5) (va : BitVec 6)
  | vins (et : Ty) (idx : BitVec 16) (vd : BitVec 6) (ga : BitVec 5)
  | vred (et : Ty) (k : BitVec 3) (op : RedOp) (u : Bool) (vd va : BitVec 6)
  | vscan (h : VHdr) (op : RedOp) (u : Bool) (vd va : BitVec 6)
  | vld (h : VHdr) (imm : BitVec 16) (vd : BitVec 6) (ga : BitVec 5)
  | vst (et : Ty) (k : BitVec 3) (imm : BitVec 16) (vd : BitVec 6) (ga : BitVec 5)
  | vgath (h : VHdr) (sc : BitVec 2) (vd : BitVec 6) (ga : BitVec 6) (vb : BitVec 6)
  | vscat (et : Ty) (k : BitVec 3) (sc : BitVec 2) (vd : BitVec 6) (ga : BitVec 6) (vb : BitVec 6)
  | vaddsat (h : VHdr) (sub u : Bool) (vd va vb : BitVec 6)
  | vmulhi (h : VHdr) (u : Bool) (vd va vb : BitVec 6)
  | vbitc (h : VHdr) (clz : Bool) (vd va : BitVec 6)
  | vdot (h : VHdr) (u : Bool) (vd va vb : BitVec 6)
  | viota (h : VHdr) (vd : BitVec 6)
  | kop (op : KOp) (kd ka kb : BitVec 3)
  | kmov (toG : Bool) (k : BitVec 3) (g : BitVec 5)
  | ktest (op : KTest) (g : BitVec 5) (k : BitVec 3)
  | crd (et : Ty) (cj : BitVec 2) (vd : BitVec 6) (ga : BitVec 6) (imm : BitVec 5)
  | cwr (et : Ty) (cj : BitVec 2) (vd : BitVec 6) (ga : BitVec 6) (imm : BitVec 5)
  | lanePick (core lane : Nat)
  -- tile, R192 to R213
  | tld (scaled : Bool) (fmt : Ty) (zd : BitVec 3) (desc : BitVec 16) (b c : BitVec 5)
  | tldc (fmt : Ty) (cd : BitVec 2) (desc : BitVec 16) (b c : BitVec 5)
  | tst (fmt : Ty) (za : BitVec 3) (desc : BitVec 16) (b c : BitVec 5)
  | tstc (fmt : Ty) (cd : BitVec 2) (desc : BitVec 16) (b c : BitVec 5)
  | tzero (cd : BitVec 2)
  | tmma (fmt : Ty) (ua ub : Bool) (cd : BitVec 2) (za zb : BitVec 3)
  | tmmas (scaled : Bool) (fmt : Ty) (ua ub : Bool) (cd : BitVec 2) (za zb zc : BitVec 3)
  | tmmax (fmt : Ty) (cd : BitVec 2) (za zb : BitVec 3)
  | tcvt (fmt : Ty) (r : Rnd) (sat u : Bool) (zd : BitVec 3) (cs : BitVec 2)
  | ttrans (fmt : Ty) (zd za : BitVec 3)
  | pressPick (vat press : Nat)
  | tileCommandComplete (core : Nat)
  | tileStoreLineWrite (core line : Nat)
  | storeBufferWrite (a : AgentId) (entry : Nat)
  -- copy, R234 to R244
  | bcopy (o : CopyOp)
  | bcopyt (out : Bool) (desc : BitVec 16) (o : CopyOp)
  | bfill (o : CopyOp)
  | bloadb (o : CopyOp)
  | bcopyc (lines : BitVec 16) (o : CopyOp)
  | copyStart (core : Nat)
  | copyLineMove (core cmd line : Nat)
  | copyComplete (core cmd : Nat)
  | copyWaitLimit (core cmd : Nat)
  -- system, R311 to R353
  | rdpr (d : BitVec 5) (n : BitVec 12)
  | wrpr (a : BitVec 5) (n : BitVec 12)
  | plbinvOne (b c : BitVec 5)
  | plbinvDom (c : BitVec 5)
  | xlinvPage (b : BitVec 5)
  | ctxsave (b : BitVec 5)
  | ctxload (b : BitVec 5)
  | descw (b c : BitVec 5)
  | ipi (b c : BitVec 5)
  | trapEntry (core : Nat)
  | timer (core : Nat)
  | sholdSet (a : BitVec 5)
  | sholdRelease (a : BitVec 5)
  | domainWrite (a : BitVec 5)
  | spwinWrite (a : BitVec 5) (i : BitVec 3)
  | windowLineWriteback (core seg line : Nat)
  | pressbindWrite (a : BitVec 5)
  | ipipendWrite (a : BitVec 5)
  | timecmpWrite (a : BitVec 5)
  | barcfgWrite (a : BitVec 5)
  | ptrootWrite (a : BitVec 5)
  | protrootWrite (a : BitVec 5)
  | descbaseWrite (a : BitVec 5)
  | wshareWrite (a : BitVec 5)
  | fdutyWrite (a : BitVec 5)
  | recover (a : BitVec 5)
  -- migration, parked requests, power, errors, R333 to R371
  | migrateArrival (core : Nat)
  | replyRedirect (core : Nat)
  | parkedRequestResume (a : AgentId)
  | powerEpoch (m : PowerMeas)
  | operatingPointChange (vat : Nat)
  | vatClockStop (vat : Nat)
  | vatClockRestart (vat : Nat)
  | retentionExit (vat : Nat) (parityOk : Bool)
  | dirtyUe (core : Nat) (va : Word) (line : Nat)
  | tileUe (core : Nat) (zmask : BitVec 8) (cmask : BitVec 4)
  -- host ports and inbound requests, R372 to R378
  | doorbell (core : Nat) (data : BitVec 32)
  | hostLinkChange (port : Nat) (up flit256 : Bool)
  | hpctlWrite (port : Nat) (v : Word)
  | inboundRead (port : Nat) (rid : BitVec 16) (va : Word) (len : Nat)
  | inboundWrite (port : Nat) (rid : BitVec 16) (va : Word) (bytes : List Byte)
  | fetchadd (port : Nat) (rid : BitVec 16) (va : Word) (size : Nat) (v : Word)
  | swap (port : Nat) (rid : BitVec 16) (va : Word) (size : Nat) (v : Word)
  | inboundCas (port : Nat) (rid : BitVec 16) (va : Word) (size : Nat) (expected new : Word)
  | atsTranslationRequest (port : Nat) (rid : BitVec 16) (va : Word)
  | pageRequest (port : Nat) (rid : BitVec 16) (va : Word)
  -- Kerran Link and pool tier, R374 to R384
  | kerranLinkChange (port : Nat) (up : Bool) (unreachable : List Nat)
  | poolLinkLost (region : Nat)
  | poolCompletionTimeout (region : Nat)
  | failoverComplete (region : Nat)
  | poolLinkRestored (region : Nat)
  | poolWriteCompletion (region line : Nat)
  | backInvalidate (line : Nat)
  -- Caltik, R387 to R394
  | negotiate (tag : BitVec 32) (want : BitVec 128)
  | summary (tag : BitVec 32)
  | setLimit (tag : BitVec 32) (watts : Nat)
  | partition (tag : BitVec 32) (map : List PartBoot)
  | fwStage (tag : BitVec 32) (offset : Nat) (chunk : List Byte) (valid : Bool) (version secVersion : Nat)
  | fwActivate (tag : BitVec 32) (watchdog : Nat) (boot : Startup)
  | fwConfirm (tag : BitVec 32)
  | fwWatchdogExpiry (boot : Startup)
  | spdm (tag : BitVec 32) (msg : List Byte)
  | getVersion (tag : BitVec 32)
  | getCapabilities (tag : BitVec 32)
  | negotiateAlgorithms (tag : BitVec 32) (msg : List Byte)
  | getDigests (tag : BitVec 32)
  | getCertificate (tag : BitVec 32) (offset len : Nat)
  | challenge (tag : BitVec 32) (nonce : List Byte)
  | getMeasurements (tag : BitVec 32) (index : Nat)
  | keyExchange (tag : BitVec 32) (msg : List Byte)
  | finish (tag : BitVec 32) (msg : List Byte)
  | logRead (tag : BitVec 32) (index : Nat)
  | packageReset (boot : Startup)
  | coreRestart (core : Nat)
  | unassignedOpcode (head : BitVec 16)
  | uncorrectableError (t : UeTarget)
  | deviceInvalidationAck (port : Nat)
  -- rows without fields
  | nop
  | idle
  | stop
  | tsync
  | tret
  | plbinvAll
  | xlinvAll
  | staticCharge
  | kerranRerouteDone
  | mailboxResponseReady
  | fwCallVersion
  | sign
  | fwCallSetLimit
  | setRestart
  | fwCallLogRead
  deriving DecidableEq, Repr

/-! ### Tail formats (R71, Table 3), fields as they stand in the tail -/

/-- RR, TL 1. -/
structure RR where
  fn : BitVec 6
  c : BitVec 5
  b : BitVec 5
  deriving DecidableEq, Repr

/-- RI, TL 2; `z` is the reserved field [15:11]. -/
structure RI where
  imm : BitVec 16
  z : BitVec 5
  fn : BitVec 6
  b : BitVec 5
  deriving DecidableEq, Repr

/-- MEM, TL 2. -/
structure MemT where
  disp : BitVec 17
  w : BitVec 3
  sc : BitVec 2
  x : BitVec 5
  b : BitVec 5
  deriving DecidableEq, Repr

/-- JMP, TL 2. -/
structure JmpT where
  loff : BitVec 27
  slot : BitVec 5
  deriving DecidableEq, Repr

/-- BR, TL 3. -/
structure BrT where
  loff : BitVec 32
  hint : BitVec 1
  slot : BitVec 5
  c : BitVec 5
  b : BitVec 5
  deriving DecidableEq, Repr

/-- BRZ, TL 2. -/
structure BrzT where
  loff : BitVec 21
  hint : BitVec 1
  slot : BitVec 5
  b : BitVec 5
  deriving DecidableEq, Repr

/-- VEC, TL 2, and the low 32 bits of VECX, TL 3; `imm` is 0 in VEC. -/
structure VecT where
  imm : BitVec 16
  vc : BitVec 6
  et : BitVec 4
  zm : BitVec 1
  k : BitVec 3
  vb : BitVec 6
  va : BitVec 6
  vd : BitVec 6
  deriving DecidableEq, Repr

/-- TILE, TL 3. -/
structure TileT where
  fn : BitVec 6
  c : BitVec 5
  b : BitVec 5
  desc : BitVec 16
  flag : BitVec 1
  fmt : BitVec 4
  cd : BitVec 2
  zc : BitVec 3
  zb : BitVec 3
  za : BitVec 3
  deriving DecidableEq, Repr

/-- SYNC, TL 2. -/
structure SyncT where
  imm : BitVec 14
  fn : BitVec 5
  scope : BitVec 3
  c : BitVec 5
  b : BitVec 5
  deriving DecidableEq, Repr

/-- COPY, TL 4; `z` is the reserved bit 15. -/
structure CopyT where
  sinc : BitVec 8
  ssem : BitVec 8
  wthr : BitVec 8
  wsem : BitVec 8
  desc : BitVec 16
  z : BitVec 1
  l : BitVec 5
  c : BitVec 5
  b : BitVec 5
  deriving DecidableEq, Repr

/-- SPR, TL 1; `z` is the reserved field [15:12]. -/
structure SprT where
  z : BitVec 4
  n : BitVec 12
  deriving DecidableEq, Repr

/-- Why a head is no valid instruction, in the order of R64 (details 5 to 8 and 13 of R66). -/
inductive Illegal where
  | badTail | reserved | forbidden | badSpr
  deriving DecidableEq, Repr

end Sys2Proof
end

