-- ==== Sys2Proof/Machine/State.lean ====
section
/-! DEFINITION. The state of a Vilpor VX4 package as plain data, the reasons a step can stop, and the state after reset.
Locations: physical byte addresses below 2^52 (R251); the scratchpad of core q at 2^52 + q x 2^19 (R256). -/

namespace Sys2Proof.Machine

/-! ### Why a step can stop -/

/-- The faults of the model. R7 leaves no documented state without a meaning, so no instruction has one. -/
inductive Fault where
  /-- Raised by `step` alone, when `sched` names a unit that the package does not have or a row that is no event. No
  hardware has such an input. Safe. -/
  | badSlot
  deriving DecidableEq, Repr

/-- The refusals of the model. -/
inductive Refusal where
  /-- An arm of `exec` without a meaning yet. Safe. -/
  | notModelled (mnemonic : String)
  deriving DecidableEq, Repr

/-! ### Agents -/

/-- Privilege levels, `STATUS.PL` (R308). -/
inductive Level where
  | user | kernel | firmware
  deriving DecidableEq, Repr

/-- A code line as the agent read it at its entry (R61, R73): its address and its 64 bytes. -/
structure Snap where
  base : Nat
  line : BitVec 512
  deriving DecidableEq, Repr

/-- An entry of the protection lookaside buffer (R338): region base and length in pages (of the 44-bit page number), rights. -/
structure PlbEntry where
  domain : BitVec 14
  base : Nat
  pages : Nat
  k : Bool
  xwr : BitVec 3
  deriving DecidableEq, Repr

/-- A write of cells of one line, whether its page has the tagged-word attribute (R252), and whether it is uncacheable (R255). `far` says
that the writer is an agent of another core than the one whose scratchpad it writes, which keeps the line dirty in its cache (R258). -/
structure LineW where
  tag : Bool
  uc : Bool
  /-- Virtual line number, by which copy engines own lines (R236). -/
  vline : Nat
  cells : List Host.Cell
  far : Bool
  deriving DecidableEq, Repr

/-- One entry of a store buffer (R145, R202): what it writes, line by line; a tile store has several lines. `dep` says that a read
forwarded from an earlier entry stands before it in program order (R268, R271; log 8). -/
structure SbEntry where
  lines : List LineW
  tile : Bool
  dieLocal : Bool
  dep : Bool
  /-- Which store instruction of its buffer it belongs to, and how many entries that instruction has for its line (R73). -/
  store : Nat
  parts : Nat
  /-- The protection regions it was checked against (R338, R351). -/
  checked : List PlbEntry
  deriving DecidableEq, Repr

/-- What a wait is for, where its grant is a condition on the state and not a message (R37, R39): a line's reservation, the link slot
of a sprig, sprigs that are done, or nothing of these; `withdrawn` marks a wait whose limit has passed and whose sprig has yet to
fault. -/
inductive WaitFor where
  | served
  | line (l : Nat)
  | link (slot : Nat)
  | sprigs (mask : Word)
  | withdrawn
  deriving DecidableEq, Repr

/-- A wait in progress (R37, R38): when it began, its limit in ns (0: none), the value a withdrawal reports, what it is for, and the
protection regions that the access which waits was checked against (R338, R351). -/
structure Wait where
  since : Nat
  limit : Nat
  val : Word
  what : WaitFor
  checked : List PlbEntry
  deriving DecidableEq, Repr

/-- One entry of a parameter block of `mcas` (R225): its number, address, expected and new values. -/
structure McasEntry where
  idx : Nat
  addr : Word
  expected : Word
  new : Word
  deriving DecidableEq, Repr

/-- The parameter block of an `mcas` in progress, as it was read (R226, R227): its address, NOWB, the entries in ascending address; and,
once it has found a mismatch and released its lines, its result with the stores that write the observed values back. -/
structure McasHold where
  block : Word
  nowb : Bool
  entries : List McasEntry
  back : Option (Word × List (Word × Word))
  deriving DecidableEq, Repr

/-- A read of a thread performed before reads that precede it in program order (R270; log 7): the operand it will have, its address,
where it read, how many bytes, and what it read. -/
structure EarlyRead where
  m : MemOp
  ea : Word
  loc : Nat
  n : Nat
  value : Nat
  dieLocal : Bool
  deriving DecidableEq, Repr

/-- A load of a thread whose read may still be performed after later accesses to other locations (R270; log 7): the register it wrote,
its width, its address and where it read. -/
structure LateRead where
  d : BitVec 5
  w : MemW
  ea : Word
  loc : Nat
  n : Nat
  deriving DecidableEq, Repr

/-- What every agent that executes instructions holds beside its registers. `fwd` says of each entry of `sb`, in order, whether a read
of the agent was forwarded from it (R268). -/
structure Agent where
  snap : Option Snap
  sb : List SbEntry
  fwd : List Bool
  ahead : List EarlyRead
  late : List LateRead
  wait : Option Wait
  mcas : Option McasHold
  /-- The thread's `xlinv` has begun: no interrupt is taken before it completes (R346). -/
  inval : Bool
  deriving DecidableEq, Repr

/-- Whether a thread runs (R141, R321, R393); `lost` is halted with its context lost by its vat's RETENTION_LOST (R331, R394). -/
inductive RunState where
  | off | running | idle (since : Nat) | halted | lost
  deriving DecidableEq, Repr

/-- The thread of a core. `g` holds g1 to g23 at 1 to 23, and g24 to g31 at 24 to 31 for the user bank, 32 to 39 for the kernel
bank, 40 to 47 for the firmware bank (R309, R310). -/
structure Thread where
  g : Store Word
  pc : Word
  rm : BitVec 3
  fpstat : BitVec 6
  waitlim : BitVec 48
  ltbase : Word
  cycle : Word
  retired : Word
  /-- U of R368: NJ above 16 hidden fraction bits. -/
  energy : Word
  sat : Bool
  run : RunState
  ag : Agent
  deriving DecidableEq, Repr

/-- Sprig states (R19). -/
inductive SprigSt where
  | idle | running | waiting | faulted
  deriving DecidableEq, Repr

/-- An entry of a sprig's block queue (R21, R51). -/
structure Block where
  addr : BitVec 16
  lend : BitVec 4
  deriving DecidableEq, Repr

/-- A sprig (R45 to R51). The PC has 16 bits; its 17th marks the sequential step beyond the last line (R23). Link slot s holds offset s - 7 for s below 7 and s - 6 above (Table 5 of chapter 15). -/
structure Sprig where
  g : Store Word
  k : Store Word
  st : SprigSt
  pc : BitVec 17
  queue : List Block
  fcause : BitVec 8
  fpc : BitVec 16
  fval : Word
  rm : BitVec 3
  fpstat : BitVec 6
  bstart : BitVec 16
  free : Bool
  links : Store (BitVec 512)
  full : BitVec 14
  ag : Agent
  deriving DecidableEq, Repr

/-! ### A core -/

/-- `STATUS` (R312), field by field; reserved bits read as zero. `ppl` true is kernel: 10 and 11 are forbidden. -/
structure Status where
  pl : Level
  pplKernel : Bool
  ie : Bool
  pie : Bool
  ien : BitVec 5
  ceovf : Bool
  sprigtrap : Bool
  nest : Bool
  shold : Bool
  acc : Bool
  arr : Bool
  deriving DecidableEq, Repr

/-- A machine check waiting for delivery (R330); `zeroPc` when it was detected by another core. -/
structure MCheck where
  detail : BitVec 8
  val : Word
  zeroPc : Bool
  deriving DecidableEq, Repr

/-- The firmware copies of R310. -/
structure FwRegs where
  trappc : Word
  trapcause : Word
  trapval : Word
  pplKernel : Bool
  pie : Bool
  nest : Bool
  deriving DecidableEq, Repr

/-- The registers of `FDUTY` (R362); `tree` is the tree duty behind DUTY (R363). -/
structure Duty where
  evlimit : Bool
  evwear : Bool
  evrestore : Bool
  evthrottle : Bool
  freq : BitVec 4
  tree : Nat
  cap : Nat
  deriving DecidableEq, Repr

/-- The privileged registers of a core (R311, R312, R362, R370, R381). -/
structure Priv where
  status : Status
  trapvec : Word
  trapcause : Word
  trappc : Word
  trapval : Word
  trapscratch : Word
  domain : BitVec 14
  coretab : Word
  ctximg : Word
  timecmp : Word
  /-- Pending IPIs, head first: SRC and PAYLOAD (R325). -/
  ipi : List (BitVec 8 × BitVec 48)
  ipiOvf : Bool
  spwin : Store Word
  barcfg : Word
  duty : Duty
  estatic : BitVec 16
  eweight : Store (BitVec 16)
  poolWord : BitVec 2
  poolRegion : BitVec 10
  fw : FwRegs
  deriving DecidableEq, Repr

/-- What the copy engine moves (R239 to R243). -/
inductive CopyKind where
  | copy
  | tensor (out : Bool) (desc : BitVec 512) (x0 x1 rows cols : Nat)
  | fill (pattern : Word)
  | block
  | lines
  deriving DecidableEq, Repr

/-- The stages of a copy command (R236); `lapsed` is a command whose semaphore wait reached its bound, `signal` one whose completion word
is written and whose `semv` is still to be released, with the offset that it reported. -/
inductive CopyStage where
  | waiting | ready | started | lapsed
  | signal (off : Nat)
  deriving DecidableEq, Repr

/-- What a release at pool scope waits for (R283): the writes in flight, by number, and the lowest address of those that a loss has
counted (R383); `sent` says that the dirty lines have gone to their devices. -/
structure PoolWait where
  waits : List Nat
  lost : Option Nat
  sent : Bool
  deriving DecidableEq, Repr

/-- A copy command in a core's queue (R10, R234 to R237). `moved` lists the destination lines written, by number. -/
structure CopyCmd where
  id : Nat
  kind : CopyKind
  dst : Word
  src : Word
  len : Nat
  /-- Address of the completion word of `bcopyc`. -/
  cword : Word
  scope : Scope
  wsem : BitVec 8
  wthr : BitVec 8
  ssem : BitVec 8
  sinc : BitVec 8
  sprig : Option Nat
  level : Level
  domain : BitVec 14
  since : Nat
  bound : Nat
  stage : CopyStage
  /-- When it started: its place in the order of ownership (R244). -/
  order : Nat
  moved : List Nat
  /-- Where its destination lines stood at the start: virtual line number and line of memory (R236, R276). -/
  locs : List (Nat × Nat)
  /-- Its release at pool scope, once begun (R283, R383). -/
  release : Option PoolWait
  deriving DecidableEq, Repr

/-- The copy engine of a core: its queue in order of entry, the next command number, the report queue (R238), and the command whose
line moved last (R359). -/
structure CopyEngine where
  cmds : List CopyCmd
  next : Nat
  reports : List Word
  last : Nat
  deriving DecidableEq, Repr

/-- The physical tile that a tile command took for the register it writes, and the one the register had before (R31, R32). -/
structure Rename where
  isZ : Bool
  arch : Nat
  new : Nat
  old : Nat
  deriving DecidableEq, Repr

/-- What a started tile command holds until it retires (R33, R210): a request that must wait (R199, R219), with the line of the leaf
on which it is parked if it is (R348), the condition it met, the
value of the tile it writes with its flags, the lines it stores and the bytes for device space (with their address and location), or
nothing (`tsync`). -/
inductive TileHeld where
  | waiting (park : Option Nat)
  | trap (code detail : Nat) (val : Word)
  | z (j : BitVec 3) (v : BitVec 34816) (fl : BitVec 6)
  | c (j : BitVec 2) (v : BitVec 65536) (fl : BitVec 6)
  | store (lines : List LineW) (device : List (Word × Nat × List Byte))
  | sync
  deriving DecidableEq, Repr

/-- A line that a tile load has read: its virtual line number, the line of memory, and what memory held for it (R202). -/
structure TileRead where
  vline : Nat
  line : Nat
  data : BitVec 512
  deriving DecidableEq, Repr

/-- A tile command in a core's queue (R31) with what it captured at decode, g[B], g[C] and RM (R57), the physical tile it took
(R32), and, once it has started, what it holds (R210). -/
structure TileCmd where
  pc : Word
  instr : Instr
  rb : Word
  rc : Word
  rm : BitVec 3
  ren : Option Rename
  held : Option TileHeld
  /-- The lines that a load has read (R202). -/
  reads : List TileRead
  /-- The protection regions that the accesses of a started command were checked against (R338, R351). -/
  checked : List PlbEntry
  deriving DecidableEq, Repr

/-- The press has started a command. -/
def TileCmd.started (t : TileCmd) : Bool := t.held.isSome

/-- A started command whose request has not been made yet (R199, R219, R348). -/
def TileCmd.waits (t : TileCmd) : Bool :=
  match t.held with
  | some (.waiting _) => true
  | _ => false

/-- The tile registers, lent sets, tile queue and branch checkpoints of a core (R26, R31, R32, R52, R54). -/
structure Tiles where
  z : Store (BitVec 34816)
  c : Store (BitVec 65536)
  lent : Store Word
  queue : List TileCmd
  /-- The branch checkpoints: the tile mapping at each branch of the thread that waits for its turn (R32). -/
  checkpoints : List (List Nat)
  deriving DecidableEq, Repr

/-- The sprig array of a core (R17, R47, R60): `pool` holds register p of lane l at 256 l + p, `blk` line b at b. -/
structure SprigArray where
  n : Nat
  r : Nat
  sprigs : Store Sprig
  pool : Store (BitVec 512)
  lanePtr : Store Nat
  blk : Store (BitVec 512)
  /-- Block-store lines that hold an uncorrectable error (R191, R252). -/
  blkUe : List Nat
  deriving DecidableEq, Repr

/-- The exact state of a commutative word, without its base (R118, R119). For `.min` and `.max`, `ext` is the extreme of the
deposits that are not NaN. `crf` is the range's format code (R342); `va` is the virtual address of the word and `part` its
partition, by which a move of the page finds it (R347); `home` is its slice and `shadow` the place of its 64-byte shadow (R260). -/
structure Exact where
  va : Nat
  part : Nat
  home : Nat
  shadow : Nat
  crf : Nat
  op : CredOp
  acc : BitVec 320
  pinf : Bool
  ninf : Bool
  nan : Bool
  ext : Option Word
  deriving DecidableEq, Repr

/-- Lines of an unmapped window not yet written back (R259): the segment, the range it was mapped at, the lines left. -/
structure WinPending where
  seg : Nat
  vbase : Nat
  left : BitVec 1024
  /-- Its place among the pending unmappings of the package, in the order in which they came (R259). -/
  num : Nat
  deriving DecidableEq, Repr

/-- The context that travels with `migrate` (R333). -/
structure Travel where
  g : Store Word
  pc : Word
  rm : BitVec 3
  fpstat : BitVec 6
  waitlim : BitVec 48
  ltbase : Word
  cycle : Word
  retired : Word
  energy : Word
  sat : Bool
  domain : BitVec 14
  barcfg : Word
  coretab : Word
  sprigtrap : Bool
  n : Nat
  r : Nat
  z : Store (BitVec 34816)
  c : Store (BitVec 65536)
  deriving DecidableEq, Repr

/-- The dirty bits of R327, one mask for each kind of unit. -/
structure Dirty where
  z : BitVec 8
  c : BitVec 4
  sprig : BitVec 64
  slot : BitVec 896
  pool : BitVec 2048
  blk : BitVec 256
  scr : BitVec 2048
  deriving DecidableEq, Repr

/-- A core: its thread, privileged registers, array, tiles, copy engine and the rest of R312 to R333. -/
structure CoreSt where
  thr : Thread
  priv : Priv
  arr : SprigArray
  til : Tiles
  cpy : CopyEngine
  dirty : Dirty
  /-- Partial sums of commutative words, oldest first (R260). -/
  partials : List (Nat × Exact)
  plb : List PlbEntry
  pendWb : List WinPending
  /-- EXTERNAL source set (R373). -/
  ext : BitVec 8192
  mchecks : List MCheck
  /-- The unreported set of R319. -/
  unrep : Word
  /-- A context is resident (R371). -/
  resident : Bool
  /-- The forwarding entry left by `migrate`: replies still in flight (R333). -/
  forward : Option Nat
  /-- The message of an arriving context (R333). -/
  arrival : Option Travel
  /-- A mover has claimed the core (R332). -/
  claimed : Bool
  deriving DecidableEq, Repr

/-! ### Homes, vats, partitions, ports -/

/-- The reservation state of a line (R218, R227): its home slice (`Xl.slice`), its virtual line number, the holder, whether it holds by `lrw`,
when granted, and the queue (with whether each request is an `lrw`). -/
structure ResLine where
  home : Nat
  vline : Nat
  holder : Option AgentId
  byLrw : Bool
  granted : Nat
  queue : List (AgentId × Bool)
  deriving DecidableEq, Repr

/-- A request for a line that waits for one of a slice's 128 slots (R218). -/
structure SlotReq where
  who : AgentId
  lrw : Bool
  line : Nat
  vline : Nat
  deriving DecidableEq, Repr

/-- A waiter on a tagged word (R228); `va` is the word's virtual address. -/
structure TagWaiter where
  who : AgentId
  va : Nat
  take : Bool
  dest : BitVec 5
  value : Word
  deriving DecidableEq, Repr

/-- The waiters of a tagged word. -/
structure TagQueues where
  fullQ : List TagWaiter
  emptyQ : List TagWaiter
  deriving DecidableEq, Repr

/-- An armed monitor (R230). -/
structure Monitor where
  who : AgentId
  va : Nat
  loc : Nat
  cmp : Word
  dest : BitVec 5
  deriving DecidableEq, Repr

/-- An arrival at a barrier (R233). -/
structure Arrival where
  core : Nat
  level : Nat
  vote : Bool
  dest : BitVec 5
  deriving DecidableEq, Repr

/-- Who waits for a semaphore: an agent, or a copy command of a core (R232, R236). -/
inductive SemWho where
  | agent (a : AgentId)
  | engine (core cmd : Nat)
  deriving DecidableEq, Repr

/-- A semaphore (R59, R232). -/
structure Sem where
  count : BitVec 32
  ovf : Bool
  queue : List (SemWho × BitVec 32)
  deriving DecidableEq, Repr

/-- A press: its arbitration state (R358); the physical tile of each register of its bound cores, z register j of position c at
8 c + j and accumulator j at 4 c + j; and its rename pool, the tiles that no register has (R13, R32). -/
structure Press where
  d : Store Nat
  p : Nat
  z : Nat
  zmap : Store Nat
  cmap : Store Nat
  zfree : List Nat
  cfree : List Nat
  deriving DecidableEq, Repr

/-- A vat (R12, R312, R356, R362 to R367, R331). `next` is a point being changed to. -/
structure Vat where
  sems : Store Sem
  pressbind : BitVec 8
  wshare : BitVec 16
  press0 : Press
  press1 : Press
  opnow : Nat
  next : Option Nat
  /-- The ceiling that limits the point of the present epoch, the wear count, and `CEIL` as that count gives it, which takes effect
  at the next epoch (R365). -/
  ceil : Nat
  wear : Nat
  ceilNext : Nat
  stopped : Bool
  deriving DecidableEq, Repr

/-- A partition's table roots (R339) and restart entry (R392). -/
structure Part where
  ptroot : Word
  protroot : Word
  descbase : Word
  restart : Option Word
  deriving DecidableEq, Repr

/-- A host port (R376). -/
structure Port where
  ctl : Word
  link : BitVec 2
  fault : Word
  fsrc : Word
  /-- A device behind the port holds translations (R378). -/
  ats : Bool
  /-- An invalidation sent to the port's devices is not acknowledged (R346). -/
  inval : Bool
  deriving DecidableEq, Repr

/-- What memory itself holds for a line that a cache holds dirty: its 64 bytes and 8 full bits (R147, R247); `va` is the lowest
virtual address written since, which machine checks and POOL_LOST report (R330, R383). -/
structure Behind where
  data : BitVec 512
  full : BitVec 8
  va : Nat
  deriving DecidableEq, Repr

/-- The states of a pool region (R382). -/
inductive PoolSt where
  | online | failover | lost
  deriving DecidableEq, Repr

/-- A write of a pool line that its home has sent and the device has not completed (R283, R383): its number, its line, and what the
device held before it. -/
structure Flight where
  id : Nat
  line : Nat
  was : Behind
  deriving DecidableEq, Repr

/-- An agent's release at pool scope that waits for the device (R283), or its `cache.clean` or `cache.flush` of the pool line at `line`
(R147). -/
structure PoolFence where
  who : AgentId
  wait : PoolWait
  line : Option Word
  deriving DecidableEq, Repr

/-- A request that is parked: its agent, the line that holds the in-transit leaf (R348) or that of the pool region in failover which it
names (R382), and its address. -/
structure Park where
  who : AgentId
  line : Nat
  va : Word
  deriving DecidableEq, Repr

/-- A pool region (R380 to R384): the two words of its entry, its state, whether ALTPORT serves it, the counted losses, the
stranded lines (by line number: data, die, lifted) and the writes in flight to its device, in order. -/
structure Region where
  w0 : Word
  w1 : Word
  st : PoolSt
  onAlt : Bool
  lostcnt : Nat
  first : Nat
  stranded : Store (BitVec 512 × Nat × Bool)
  inFlight : List Flight
  deriving DecidableEq, Repr

/-- An uncorrectable error in a 32-byte granule (R252): the bytes and full bits written since it arose. -/
structure Ue where
  bytes : BitVec 32
  fulls : BitVec 4
  deriving DecidableEq, Repr

/-- An entry of a die's translation cache (R344): partition, page, the leaf and the four words of its attribute record. -/
structure TcEntry where
  die : Nat
  part : Nat
  vbase : Nat
  size : Nat
  leaf : Word
  attr : Word
  crbase : Word
  crlimit : Word
  shbase : Word
  /-- The lines of the tables it was read from, of which the die is a sharer (R344, R345). -/
  lines : List Nat
  deriving DecidableEq, Repr

/-- A firmware slot (R389, R390). -/
structure FwSlot where
  version : Nat
  secVersion : Nat
  valid : Bool
  deriving DecidableEq, Repr

/-- What SUMMARY returns (R389). -/
structure Summary where
  feature : BitVec 128
  slot0 : FwSlot
  slot1 : FwSlot
  active : Nat
  watchdogLeft : Option Nat
  rollback : Bool
  budget : Nat
  vatPart : Store Nat
  granPart : Store Nat
  portPart : Store Nat
  /-- CEIL and wear count of each vat. -/
  wear : List (Nat × Nat)
  kerranUp : BitVec 12
  hostLinks : List (BitVec 2)
  /-- Number, state code, LOSTCNT, FIRST and STRANDED of each valid pool region. -/
  regions : List (Nat × Nat × Nat × Nat × Nat)
  logLength : Nat
  lastTag : BitVec 32
  deriving DecidableEq, Repr

/-- The payload of a response, by content: bytes (free values where the manual gives none), SUMMARY, or log entries. -/
inductive Payload where
  | bytes (l : List Byte)
  | summary (s : Summary)
  | log (l : List Word)
  deriving DecidableEq, Repr

/-- A response of Caltik (R387): the core that wrote the request (R373), the header, which says the command, the status, the payload
length and the tag, and the payload. -/
structure Response where
  core : Nat
  command : BitVec 8
  status : BitVec 8
  length : BitVec 16
  tag : BitVec 32
  payload : Payload
  deriving DecidableEq, Repr

/-- The firmware image in a slot, by offset, and whether its signature verifies (R390). -/
structure FwImage where
  bytes : Store Byte
  signed : Bool
  deriving DecidableEq, Repr

/-- What the measurements cover (R391): both firmware slots, the boot image of each partition, the partition map, the accepted feature
word. -/
structure Measured where
  slots : List (FwSlot × FwImage)
  boots : List (List Byte)
  vatPart : Store Nat
  granPart : Store Nat
  portPart : Store Nat
  feature : BitVec 128
  deriving DecidableEq, Repr

/-- What a host port last answered (R377, R378): the model's record of what leaves the package (log 1). -/
inductive Answer where
  | unsupported
  | data (l : List Byte)
  | done
  | translation (va : Word) (r w : Bool)
  | page (ok : Bool)
  deriving DecidableEq, Repr

/-- A request of a device behind a host port (R377, R378). -/
inductive PortReq where
  | read (va : Word) (len : Nat)
  | write (va : Word) (bytes : List Byte)
  | fetchadd (va : Word) (size : Nat) (v : Word)
  | swap (va : Word) (size : Nat) (v : Word)
  | cas (va : Word) (size : Nat) (expected new : Word)
  | translation (va : Word)
  | page (va : Word)
  deriving DecidableEq, Repr

/-- An inbound request that waits, by number: its port, its requester and what it asks (R282, R360). -/
structure Inbound where
  id : Nat
  port : Nat
  rid : BitVec 16
  req : PortReq
  deriving DecidableEq, Repr

/-- Caltik (R387 to R392). `busy` holds the response being formed, `requester` the core that last wrote to the mailbox. `watchdog` is the
time at which the watchdog ends. -/
structure Caltik where
  feature : BitVec 128
  negotiated : Bool
  slot0 : FwSlot
  slot1 : FwSlot
  active : Nat
  minSec : Nat
  image0 : FwImage
  image1 : FwImage
  /-- The boot image of each partition at the last start-up (R391, R393). -/
  boots : List (List Byte)
  watchdog : Option Nat
  confirmed : Bool
  rollback : Bool
  log : List Word
  lastTag : BitVec 32
  busy : Option Response
  response : Option Response
  requester : Nat
  deriving DecidableEq, Repr

/-! ### The whole -/

/-- One entry of the schedule: what moves next (log 1). -/
inductive Slot where
  /-- An agent takes its next step. -/
  | agent (a : AgentId)
  /-- An event of the opcode table happens. -/
  | event (i : Instr)
  /-- Time passes. -/
  | pass (ns : Nat)
  /-- A cache evicts a line: a dirty copy is written to memory (R247; log 14). -/
  | evict (line : Nat)
  /-- A core merges its oldest partial sum (R260). -/
  | mergeCred (core : Nat)
  /-- A core's protection lookaside buffer fills for an address in a domain (R338; log 9). -/
  | plbFill (core : Nat) (dom : BitVec 14) (va : Word)
  /-- A die's translation cache fills for an address (R344; log 9). -/
  | tcFill (die part : Nat) (va : Word)
  /-- The thread of a core performs a read before those that precede it in program order (R270; log 7). -/
  | readAhead (core : Nat) (w : MemW) (m : MemOp)
  /-- The read of a load of a core's thread, that of a register, is performed only now (R270; log 7). -/
  | readLate (core : Nat) (d : BitVec 5)
  /-- A host port presents again an inbound request that waits, by number (R282, R360). -/
  | present (id : Nat)
  deriving DecidableEq, Repr

/-- The package. -/
structure State where
  cores : Store CoreSt
  vats : Store Vat
  parts : Store Part
  mem : List Host.Cell
  /-- Full bits of tagged words, by address / 8 (R228). -/
  fullBits : Store Bool
  ue : Store Ue
  behind : Store Behind
  exact : Store Exact
  /-- The words whose exact record stands in a slice's store, the most recently used first; the record of any other word stands
  in its shadow (R260). -/
  records : Store (List Nat)
  res : Store ResLine
  /-- Requests for a line that wait for one of a slice's 128 slots, by slice (R218). -/
  sliceQ : Store (List SlotReq)
  tagQ : Store TagQueues
  monitors : List Monitor
  arrivals : List Arrival
  /-- Releases at pool scope, and cleans of pool lines, that wait for the device (R147, R283), and the number of the next write to a pool
  device. -/
  poolFences : List PoolFence
  flights : Nat
  /-- Requests that wait on an in-transit leaf (R348), or for a pool region in failover (R382). -/
  parks : List Park
  tc : List TcEntry
  time : Nat
  /-- Crossings of 125 ns charged (R370), and power epochs done (R361). -/
  statics : Nat
  epochs : Nat
  pkg : Nat
  /-- Packages of the system image, and those that became unreachable (R374, R375). -/
  present : List Nat
  unreachable : List Nat
  kerranUp : BitVec 12
  /-- Accesses wait while a route moves (R375). -/
  rerouting : Bool
  budget : Nat
  vatPart : Store Nat
  granPart : Store Nat
  portPart : Store Nat
  ports : Store Port
  /-- Inbound requests that wait, in order of arrival (R282, R360). -/
  inbound : List Inbound
  pool : Store Region
  caltik : Caltik
  /-- The package is held in reset for want of a valid slot (R390). -/
  heldInReset : Bool
  /-- The last completion that a host port sent (the model's own; log 1). -/
  answer : Option Answer
  /-- Plan of the run: what moves next, when empty the thread of core 0 (the model's own; log 1). -/
  sched : List Slot
  /-- The agent of the present step (the model's own; log 1). -/
  cur : AgentId
  /-- Counter of free values (the model's own; log 12). -/
  fresh : Nat
  deriving DecidableEq, Repr

/-! ### Reset -/

/-- Nothing pending at an agent. -/
def Agent.reset : Agent := ⟨none, [], [], [], [], none, none, false⟩

/-- A thread at reset (R45, R56); off until released (log 2). -/
def Thread.reset : Thread := ⟨[], 0, 1, 0, 0, 0, 0, 0, 0, false, .off, Agent.reset⟩

/-- A sprig at reset (R45, R49, R50, R51). -/
def Sprig.reset : Sprig := ⟨[], [], .idle, 0, [], 0, 0, 0, 1, 0, 0, false, [], 0, Agent.reset⟩

/-- `STATUS` at reset (R312): PL 01, all else 0. -/
def Status.reset : Status := ⟨.kernel, false, false, false, 0, false, false, false, false, false, false⟩

/-- The reset column of Table 4 of chapter 17 (R369). -/
def eweightReset : Nat → BitVec 16
  | 0 => 125 | 1 => 250 | 2 => 250 | 3 => 125 | 4 => 500 | 5 => 500 | 6 => 1000 | 7 => 500 | 8 => 1000 | 9 => 2000
  | 10 => 2500 | 11 => 3000 | 12 => 4000 | 13 => 20000 | 14 => 250 | _ => 500

/-- The privileged registers at reset (R312); the release gives a core its `CORETAB.SELF` (R393). -/
def Priv.reset : Priv where
  status := Status.reset
  trapvec := 0
  trapcause := 0
  trappc := 0
  trapval := 0
  trapscratch := 0
  domain := 0
  coretab := 0
  ctximg := 0
  timecmp := 0xFFFFFFFFFFFFFFFF
  ipi := []
  ipiOvf := false
  spwin := []
  barcfg := 0
  duty := ⟨false, false, false, false, 0, 16, 16⟩
  estatic := 2000
  eweight := (List.range 16).map fun n => (n, eweightReset n)
  poolWord := 0
  poolRegion := 0
  fw := ⟨0, 0, 0, false, false, false⟩

/-- A core at reset. -/
def CoreSt.reset : CoreSt where
  thr := Thread.reset
  priv := Priv.reset
  arr := ⟨0, 0, [], [], [], [], []⟩
  til := ⟨[], [], [], [], []⟩
  cpy := ⟨[], 0, [], 0⟩
  dirty := ⟨0, 0, 0, 0, 0, 0, 0⟩
  partials := []
  plb := []
  pendWb := []
  ext := 0
  mchecks := []
  unrep := 0
  resident := false
  forward := none
  arrival := none
  claimed := false

/-- A press at reset that serves positions `c` and `c + 1` (R13, R358): they have 16 z and 8 c tiles, the pool has as many.
The deficits are 0, which R358 does not say (log 4). -/
def Press.reset (c : Nat) : Press :=
  ⟨[], c + 1, c + 1, (List.range 16).map fun k => (8 * c + k, k), (List.range 8).map fun k => (4 * c + k, k),
    (List.range 16).map (· + 16), (List.range 8).map (· + 8)⟩

/-- A vat at reset (R59, R312, R356, R358): with `PRESSBIND` 0x50, press 0 serves c0 and c1, press 1 serves c2 and c3. -/
def Vat.reset : Vat :=
  ⟨[], 0x50, 0x1111, Press.reset 0, Press.reset 2, 0, none, 10, 0, 10, false⟩

/-- A partition at reset (R339). -/
def Part.reset : Part := ⟨0, 0, 0, none⟩

/-- A host port at reset (R376). -/
def Port.reset : Port := ⟨0, 0, 0, 0, false, false⟩

/-- A pool region at reset (R380): not valid. -/
def Region.reset : Region := ⟨0, 0, .online, false, 0, 0, [], []⟩

/-- Caltik at reset (log 4, log 16): slot 0 active and valid, nothing negotiated. -/
def Caltik.reset : Caltik :=
  ⟨0, false, ⟨0, 0, true⟩, ⟨0, 0, false⟩, 0, 0, ⟨[], true⟩, ⟨[], false⟩, [], none, true, false, [], 0, none, none, 0⟩

/-- No waiter, semaphore at zero. -/
def Sem.reset : Sem := ⟨0, false, []⟩

/-- The machine right after reset: HBM zero (R252), every register at its reset value, and the cores not yet released (R393,
log 2). -/
def State.reset : State where
  cores := []
  vats := []
  parts := []
  mem := []
  fullBits := []
  ue := []
  behind := []
  exact := []
  records := []
  res := []
  sliceQ := []
  tagQ := []
  monitors := []
  arrivals := []
  poolFences := []
  flights := 0
  parks := []
  tc := []
  time := 0
  statics := 0
  epochs := 0
  pkg := 0
  present := [0]
  unreachable := []
  kerranUp := 0
  rerouting := false
  budget := 1200
  vatPart := []
  granPart := []
  portPart := []
  ports := []
  inbound := []
  pool := []
  caltik := Caltik.reset
  heldInReset := false
  answer := none
  sched := []
  cur := ⟨0, .thread⟩
  fresh := 0

end Sys2Proof.Machine
end

