-- ==== Sys2Proof/Config.lean ====
section
/-! DEFINITION. What the manual leaves to the part or does not state: free values without a body (log 12, log 16). A free
value is applied to the counter `fresh` of the state, or to the data it depends on; no proof can compute one. -/

namespace Sys2Proof.Config

/-- FREE VALUE. What a read of device space returns where the manual gives the device no contents (R372: BAR windows, the Caltik mailbox
page beyond a response): drawn from the counter (log 12). -/
opaque freeDevice : Nat → BitVec 64

/-- FREE VALUE. One byte that Caltik forms from its keys (R391, R392), by counter and position (log 16). -/
opaque freeCaltik : Nat → Nat → BitVec 8

/-- FREE VALUE. The payload of a response whose format the manual does not give (R388, R391), by counter (log 16). -/
opaque freePayload : Nat → List (BitVec 8)

/-- FREE VALUE. The bytes in which SUMMARY returns the state (R389): a function of that state (log 16). -/
opaque freeSummary : Machine.Summary → List (BitVec 8)

/-- FREE VALUE. Byte `k` of the 64 of an entry of Caltik's log (R388, R392): a function of the entry (log 16). -/
opaque freeLogByte : Word → Nat → BitVec 8

/-- FREE VALUE. The measurement of an index: a function of what the measurements cover (R391; log 16). -/
opaque freeMeasurement : Nat → Machine.Measured → List (BitVec 8)

/-- FREE VALUE. The word in which the VERSION call returns the version of the running slot (R389, R392): the manual gives it no
format, so a function of the version (log 16). -/
opaque freeVersion : Nat → BitVec 64

/-- FREE VALUE. Whether a signature or digest of an SPDM message or a staged image verifies (R390, R391): a function of the
bytes (log 16). -/
opaque freeVerifies : List (BitVec 8) → Bool

/-- FREE VALUE. For a byte at or above F of a failed copy: whether it keeps its old value (R237), by counter (log 12). -/
opaque freeKeep : Nat → Nat → Bool

/-- FREE VALUE. The OFFSET of the report of a copy command whose semaphore wait reached its bound: Table 5 of chapter 09 states
none for code 0x8B, by counter (log 12). -/
opaque freeOffset : Nat → Nat

/-- FREE VALUE. The replies that are in flight to a core when its context departs by `migrate` (R43, R333), by counter (log 12). -/
opaque freeReplies : Nat → Nat

/-- FREE VALUE. The die that holds a dirty pool line when its region is lost (R383): caches are not modelled (log 14). -/
opaque freeDie : Nat → Nat

end Sys2Proof.Config
end

