-- ==== Sys2Proof/WellFormed.lean ====
section
/-! DEFINITION. Which instructions are well formed: the forbidden field values of R71, R88 to R95 and of the opcode's own
chapter, as one decidable check. A head whose fields fail a check here is ILLEGAL detail 8 (detail 13 for a
special-register number). -/

namespace Sys2Proof

/-- Width in bits of an element's container in a v register (R48, R96). -/
def Ty.width : Ty → Nat
  | .b8 | .e4m3 | .e5m2 | .e3m2 | .e2m3 | .e2m1 | .e8m0 => 8
  | .b16 | .f16 | .bf16 => 16
  | .b32 | .f32 | .e8m10 => 32
  | .b64 | .f64 => 64

/-- Element count of a v register (R174). -/
def Ty.count (t : Ty) : Nat := 512 / t.width

/-- R92: Int means b8, b16, b32 or b64. -/
def Ty.isInt : Ty → Bool
  | .b8 | .b16 | .b32 | .b64 => true
  | .f16 | .bf16 | .f32 | .f64 | .e4m3 | .e5m2 | .e3m2 | .e2m3 | .e2m1 | .e8m10 | .e8m0 => false

/-- R92: Float means f16, bf16, f32 or f64. -/
def Ty.isFloat : Ty → Bool
  | .f16 | .bf16 | .f32 | .f64 => true
  | .b8 | .b16 | .b32 | .b64 | .e4m3 | .e5m2 | .e3m2 | .e2m3 | .e2m1 | .e8m10 | .e8m0 => false

/-- R184: the floats of `vcvt`. -/
def Ty.isCvtFloat : Ty → Bool
  | .f16 | .bf16 | .f32 | .f64 | .e8m10 | .e4m3 | .e5m2 | .e3m2 | .e2m3 | .e2m1 => true
  | .b8 | .b16 | .b32 | .b64 | .e8m0 => false

/-- The formats 0x8 to 0xC, which admit the scaled layout (R93). -/
def Ty.isNarrow : Ty → Bool
  | .e4m3 | .e5m2 | .e3m2 | .e2m3 | .e2m1 => true
  | .b8 | .b16 | .b32 | .b64 | .f16 | .bf16 | .f32 | .f64 | .e8m10 | .e8m0 => false

/-- The load set of R93. -/
def Ty.loadSet : Ty → Bool
  | .b8 | .b64 | .f16 | .bf16 | .f64 | .e4m3 | .e5m2 | .e3m2 | .e2m3 | .e2m1 | .e8m10 => true
  | .b16 | .b32 | .f32 | .e8m0 => false

/-- The dense set of R93. -/
def Ty.denseSet : Ty → Bool
  | .b8 | .f16 | .bf16 | .f64 | .e4m3 | .e5m2 | .e3m2 | .e2m3 | .e2m1 | .e8m10 => true
  | .b16 | .b32 | .b64 | .f32 | .e8m0 => false

/-- The sparse set of R93: the dense set without 0x7 and 0xD. -/
def Ty.sparseSet : Ty → Bool
  | .b8 | .f16 | .bf16 | .e4m3 | .e5m2 | .e3m2 | .e2m3 | .e2m1 => true
  | .b16 | .b32 | .b64 | .f32 | .f64 | .e8m10 | .e8m0 => false

/-- b64 or f64, the types of accumulator rows and of `tldc`, `tstc` (R92, R93). -/
def Ty.isDouble : Ty → Bool
  | .b64 | .f64 => true
  | .b8 | .b16 | .b32 | .f16 | .bf16 | .f32 | .e4m3 | .e5m2 | .e3m2 | .e2m3 | .e2m1 | .e8m10 | .e8m0 => false

/-- R92: an integer type takes A 0 where a float type takes a rounding code. -/
def roundOk (et : Ty) (r : Rnd) : Bool := et.isFloat || (et.isInt && r == .dyn)

/-- R91: the delta in VC is 1 to 7 or -7 to -1. -/
def deltaOk (d : BitVec 6) : Bool := (1 ≤ d.toNat && d.toNat ≤ 7) || 57 ≤ d.toNat

/-- R68, R71: SLOT 28 to 31 is forbidden. -/
def slotOk (s : BitVec 5) : Bool := s.toNat < 28

/-- R187: `.and`, `.or`, `.xor` take an integer type; `.u` goes with an integer `.min` or `.max` only. -/
def redOk (et : Ty) (op : RedOp) (u : Bool) : Bool :=
  match op with
  | .add => (et.isInt || et.isFloat) && !u
  | .min | .max => et.isInt || (et.isFloat && !u)
  | .and | .or | .xor => et.isInt && !u

/-- The rows of Table 6 of chapter 07 (R184). -/
def vcvtOk (dst src : Ty) (r : Rnd) (sat u : Bool) : Bool :=
  if src.isCvtFloat && dst.isCvtFloat then !u
  else if src.isCvtFloat && dst == .e8m0 then r == .dyn && !u
  else if src == .e8m0 && dst.isCvtFloat then !u
  else if src == .e8m0 && dst.isInt then true
  else if src.isInt && dst == .e8m0 then r == .dyn
  else if src == .e8m0 && dst == .e8m0 then r == .dyn && !sat && !u
  else if src.isInt && dst.isInt then r == .dyn
  else true

/-- Destination types of `vcvts` (R185). -/
def vcvtsDst : Ty → Bool
  | .f16 | .bf16 | .e4m3 | .e5m2 | .e3m2 | .e2m3 | .e2m1 => true
  | .b8 | .b16 | .b32 | .b64 | .f32 | .f64 | .e8m10 | .e8m0 => false

/-- Source types of `vcvts` (R185). -/
def vcvtsSrc : Ty → Bool
  | .f16 | .bf16 | .f32 | .f64 | .e8m10 => true
  | .b8 | .b16 | .b32 | .b64 | .e4m3 | .e5m2 | .e3m2 | .e2m3 | .e2m1 | .e8m0 => false

/-- The field rules of `tcvt` (R204, Table 3 of chapter 08). -/
def tcvtOk (fmt : Ty) (r : Rnd) (sat u : Bool) : Bool :=
  fmt.loadSet &&
  match fmt with
  | .b8 => r == .dyn
  | .b64 => r == .dyn && !sat && !u
  | _ => !u

/-- R133: a set `.sat` to a float goes with binary16 and bf16 only. -/
def fcvtOk : FCvt → Bool
  | .toFloat p sat _ => !sat || p == .f16 || p == .bf16
  | .toInt _ _ _ => true

/-- The privileged register numbers of R311. -/
def privNumOk (n : Nat) : Bool :=
  (0x100 ≤ n && n ≤ 0x113) || (0x118 ≤ n && n ≤ 0x11F) || (0x120 ≤ n && n ≤ 0x12F) || (0x130 ≤ n && n ≤ 0x137)

/-- The privileged registers whose write is a row of its own in the opcode table. -/
def privOwnWrite (n : Nat) : Bool :=
  n == 0x106 || n == 0x107 || n == 0x108 || n == 0x109 || n == 0x10C || n == 0x10D || n == 0x10E || n == 0x110 ||
  n == 0x111 || n == 0x113 || (0x118 ≤ n && n ≤ 0x11F)

/-- R83: the assigned OP values. -/
def opAssigned (op : Nat) : Bool :=
  (0x01 ≤ op && op ≤ 0x2A) || (0x30 ≤ op && op ≤ 0x54) || (0x58 ≤ op && op ≤ 0x62) || (0x70 ≤ op && op ≤ 0x9C) ||
  (0xA0 ≤ op && op ≤ 0xAA) || (0xB0 ≤ op && op ≤ 0xB4) || (0xC0 ≤ op && op ≤ 0xC8)

/-- A core of the package (R2). -/
def coreOk (q : Nat) : Bool := q < 256

/-- A vat of the package (R2). -/
def vatOk (v : Nat) : Bool := v < 64

/-- An agent of the package: a core, and a sprig number below 64 (R10). -/
def agentOk (a : AgentId) : Bool :=
  coreOk a.core && match a.who with
    | .thread => true
    | .sprig i => i < 64

/-- A host port (R376). -/
def portOk (p : Nat) : Bool := p < 4

/-- The partition to which a map gives a granule of HBM; one that it does not name stays with partition 0 (R385, log 5). -/
def Startup.granuleOwner (b : Startup) (g : Nat) : Nat := (b.parts.findIdx? fun x => x.granules.contains g).getD 0

/-- The bytes from a location lie in HBM of the package that partition `p` has (R385, R393). Of a partition that spans several packages only
the HBM of the modelled one counts: the model's choice (log 2). -/
def Startup.inPart (b : Startup) (p lo n : Nat) : Bool :=
  b.pkg * 2 ^ 40 ≤ lo && lo + n ≤ b.pkg * 2 ^ 40 + 2 ^ 39 &&
    (List.range ((lo + n - 1) / 2 ^ 30 - lo / 2 ^ 30 + 1)).all fun k => b.granuleOwner (lo / 2 ^ 30 + k) == p

/-- The first address of an image, its pages of 2 MiB, and the bytes of its table: five nodes and one for each GiB that it reaches. -/
def PartBoot.first (x : PartBoot) : Nat := x.va.toNat % 2 ^ 56

def PartBoot.pages (x : PartBoot) : Nat := (x.first % 2 ^ 21 + x.image.length + 2 ^ 21 - 1) / 2 ^ 21

def PartBoot.tableBytes (x : PartBoot) : Nat :=
  0x1000 * (5 + ((x.first / 2 ^ 21 + x.pages - 1) / 2 ^ 9 - x.first / 2 ^ 30 + 1))

/-- The page table stands on a page of its own, apart from the frames of the image (R340, R393). -/
def PartBoot.apart (x : PartBoot) : Bool :=
  let frame := x.imageAt / 2 ^ 21 * 2 ^ 21
  x.tableAt % 4096 == 0 && (x.tableAt + x.tableBytes ≤ frame || frame + x.pages * 2 ^ 21 ≤ x.tableAt)

/-- The image and the table of each partition stand in HBM of that partition, apart (R393). -/
def Startup.placed (b : Startup) : Bool :=
  (List.range b.parts.length).all fun p => match b.parts[p]? with
    | some x => b.inPart p (x.imageAt / 2 ^ 21 * 2 ^ 21) (x.pages * 2 ^ 21) && b.inPart p x.tableAt x.tableBytes && x.apart
    | none => true

/-- The number of a package and the packages of its image are below 8, and it is one of them (R374); what Caltik places for a partition it
places in that partition's HBM (R393). -/
def Startup.ok (b : Startup) : Bool := b.pkg < 8 && b.present.contains b.pkg && (b.present.all fun p => p < 8) && b.placed

/-- A pool region number (R246). -/
def regionOk (r : Nat) : Bool := r < 1024

/-- The sizes of inbound atomics the machine performs or fails (R377). -/
def atomicSizeOk (n : Nat) : Bool := n == 4 || n == 8 || n == 16

/-- Well-formedness of every row. For an instruction: no forbidden field value. For an event: its numbers name units the
package has. -/
def Instr.wellFormed : Instr → Bool
  | .add _ _ _ | .sub _ _ _ | .and _ _ _ | .or _ _ _ | .xor _ _ _ | .shl _ _ _ | .shr _ _ _ | .sra _ _ _ | .mul _ _ _ => true
  | .mulh _ _ _ _ | .div _ _ _ _ | .rem _ _ _ _ | .min _ _ _ _ | .max _ _ _ _ | .slt _ _ _ _ | .cmov _ _ _ => true
  | .clz _ _ | .ctz _ _ | .popc _ _ | .sext _ _ _ | .zext _ _ _ | .addsh _ _ _ _ => true
  | .addi _ _ _ | .andi _ _ _ | .ori _ _ _ | .xori _ _ _ | .shli _ _ _ | .shri _ _ _ | .srai _ _ _ => true
  | .liTail2 _ _ | .liTail4 _ _ | .liTail8 _ _ | .addpcLine _ _ | .addpcByte _ _ => true
  | .fadd _ _ _ _ _ | .fsub _ _ _ _ _ | .fmul _ _ _ _ _ | .fdiv _ _ _ _ _ | .fsqrt _ _ _ _ | .fma _ _ _ _ _ => true
  | .fmin _ _ _ _ | .fmax _ _ _ _ | .fcmp _ _ _ _ _ | .fclass _ _ _ => true
  | .fcvt k _ _ _ => fcvtOk k
  | .jmp _ slot => slotOk slot
  | .call d _ slot => d != 0 && slotOk slot
  | .jmpr _ => true
  | .callr d _ => d != 0
  | .br _ _ _ slot _ _ => slotOk slot
  | .brz _ _ _ slot _ => slotOk slot
  | .callx d _ => d != 0
  | .nop | .svc _ | .brk _ | .idle | .time _ => true
  | .ld _ _ _ | .st _ _ _ | .pref _ _ | .cache _ _ | .fence _ _ => true
  | .rdsr _ n => n.toNat ≤ 0x00A
  | .wrsr _ n => n.toNat ≤ 0x00A
  | .migrate _ => true
  | .lrw _ _ | .sch _ _ _ | .relq _ | .amo _ _ _ _ | .cas _ _ _ | .mcas _ _ _ _ => true
  | .takew _ _ | .peekw _ _ | .putw _ _ | .fillw _ _ | .emptyw _ | .waitne _ _ _ | .cred _ _ _ => true
  | .semp _ _ _ _ | .semv _ _ _ _ | .semrd _ _ _ _ | .bar _ _ _ _ _ => true
  | .holdLimit a | .waitWithdrawal a => agentOk a
  | .idleEnd q => coreOk q
  | .sconf _ _ | .sbcast _ _ _ | .swait _ _ => true
  | .sget _ _ sel => sel.toNat ≤ 34
  | .sput _ _ _ | .skill _ => true
  | .skillSprigStop q i => coreOk q && i < 64
  | .bfetch _ | .stop => true
  | .lsend _ _ d | .lrecv _ _ d => deltaOk d
  | .sid _ => true
  | .vadd h r _ _ _ | .vsub h r _ _ _ | .vmul h r _ _ _ => roundOk h.et r
  | .vfma h _ _ _ _ _ => h.et.isFloat
  | .vdiv h _ _ _ _ => h.et.isFloat
  | .vmin h u _ _ _ | .vmax h u _ _ _ => h.et.isInt || (h.et.isFloat && !u)
  | .vand h _ _ _ | .vor h _ _ _ | .vxor h _ _ _ => h.et.isInt
  | .vshlVec h _ _ _ | .vshrVec h _ _ _ | .vsraVec h _ _ _ => h.et.isInt
  | .vshlImm h _ _ _ | .vshrImm h _ _ _ | .vsraImm h _ _ _ => h.et.isInt
  | .vcmp h q u _ _ _ => (h.et.isInt && q != .un) || (h.et.isFloat && !u)
  | .vsel _ _ _ _ _ => true
  | .vneg h _ _ _ => h.et.isInt || h.et.isFloat
  | .vsqrt h _ _ _ => h.et.isFloat
  | .vrcp h _ _ | .vrsq h _ _ | .vexp2 h _ _ | .vlog2 h _ _ => h.et == .f16 || h.et == .bf16 || h.et == .f32
  | .vcvt h src r sat u _ _ => vcvtOk h.et src r sat u
  | .vcvts h src _ _ _ _ => vcvtsDst h.et && vcvtsSrc src
  | .vrng h _ _ => h.et == .b32
  | .vperm h m _ _ _ => h.et.isInt && (m == .index || h.et == .b8)
  | .valign h _ _ _ _ => h.et == .b8
  | .vbcast _ fromV _ va => fromV || va.toNat < 32
  | .vextr et idx _ _ | .vins et idx _ _ => idx.toNat < et.count
  | .vred et _ op u _ _ => redOk et op u
  | .vscan h op u _ _ => redOk h.et op u
  | .vld _ _ _ _ | .vst _ _ _ _ _ => true
  | .vgath h _ _ _ _ => h.et.isInt || h.et.isFloat
  | .vscat et _ _ _ _ _ => et.isInt || et.isFloat
  | .vaddsat h _ _ _ _ _ | .vmulhi h _ _ _ _ | .vbitc h _ _ _ => h.et.isInt
  | .vdot h u _ _ _ => h.et == .b8 || h.et == .b16 || ((h.et == .f16 || h.et == .bf16) && !u)
  | .viota h _ => h.et.isInt
  | .kop op _ _ kb => op != .not || kb == 0
  | .kmov _ _ _ | .ktest _ _ _ => true
  | .crd et _ vd _ _ | .cwr et _ vd _ _ => et.isDouble && vd.toNat % 4 == 0
  | .lanePick q l => coreOk q && l < 8
  | .tld scaled fmt _ _ _ _ => fmt.loadSet && (!scaled || fmt.isNarrow)
  | .tldc fmt _ _ _ _ | .tstc fmt _ _ _ _ => fmt.isDouble
  | .tst fmt _ _ _ _ => fmt.loadSet
  | .tzero _ => true
  | .tmma fmt ua ub _ _ _ => fmt.denseSet && (fmt == .b8 || (!ua && !ub))
  | .tmmas scaled fmt ua ub _ _ _ _ => fmt.sparseSet && (!scaled || fmt.isNarrow) && (fmt == .b8 || (!ua && !ub))
  | .tmmax fmt _ _ _ => fmt.isNarrow
  | .tcvt fmt r sat u _ _ => tcvtOk fmt r sat u
  | .ttrans fmt _ _ => fmt.loadSet && fmt != .e2m1
  | .tsync => true
  | .pressPick v p => vatOk v && p < 2
  | .tileCommandComplete q => coreOk q
  | .tileStoreLineWrite q _ => coreOk q
  | .storeBufferWrite a _ => agentOk a
  | .bcopy _ | .bcopyt _ _ _ | .bfill _ | .bloadb _ => true
  | .bcopyc lines _ => lines != 0
  | .copyStart q | .copyLineMove q _ _ | .copyComplete q _ | .copyWaitLimit q _ => coreOk q
  | .tret => true
  | .rdpr _ n => privNumOk n.toNat
  | .wrpr _ n => privNumOk n.toNat && !privOwnWrite n.toNat
  | .plbinvOne _ _ | .plbinvDom _ | .plbinvAll | .xlinvPage _ | .xlinvAll => true
  | .ctxsave b | .ctxload b => 24 ≤ b.toNat
  | .descw _ _ | .ipi _ _ => true
  | .trapEntry q | .timer q => coreOk q
  | .sholdSet _ | .sholdRelease _ | .domainWrite _ | .spwinWrite _ _ => true
  | .windowLineWriteback q seg line => coreOk q && seg < 8 && line < 1024
  | .pressbindWrite _ | .ipipendWrite _ | .timecmpWrite _ | .barcfgWrite _ | .ptrootWrite _ | .protrootWrite _ => true
  | .descbaseWrite _ | .wshareWrite _ | .fdutyWrite _ | .recover _ => true
  | .migrateArrival q | .replyRedirect q => coreOk q
  | .parkedRequestResume a => agentOk a
  | .powerEpoch m => m.dieOwn.length == 4 && m.vatOwn.length == 64 && m.coreEnergy.length == 256
  | .operatingPointChange v => vatOk v
  | .staticCharge => true
  | .vatClockStop v | .vatClockRestart v | .retentionExit v _ => vatOk v
  | .dirtyUe q _ _ => coreOk q
  | .tileUe q _ _ => coreOk q
  | .doorbell q _ => coreOk q
  | .hostLinkChange p _ _ | .hpctlWrite p _ => portOk p
  | .inboundRead p _ _ len => portOk p && 0 < len && len ≤ 4096
  | .inboundWrite p _ _ bytes => portOk p && 0 < bytes.length && bytes.length ≤ 4096
  | .fetchadd p _ _ size _ | .swap p _ _ size _ => portOk p && (size == 4 || size == 8)
  | .inboundCas p _ _ size _ _ => portOk p && atomicSizeOk size
  | .atsTranslationRequest p _ _ | .pageRequest p _ _ => portOk p
  | .kerranLinkChange n _ _ => n < 12
  | .kerranRerouteDone => true
  | .poolLinkLost r | .poolCompletionTimeout r | .failoverComplete r | .poolLinkRestored r | .poolWriteCompletion r _ => regionOk r
  | .backInvalidate _ => true
  | .negotiate _ _ | .summary _ | .setLimit _ _ | .partition _ _ | .fwStage _ _ _ _ _ _ | .fwConfirm _ => true
  | .fwActivate _ _ b | .fwWatchdogExpiry b | .packageReset b => b.ok
  | .spdm _ _ | .getVersion _ | .getCapabilities _ | .negotiateAlgorithms _ _ | .getDigests _ => true
  | .getCertificate _ _ _ | .challenge _ _ | .getMeasurements _ _ | .keyExchange _ _ | .finish _ _ | .logRead _ _ => true
  | .mailboxResponseReady | .fwCallVersion | .sign | .fwCallSetLimit | .setRestart | .fwCallLogRead => true
  | .coreRestart q => coreOk q
  | .unassignedOpcode head => !opAssigned (head.toNat / 256)
  | .uncorrectableError t => match t with
    | .granule g => g < 2 ^ 47
    | .blockLine q l => coreOk q && l < 1024
  | .deviceInvalidationAck p => portOk p

/-- The rows that are steps of the machine other than the execution of a decoded head: what `sched` may name. -/
def Instr.isEvent : Instr → Bool
  | .holdLimit _ | .waitWithdrawal _ | .idleEnd _ | .skillSprigStop _ _ | .lanePick _ _ | .pressPick _ _
  | .tileCommandComplete _ | .tileStoreLineWrite _ _ | .storeBufferWrite _ _ | .copyStart _ | .copyLineMove _ _ _
  | .copyComplete _ _ | .copyWaitLimit _ _ | .trapEntry _ | .timer _ | .windowLineWriteback _ _ _ | .migrateArrival _
  | .replyRedirect _ | .parkedRequestResume _ | .powerEpoch _ | .operatingPointChange _ | .staticCharge | .vatClockStop _
  | .vatClockRestart _ | .retentionExit _ _ | .dirtyUe _ _ _ | .tileUe _ _ _ | .doorbell _ _ | .hostLinkChange _ _ _
  | .hpctlWrite _ _ | .inboundRead _ _ _ _ | .inboundWrite _ _ _ _ | .fetchadd _ _ _ _ _ | .swap _ _ _ _ _
  | .inboundCas _ _ _ _ _ _ | .atsTranslationRequest _ _ _ | .pageRequest _ _ _ | .kerranLinkChange _ _ _ | .kerranRerouteDone
  | .poolLinkLost _ | .poolCompletionTimeout _ | .failoverComplete _ | .poolLinkRestored _ | .poolWriteCompletion _ _
  | .backInvalidate _ | .negotiate _ _ | .summary _ | .setLimit _ _ | .partition _ _ | .fwStage _ _ _ _ _ _ | .fwActivate _ _ _
  | .fwConfirm _ | .fwWatchdogExpiry _ | .spdm _ _ | .getVersion _ | .getCapabilities _ | .negotiateAlgorithms _ _ | .getDigests _
  | .getCertificate _ _ _ | .challenge _ _ | .getMeasurements _ _ | .keyExchange _ _ | .finish _ _ | .logRead _ _
  | .mailboxResponseReady | .packageReset _ | .coreRestart _ | .uncorrectableError _ | .deviceInvalidationAck _ => true
  | _ => false

/-- The rows a decoded `wrpr` or `svc` becomes by the value it writes or the privilege it runs at (R310, R323, R382): they
have no head of their own. -/
def Instr.isResolved : Instr → Bool
  | .sholdSet _ | .sholdRelease _ | .recover _ | .fwCallVersion | .sign | .fwCallSetLimit | .setRestart | .fwCallLogRead => true
  | _ => false

/-- The rows that a head and tail of a line encode. -/
def Instr.encodable (i : Instr) : Bool := !i.isEvent && !i.isResolved

end Sys2Proof
end

