-- ==== Sys2Proof/Decode.lean ====
section
/-! DEFINITION. Lines, heads and tails (R62 to R72), the decoder written from the opcode map (R83 to R96), and the
encoder from the same tables. The decoder is total: a head that is no instruction is refused by the detail of R64; a head
with an unassigned OP is the row `unassignedOpcode` (R84). -/

namespace Sys2Proof

/-! ### Fields -/

/-- Bits [lo+w-1 : lo] of a tail value (R62: "bit n" of a tail is bit n of its little-endian value). -/
def fld (t lo w : Nat) : BitVec w := BitVec.ofNat w (t / 2 ^ lo)

/-- The Bool of a one-bit field. -/
def bit1 (b : BitVec 1) : Bool := b == 1#1

/-- The one-bit field of a Bool. -/
def ofBit1 (b : Bool) : BitVec 1 := if b then 1#1 else 0#1

def RR.ofTail (t : Nat) : RR := ⟨fld t 10 6, fld t 5 5, fld t 0 5⟩
def RR.toTail (f : RR) : Nat := f.fn.toNat * 2 ^ 10 + f.c.toNat * 2 ^ 5 + f.b.toNat

def RI.ofTail (t : Nat) : RI := ⟨fld t 16 16, fld t 11 5, fld t 5 6, fld t 0 5⟩
def RI.toTail (f : RI) : Nat := f.imm.toNat * 2 ^ 16 + f.z.toNat * 2 ^ 11 + f.fn.toNat * 2 ^ 5 + f.b.toNat

def MemT.ofTail (t : Nat) : MemT := ⟨fld t 15 17, fld t 12 3, fld t 10 2, fld t 5 5, fld t 0 5⟩
def MemT.toTail (f : MemT) : Nat :=
  f.disp.toNat * 2 ^ 15 + f.w.toNat * 2 ^ 12 + f.sc.toNat * 2 ^ 10 + f.x.toNat * 2 ^ 5 + f.b.toNat

def JmpT.ofTail (t : Nat) : JmpT := ⟨fld t 5 27, fld t 0 5⟩
def JmpT.toTail (f : JmpT) : Nat := f.loff.toNat * 2 ^ 5 + f.slot.toNat

def BrT.ofTail (t : Nat) : BrT := ⟨fld t 16 32, fld t 15 1, fld t 10 5, fld t 5 5, fld t 0 5⟩
def BrT.toTail (f : BrT) : Nat :=
  f.loff.toNat * 2 ^ 16 + f.hint.toNat * 2 ^ 15 + f.slot.toNat * 2 ^ 10 + f.c.toNat * 2 ^ 5 + f.b.toNat

def BrzT.ofTail (t : Nat) : BrzT := ⟨fld t 11 21, fld t 10 1, fld t 5 5, fld t 0 5⟩
def BrzT.toTail (f : BrzT) : Nat := f.loff.toNat * 2 ^ 11 + f.hint.toNat * 2 ^ 10 + f.slot.toNat * 2 ^ 5 + f.b.toNat

def VecT.ofTail (t : Nat) : VecT :=
  ⟨fld t 32 16, fld t 26 6, fld t 22 4, fld t 21 1, fld t 18 3, fld t 12 6, fld t 6 6, fld t 0 6⟩
def VecT.toTail (f : VecT) : Nat :=
  f.imm.toNat * 2 ^ 32 + f.vc.toNat * 2 ^ 26 + f.et.toNat * 2 ^ 22 + f.zm.toNat * 2 ^ 21 + f.k.toNat * 2 ^ 18 +
    f.vb.toNat * 2 ^ 12 + f.va.toNat * 2 ^ 6 + f.vd.toNat

def TileT.ofTail (t : Nat) : TileT :=
  ⟨fld t 42 6, fld t 37 5, fld t 32 5, fld t 16 16, fld t 15 1, fld t 11 4, fld t 9 2, fld t 6 3, fld t 3 3, fld t 0 3⟩
def TileT.toTail (f : TileT) : Nat :=
  f.fn.toNat * 2 ^ 42 + f.c.toNat * 2 ^ 37 + f.b.toNat * 2 ^ 32 + f.desc.toNat * 2 ^ 16 + f.flag.toNat * 2 ^ 15 +
    f.fmt.toNat * 2 ^ 11 + f.cd.toNat * 2 ^ 9 + f.zc.toNat * 2 ^ 6 + f.zb.toNat * 2 ^ 3 + f.za.toNat

def SyncT.ofTail (t : Nat) : SyncT := ⟨fld t 18 14, fld t 13 5, fld t 10 3, fld t 5 5, fld t 0 5⟩
def SyncT.toTail (f : SyncT) : Nat :=
  f.imm.toNat * 2 ^ 18 + f.fn.toNat * 2 ^ 13 + f.scope.toNat * 2 ^ 10 + f.c.toNat * 2 ^ 5 + f.b.toNat

def CopyT.ofTail (t : Nat) : CopyT :=
  ⟨fld t 56 8, fld t 48 8, fld t 40 8, fld t 32 8, fld t 16 16, fld t 15 1, fld t 10 5, fld t 5 5, fld t 0 5⟩
def CopyT.toTail (f : CopyT) : Nat :=
  f.sinc.toNat * 2 ^ 56 + f.ssem.toNat * 2 ^ 48 + f.wthr.toNat * 2 ^ 40 + f.wsem.toNat * 2 ^ 32 + f.desc.toNat * 2 ^ 16 +
    f.z.toNat * 2 ^ 15 + f.l.toNat * 2 ^ 10 + f.c.toNat * 2 ^ 5 + f.b.toNat

def SprT.ofTail (t : Nat) : SprT := ⟨fld t 12 4, fld t 0 12⟩
def SprT.toTail (f : SprT) : Nat := f.z.toNat * 2 ^ 12 + f.n.toNat

/-! ### Code tables (R71, R88, R90, R96) -/

def Prec.code : Prec → BitVec 2
  | .f64 => 0 | .f32 => 1 | .f16 => 2 | .bf16 => 3

def Prec.ofCode (c : BitVec 2) : Prec :=
  if c == 0 then .f64 else if c == 1 then .f32 else if c == 2 then .f16 else .bf16

def Rnd.code : Rnd → BitVec 3
  | .dyn => 0 | .rne => 1 | .rtz => 2 | .rdn => 3 | .rup => 4 | .rna => 5

/-- R88: the rounding codes 110 and 111 are forbidden. -/
def Rnd.ofCode (c : BitVec 3) : Option Rnd :=
  if c == 0 then some .dyn else if c == 1 then some .rne else if c == 2 then some .rtz else if c == 3 then some .rdn
  else if c == 4 then some .rup else if c == 5 then some .rna else none

def Ty.code : Ty → BitVec 4
  | .b8 => 0 | .b16 => 1 | .b32 => 2 | .b64 => 3 | .f16 => 4 | .bf16 => 5 | .f32 => 6 | .f64 => 7 | .e4m3 => 8
  | .e5m2 => 9 | .e3m2 => 10 | .e2m3 => 11 | .e2m1 => 12 | .e8m10 => 13 | .e8m0 => 14

/-- R96: code 0xF is forbidden everywhere. -/
def Ty.ofCode (c : BitVec 4) : Option Ty :=
  if c == 0 then some .b8 else if c == 1 then some .b16 else if c == 2 then some .b32 else if c == 3 then some .b64
  else if c == 4 then some .f16 else if c == 5 then some .bf16 else if c == 6 then some .f32 else if c == 7 then some .f64
  else if c == 8 then some .e4m3 else if c == 9 then some .e5m2 else if c == 10 then some .e3m2
  else if c == 11 then some .e2m3 else if c == 12 then some .e2m1 else if c == 13 then some .e8m10
  else if c == 14 then some .e8m0 else none

def MemW.code : MemW → BitVec 3
  | .u8 => 0 | .u16 => 1 | .u32 => 2 | .u64 => 3 | .s8 => 4 | .s16 => 5 | .s32 => 6

/-- R71: W = 0b111 is forbidden. -/
def MemW.ofCode (c : BitVec 3) : Option MemW :=
  if c == 0 then some .u8 else if c == 1 then some .u16 else if c == 2 then some .u32 else if c == 3 then some .u64
  else if c == 4 then some .s8 else if c == 5 then some .s16 else if c == 6 then some .s32 else none

def StW.code : StW → BitVec 3
  | .b1 => 0 | .b2 => 1 | .b4 => 2 | .b8 => 3

/-- R145: a `st` with W 100 to 110 is detail 8. -/
def StW.ofCode (c : BitVec 3) : Option StW :=
  if c == 0 then some .b1 else if c == 1 then some .b2 else if c == 2 then some .b4 else if c == 3 then some .b8 else none

def Scope.code : Scope → BitVec 3
  | .die => 0 | .pkg => 1 | .sys => 2 | .pool => 3

/-- R71: scopes 4 to 7 are forbidden. -/
def Scope.ofCode (c : BitVec 3) : Option Scope :=
  if c == 0 then some .die else if c == 1 then some .pkg else if c == 2 then some .sys else if c == 3 then some .pool else none

def Ordr.code : Ordr → BitVec 2
  | .none => 0 | .acq => 1 | .rel => 2 | .ar => 3

def Ordr.ofCode (c : BitVec 2) : Ordr :=
  if c == 0 then .none else if c == 1 then .acq else if c == 2 then .rel else .ar

def BrCond.code : BrCond → BitVec 5
  | .eq => 0 | .ne => 1 | .lt => 2 | .ge => 3 | .ltu => 4 | .geu => 5

/-- R135: an A of 6 to 31 is detail 8. -/
def BrCond.ofCode (c : BitVec 5) : Option BrCond :=
  if c == 0 then some .eq else if c == 1 then some .ne else if c == 2 then some .lt else if c == 3 then some .ge
  else if c == 4 then some .ltu else if c == 5 then some .geu else none

def BrzCond.code : BrzCond → BitVec 5
  | .eqz => 0 | .nez => 1 | .ltz => 2 | .gez => 3 | .gtz => 4 | .lez => 5

def BrzCond.ofCode (c : BitVec 5) : Option BrzCond :=
  if c == 0 then some .eqz else if c == 1 then some .nez else if c == 2 then some .ltz else if c == 3 then some .gez
  else if c == 4 then some .gtz else if c == 5 then some .lez else none

def FCmpCond.code : FCmpCond → BitVec 3
  | .eq => 0 | .lt => 1 | .le => 2 | .un => 3

/-- R132: FN[4:2] from 100 to 111 is detail 8. -/
def FCmpCond.ofCode (c : BitVec 3) : Option FCmpCond :=
  if c == 0 then some .eq else if c == 1 then some .lt else if c == 2 then some .le else if c == 3 then some .un else none

def CvtSrc.code : CvtSrc → BitVec 3
  | .float p => p.code.setWidth 3 | .s64 => 4 | .u64 => 5

/-- R133: a source code of 6 or 7 is detail 8. -/
def CvtSrc.ofCode (c : BitVec 3) : Option CvtSrc :=
  if c == 0 then some (.float .f64) else if c == 1 then some (.float .f32) else if c == 2 then some (.float .f16)
  else if c == 3 then some (.float .bf16) else if c == 4 then some .s64 else if c == 5 then some .u64 else none

def CacheOp.code : CacheOp → BitVec 5
  | .clean => 0 | .flush => 1 | .inval => 2 | .drop => 3 | .lift => 4

/-- R147: an A of 5 to 31 is detail 8. -/
def CacheOp.ofCode (c : BitVec 5) : Option CacheOp :=
  if c == 0 then some .clean else if c == 1 then some .flush else if c == 2 then some .inval
  else if c == 3 then some .drop else if c == 4 then some .lift else none

def FenceKind.code : FenceKind → BitVec 2
  | .acq => 1 | .rel => 2 | .full => 3

/-- R148: kind 00 is detail 8. -/
def FenceKind.ofCode (c : BitVec 2) : Option FenceKind :=
  if c == 1 then some .acq else if c == 2 then some .rel else if c == 3 then some .full else none

def AmoOp.code : AmoOp → BitVec 3
  | .add => 0 | .and => 1 | .or => 2 | .swap => 3 | .min => 4 | .max => 5 | .minU => 6 | .maxU => 7

def AmoOp.ofCode (c : BitVec 3) : AmoOp :=
  if c == 0 then .add else if c == 1 then .and else if c == 2 then .or else if c == 3 then .swap
  else if c == 4 then .min else if c == 5 then .max else if c == 6 then .minU else .maxU

def CredOp.code : CredOp → BitVec 3
  | .add => 0 | .min => 1 | .max => 2

/-- R231: FN5[4:2] values 011 to 111 are detail 8. -/
def CredOp.ofCode (c : BitVec 3) : Option CredOp :=
  if c == 0 then some .add else if c == 1 then some .min else if c == 2 then some .max else none

def VCond.code : VCond → BitVec 3
  | .eq => 0 | .ne => 1 | .lt => 2 | .le => 3 | .gt => 4 | .ge => 5 | .un => 6

def VCond.ofCode (c : BitVec 3) : Option VCond :=
  if c == 0 then some .eq else if c == 1 then some .ne else if c == 2 then some .lt else if c == 3 then some .le
  else if c == 4 then some .gt else if c == 5 then some .ge else if c == 6 then some .un else none

def RedOp.code : RedOp → BitVec 3
  | .add => 0 | .min => 1 | .max => 2 | .and => 3 | .or => 4 | .xor => 5

def RedOp.ofCode (c : BitVec 3) : Option RedOp :=
  if c == 0 then some .add else if c == 1 then some .min else if c == 2 then some .max else if c == 3 then some .and
  else if c == 4 then some .or else if c == 5 then some .xor else none

def KOp.code : KOp → BitVec 5
  | .and => 0 | .or => 1 | .xor => 2 | .andn => 3 | .not => 4

def KOp.ofCode (c : BitVec 5) : Option KOp :=
  if c == 0 then some .and else if c == 1 then some .or else if c == 2 then some .xor else if c == 3 then some .andn
  else if c == 4 then some .not else none

def KTest.code : KTest → BitVec 5
  | .any => 0 | .all => 1 | .count => 2

def KTest.ofCode (c : BitVec 5) : Option KTest :=
  if c == 0 then some .any else if c == 1 then some .all else if c == 2 then some .count else none

def PermMode.code : PermMode → BitVec 5
  | .index => 0 | .lo => 1 | .hi => 2

def PermMode.ofCode (c : BitVec 5) : Option PermMode :=
  if c == 0 then some .index else if c == 1 then some .lo else if c == 2 then some .hi else none

/-! ### The checks of R64, steps 2 to 4 -/

/-- What a head and tail decode to. -/
abbrev Decoded := Except Illegal Instr

/-- Step 2: a TL that the opcode does not allow is detail 6. -/
def needTl (tl n : Nat) (k : Decoded) : Decoded := if tl = n then k else .error .badTail

/-- Step 3: a nonzero reserved field is detail 7. -/
def resv0 (ok : Bool) (k : Decoded) : Decoded := if ok then k else .error .reserved

/-- Step 4: a value without a code is detail 8. -/
def coded {α : Type} (o : Option α) (k : α → Decoded) : Decoded :=
  match o with
  | some a => k a
  | none => .error .forbidden

/-- Step 4 as a plain condition. -/
def needOk (ok : Bool) (k : Decoded) : Decoded := if ok then k else .error .forbidden

/-- Step 4: the remaining forbidden values, those of `Instr.wellFormed`. -/
def fin (i : Instr) : Decoded := if i.wellFormed then .ok i else .error .forbidden

/-- Register-register arithmetic with FN 0 (Table 3 of chapter 04). -/
def decRRR (tl : Nat) (f : RR) (i : Instr) : Decoded := needTl tl 1 <| resv0 (f.fn == 0) <| fin i

/-- Register-register arithmetic with FN 0 `.s` or 1 `.u`. -/
def decRRU (tl : Nat) (f : RR) (k : Bool → Instr) : Decoded :=
  needTl tl 1 <| needOk (f.fn == 0 || f.fn == 1) <| fin (k (f.fn == 1))

/-- Two-operand RR rows with C 0 and FN 0. -/
def decRR0 (tl : Nat) (f : RR) (i : Instr) : Decoded := needTl tl 1 <| resv0 (f.c == 0 && f.fn == 0) <| fin i

/-- RI rows with FN 0. -/
def decRI (tl : Nat) (f : RI) (i : Instr) : Decoded := needTl tl 2 <| resv0 (f.z == 0 && f.fn == 0) <| fin i

/-- RI shifts by FN, with IMM16 0. -/
def decShI (tl : Nat) (f : RI) (i : Instr) : Decoded := needTl tl 2 <| resv0 (f.z == 0 && f.imm == 0) <| fin i

/-- Scalar floating point with a rounding field and FN[5] 0 (R88). -/
def decFR (tl : Nat) (f : RR) (extra : Bool) (k : Prec → Rnd → Instr) : Decoded :=
  needTl tl 1 <| resv0 (extra && f.fn.extractLsb' 5 1 == 0) <|
    coded (Rnd.ofCode (f.fn.extractLsb' 2 3)) fun r => fin (k (Prec.ofCode (f.fn.extractLsb' 0 2)) r)

/-- Opcodes 0x01 to 0x1F (R87). -/
def decodeInt (op : BitVec 8) (tl : Nat) (a : BitVec 5) (t : Nat) : Decoded :=
  let r := RR.ofTail t
  let i := RI.ofTail t
  match op with
  | 0x01#8 => decRRR tl r (.add a r.b r.c)
  | 0x02#8 => decRRR tl r (.sub a r.b r.c)
  | 0x03#8 => decRRR tl r (.and a r.b r.c)
  | 0x04#8 => decRRR tl r (.or a r.b r.c)
  | 0x05#8 => decRRR tl r (.xor a r.b r.c)
  | 0x06#8 => decRRR tl r (.shl a r.b r.c)
  | 0x07#8 => decRRR tl r (.shr a r.b r.c)
  | 0x08#8 => decRRR tl r (.sra a r.b r.c)
  | 0x09#8 => decRRR tl r (.mul a r.b r.c)
  | 0x0A#8 => decRRU tl r fun u => .mulh u a r.b r.c
  | 0x0B#8 => decRRU tl r fun u => .div u a r.b r.c
  | 0x0C#8 => decRRU tl r fun u => .rem u a r.b r.c
  | 0x0D#8 => decRRU tl r fun u => .min u a r.b r.c
  | 0x0E#8 => decRRU tl r fun u => .max u a r.b r.c
  | 0x0F#8 => decRRU tl r fun u => .slt u a r.b r.c
  | 0x10#8 => decRRR tl r (.cmov a r.b r.c)
  | 0x11#8 => decRR0 tl r (.clz a r.b)
  | 0x12#8 => decRR0 tl r (.ctz a r.b)
  | 0x13#8 => decRR0 tl r (.popc a r.b)
  | 0x14#8 => needTl tl 1 <| resv0 (r.c == 0) <| fin (.sext a r.b r.fn)
  | 0x15#8 => needTl tl 1 <| resv0 (r.c == 0) <| fin (.zext a r.b r.fn)
  | 0x16#8 => needTl tl 1 <| fin (.addsh a r.b r.c r.fn)
  | 0x17#8 => decRI tl i (.addi a i.b i.imm)
  | 0x18#8 => decRI tl i (.andi a i.b i.imm)
  | 0x19#8 => decRI tl i (.ori a i.b i.imm)
  | 0x1A#8 => decRI tl i (.xori a i.b i.imm)
  | 0x1B#8 => decShI tl i (.shli a i.b i.fn)
  | 0x1C#8 => decShI tl i (.shri a i.b i.fn)
  | 0x1D#8 => decShI tl i (.srai a i.b i.fn)
  | 0x1E#8 =>
    if tl = 1 then fin (.liTail2 a (fld t 0 16)) else if tl = 2 then fin (.liTail4 a (fld t 0 32))
    else needTl tl 4 <| fin (.liTail8 a (fld t 0 64))
  | _ =>
    if tl = 1 then fin (.addpcLine a (fld t 0 16)) else needTl tl 2 <| fin (.addpcByte a (fld t 0 32))

/-- The shape of an `fcvt` (Table 5 of chapter 04). -/
def FCvt.ofFields (fn : BitVec 6) (c : BitVec 5) : Option FCvt :=
  let sat := c.extractLsb' 3 1 == 1
  if fn.extractLsb' 5 1 == 0 then
    (CvtSrc.ofCode (c.extractLsb' 0 3)).map fun s => .toFloat (Prec.ofCode (fn.extractLsb' 0 2)) sat s
  else if fn.extractLsb' 1 1 == 0 && c.extractLsb' 2 1 == 0 then
    some (.toInt (fn.extractLsb' 0 1 == 1) sat (Prec.ofCode (c.extractLsb' 0 2)))
  else none

/-- Opcodes 0x20 to 0x2A (R88). -/
def decodeFloat (op : BitVec 8) (tl : Nat) (a : BitVec 5) (t : Nat) : Decoded :=
  let f := RR.ofTail t
  let p := Prec.ofCode (f.fn.extractLsb' 0 2)
  match op with
  | 0x20#8 => decFR tl f true fun p r => .fadd p r a f.b f.c
  | 0x21#8 => decFR tl f true fun p r => .fsub p r a f.b f.c
  | 0x22#8 => decFR tl f true fun p r => .fmul p r a f.b f.c
  | 0x23#8 => decFR tl f true fun p r => .fdiv p r a f.b f.c
  | 0x24#8 => decFR tl f (f.c == 0) fun p r => .fsqrt p r a f.b
  | 0x25#8 => decFR tl f true fun p r => .fma p r a f.b f.c
  | 0x26#8 => needTl tl 1 <| resv0 (f.fn.extractLsb' 5 1 == 0) <| needOk (f.fn.extractLsb' 2 3 == 0) <| fin (.fmin p a f.b f.c)
  | 0x27#8 => needTl tl 1 <| resv0 (f.fn.extractLsb' 5 1 == 0) <| needOk (f.fn.extractLsb' 2 3 == 0) <| fin (.fmax p a f.b f.c)
  | 0x28#8 => needTl tl 1 <| resv0 (f.fn.extractLsb' 5 1 == 0) <|
      coded (FCmpCond.ofCode (f.fn.extractLsb' 2 3)) fun q => fin (.fcmp q p a f.b f.c)
  | 0x29#8 => needTl tl 1 <| resv0 (f.c.extractLsb' 4 1 == 0) <|
      coded (Rnd.ofCode (f.fn.extractLsb' 2 3)) fun r => coded (FCvt.ofFields f.fn f.c) fun k => fin (.fcvt k r a f.b)
  | _ => needTl tl 1 <| resv0 (f.c == 0 && f.fn.extractLsb' 5 1 == 0) <| needOk (f.fn.extractLsb' 2 3 == 0) <| fin (.fclass p a f.b)

/-- The memory operand of a MEM tail. -/
def MemT.operand (f : MemT) : MemOp := ⟨f.disp, f.sc, f.x, f.b⟩

/-- Opcodes 0x30 to 0x43 (R89). -/
def decodeControl (op : BitVec 8) (tl : Nat) (a : BitVec 5) (t : Nat) : Decoded :=
  let r := RR.ofTail t
  let i := RI.ofTail t
  let j := JmpT.ofTail t
  let m := MemT.ofTail t
  let s := SyncT.ofTail t
  let p := SprT.ofTail t
  match op with
  | 0x30#8 => needTl tl 2 <| needOk (a == 0) <| fin (.jmp j.loff j.slot)
  | 0x31#8 => needTl tl 2 <| fin (.call a j.loff j.slot)
  | 0x32#8 => needTl tl 1 <| resv0 (a == 0 && r.c == 0 && r.fn == 0) <| fin (.jmpr r.b)
  | 0x33#8 => needTl tl 1 <| resv0 (r.c == 0 && r.fn == 0) <| fin (.callr a r.b)
  | 0x34#8 => needTl tl 3 <| coded (BrCond.ofCode a) fun q =>
      let f := BrT.ofTail t
      fin (.br q f.loff (bit1 f.hint) f.slot f.b f.c)
  | 0x35#8 => needTl tl 2 <| coded (BrzCond.ofCode a) fun q =>
      let f := BrzT.ofTail t
      fin (.brz q f.loff (bit1 f.hint) f.slot f.b)
  | 0x36#8 => needTl tl 2 <| resv0 (i.z == 0 && i.fn == 0 && i.b == 0) <| fin (.callx a i.imm)
  | 0x37#8 => needTl tl 0 <| resv0 (a == 0) <| fin .nop
  | 0x38#8 => needTl tl 2 <| resv0 (a == 0 && i.z == 0 && i.fn == 0 && i.b == 0) <| fin (.svc i.imm)
  | 0x39#8 => needTl tl 2 <| resv0 (a == 0 && i.z == 0 && i.fn == 0 && i.b == 0) <| fin (.brk i.imm)
  | 0x3A#8 => needTl tl 0 <| resv0 (a == 0) <| fin .idle
  | 0x3B#8 => needTl tl 0 <| fin (.time a)
  | 0x3C#8 => needTl tl 2 <| coded (MemW.ofCode m.w) fun w => fin (.ld w a m.operand)
  | 0x3D#8 => needTl tl 2 <| coded (StW.ofCode m.w) fun w => fin (.st w a m.operand)
  | 0x3E#8 => needTl tl 2 <| needOk (m.w == 3 && (a == 0 || a == 1)) <| fin (.pref (a == 1) m.operand)
  | 0x3F#8 => needTl tl 2 <| needOk (m.w == 3) <| coded (CacheOp.ofCode a) fun o => fin (.cache o m.operand)
  | 0x40#8 => needTl tl 2 <| resv0 (a == 0 && s.b == 0 && s.c == 0 && s.imm == 0 && s.fn.extractLsb' 2 3 == 0) <|
      coded (FenceKind.ofCode (s.fn.extractLsb' 0 2)) fun k => coded (Scope.ofCode s.scope) fun sc => fin (.fence k sc)
  | 0x41#8 => needTl tl 1 <| resv0 (p.z == 0) <| if p.n.toNat ≤ 0x00A then fin (.rdsr a p.n) else .error .badSpr
  | 0x42#8 => needTl tl 1 <| resv0 (p.z == 0) <| if p.n.toNat ≤ 0x00A then fin (.wrsr a p.n) else .error .badSpr
  | _ => needTl tl 1 <| resv0 (a == 0 && r.c == 0 && r.fn == 0) <| fin (.migrate r.b)

/-- The SYNC rows that address a word and carry an ordering (R90): `res` says which register fields are 0. -/
def decSync (tl : Nat) (f : SyncT) (res : Bool) (k : SyncOp → Instr) : Decoded :=
  needTl tl 2 <| resv0 (res && f.fn.extractLsb' 2 3 == 0) <|
    coded (Scope.ofCode f.scope) fun sc => fin (k ⟨f.imm, Ordr.ofCode (f.fn.extractLsb' 0 2), sc, f.b⟩)

/-- The semaphore rows (R90, R232). -/
def decSem (tl : Nat) (f : SyncT) (res : Bool) (k : Ordr → Scope → Instr) : Decoded :=
  needTl tl 2 <| resv0 (res && f.b == 0 && f.fn.extractLsb' 2 3 == 0 && f.imm.extractLsb' 8 6 == 0) <|
    coded (Scope.ofCode f.scope) fun sc => fin (k (Ordr.ofCode (f.fn.extractLsb' 0 2)) sc)

/-- Opcodes 0x44 to 0x54 (R90). -/
def decodeSync (op : BitVec 8) (tl : Nat) (a : BitVec 5) (t : Nat) : Decoded :=
  let f := SyncT.ofTail t
  let o := Ordr.ofCode (f.fn.extractLsb' 0 2)
  match op with
  | 0x44#8 => decSync tl f (f.c == 0) fun s => .lrw a s
  | 0x45#8 => decSync tl f true fun s => .sch a f.c s
  | 0x46#8 => decSync tl f (a == 0 && f.c == 0) fun s => .relq s
  | 0x47#8 => needTl tl 2 <| coded (Scope.ofCode f.scope) fun sc =>
      fin (.amo (AmoOp.ofCode (f.fn.extractLsb' 2 3)) a f.c ⟨f.imm, o, sc, f.b⟩)
  | 0x48#8 => decSync tl f true fun s => .cas a f.c s
  | 0x49#8 => needTl tl 2 <| resv0 (f.c == 0 && f.fn == 0) <| coded (Scope.ofCode f.scope) fun sc => fin (.mcas a f.imm sc f.b)
  | 0x4A#8 => decSync tl f (f.c == 0) fun s => .takew a s
  | 0x4B#8 => decSync tl f (f.c == 0) fun s => .peekw a s
  | 0x4C#8 => decSync tl f (a == 0) fun s => .putw f.c s
  | 0x4D#8 => decSync tl f (a == 0) fun s => .fillw f.c s
  | 0x4E#8 => decSync tl f (a == 0 && f.c == 0) fun s => .emptyw s
  | 0x4F#8 => needTl tl 2 <| resv0 (a == 0) <| coded (CredOp.ofCode (f.fn.extractLsb' 2 3)) fun q =>
      coded (Scope.ofCode f.scope) fun sc => fin (.cred q f.c ⟨f.imm, o, sc, f.b⟩)
  | 0x50#8 => decSem tl f (a == 0) fun o sc => .semp o sc f.c (f.imm.extractLsb' 0 8)
  | 0x51#8 => decSem tl f (a == 0) fun o sc => .semv o sc f.c (f.imm.extractLsb' 0 8)
  | 0x52#8 => decSem tl f (f.c == 0) fun o sc => .semrd o sc a (f.imm.extractLsb' 0 8)
  | 0x53#8 => needTl tl 2 <| resv0 (f.b == 0 && f.fn.extractLsb' 2 3 == 0 && f.imm.extractLsb' 2 12 == 0) <|
      coded (Scope.ofCode f.scope) fun sc => fin (.bar o sc a f.c (f.imm.extractLsb' 0 2))
  | _ => decSync tl f true fun s => .waitne a f.c s

/-- Opcodes 0x58 to 0x62 (R91). -/
def decodeSprig (op : BitVec 8) (tl : Nat) (a : BitVec 5) (t : Nat) : Decoded :=
  let r := RR.ofTail t
  let v := VecT.ofTail t
  match op with
  | 0x58#8 => needTl tl 1 <| resv0 (a == 0 && r.fn == 0) <| fin (.sconf r.b r.c)
  | 0x59#8 => needTl tl 1 <| resv0 (a == 0 && r.fn.extractLsb' 4 2 == 0) <| fin (.sbcast r.b r.c (r.fn.extractLsb' 0 4))
  | 0x5A#8 => needTl tl 1 <| resv0 (r.b == 0 && r.fn == 0) <| fin (.swait a r.c)
  | 0x5B#8 => needTl tl 1 <| resv0 (r.c == 0) <| fin (.sget a r.b r.fn)
  | 0x5C#8 => needTl tl 1 <| resv0 (a == 0) <| needOk (r.fn.toNat < 32) <| fin (.sput r.b r.c (r.fn.extractLsb' 0 5))
  | 0x5D#8 => needTl tl 1 <| resv0 (a == 0 && r.b == 0 && r.fn == 0) <| fin (.skill r.c)
  | 0x5E#8 => needTl tl 1 <| resv0 (a == 0 && r.c == 0 && r.fn == 0) <| fin (.bfetch r.b)
  | 0x5F#8 => needTl tl 0 <| resv0 (a == 0) <| fin .stop
  | 0x60#8 => needTl tl 2 <| resv0 (a == 0 && v.vd == 0 && v.vb == 0 && v.k == 0 && v.zm == 0) <|
      coded (Ty.ofCode v.et) fun et => fin (.lsend et v.va v.vc)
  | 0x61#8 => needTl tl 2 <| resv0 (a == 0 && v.va == 0 && v.vb == 0 && v.k == 0 && v.zm == 0) <|
      coded (Ty.ofCode v.et) fun et => fin (.lrecv et v.vd v.vc)
  | _ => needTl tl 0 <| fin (.sid a)

/-- The masked-operation header of a VEC tail, once its ET is known. -/
def VecT.hdr (f : VecT) (et : Ty) : VHdr := ⟨et, bit1 f.zm, f.k⟩

/-- VEC rows whose A is a rounding code (A[4:3] reserved), or 0 for an integer type (R92). -/
def decVRound (tl : Nat) (a : BitVec 5) (f : VecT) (res : Bool) (k : Ty → Rnd → Instr) : Decoded :=
  needTl tl 2 <| resv0 (res && a.extractLsb' 3 2 == 0 && (4 ≤ f.et.toNat || a == 0)) <|
    coded (Ty.ofCode f.et) fun et => coded (Rnd.ofCode (a.extractLsb' 0 3)) fun r => fin (k et r)

/-- VEC rows whose A is 0. -/
def decV0 (tl : Nat) (a : BitVec 5) (f : VecT) (res : Bool) (k : Ty → Instr) : Decoded :=
  needTl tl 2 <| resv0 (res && a == 0) <| coded (Ty.ofCode f.et) fun et => fin (k et)

/-- VEC rows whose A holds whole values 0 and 1 only. -/
def decVBit (tl : Nat) (a : BitVec 5) (f : VecT) (res : Bool) (k : Ty → Bool → Instr) : Decoded :=
  needTl tl 2 <| resv0 res <| coded (Ty.ofCode f.et) fun et => needOk (a == 0 || a == 1) <| fin (k et (a == 1))

/-- The shifts: counts in VB (TL 2) or an immediate count (TL 3, VB 0, IMM16[15:6] 0) (R92). -/
def decVShift (tl : Nat) (a : BitVec 5) (f : VecT) (kv ki : Ty → Instr) : Decoded :=
  if tl = 3 then
    resv0 (a == 0 && f.vc == 0 && f.vb == 0 && f.imm.extractLsb' 6 10 == 0) <| coded (Ty.ofCode f.et) fun et => fin (ki et)
  else needTl tl 2 <| resv0 (a == 0 && f.vc == 0) <| coded (Ty.ofCode f.et) fun et => fin (kv et)

/-- VECX rows whose A is 0. -/
def decVX (tl : Nat) (a : BitVec 5) (f : VecT) (res : Bool) (k : Ty → Instr) : Decoded :=
  needTl tl 3 <| resv0 (res && a == 0) <| coded (Ty.ofCode f.et) fun et => fin (k et)

/-- The ET codes for which the row of `vmin` and `vmax` does not ask A[0] to be 0: the integer types, and the types of
code 8 and above, which are outside its set and so detail 8 (R86, R92). -/
def intOrNarrow (et : BitVec 4) : Bool := et.toNat < 4 || 8 ≤ et.toNat

/-- Opcodes 0x70 to 0x87 (R92). A value of the A field of `vcvts` other than that of R185 is detail 8 by that rule's own
words, although the row shows A[2:0] and A[4] as 0 (log 31). -/
def decodeVec1 (op : BitVec 8) (tl : Nat) (a : BitVec 5) (f : VecT) : Decoded :=
  match op with
  | 0x70#8 => decVRound tl a f (f.vc == 0) fun et r => .vadd (f.hdr et) r f.vd f.va f.vb
  | 0x71#8 => decVRound tl a f (f.vc == 0) fun et r => .vsub (f.hdr et) r f.vd f.va f.vb
  | 0x72#8 => decVRound tl a f (f.vc == 0) fun et r => .vmul (f.hdr et) r f.vd f.va f.vb
  | 0x73#8 => needTl tl 2 <| resv0 (a.extractLsb' 3 2 == 0) <| coded (Ty.ofCode f.et) fun et =>
      coded (Rnd.ofCode (a.extractLsb' 0 3)) fun r => fin (.vfma (f.hdr et) r f.vd f.va f.vb f.vc)
  | 0x74#8 => needTl tl 2 <| resv0 (a.extractLsb' 3 2 == 0 && f.vc == 0) <| coded (Ty.ofCode f.et) fun et =>
      coded (Rnd.ofCode (a.extractLsb' 0 3)) fun r => fin (.vdiv (f.hdr et) r f.vd f.va f.vb)
  | 0x75#8 => needTl tl 2 <| resv0 (f.vc == 0 && a.extractLsb' 1 4 == 0 && (intOrNarrow f.et || a == 0)) <|
      coded (Ty.ofCode f.et) fun et => fin (.vmin (f.hdr et) (a == 1) f.vd f.va f.vb)
  | 0x76#8 => needTl tl 2 <| resv0 (f.vc == 0 && a.extractLsb' 1 4 == 0 && (intOrNarrow f.et || a == 0)) <|
      coded (Ty.ofCode f.et) fun et => fin (.vmax (f.hdr et) (a == 1) f.vd f.va f.vb)
  | 0x77#8 => decV0 tl a f (f.vc == 0) fun et => .vand (f.hdr et) f.vd f.va f.vb
  | 0x78#8 => decV0 tl a f (f.vc == 0) fun et => .vor (f.hdr et) f.vd f.va f.vb
  | 0x79#8 => decV0 tl a f (f.vc == 0) fun et => .vxor (f.hdr et) f.vd f.va f.vb
  | 0x7A#8 => decVShift tl a f (fun et => .vshlVec (f.hdr et) f.vd f.va f.vb)
      fun et => .vshlImm (f.hdr et) (f.imm.extractLsb' 0 6) f.vd f.va
  | 0x7B#8 => decVShift tl a f (fun et => .vshrVec (f.hdr et) f.vd f.va f.vb)
      fun et => .vshrImm (f.hdr et) (f.imm.extractLsb' 0 6) f.vd f.va
  | 0x7C#8 => decVShift tl a f (fun et => .vsraVec (f.hdr et) f.vd f.va f.vb)
      fun et => .vsraImm (f.hdr et) (f.imm.extractLsb' 0 6) f.vd f.va
  | 0x7D#8 => needTl tl 2 <| resv0 (f.vc == 0 && f.vd.extractLsb' 3 3 == 0 && a.extractLsb' 4 1 == 0) <|
      coded (Ty.ofCode f.et) fun et => coded (VCond.ofCode (a.extractLsb' 0 3)) fun q =>
        fin (.vcmp (f.hdr et) q (a.extractLsb' 3 1 == 1) (f.vd.extractLsb' 0 3) f.va f.vb)
  | 0x7E#8 => decV0 tl a f (f.vc == 0 && f.zm == 0) fun et => .vsel et f.k f.vd f.va f.vb
  | 0x7F#8 => decVBit tl a f (f.vc == 0 && f.vb == 0) fun et ab => .vneg (f.hdr et) ab f.vd f.va
  | 0x80#8 => needTl tl 2 <| resv0 (a.extractLsb' 3 2 == 0 && f.vc == 0 && f.vb == 0) <| coded (Ty.ofCode f.et) fun et =>
      coded (Rnd.ofCode (a.extractLsb' 0 3)) fun r => fin (.vsqrt (f.hdr et) r f.vd f.va)
  | 0x81#8 => decV0 tl a f (f.vc == 0 && f.vb == 0) fun et => .vrcp (f.hdr et) f.vd f.va
  | 0x82#8 => decV0 tl a f (f.vc == 0 && f.vb == 0) fun et => .vrsq (f.hdr et) f.vd f.va
  | 0x83#8 => decV0 tl a f (f.vc == 0 && f.vb == 0) fun et => .vexp2 (f.hdr et) f.vd f.va
  | 0x84#8 => decV0 tl a f (f.vc == 0 && f.vb == 0) fun et => .vlog2 (f.hdr et) f.vd f.va
  | 0x85#8 => needTl tl 2 <| resv0 (f.vb == 0 && f.vc.extractLsb' 4 2 == 0) <| coded (Ty.ofCode f.et) fun et =>
      coded (Ty.ofCode (f.vc.extractLsb' 0 4)) fun src => coded (Rnd.ofCode (a.extractLsb' 0 3)) fun r =>
        fin (.vcvt (f.hdr et) src r (a.extractLsb' 3 1 == 1) (a.extractLsb' 4 1 == 1) f.vd f.va)
  | 0x86#8 => needTl tl 2 <| resv0 (f.vc.extractLsb' 4 2 == 0) <|
      coded (Ty.ofCode f.et) fun et => coded (Ty.ofCode (f.vc.extractLsb' 0 4)) fun src =>
        needOk (a.extractLsb' 0 3 == 0 && a.extractLsb' 4 1 == 0) <| fin (.vcvts (f.hdr et) src (a.extractLsb' 3 1 == 1) f.vd f.va f.vb)
  | _ => decV0 tl a f (f.vc == 0 && f.vb == 0) fun et => .vrng (f.hdr et) f.vd f.va

/-- Opcodes 0x88 to 0x9C (R92). -/
def decodeVec2 (op : BitVec 8) (tl : Nat) (a : BitVec 5) (f : VecT) : Decoded :=
  let kzm0 := f.k == 0 && f.zm == 0
  match op with
  | 0x88#8 => needTl tl 2 <| resv0 (f.vc == 0) <| coded (Ty.ofCode f.et) fun et => coded (PermMode.ofCode a) fun m =>
      fin (.vperm (f.hdr et) m f.vd f.va f.vb)
  | 0x89#8 => decVX tl a f (f.vc == 0 && f.imm.extractLsb' 6 10 == 0) fun et =>
      .valign (f.hdr et) (f.imm.extractLsb' 0 6) f.vd f.va f.vb
  | 0x8A#8 => decVBit tl a f (f.vc == 0 && f.vb == 0 && (a != 0 || f.va.extractLsb' 5 1 == 0)) fun et v =>
      .vbcast (f.hdr et) v f.vd f.va
  | 0x8B#8 => decVX tl a f (kzm0 && f.vc == 0 && f.vb == 0 && f.vd.extractLsb' 5 1 == 0) fun et =>
      .vextr et f.imm (f.vd.extractLsb' 0 5) f.va
  | 0x8C#8 => decVX tl a f (kzm0 && f.vc == 0 && f.vb == 0 && f.va.extractLsb' 5 1 == 0) fun et =>
      .vins et f.imm f.vd (f.va.extractLsb' 0 5)
  | 0x8D#8 => needTl tl 2 <| resv0 (f.vc == 0 && f.vb == 0 && f.zm == 0 && a.extractLsb' 4 1 == 0) <|
      coded (Ty.ofCode f.et) fun et => coded (RedOp.ofCode (a.extractLsb' 0 3)) fun o =>
        fin (.vred et f.k o (a.extractLsb' 3 1 == 1) f.vd f.va)
  | 0x8E#8 => needTl tl 2 <| resv0 (f.vc == 0 && f.vb == 0 && a.extractLsb' 4 1 == 0) <|
      coded (Ty.ofCode f.et) fun et => coded (RedOp.ofCode (a.extractLsb' 0 3)) fun o =>
        fin (.vscan (f.hdr et) o (a.extractLsb' 3 1 == 1) f.vd f.va)
  | 0x8F#8 => decVX tl a f (f.vc == 0 && f.vb == 0 && f.va.extractLsb' 5 1 == 0) fun et =>
      .vld (f.hdr et) f.imm f.vd (f.va.extractLsb' 0 5)
  | 0x90#8 => decVX tl a f (f.zm == 0 && f.vc == 0 && f.vb == 0 && f.va.extractLsb' 5 1 == 0) fun et =>
      .vst et f.k f.imm f.vd (f.va.extractLsb' 0 5)
  | 0x91#8 => needTl tl 2 <| resv0 (f.vc == 0 && a.extractLsb' 2 3 == 0) <| coded (Ty.ofCode f.et) fun et =>
      fin (.vgath (f.hdr et) (a.extractLsb' 0 2) f.vd f.va f.vb)
  | 0x92#8 => needTl tl 2 <| resv0 (f.zm == 0 && f.vc == 0 && a.extractLsb' 2 3 == 0) <| coded (Ty.ofCode f.et) fun et =>
      fin (.vscat et f.k (a.extractLsb' 0 2) f.vd f.va f.vb)
  | 0x93#8 => needTl tl 2 <| resv0 (f.vc == 0 && a.extractLsb' 2 3 == 0) <| coded (Ty.ofCode f.et) fun et =>
      fin (.vaddsat (f.hdr et) (a.extractLsb' 0 1 == 1) (a.extractLsb' 1 1 == 1) f.vd f.va f.vb)
  | 0x94#8 => needTl tl 2 <| resv0 (f.vc == 0 && a.extractLsb' 1 4 == 0) <| coded (Ty.ofCode f.et) fun et =>
      fin (.vmulhi (f.hdr et) (a == 1) f.vd f.va f.vb)
  | 0x95#8 => decVBit tl a f (f.vc == 0 && f.vb == 0) fun et z => .vbitc (f.hdr et) z f.vd f.va
  | 0x96#8 => needTl tl 2 <| resv0 (f.vc == 0 && a.extractLsb' 1 4 == 0) <| coded (Ty.ofCode f.et) fun et =>
      fin (.vdot (f.hdr et) (a == 1) f.vd f.va f.vb)
  | 0x97#8 => decV0 tl a f (f.vc == 0 && f.vb == 0 && f.va == 0) fun et => .viota (f.hdr et) f.vd
  | 0x98#8 => needTl tl 2 <| resv0 (kzm0 && f.vc == 0 && f.vd.extractLsb' 3 3 == 0 && f.va.extractLsb' 3 3 == 0 &&
        f.vb.extractLsb' 3 3 == 0 && (a != 4 || f.vb == 0)) <| needOk (f.et == 0) <| coded (KOp.ofCode a) fun o =>
      fin (.kop o (f.vd.extractLsb' 0 3) (f.va.extractLsb' 0 3) (f.vb.extractLsb' 0 3))
  | 0x99#8 => needTl tl 2 <| resv0 (kzm0 && f.vc == 0 && f.vb == 0 && f.vd.extractLsb' 5 1 == 0 && f.va.extractLsb' 5 1 == 0 &&
        (a != 0 || f.vd.extractLsb' 3 2 == 0) && (a != 1 || f.va.extractLsb' 3 2 == 0)) <|
      needOk (f.et == 0 && (a == 0 || a == 1)) <|
      if a == 1 then fin (.kmov true (f.va.extractLsb' 0 3) (f.vd.extractLsb' 0 5))
      else fin (.kmov false (f.vd.extractLsb' 0 3) (f.va.extractLsb' 0 5))
  | 0x9A#8 => needTl tl 2 <| resv0 (kzm0 && f.vc == 0 && f.vb == 0 && f.vd.extractLsb' 5 1 == 0 && f.va.extractLsb' 3 3 == 0) <|
      needOk (f.et == 0) <| coded (KTest.ofCode a) fun o => fin (.ktest o (f.vd.extractLsb' 0 5) (f.va.extractLsb' 0 3))
  | 0x9B#8 => needTl tl 3 <| resv0 (kzm0 && f.vc == 0 && f.vb == 0 && a.extractLsb' 2 3 == 0 && f.imm.extractLsb' 5 11 == 0) <|
      coded (Ty.ofCode f.et) fun et => fin (.crd et (a.extractLsb' 0 2) f.vd f.va (f.imm.extractLsb' 0 5))
  | _ => needTl tl 3 <| resv0 (kzm0 && f.vc == 0 && f.vb == 0 && a.extractLsb' 2 3 == 0 && f.imm.extractLsb' 5 11 == 0) <|
      coded (Ty.ofCode f.et) fun et => fin (.cwr et (a.extractLsb' 0 2) f.vd f.va (f.imm.extractLsb' 0 5))

/-- Opcodes 0xA0 to 0xAA (R93). A FLAG of 1 where the row does not list it is detail 8; FMT 0 of `tzero` and `tsync` is a
reserved field. -/
def decodeTile (op : BitVec 8) (tl : Nat) (a : BitVec 5) (f : TileT) : Decoded :=
  let a43 := a.extractLsb' 3 2 == 0
  let a42 := a.extractLsb' 2 3 == 0
  let flag := bit1 f.flag
  match op with
  | 0xA0#8 => needTl tl 3 <| resv0 (a43 && f.fn == 0 && f.cd == 0 && f.zc == 0 && f.zb == 0 && f.za == 0) <|
      coded (Ty.ofCode f.fmt) fun t => fin (.tld flag t (a.extractLsb' 0 3) f.desc f.b f.c)
  | 0xA1#8 => needTl tl 3 <| resv0 (a42 && f.fn == 0 && f.cd == 0 && f.zc == 0 && f.zb == 0 && f.za == 0) <| needOk (!flag) <|
      coded (Ty.ofCode f.fmt) fun t => fin (.tldc t (a.extractLsb' 0 2) f.desc f.b f.c)
  | 0xA2#8 => needTl tl 3 <| resv0 (a == 0 && f.fn == 0 && f.cd == 0 && f.zc == 0 && f.zb == 0) <| needOk (!flag) <|
      coded (Ty.ofCode f.fmt) fun t => fin (.tst t f.za f.desc f.b f.c)
  | 0xA3#8 => needTl tl 3 <| resv0 (a == 0 && f.fn == 0 && f.zc == 0 && f.zb == 0 && f.za == 0) <| needOk (!flag) <|
      coded (Ty.ofCode f.fmt) fun t => fin (.tstc t f.cd f.desc f.b f.c)
  | 0xA4#8 => needTl tl 3 <| resv0 (a42 && f.fn == 0 && f.c == 0 && f.b == 0 && f.desc == 0 && f.fmt == 0 && f.cd == 0 &&
        f.zc == 0 && f.zb == 0 && f.za == 0) <| needOk (!flag) <| fin (.tzero (a.extractLsb' 0 2))
  | 0xA5#8 => needTl tl 3 <| resv0 (a42 && f.fn.extractLsb' 2 4 == 0 && f.c == 0 && f.b == 0 && f.desc == 0 && f.cd == 0 &&
        f.zc == 0) <| needOk (!flag) <| coded (Ty.ofCode f.fmt) fun t =>
      fin (.tmma t (f.fn.extractLsb' 0 1 == 1) (f.fn.extractLsb' 1 1 == 1) (a.extractLsb' 0 2) f.za f.zb)
  | 0xA6#8 => needTl tl 3 <| resv0 (a42 && f.fn.extractLsb' 2 4 == 0 && f.c == 0 && f.b == 0 && f.desc == 0 && f.cd == 0) <|
      coded (Ty.ofCode f.fmt) fun t =>
      fin (.tmmas flag t (f.fn.extractLsb' 0 1 == 1) (f.fn.extractLsb' 1 1 == 1) (a.extractLsb' 0 2) f.za f.zb f.zc)
  | 0xA7#8 => needTl tl 3 <| resv0 (a42 && f.fn == 0 && f.c == 0 && f.b == 0 && f.desc == 0 && f.cd == 0 && f.zc == 0) <|
      needOk (!flag) <| coded (Ty.ofCode f.fmt) fun t => fin (.tmmax t (a.extractLsb' 0 2) f.za f.zb)
  | 0xA8#8 => needTl tl 3 <| resv0 (a43 && f.fn.extractLsb' 5 1 == 0 && f.c == 0 && f.b == 0 && f.desc == 0 && f.zc == 0 &&
        f.zb == 0 && f.za == 0) <| needOk (!flag) <| coded (Ty.ofCode f.fmt) fun t =>
      coded (Rnd.ofCode (f.fn.extractLsb' 0 3)) fun r =>
        fin (.tcvt t r (f.fn.extractLsb' 3 1 == 1) (f.fn.extractLsb' 4 1 == 1) (a.extractLsb' 0 3) f.cd)
  | 0xA9#8 => needTl tl 3 <| resv0 (a43 && f.fn == 0 && f.c == 0 && f.b == 0 && f.desc == 0 && f.cd == 0 && f.zc == 0 &&
        f.zb == 0) <| needOk (!flag) <| coded (Ty.ofCode f.fmt) fun t => fin (.ttrans t (a.extractLsb' 0 3) f.za)
  | _ => needTl tl 3 <| resv0 (a == 0 && f.fn == 0 && f.c == 0 && f.b == 0 && f.desc == 0 && f.fmt == 0 && f.cd == 0 &&
        f.zc == 0 && f.zb == 0 && f.za == 0) <| needOk (!flag) <| fin .tsync

/-- Opcodes 0xB0 to 0xB4 (R94, R235: A[4:3] values without a meaning are detail 8). -/
def decodeCopy (op : BitVec 8) (tl : Nat) (a : BitVec 5) (f : CopyT) : Decoded :=
  let m := a.extractLsb' 3 2
  let mk (k : CopyOp → Instr) : Decoded :=
    coded (Scope.ofCode (a.extractLsb' 0 3)) fun sc => fin (k ⟨f.sinc, f.ssem, f.wthr, f.wsem, f.l, f.c, f.b, sc⟩)
  match op with
  | 0xB0#8 => needTl tl 4 <| resv0 (f.z == 0 && f.desc == 0) <| needOk (m == 0) <| mk .bcopy
  | 0xB1#8 => needTl tl 4 <| resv0 (f.z == 0) <| needOk (m == 0 || m == 1) <| mk (.bcopyt (m == 1) f.desc)
  | 0xB2#8 => needTl tl 4 <| resv0 (f.z == 0 && f.desc == 0) <| needOk (m == 0) <| mk .bfill
  | 0xB3#8 => needTl tl 4 <| resv0 (f.z == 0 && f.desc == 0) <| needOk (m == 0) <| mk .bloadb
  | _ => needTl tl 4 <| resv0 (f.z == 0) <| needOk (m == 0) <| mk (.bcopyc f.desc)

/-- A `wrpr` by number: the register writes that the opcode table lists as rows of their own have their own constructor. -/
def wrprOf (a : BitVec 5) (n : BitVec 12) : Instr :=
  if n == 0x106 then .domainWrite a
  else if n == 0x107 then .protrootWrite a
  else if n == 0x108 then .ptrootWrite a
  else if n == 0x109 then .descbaseWrite a
  else if n == 0x10C then .pressbindWrite a
  else if n == 0x10D then .wshareWrite a
  else if n == 0x10E then .fdutyWrite a
  else if n == 0x110 then .timecmpWrite a
  else if n == 0x111 then .ipipendWrite a
  else if n == 0x113 then .barcfgWrite a
  else if n.extractLsb' 3 9 == 0x023 then .spwinWrite a (n.extractLsb' 0 3)
  else .wrpr a n

/-- Opcodes 0xC0 to 0xC8 (R95). -/
def decodeSystem (op : BitVec 8) (tl : Nat) (a : BitVec 5) (t : Nat) : Decoded :=
  let r := RR.ofTail t
  let p := SprT.ofTail t
  match op with
  | 0xC0#8 => needTl tl 0 <| resv0 (a == 0) <| fin .tret
  | 0xC1#8 => needTl tl 1 <| resv0 (p.z == 0) <| fin (.rdpr a p.n)
  | 0xC2#8 => needTl tl 1 <| resv0 (p.z == 0) <| fin (wrprOf a p.n)
  | 0xC3#8 => needTl tl 1 <| resv0 (a == 0 && ((r.fn != 1 && r.fn != 2) || r.b == 0) && (r.fn != 2 || r.c == 0)) <|
      if r.fn == 0 then fin (.plbinvOne r.b r.c) else if r.fn == 1 then fin (.plbinvDom r.c)
      else needOk (r.fn == 2) <| fin .plbinvAll
  | 0xC4#8 => needTl tl 1 <| resv0 (a == 0 && r.c == 0 && (r.fn != 1 || r.b == 0)) <|
      if r.fn == 0 then fin (.xlinvPage r.b) else needOk (r.fn == 1) <| fin .xlinvAll
  | 0xC5#8 => needTl tl 1 <| resv0 (a == 0 && r.c == 0 && r.fn == 0) <| fin (.ctxsave r.b)
  | 0xC6#8 => needTl tl 1 <| resv0 (a == 0 && r.c == 0 && r.fn == 0) <| fin (.ctxload r.b)
  | 0xC7#8 => needTl tl 1 <| resv0 (a == 0 && r.fn == 0) <| fin (.descw r.b r.c)
  | _ => needTl tl 1 <| resv0 (a == 0 && r.fn == 0) <| fin (.ipi r.b r.c)

/-- The decoder on the fields of a head and the value of its tail (R64, R83). -/
def decodeFields (op : BitVec 8) (tl : Nat) (a : BitVec 5) (t : Nat) : Decoded :=
  if !opAssigned op.toNat then .ok (.unassignedOpcode (BitVec.ofNat 16 (op.toNat * 256 + tl * 32 + a.toNat)))
  else if op.toNat ≤ 0x1F then decodeInt op tl a t
  else if op.toNat ≤ 0x2A then decodeFloat op tl a t
  else if op.toNat ≤ 0x43 then decodeControl op tl a t
  else if op.toNat ≤ 0x54 then decodeSync op tl a t
  else if op.toNat ≤ 0x62 then decodeSprig op tl a t
  else if op.toNat ≤ 0x87 then decodeVec1 op tl a (VecT.ofTail t)
  else if op.toNat ≤ 0x9C then decodeVec2 op tl a (VecT.ofTail t)
  else if op.toNat ≤ 0xAA then decodeTile op tl a (TileT.ofTail t)
  else if op.toNat ≤ 0xB4 then decodeCopy op tl a (CopyT.ofTail t)
  else decodeSystem op tl a t

/-- OP, TL and A of a head (R62). -/
def headOp (h : BitVec 16) : BitVec 8 := BitVec.ofNat 8 (h.toNat / 256)
def headTl (h : BitVec 16) : Nat := h.toNat / 32 % 8
def headA (h : BitVec 16) : BitVec 5 := BitVec.ofNat 5 h.toNat

/-- The decoder on a head and the value of its tail. -/
def decode (h : BitVec 16) (t : Nat) : Decoded := decodeFields (headOp h) (headTl h) (headA h) t

/-! ### The encoder -/

/-- A head's fields and its tail value. -/
structure Code where
  op : BitVec 8
  tl : Nat
  a : BitVec 5
  tail : Nat
  deriving DecidableEq, Repr

/-- The head value OP x 256 + TL x 32 + A (R62). -/
def Code.head (c : Code) : BitVec 16 := BitVec.ofNat 16 (c.op.toNat * 256 + c.tl * 32 + c.a.toNat)

/-- One RR instruction. -/
def encRR (op : BitVec 8) (a : BitVec 5) (fn : BitVec 6) (c b : BitVec 5) : Code := ⟨op, 1, a, (RR.mk fn c b).toTail⟩

/-- One RI instruction. -/
def encRI (op : BitVec 8) (a : BitVec 5) (imm : BitVec 16) (fn : BitVec 6) (b : BitVec 5) : Code :=
  ⟨op, 2, a, (RI.mk imm 0 fn b).toTail⟩

/-- FN of `.s` and `.u`. -/
def fnU (u : Bool) : BitVec 6 := if u then 1 else 0

/-- FN of a scalar floating-point instruction: FN[5] 0, FN[4:2], FN[1:0]. -/
def fnF (mid : BitVec 3) (p : Prec) : BitVec 6 := (0#1 ++ mid) ++ p.code

/-- FN and C of an `fcvt`. -/
def FCvt.fields (k : FCvt) (r : Rnd) : BitVec 6 × BitVec 5 :=
  match k with
  | .toFloat p sat s => ((0#1 ++ r.code) ++ p.code, (0#1 ++ ofBit1 sat) ++ s.code)
  | .toInt u sat p => ((1#1 ++ r.code) ++ (0#1 ++ ofBit1 u), (0#1 ++ ofBit1 sat) ++ (0#1 ++ p.code))

/-- One MEM instruction. -/
def encMem (op : BitVec 8) (a : BitVec 5) (w : BitVec 3) (m : MemOp) : Code :=
  ⟨op, 2, a, (MemT.mk m.disp w m.sc m.x m.b).toTail⟩

/-- One SYNC instruction. -/
def encSync (op : BitVec 8) (a c : BitVec 5) (hi : BitVec 3) (s : SyncOp) : Code :=
  ⟨op, 2, a, (SyncT.mk s.imm (hi ++ s.ord.code) s.scope.code c s.b).toTail⟩

/-- One semaphore instruction. -/
def encSem (op : BitVec 8) (a c : BitVec 5) (o : Ordr) (sc : Scope) (sem : BitVec 8) : Code :=
  ⟨op, 2, a, (SyncT.mk (0#6 ++ sem) (0#3 ++ o.code) sc.code c 0).toTail⟩

/-- One VEC instruction. -/
def encV (op : BitVec 8) (a : BitVec 5) (h : VHdr) (vc vb va vd : BitVec 6) : Code :=
  ⟨op, 2, a, (VecT.mk 0 vc h.et.code (ofBit1 h.zm) h.k vb va vd).toTail⟩

/-- One VECX instruction. -/
def encVX (op : BitVec 8) (a : BitVec 5) (h : VHdr) (imm : BitVec 16) (vb va vd : BitVec 6) : Code :=
  ⟨op, 3, a, (VecT.mk imm 0 h.et.code (ofBit1 h.zm) h.k vb va vd).toTail⟩

/-- A rounding A field. -/
def aRnd (r : Rnd) : BitVec 5 := 0#2 ++ r.code

/-- An A of 0 or 1. -/
def aBit (b : Bool) : BitVec 5 := if b then 1 else 0

/-- One TILE instruction that names memory. -/
def encTM (op : BitVec 8) (a : BitVec 5) (flag : Bool) (fmt : Ty) (cd : BitVec 2) (za : BitVec 3) (desc : BitVec 16)
    (b c : BitVec 5) : Code := ⟨op, 3, a, (TileT.mk 0 c b desc (ofBit1 flag) fmt.code cd 0 0 za).toTail⟩

/-- One TILE instruction between registers. -/
def encTR (op : BitVec 8) (a : BitVec 5) (fn : BitVec 6) (flag : Bool) (fmt : BitVec 4) (cd : BitVec 2) (zc zb za : BitVec 3) :
    Code := ⟨op, 3, a, (TileT.mk fn 0 0 0 (ofBit1 flag) fmt cd zc zb za).toTail⟩

/-- One COPY instruction. -/
def encCopy (op : BitVec 8) (m : BitVec 2) (desc : BitVec 16) (o : CopyOp) : Code :=
  ⟨op, 4, m ++ o.scope.code, (CopyT.mk o.sinc o.ssem o.wthr o.wsem desc 0 o.l o.c o.b).toTail⟩

/-- One SPR instruction. -/
def encSpr (op : BitVec 8) (a : BitVec 5) (n : BitVec 12) : Code := ⟨op, 1, a, (SprT.mk 0 n).toTail⟩

/-- The encoding of an instruction, from the tables of chapter 04. A row that no head encodes (an event, or a row a `wrpr` or
`svc` becomes) gets the permanently illegal head 0x0000. -/
def encode : Instr → Code
  | .add d b c => encRR 0x01 d 0 c b
  | .sub d b c => encRR 0x02 d 0 c b
  | .and d b c => encRR 0x03 d 0 c b
  | .or d b c => encRR 0x04 d 0 c b
  | .xor d b c => encRR 0x05 d 0 c b
  | .shl d b c => encRR 0x06 d 0 c b
  | .shr d b c => encRR 0x07 d 0 c b
  | .sra d b c => encRR 0x08 d 0 c b
  | .mul d b c => encRR 0x09 d 0 c b
  | .mulh u d b c => encRR 0x0A d (fnU u) c b
  | .div u d b c => encRR 0x0B d (fnU u) c b
  | .rem u d b c => encRR 0x0C d (fnU u) c b
  | .min u d b c => encRR 0x0D d (fnU u) c b
  | .max u d b c => encRR 0x0E d (fnU u) c b
  | .slt u d b c => encRR 0x0F d (fnU u) c b
  | .cmov d b c => encRR 0x10 d 0 c b
  | .clz d b => encRR 0x11 d 0 0 b
  | .ctz d b => encRR 0x12 d 0 0 b
  | .popc d b => encRR 0x13 d 0 0 b
  | .sext d b n => encRR 0x14 d n 0 b
  | .zext d b n => encRR 0x15 d n 0 b
  | .addsh d b c n => encRR 0x16 d n c b
  | .addi d b imm => encRI 0x17 d imm 0 b
  | .andi d b imm => encRI 0x18 d imm 0 b
  | .ori d b imm => encRI 0x19 d imm 0 b
  | .xori d b imm => encRI 0x1A d imm 0 b
  | .shli d b n => encRI 0x1B d 0 n b
  | .shri d b n => encRI 0x1C d 0 n b
  | .srai d b n => encRI 0x1D d 0 n b
  | .liTail2 d imm => ⟨0x1E, 1, d, imm.toNat⟩
  | .liTail4 d imm => ⟨0x1E, 2, d, imm.toNat⟩
  | .liTail8 d imm => ⟨0x1E, 4, d, imm.toNat⟩
  | .addpcLine d imm => ⟨0x1F, 1, d, imm.toNat⟩
  | .addpcByte d imm => ⟨0x1F, 2, d, imm.toNat⟩
  | .fadd p r d b c => encRR 0x20 d (fnF r.code p) c b
  | .fsub p r d b c => encRR 0x21 d (fnF r.code p) c b
  | .fmul p r d b c => encRR 0x22 d (fnF r.code p) c b
  | .fdiv p r d b c => encRR 0x23 d (fnF r.code p) c b
  | .fsqrt p r d b => encRR 0x24 d (fnF r.code p) 0 b
  | .fma p r d b c => encRR 0x25 d (fnF r.code p) c b
  | .fmin p d b c => encRR 0x26 d (fnF 0 p) c b
  | .fmax p d b c => encRR 0x27 d (fnF 0 p) c b
  | .fcmp q p d b c => encRR 0x28 d (fnF q.code p) c b
  | .fcvt k r d b => encRR 0x29 d (k.fields r).1 (k.fields r).2 b
  | .fclass p d b => encRR 0x2A d (fnF 0 p) 0 b
  | .jmp loff slot => ⟨0x30, 2, 0, (JmpT.mk loff slot).toTail⟩
  | .call d loff slot => ⟨0x31, 2, d, (JmpT.mk loff slot).toTail⟩
  | .jmpr b => encRR 0x32 0 0 0 b
  | .callr d b => encRR 0x33 d 0 0 b
  | .br q loff hint slot b c => ⟨0x34, 3, q.code, (BrT.mk loff (ofBit1 hint) slot c b).toTail⟩
  | .brz q loff hint slot b => ⟨0x35, 2, q.code, (BrzT.mk loff (ofBit1 hint) slot b).toTail⟩
  | .callx d idx => encRI 0x36 d idx 0 0
  | .nop => ⟨0x37, 0, 0, 0⟩
  | .svc code => encRI 0x38 0 code 0 0
  | .brk code => encRI 0x39 0 code 0 0
  | .idle => ⟨0x3A, 0, 0, 0⟩
  | .time d => ⟨0x3B, 0, d, 0⟩
  | .ld w d m => encMem 0x3C d w.code m
  | .st w d m => encMem 0x3D d w.code m
  | .pref wr m => encMem 0x3E (aBit wr) 3 m
  | .cache op m => encMem 0x3F op.code 3 m
  | .fence k sc => ⟨0x40, 2, 0, (SyncT.mk 0 (0#3 ++ k.code) sc.code 0 0).toTail⟩
  | .rdsr d n => encSpr 0x41 d n
  | .wrsr a n => encSpr 0x42 a n
  | .migrate b => encRR 0x43 0 0 0 b
  | .lrw d s => encSync 0x44 d 0 0 s
  | .sch d c s => encSync 0x45 d c 0 s
  | .relq s => encSync 0x46 0 0 0 s
  | .amo op d c s => encSync 0x47 d c op.code s
  | .cas d c s => encSync 0x48 d c 0 s
  | .mcas d imm sc b => encSync 0x49 d 0 0 ⟨imm, .none, sc, b⟩
  | .takew d s => encSync 0x4A d 0 0 s
  | .peekw d s => encSync 0x4B d 0 0 s
  | .putw c s => encSync 0x4C 0 c 0 s
  | .fillw c s => encSync 0x4D 0 c 0 s
  | .emptyw s => encSync 0x4E 0 0 0 s
  | .waitne d c s => encSync 0x54 d c 0 s
  | .cred op c s => encSync 0x4F 0 c op.code s
  | .semp o sc c sem => encSem 0x50 0 c o sc sem
  | .semv o sc c sem => encSem 0x51 0 c o sc sem
  | .semrd o sc d sem => encSem 0x52 d 0 o sc sem
  | .bar o sc d c lvl => ⟨0x53, 2, d, (SyncT.mk (0#12 ++ lvl) (0#3 ++ o.code) sc.code c 0).toTail⟩
  | .sconf b c => encRR 0x58 0 0 c b
  | .sbcast b c lend => encRR 0x59 0 (0#2 ++ lend) c b
  | .swait d c => encRR 0x5A d 0 c 0
  | .sget d b sel => encRR 0x5B d sel 0 b
  | .sput b c sel => encRR 0x5C 0 (0#1 ++ sel) c b
  | .skill c => encRR 0x5D 0 0 c 0
  | .bfetch b => encRR 0x5E 0 0 0 b
  | .stop => ⟨0x5F, 0, 0, 0⟩
  | .lsend et va d => encV 0x60 0 ⟨et, false, 0⟩ d 0 va 0
  | .lrecv et vd d => encV 0x61 0 ⟨et, false, 0⟩ d 0 0 vd
  | .sid d => ⟨0x62, 0, d, 0⟩
  | .vadd h r vd va vb => encV 0x70 (aRnd r) h 0 vb va vd
  | .vsub h r vd va vb => encV 0x71 (aRnd r) h 0 vb va vd
  | .vmul h r vd va vb => encV 0x72 (aRnd r) h 0 vb va vd
  | .vfma h r vd va vb vc => encV 0x73 (aRnd r) h vc vb va vd
  | .vdiv h r vd va vb => encV 0x74 (aRnd r) h 0 vb va vd
  | .vmin h u vd va vb => encV 0x75 (aBit u) h 0 vb va vd
  | .vmax h u vd va vb => encV 0x76 (aBit u) h 0 vb va vd
  | .vand h vd va vb => encV 0x77 0 h 0 vb va vd
  | .vor h vd va vb => encV 0x78 0 h 0 vb va vd
  | .vxor h vd va vb => encV 0x79 0 h 0 vb va vd
  | .vshlVec h vd va vb => encV 0x7A 0 h 0 vb va vd
  | .vshlImm h n vd va => encVX 0x7A 0 h (0#10 ++ n) 0 va vd
  | .vshrVec h vd va vb => encV 0x7B 0 h 0 vb va vd
  | .vshrImm h n vd va => encVX 0x7B 0 h (0#10 ++ n) 0 va vd
  | .vsraVec h vd va vb => encV 0x7C 0 h 0 vb va vd
  | .vsraImm h n vd va => encVX 0x7C 0 h (0#10 ++ n) 0 va vd
  | .vcmp h q u kd va vb => encV 0x7D ((0#1 ++ ofBit1 u) ++ q.code) h 0 vb va (0#3 ++ kd)
  | .vsel et k vd va vb => encV 0x7E 0 ⟨et, false, k⟩ 0 vb va vd
  | .vneg h ab vd va => encV 0x7F (aBit ab) h 0 0 va vd
  | .vsqrt h r vd va => encV 0x80 (aRnd r) h 0 0 va vd
  | .vrcp h vd va => encV 0x81 0 h 0 0 va vd
  | .vrsq h vd va => encV 0x82 0 h 0 0 va vd
  | .vexp2 h vd va => encV 0x83 0 h 0 0 va vd
  | .vlog2 h vd va => encV 0x84 0 h 0 0 va vd
  | .vcvt h src r sat u vd va => encV 0x85 ((ofBit1 u ++ ofBit1 sat) ++ r.code) h (0#2 ++ src.code) 0 va vd
  | .vcvts h src sat vd va vb => encV 0x86 ((0#1 ++ ofBit1 sat) ++ 0#3) h (0#2 ++ src.code) vb va vd
  | .vrng h vd va => encV 0x87 0 h 0 0 va vd
  | .vperm h m vd va vb => encV 0x88 m.code h 0 vb va vd
  | .valign h n vd va vb => encVX 0x89 0 h (0#10 ++ n) vb va vd
  | .vbcast h fromV vd va => encV 0x8A (aBit fromV) h 0 0 va vd
  | .vextr et idx gd va => encVX 0x8B 0 ⟨et, false, 0⟩ idx 0 va (0#1 ++ gd)
  | .vins et idx vd ga => encVX 0x8C 0 ⟨et, false, 0⟩ idx 0 (0#1 ++ ga) vd
  | .vred et k op u vd va => encV 0x8D ((0#1 ++ ofBit1 u) ++ op.code) ⟨et, false, k⟩ 0 0 va vd
  | .vscan h op u vd va => encV 0x8E ((0#1 ++ ofBit1 u) ++ op.code) h 0 0 va vd
  | .vld h imm vd ga => encVX 0x8F 0 h imm 0 (0#1 ++ ga) vd
  | .vst et k imm vd ga => encVX 0x90 0 ⟨et, false, k⟩ imm 0 (0#1 ++ ga) vd
  | .vgath h sc vd ga vb => encV 0x91 (0#3 ++ sc) h 0 vb ga vd
  | .vscat et k sc vd ga vb => encV 0x92 (0#3 ++ sc) ⟨et, false, k⟩ 0 vb ga vd
  | .vaddsat h sub u vd va vb => encV 0x93 ((0#3 ++ ofBit1 u) ++ ofBit1 sub) h 0 vb va vd
  | .vmulhi h u vd va vb => encV 0x94 (aBit u) h 0 vb va vd
  | .vbitc h z vd va => encV 0x95 (aBit z) h 0 0 va vd
  | .vdot h u vd va vb => encV 0x96 (aBit u) h 0 vb va vd
  | .viota h vd => encV 0x97 0 h 0 0 0 vd
  | .kop op kd ka kb => encV 0x98 op.code ⟨.b8, false, 0⟩ 0 (0#3 ++ kb) (0#3 ++ ka) (0#3 ++ kd)
  | .kmov toG k g =>
    if toG then encV 0x99 1 ⟨.b8, false, 0⟩ 0 0 (0#3 ++ k) (0#1 ++ g) else encV 0x99 0 ⟨.b8, false, 0⟩ 0 0 (0#1 ++ g) (0#3 ++ k)
  | .ktest op g k => encV 0x9A op.code ⟨.b8, false, 0⟩ 0 0 (0#3 ++ k) (0#1 ++ g)
  | .crd et cj vd ga imm => encVX 0x9B (0#3 ++ cj) ⟨et, false, 0⟩ (0#11 ++ imm) 0 ga vd
  | .cwr et cj vd ga imm => encVX 0x9C (0#3 ++ cj) ⟨et, false, 0⟩ (0#11 ++ imm) 0 ga vd
  | .tld sc fmt zd desc b c => encTM 0xA0 (0#2 ++ zd) sc fmt 0 0 desc b c
  | .tldc fmt cd desc b c => encTM 0xA1 (0#3 ++ cd) false fmt 0 0 desc b c
  | .tst fmt za desc b c => encTM 0xA2 0 false fmt 0 za desc b c
  | .tstc fmt cd desc b c => encTM 0xA3 0 false fmt cd 0 desc b c
  | .tzero cd => encTR 0xA4 (0#3 ++ cd) 0 false 0 0 0 0 0
  | .tmma fmt ua ub cd za zb => encTR 0xA5 (0#3 ++ cd) ((0#4 ++ ofBit1 ub) ++ ofBit1 ua) false fmt.code 0 0 zb za
  | .tmmas sc fmt ua ub cd za zb zc => encTR 0xA6 (0#3 ++ cd) ((0#4 ++ ofBit1 ub) ++ ofBit1 ua) sc fmt.code 0 zc zb za
  | .tmmax fmt cd za zb => encTR 0xA7 (0#3 ++ cd) 0 false fmt.code 0 0 zb za
  | .tcvt fmt r sat u zd cs => encTR 0xA8 (0#2 ++ zd) (((0#1 ++ ofBit1 u) ++ ofBit1 sat) ++ r.code) false fmt.code cs 0 0 0
  | .ttrans fmt zd za => encTR 0xA9 (0#2 ++ zd) 0 false fmt.code 0 0 0 za
  | .tsync => encTR 0xAA 0 0 false 0 0 0 0 0
  | .bcopy o => encCopy 0xB0 0 0 o
  | .bcopyt out desc o => encCopy 0xB1 (0#1 ++ ofBit1 out) desc o
  | .bfill o => encCopy 0xB2 0 0 o
  | .bloadb o => encCopy 0xB3 0 0 o
  | .bcopyc lines o => encCopy 0xB4 0 lines o
  | .tret => ⟨0xC0, 0, 0, 0⟩
  | .rdpr d n => encSpr 0xC1 d n
  | .wrpr a n => encSpr 0xC2 a n
  | .plbinvOne b c => encRR 0xC3 0 0 c b
  | .plbinvDom c => encRR 0xC3 0 1 c 0
  | .plbinvAll => encRR 0xC3 0 2 0 0
  | .xlinvPage b => encRR 0xC4 0 0 0 b
  | .xlinvAll => encRR 0xC4 0 1 0 0
  | .ctxsave b => encRR 0xC5 0 0 0 b
  | .ctxload b => encRR 0xC6 0 0 0 b
  | .descw b c => encRR 0xC7 0 0 c b
  | .ipi b c => encRR 0xC8 0 0 c b
  | .domainWrite a => encSpr 0xC2 a 0x106
  | .protrootWrite a => encSpr 0xC2 a 0x107
  | .ptrootWrite a => encSpr 0xC2 a 0x108
  | .descbaseWrite a => encSpr 0xC2 a 0x109
  | .pressbindWrite a => encSpr 0xC2 a 0x10C
  | .wshareWrite a => encSpr 0xC2 a 0x10D
  | .fdutyWrite a => encSpr 0xC2 a 0x10E
  | .timecmpWrite a => encSpr 0xC2 a 0x110
  | .ipipendWrite a => encSpr 0xC2 a 0x111
  | .barcfgWrite a => encSpr 0xC2 a 0x113
  | .spwinWrite a i => encSpr 0xC2 a (0x023#9 ++ i)
  | .sholdSet a | .sholdRelease a => encSpr 0xC2 a 0x100
  | .recover a => encSpr 0xC2 a 0x112
  | .fwCallVersion => encRI 0x38 0 0xFF00 0 0
  | .sign => encRI 0x38 0 0xFF01 0 0
  | .fwCallSetLimit => encRI 0x38 0 0xFF02 0 0
  | .setRestart => encRI 0x38 0 0xFF03 0 0
  | .fwCallLogRead => encRI 0x38 0 0xFF04 0 0
  | .unassignedOpcode h => ⟨headOp h, headTl h, headA h, 0⟩
  | _ => ⟨0, 0, 0, 0⟩

/-- The head value of an instruction, which `TRAPVAL` reports (R66). -/
def headOf (i : Instr) : BitVec 16 := (encode i).head

/-! ### Lines (R62, R63, R67) -/

/-- Byte `k` of a 64-byte line. -/
def lineByte (l : BitVec 512) (k : Nat) : Nat := l.toNat / 2 ^ (8 * k) % 256

/-- H, the number of heads (R62). -/
def lineH (l : BitVec 512) : Nat := lineByte l 0 % 32

/-- Head `i` of a line (R62). -/
def lineHead (l : BitVec 512) (i : Nat) : BitVec 16 := BitVec.ofNat 16 (l.toNat / 2 ^ (8 * (2 + 2 * i)))

/-- TailLen(TL) in bytes (R62). -/
def tailLen (h : BitVec 16) : Nat := 2 * headTl h

/-- The total length of tails 0 to `n` - 1 (R62). -/
def tailSum (l : BitVec 512) : Nat → Nat
  | 0 => 0
  | n + 1 => tailSum l n + tailLen (lineHead l n)

/-- The value of tail `i`: the bytes from 64 less the lengths of tails 0 to i (R62). -/
def lineTail (l : BitVec 512) (i : Nat) : Nat :=
  l.toNat / 2 ^ (8 * (64 - tailSum l (i + 1))) % 2 ^ (8 * tailLen (lineHead l i))

/-- Some head below `n` has TL = 7 (R62). -/
def anyTl7 (l : BitVec 512) : Nat → Bool
  | 0 => false
  | n + 1 => anyTl7 l n || headTl (lineHead l n) == 7

/-- The checks of R63 at slot `s`, in the order of its pseudocode: the detail of the first failure. -/
def lineCheck (l : BitVec 512) (s : Nat) : Option Nat :=
  let h := lineH l
  if lineByte l 0 / 32 ≠ 0 ∨ lineByte l 1 ≠ 0 ∨ h = 0 ∨ 28 < h then some 1
  else if anyTl7 l h then some 4
  else if 64 < 2 + 2 * h + tailSum l h then some 2
  else if l.toNat / 2 ^ (8 * (2 + 2 * h)) % 2 ^ (8 * (62 - 2 * h - tailSum l h)) ≠ 0 then some 3
  else if h ≤ s then some 10
  else none

/-- Slot(a) = (a[5:0] - 2) / 2 (R67). -/
def slotOf (a : Nat) : Nat := (a % 64 - 2) / 2

/-- A head address has a[5:0] even and from 2 to 56 (R67). -/
def isHeadAddr (a : Nat) : Bool := a % 2 == 0 && 2 ≤ a % 64 && a % 64 ≤ 56

/-- Put `b` bytes of value `v` at byte `k` of a line under construction. -/
def putBytes (l k v : Nat) : Nat := l + v * 2 ^ (8 * k)

/-- The line that holds one instruction, at slot 0: H = 1, its head, zero gap, its tail at the top (R62). -/
def lineOf (h : BitVec 16) (t : Nat) : BitVec 512 :=
  BitVec.ofNat 512 (putBytes (putBytes 1 2 h.toNat) (64 - tailLen h) (t % 2 ^ (8 * tailLen h)))

/-- Decode the head at slot `s` of a line. -/
def decodeSlot (l : BitVec 512) (s : Nat) : Decoded := decode (lineHead l s) (lineTail l s)

/-- The instruction the decoder reads from a word of the opcode table. The table writes an instruction as one number with the
head above its tail (see `match` of its rows): the head is the top 16 of the `nbits` bits and the tail the bits below. The
word is laid out as a one-instruction line and decoded from there. -/
def tableHead (nbits w : Nat) : BitVec 16 := BitVec.ofNat 16 (w / 2 ^ (nbits - 16))

/-- The tail value of a table word; bits the table leaves out are 0. -/
def tableTail (nbits w : Nat) : Nat := w % 2 ^ (nbits - 16)

/-- The decoder's answer for a table word (`none` where the decoder refuses the head). -/
def decodeTableWord (nbits w : Nat) : Option Instr :=
  match decodeSlot (lineOf (tableHead nbits w) (tableTail nbits w)) 0 with
  | .ok i => some i
  | .error _ => none

end Sys2Proof
end

