-- ==== Sys2Proof/Machine/Ops.lean ====
section
/-! DEFINITION. The named operations over agents and their registers: who runs, reading and writing registers, the next PC,
retirement and its energy charge (R368 to R371), waits and their withdrawal (R37 to R40), reservations (R218 to R220), and taking
a trap, an interrupt or a machine check (R317 to R319, R321, R330). -/

namespace Sys2Proof.Machine

/-- What a meaning answers. -/
abbrev Out := Host.Outcome State Fault Refusal

/-- Apply a function to every value of a finite map. -/
def Store.mapV {α : Type} (f : Nat → α → α) (m : Store α) : Store α := m.map fun e => (e.1, f e.1 e.2)

/-! ### Parts of the package -/

/-- Core `q`; a core that nothing has touched is at reset. -/
def State.core (s : State) (q : Nat) : CoreSt := (Store.find? s.cores q).getD CoreSt.reset

def State.setCore (s : State) (q : Nat) (c : CoreSt) : State := { s with cores := Store.ins s.cores q c }

def State.modCore (s : State) (q : Nat) (f : CoreSt → CoreSt) : State := s.setCore q (f (s.core q))

/-- The vat of a core (R312: 64 x die + 4 x vat + position). -/
def vatOf (q : Nat) : Nat := q / 4

/-- The die of a core. -/
def dieOf (q : Nat) : Nat := q / 64 % 4

def State.vat (s : State) (v : Nat) : Vat := (Store.find? s.vats v).getD Vat.reset

def State.modVat (s : State) (v : Nat) (f : Vat → Vat) : State := { s with vats := Store.ins s.vats v (f (s.vat v)) }

/-- The partition of a core (R385). -/
def State.partOf (s : State) (q : Nat) : Nat := Store.get s.vatPart 0 (vatOf q)

def State.part (s : State) (p : Nat) : Part := (Store.find? s.parts p).getD Part.reset

def State.modPart (s : State) (p : Nat) (f : Part → Part) : State := { s with parts := Store.ins s.parts p (f (s.part p)) }

def State.port (s : State) (j : Nat) : Port := (Store.find? s.ports j).getD Port.reset

def State.modPort (s : State) (j : Nat) (f : Port → Port) : State := { s with ports := Store.ins s.ports j (f (s.port j)) }

def State.region (s : State) (r : Nat) : Region := (Store.find? s.pool r).getD Region.reset

def State.modRegion (s : State) (r : Nat) (f : Region → Region) : State := { s with pool := Store.ins s.pool r (f (s.region r)) }

def State.thr (s : State) (q : Nat) : Thread := (s.core q).thr

def State.modThr (s : State) (q : Nat) (f : Thread → Thread) : State := s.modCore q fun c => { c with thr := f c.thr }

def State.priv (s : State) (q : Nat) : Priv := (s.core q).priv

def State.modPriv (s : State) (q : Nat) (f : Priv → Priv) : State := s.modCore q fun c => { c with priv := f c.priv }

def State.modStatus (s : State) (q : Nat) (f : Status → Status) : State := s.modPriv q fun p => { p with status := f p.status }

/-- Sprig `i` of core `q`. -/
def State.sprig (s : State) (q i : Nat) : Sprig := (Store.find? (s.core q).arr.sprigs i).getD Sprig.reset

/-- Change a sprig; its unit becomes dirty (R327). -/
def State.modSprig (s : State) (q i : Nat) (f : Sprig → Sprig) : State :=
  s.modCore q fun c => { c with
    arr := { c.arr with sprigs := Store.ins c.arr.sprigs i (f ((Store.find? c.arr.sprigs i).getD Sprig.reset)) }
    dirty := { c.dirty with sprig := c.dirty.sprig ||| BitVec.ofNat 64 (2 ^ i) } }

/-- What an agent holds beside its registers. -/
def State.ag (s : State) (a : AgentId) : Agent :=
  match a.who with
  | .thread => (s.thr a.core).ag
  | .sprig i => (s.sprig a.core i).ag

/-- Change what an agent holds beside its registers; no record of an image holds it, so no unit becomes dirty (R326, R327). -/
def State.modAg (s : State) (a : AgentId) (f : Agent → Agent) : State :=
  match a.who with
  | .thread => s.modThr a.core fun t => { t with ag := f t.ag }
  | .sprig i => s.modCore a.core fun c =>
    let p := (Store.find? c.arr.sprigs i).getD Sprig.reset
    { c with arr := { c.arr with sprigs := Store.ins c.arr.sprigs i { p with ag := f p.ag } } }

/-- No read of the agent is out of its place any more: none has been made early, and those made so far are performed (R272, R274,
log 7). -/
def Agent.inPlace (g : Agent) : Agent := { g with ahead := [], late := [] }

/-- What the agent does now stands after its earlier reads and before its later ones (R272, R274, log 7). -/
def State.dropAhead (s : State) (a : AgentId) : State :=
  if (s.ag a).ahead = [] ∧ (s.ag a).late = [] then s else s.modAg a Agent.inPlace

/-! ### Registers -/

/-- Where a scalar register of a thread stands at a privilege level (R309, R310). -/
def gKey (l : Level) (r : Nat) : Nat :=
  if r < 24 then r else match l with
    | .user => r
    | .kernel => r + 8
    | .firmware => r + 16

/-- Reading a scalar register (R45): g0 reads as zero. -/
def State.getG (s : State) (a : AgentId) (r : BitVec 5) : Word :=
  if r = 0 then 0 else
    match a.who with
    | .thread => Store.get (s.thr a.core).g 0 (gKey (s.priv a.core).status.pl r.toNat)
    | .sprig i => Store.get (s.sprig a.core i).g 0 r.toNat

/-- A read made early whose address does not depend on a register (R271). -/
def EarlyRead.spares (e : EarlyRead) (r : BitVec 5) : Bool := e.m.b != r && e.m.x != r

/-- A scalar register of an agent changes: a read made early whose address names it is forgotten (R271; log 7). -/
def Agent.wrote (g : Agent) (r : BitVec 5) : Agent := { g with ahead := g.ahead.filter fun e => e.spares r }

/-- Writing a scalar register (R45): a write to g0 is ignored. -/
def State.setG (s : State) (a : AgentId) (r : BitVec 5) (v : Word) : State :=
  if r = 0 then s else
    match a.who with
    | .thread => s.modThr a.core fun t =>
        { t with g := Store.put t.g 0 (gKey (s.priv a.core).status.pl r.toNat) v, ag := t.ag.wrote r }
    | .sprig i => s.modSprig a.core i fun p => { p with g := Store.put p.g 0 r.toNat v }

/-- A register of the agent of the present step. -/
def State.rg (s : State) (r : BitVec 5) : Word := s.getG s.cur r

/-- The dynamic rounding mode of an agent (R56, R58). -/
def State.rmOf (s : State) (a : AgentId) : BitVec 3 :=
  match a.who with
  | .thread => (s.thr a.core).rm
  | .sprig i => (s.sprig a.core i).rm

/-- Raise flags: `FPSTAT` accumulates (R57, R104). -/
def State.raiseFlags (s : State) (a : AgentId) (fl : BitVec 6) : State :=
  if fl = 0 then s else
    match a.who with
    | .thread => s.modThr a.core fun t => { t with fpstat := t.fpstat ||| fl }
    | .sprig i => s.modSprig a.core i fun p => { p with fpstat := p.fpstat ||| fl }

/-- The PC of an agent; a sprig's is a block-store address (R67). -/
def State.pcOf (s : State) (a : AgentId) : Word :=
  match a.who with
  | .thread => (s.thr a.core).pc
  | .sprig i => (s.sprig a.core i).pc.setWidth 64

/-- The line of an address (R67). -/
def lineBase (w : Word) : Word := w &&& ~~~63#64

/-- NextPC (R67): H comes from the line as the agent read it. -/
def State.nextPc (s : State) (a : AgentId) : Word :=
  let pc := s.pcOf a
  let h := match (s.ag a).snap with
    | some n => lineH n.line
    | none => 0
  if slotOf pc.toNat + 1 < h then pc + 2 else lineBase pc + 66

/-- Set the PC; the line the agent has read is kept only when the PC moves on within it by `keep` (R61, R63). -/
def State.setPc (s : State) (a : AgentId) (v : Word) (keep : Bool) : State :=
  match a.who with
  | .thread => s.modThr a.core fun t => { t with pc := v, ag := { t.ag with snap := if keep then t.ag.snap else none } }
  | .sprig i => s.modSprig a.core i fun p =>
      { p with pc := v.setWidth 17, ag := { p.ag with snap := if keep then p.ag.snap else none } }

/-! ### Energy (R368 to R371) -/

/-- inc(w) of R368, for w in pJ. -/
def energyInc (w : Nat) : Nat := (w * 65536 + 500) / 1000

/-- Charge `u` units to a thread's counter (R368). -/
def chargeUnits (t : Thread) (u : Nat) : Thread :=
  if 2 ^ 64 - 1 < t.energy.toNat + u then { t with energy := 0xFFFFFFFFFFFFFFFF, sat := true }
  else { t with energy := BitVec.ofNat 64 (t.energy.toNat + u) }

/-- Charge `n` times the weight of a class to the context resident on a core (R370, R371). -/
def State.charge (s : State) (q cls n : Nat) : State :=
  if (s.core q).resident then
    s.modThr q fun t => chargeUnits t (energyInc (n * (Store.get (s.priv q).eweight 0 cls).toNat))
  else s

/-- An element type of the classes 8 and 9 (R369). -/
def vecClass (et : Ty) : Nat := if et.isInt then 8 else 9

/-- The energy class of an instruction (Table 4 of R369); copies, `ctxsave` and `ctxload` are charged apart. One with an Int ET that a row
of class 10 or 11 names by its opcode has that class, and not 8: the model's choice (log 47). -/
def energyClass : Instr → Option Nat
  | .mul _ _ _ | .mulh _ _ _ _ | .div _ _ _ _ | .rem _ _ _ _ => some 1
  | .add _ _ _ | .sub _ _ _ | .and _ _ _ | .or _ _ _ | .xor _ _ _ | .shl _ _ _ | .shr _ _ _ | .sra _ _ _ | .min _ _ _ _
  | .max _ _ _ _ | .slt _ _ _ _ | .cmov _ _ _ | .clz _ _ | .ctz _ _ | .popc _ _ | .sext _ _ _ | .zext _ _ _ | .addsh _ _ _ _
  | .addi _ _ _ | .andi _ _ _ | .ori _ _ _ | .xori _ _ _ | .shli _ _ _ | .shri _ _ _ | .srai _ _ _ | .liTail2 _ _
  | .liTail4 _ _ | .liTail8 _ _ | .addpcLine _ _ | .addpcByte _ _ => some 0
  | .fadd _ _ _ _ _ | .fsub _ _ _ _ _ | .fmul _ _ _ _ _ | .fdiv _ _ _ _ _ | .fsqrt _ _ _ _ | .fma _ _ _ _ _
  | .fmin _ _ _ _ | .fmax _ _ _ _ | .fcmp _ _ _ _ _ | .fcvt _ _ _ _ | .fclass _ _ _ => some 2
  | .jmp _ _ | .call _ _ _ | .jmpr _ | .callr _ _ | .br _ _ _ _ _ _ | .brz _ _ _ _ _ | .callx _ _ | .nop | .svc _ | .brk _
  | .fwCallVersion | .sign | .fwCallSetLimit | .setRestart | .fwCallLogRead
  | .idle | .time _ | .pref _ _ | .fence _ _ | .rdsr _ _ | .wrsr _ _ | .migrate _ | .bfetch _ | .stop | .sid _ => some 3
  | .ld _ _ _ => some 4
  | .st _ _ _ | .cache _ _ => some 5
  | .lrw _ _ | .sch _ _ _ | .relq _ | .amo _ _ _ _ | .cas _ _ _ | .mcas _ _ _ _ | .takew _ _ | .peekw _ _ | .putw _ _
  | .fillw _ _ | .emptyw _ | .waitne _ _ _ | .cred _ _ _ | .semp _ _ _ _ | .semv _ _ _ _ | .semrd _ _ _ _ | .bar _ _ _ _ _ =>
    some 6
  | .sconf _ _ | .sbcast _ _ _ | .swait _ _ | .sget _ _ _ | .sput _ _ _ | .skill _ => some 7
  | .lsend _ _ _ | .lrecv _ _ _ | .vand _ _ _ _ | .vor _ _ _ _ | .vxor _ _ _ _ | .vshlVec _ _ _ _ | .vshlImm _ _ _ _
  | .vshrVec _ _ _ _ | .vshrImm _ _ _ _ | .vsraVec _ _ _ _ | .vsraImm _ _ _ _ | .vsel _ _ _ _ _ | .vrng _ _ _ | .vperm _ _ _ _ _
  | .valign _ _ _ _ _ | .vbcast _ _ _ _ | .vextr _ _ _ _ | .vins _ _ _ _ | .vaddsat _ _ _ _ _ _ | .vmulhi _ _ _ _ _
  | .vbitc _ _ _ _ | .viota _ _ | .kop _ _ _ _ | .kmov _ _ _ | .ktest _ _ _ => some 8
  | .vadd h _ _ _ _ | .vsub h _ _ _ _ | .vmul h _ _ _ _ | .vmin h _ _ _ _ | .vmax h _ _ _ _ | .vcmp h _ _ _ _ _
  | .vneg h _ _ _ | .vscan h _ _ _ _ | .vdot h _ _ _ _ => some (vecClass h.et)
  | .vred et _ _ _ _ _ => some (vecClass et)
  | .vfma _ _ _ _ _ _ | .vdiv _ _ _ _ _ | .vsqrt _ _ _ _ => some 9
  | .vrcp _ _ _ | .vrsq _ _ _ | .vexp2 _ _ _ | .vlog2 _ _ _ | .vcvt _ _ _ _ _ _ _ | .vcvts _ _ _ _ _ _ => some 10
  | .vld _ _ _ _ | .vst _ _ _ _ _ | .vgath _ _ _ _ _ | .vscat _ _ _ _ _ _ | .crd _ _ _ _ _ | .cwr _ _ _ _ _ => some 11
  | .tld _ _ _ _ _ _ | .tldc _ _ _ _ _ | .tst _ _ _ _ _ | .tstc _ _ _ _ _ | .tzero _ | .tcvt _ _ _ _ _ _ | .ttrans _ _ _
  | .tsync => some 12
  | .tmma _ _ _ _ _ _ | .tmmas _ _ _ _ _ _ _ _ | .tmmax _ _ _ _ => some 13
  | .tret | .rdpr _ _ | .wrpr _ _ | .plbinvOne _ _ | .plbinvDom _ | .plbinvAll | .xlinvPage _ | .xlinvAll | .descw _ _ | .ipi _ _
  | .sholdSet _ | .sholdRelease _ | .domainWrite _ | .spwinWrite _ _ | .pressbindWrite _ | .ipipendWrite _ | .timecmpWrite _
  | .barcfgWrite _ | .ptrootWrite _ | .protrootWrite _ | .descbaseWrite _ | .wshareWrite _ | .fdutyWrite _ | .recover _ =>
    some 15
  | _ => none

/-- Charge an instruction of an agent (R371): firmware instructions charge nothing. -/
def State.chargeInstr (s : State) (a : AgentId) (i : Instr) : State :=
  if a.who = .thread ∧ (s.priv a.core).status.pl = .firmware then s
  else match energyClass i with
    | some c => s.charge a.core c 1
    | none => s

/-! ### Retirement -/

/-- Every agent of the cores that anything has touched. -/
def State.allAgents (s : State) : List AgentId :=
  s.cores.flatMap fun e => ⟨e.1, .thread⟩ :: e.2.arr.sprigs.map fun x => ⟨e.1, .sprig x.1⟩

/-- Nothing waits, and no instruction is in progress. The later reads of an instruction that waited are made after it (R265, R269,
R272). -/
def Agent.idle (g : Agent) : Agent :=
  { g with wait := none, mcas := none, inval := false, ahead := if g.wait.isSome then [] else g.ahead
           late := if g.wait.isSome then [] else g.late }

/-- A sprig that was waiting runs again; nothing waits. -/
def State.endWait (s : State) (a : AgentId) : State :=
  match a.who with
  | .thread => s.modThr a.core fun t => { t with ag := t.ag.idle }
  | .sprig i => s.modSprig a.core i fun p =>
      { p with ag := p.ag.idle, st := if p.st = .waiting then .running else p.st }

/-- `RETIRED` counts the instructions of the thread (R57, R58). -/
def State.countRetired (s : State) (a : AgentId) : State :=
  match a.who with
  | .thread => s.modThr a.core fun t => { t with retired := t.retired + 1 }
  | .sprig _ => s

/-- An instruction of an agent completes: the PC moves to `target`, the count and the charge follow (R57, R371). -/
def State.retireTo (s : State) (a : AgentId) (i : Instr) (target : Word) (keep : Bool) : State :=
  (((s.chargeInstr a i).countRetired a).setPc a target keep).endWait a

/-- An instruction completes and the PC moves to NextPC (R67). -/
def State.retire (s : State) (a : AgentId) (i : Instr) : State :=
  let n := s.nextPc a
  s.retireTo a i n (lineBase n == lineBase (s.pcOf a))

/-- The instruction of the present step completes. -/
def finish (i : Instr) (s : State) : Out := .next (s.retire s.cur i)

/-- The instruction of the present step writes one register and completes. -/
def finishG (i : Instr) (d : BitVec 5) (v : Word) (s : State) : Out := finish i (s.setG s.cur d v)

/-- An `idle` in progress completes (R141); that of a core a mover has claimed stands until the context arrives (R332, log 24). -/
def State.wakeIdle (s : State) (q : Nat) : State :=
  match (s.thr q).run with
  | .idle _ => if (s.core q).claimed then s else (s.modThr q fun t => { t with run := .running }).retire ⟨q, .thread⟩ .idle
  | .off | .running | .halted | .lost => s

/-! ### Semaphores, reservations and leaving queues -/

/-- The semaphore of a vat (R59). -/
def State.sem (s : State) (v n : Nat) : Sem := (Store.find? (s.vat v).sems n).getD Sem.reset

def State.setSem (s : State) (v n : Nat) (x : Sem) : State := s.modVat v fun w => { w with sems := Store.ins w.sems n x }

/-- A copy command's wait is granted: it is ready (R236). -/
def State.engineReady (s : State) (q id : Nat) : State :=
  s.modCore q fun c => { c with cpy := { c.cpy with
    cmds := c.cpy.cmds.map fun m => if m.id = id then { m with stage := .ready } else m } }

/-- Serve waiters from the head as far as the count allows (R232). -/
def State.serveSemQ (s : State) (v n : Nat) : List (SemWho × BitVec 32) → State
  | [] => s
  | (w, k) :: rest =>
    let m := s.sem v n
    if k.toNat ≤ m.count.toNat then
      let s := s.setSem v n { m with count := m.count - k, ovf := false, queue := rest }
      let s := match w with
        | .agent a => s.retire a (.semp .none .die 0 (BitVec.ofNat 8 n))
        | .engine q id => s.engineReady q id
      State.serveSemQ s v n rest
    else s

def State.serveSem (s : State) (v n : Nat) : State := s.serveSemQ v n (s.sem v n).queue

/-- Remove an agent or engine from a vat's semaphore queues, serving those behind it. -/
def State.leaveSems (s : State) (v : Nat) (w : SemWho) : List (Nat × Sem) → State
  | [] => s
  | (n, m) :: rest =>
    let s := if m.queue.any fun e => e.1 = w then
        (s.setSem v n { s.sem v n with queue := (s.sem v n).queue.filter fun e => e.1 ≠ w }).serveSem v n
      else s
    State.leaveSems s v w rest

/-- The requests that wait for a free slot of a slice, in order of arrival (R218): those for a line that has its slot join the
line's queue, and the first for another line takes the free slot, with those for its line behind it. -/
def State.serveSlots (s : State) (home : Nat) : List SlotReq → State
  | [] => { s with sliceQ := Store.put s.sliceQ [] home [] }
  | r :: rest =>
    match Store.find? s.res r.line with
    | some e => State.serveSlots { s with res := Store.ins s.res r.line { e with queue := e.queue ++ [(r.who, r.lrw)] } } home rest
    | none => { s with
        sliceQ := Store.put s.sliceQ [] home (rest.filter fun x => x.line ≠ r.line)
        res := Store.ins s.res r.line
          ⟨home, r.vline, some r.who, r.lrw, s.time, (rest.filter fun x => x.line = r.line).map fun x => (x.who, x.lrw)⟩ }

/-- A slot of a slice freed: the requests that wait for one move up (R218). -/
def State.slotFreed (s : State) (home : Nat) : State :=
  match Store.get s.sliceQ [] home with
  | [] => s
  | r :: rest => s.serveSlots home (r :: rest)

/-- A reservation ends: the next waiter is granted, or the line's slot frees (R218, R220). -/
def State.releaseLine (s : State) (line : Nat) : State :=
  match Store.find? s.res line with
  | none => s
  | some e =>
    match e.queue with
    | (b, lrw) :: rest => { s with res := Store.ins s.res line { e with holder := some b, byLrw := lrw, granted := s.time, queue := rest } }
    | [] => State.slotFreed { s with res := Store.del s.res line } e.home

/-- The lines an agent holds without `lrw`, for an instruction still in progress (R227). -/
def State.internalLines (s : State) (a : AgentId) : List Nat :=
  (s.res.filter fun e => e.2.holder == some a && !e.2.byLrw).map fun e => e.1

/-- A request that is answered MOVED, or parks, gives up its places in the queues of lines, and every line held for an instruction in
progress (R220, R245, R348). -/
def State.giveUpLines (s : State) (a : AgentId) : State :=
  let s := { s with
    res := Store.mapV (fun _ (e : ResLine) => { e with queue := e.queue.filter fun w => w.1 ≠ a }) s.res
    sliceQ := (Store.mapV (fun _ (l : List SlotReq) => l.filter fun w => w.who ≠ a) s.sliceQ).filter fun e => e.2 ≠ [] }
  (s.internalLines a).foldl State.releaseLine s

/-- The lines whose reservation an agent holds; `lrwOnly` keeps those taken by `lrw`. -/
def State.heldLines (s : State) (a : AgentId) (lrwOnly : Bool) : List Nat :=
  (s.res.filter fun e => e.2.holder == some a && (!lrwOnly || e.2.byLrw)).map fun e => e.1

/-- End every reservation of an agent (R220). -/
def State.releaseHeld (s : State) (a : AgentId) (lrwOnly : Bool) : State :=
  (s.heldLines a lrwOnly).foldl State.releaseLine s

/-- Another agent holds a reservation on the line, so this agent's access waits (R219). -/
def State.blocked (s : State) (a : AgentId) (line : Nat) : Bool :=
  match Store.find? s.res line with
  | some e => match e.holder with
    | some b => b != a
    | none => false
  | none => false

/-- Remove an agent from every queue it has joined (R38, Table 6 of chapter 01). -/
def State.leaveQueues (s : State) (a : AgentId) : State :=
  let s := { s with
    res := Store.mapV (fun _ e => { e with queue := e.queue.filter fun w => w.1 ≠ a }) s.res
    sliceQ := (Store.mapV (fun _ (l : List SlotReq) => l.filter fun w => w.who ≠ a) s.sliceQ).filter fun e => e.2 ≠ []
    tagQ := Store.mapV (fun _ t => { fullQ := t.fullQ.filter fun w => w.who ≠ a, emptyQ := t.emptyQ.filter fun w => w.who ≠ a }) s.tagQ
    monitors := s.monitors.filter fun m => m.who ≠ a
    arrivals := s.arrivals.filter fun r => (⟨r.core, .thread⟩ : AgentId) ≠ a
    parks := s.parks.filter fun p => p.who ≠ a
    poolFences := s.poolFences.filter fun p => p.who ≠ a }
  s.leaveSems (vatOf a.core) (.agent a) (s.vat (vatOf a.core)).sems

/-- An agent's requests that wait leave their queues, then its reservations end: a slot that frees goes to the request of another
(R38, R218, R220). -/
def State.leaveAll (s : State) (a : AgentId) : State := (s.leaveQueues a).releaseHeld a false

/-- Withdraw an instruction that waits, or an `mcas` in progress, without effect (R38, R40): its reservation requests, granted or
not, end. -/
def State.withdraw (s : State) (a : AgentId) : State :=
  let s := s.leaveAll a
  if (s.ag a).wait.isSome || (s.ag a).mcas.isSome || (s.ag a).inval then s.endWait a else s

/-- Step 3 of R35: every RUNNING or WAITING sprig stops between instructions. -/
def State.stopSprigs (s : State) (q : Nat) : State :=
  (List.range (s.core q).arr.n).foldl (fun s i =>
    match (s.sprig q i).st with
    | .running | .waiting => s.withdraw ⟨q, .sprig i⟩
    | .idle | .faulted => s) s

/-! ### Presses and the renaming of tiles (R13, R31 to R34) -/

/-- The press binding of a core: 00, 01 or 11 (R312). -/
def State.binding (s : State) (q : Nat) : Nat := (s.vat (vatOf q)).pressbind.toNat / 4 ^ (q % 4) % 4

/-- A press. -/
def State.press (s : State) (v p : Nat) : Press := if p = 0 then (s.vat v).press0 else (s.vat v).press1

def State.setPress (s : State) (v p : Nat) (x : Press) : State :=
  s.modVat v fun w => if p = 0 then { w with press0 := x } else { w with press1 := x }

/-- The key of a register of a position in a press's maps. -/
def tileKey (isZ : Bool) (c arch : Nat) : Nat := (if isZ then 8 else 4) * c + arch

/-- The register of a position maps to a physical tile. -/
def Press.setMap (x : Press) (isZ : Bool) (c arch p : Nat) : Press :=
  if isZ then { x with zmap := Store.ins x.zmap (tileKey true c arch) p }
  else { x with cmap := Store.ins x.cmap (tileKey false c arch) p }

/-- A physical tile returns to the pool. -/
def Press.free (x : Press) (isZ : Bool) (p : Nat) : Press :=
  if isZ then { x with zfree := x.zfree ++ [p] } else { x with cfree := x.cfree ++ [p] }

/-- A command that writes a register takes a fresh tile of the pool for it; none when the pool is empty (R32). -/
def Press.take (x : Press) (isZ : Bool) (c arch : Nat) : Option (Rename × Press) :=
  let old := Store.get (if isZ then x.zmap else x.cmap) 0 (tileKey isZ c arch)
  match if isZ then x.zfree else x.cfree with
  | [] => none
  | p :: rest => some (⟨isZ, arch, p, old⟩, (if isZ then { x with zfree := rest } else { x with cfree := rest }).setMap isZ c arch p)

/-- A squashed command gives its tile back, and its register maps to the tile before (R34). -/
def Press.undo (x : Press) (c : Nat) (r : Rename) : Press := (x.free r.isZ r.new).setMap r.isZ c r.arch r.old

/-- The mapping of a core's registers at this point of its stream, z0 to z7 then c0 to c3: what a branch's checkpoint records (R32). A
squash of the commands after that point brings it back (R34). -/
def State.tileMap (s : State) (q : Nat) : List Nat :=
  let x := s.press (vatOf q) (s.binding q)
  ((List.range 8).map fun j => Store.get x.zmap 0 (tileKey true (q % 4) j)) ++
    (List.range 4).map fun j => Store.get x.cmap 0 (tileKey false (q % 4) j)

/-- Squash every command of a core's tile queue, the youngest first (R34). -/
def State.squashTiles (s : State) (q : Nat) : State :=
  match (s.core q).til.queue with
  | [] => s
  | t :: ts =>
    let x := ((t :: ts).reverse.filterMap fun t => t.ren).foldl (fun x r => x.undo (q % 4) r) (s.press (vatOf q) (s.binding q))
    (s.setPress (vatOf q) (s.binding q) x).modCore q fun c => { c with til := { c.til with queue := [], checkpoints := [] } }

/-! ### Machine checks -/

/-- The lowest-numbered running core of a partition, outside a vat (R330); one that stands in `idle` is running (log 28). -/
def State.lowestRunning (s : State) (p : Nat) (outside : Option Nat) (notCore : Option Nat) : Option Nat :=
  (List.range 256).find? fun q =>
    (match (Store.find? s.cores q) with
      | some c => match c.thr.run with
        | .running | .idle _ => true
        | .off | .halted | .lost => false
      | none => false) && s.partOf q == p && some (vatOf q) != outside && some q != notCore

/-- The lowest-numbered running core of the package (R373), as `State.lowestRunning` takes it. -/
def State.firstRunning (s : State) : Option Nat :=
  (s.cores.find? fun e => match e.2.thr.run with
    | .running | .idle _ => true
    | .off | .halted | .lost => false).map fun e => e.1

/-- Caltik's log: one word an entry (R321, R330, R389). -/
def State.logEvent (s : State) (w : Word) : State := { s with caltik := { s.caltik with log := s.caltik.log ++ [w] } }

/-- A machine check queues at a core; a seventeenth is logged only (R330). -/
def State.queueMCheck (s : State) (q : Nat) (m : MCheck) : State :=
  let s := s.logEvent (m.val + field m.detail.toNat 56)
  if (s.core q).mchecks.length < 16 then s.modCore q fun c => { c with mchecks := c.mchecks ++ [m] } else s

/-- Deliver a machine check detected by core `q`; `vat` is the affected vat of RETENTION_LOST (R330). Whether the
core is halted is judged now, what waits at a core that halts later stays there, and with no core to tell Caltik's log alone has it
(log 28). -/
def State.deliverMCheck (s : State) (q : Nat) (vat : Option Nat) (detail : BitVec 8) (val : Word) : State :=
  if (s.core q).thr.run = .halted ∨ (s.core q).thr.run = .lost ∨ vat = some (vatOf q) then
    match s.lowestRunning (s.partOf q) vat none with
    | some b => s.queueMCheck b ⟨detail, val, true⟩
    | none => s.logEvent (val + field detail.toNat 56)
  else s.queueMCheck q ⟨detail, val, false⟩

/-! ### Taking a trap -/

/-- Cause codes (R315). -/
def cILLEGAL : Nat := 0x01
def cPRIV : Nat := 0x02
def cALIGN : Nat := 0x03
def cPROT : Nat := 0x04
def cXLATE : Nat := 0x05
def cPOOL : Nat := 0x06
def cMEMERR : Nat := 0x07
def cBRK : Nat := 0x08
def cSVC : Nat := 0x09
def cUNBOUND : Nat := 0x0A
def cWAITLIM : Nat := 0x0B
def cDESC : Nat := 0x0C
def cSPRIG : Nat := 0x0D
def cOPERAND : Nat := 0x0E
def cMIGRATE : Nat := 0x0F
def cTIMER : Nat := 0x20
def cIPI : Nat := 0x21
def cEXTERNAL : Nat := 0x22
def cCOPYERR : Nat := 0x24
def cPOWER : Nat := 0x25
def cMCHECK : Nat := 0x30

/-- R321: the thread stops at the failing instruction, at `pc`, the core halts and its sprigs with it (`State.sprigTurn`), Caltik logs,
and a machine check is delivered. -/
def State.doubleTrap (s : State) (q code : Nat) (pc : Word) : State :=
  let s := (((s.withdraw ⟨q, .thread⟩).stopSprigs q).setPc ⟨q, .thread⟩ pc false).modThr q fun t => { t with run := .halted }
  let s := (s.logEvent (field code 0)).logEvent pc
  s.deliverMCheck q none 3 (BitVec.ofNat 64 q)

/-- The registers of TrapEntry (R318): what `TRAPCAUSE`, `TRAPPC`, `TRAPVAL` and `STATUS` become. -/
def trapRegs (p : Priv) (code detail : Nat) (int : Bool) (pc val : Word) : Priv :=
  { p with
    trapcause := BitVec.ofNat 64 ((if int then 65536 else 0) + detail * 256 + code)
    trappc := pc
    trapval := val
    status := { p.status with
      pplKernel := p.status.pl != .user
      pie := p.status.ie
      pl := .kernel
      ie := false
      nest := true
      shold := p.status.shold || (int && code != cSPRIG && code != cMCHECK) } }

/-- The handler address (R318): slot 0 of the first handler line from user privilege, of the second otherwise. -/
def handlerPc (p : Priv) (from_ : Level) : Word :=
  lineBase p.trapvec + (if from_ = .user then 2 else 66)

/-- Taking a trap, an interrupt or a machine check: the ONE entry of R318. The thread's wait, if any, is withdrawn (R40). -/
def State.trapEntry (s : State) (q code detail : Nat) (int : Bool) (pc val : Word) : State :=
  if (s.priv q).status.nest && !int then s.doubleTrap q code pc
  else
    let s := (s.withdraw ⟨q, .thread⟩).dropAhead ⟨q, .thread⟩
    let s := if int && code != cSPRIG && code != cMCHECK then s.stopSprigs q else s
    let from_ := (s.priv q).status.pl
    let s := s.modPriv q fun p => trapRegs p code detail int pc val
    (s.setPc ⟨q, .thread⟩ (handlerPc (s.priv q) from_) false).modThr q fun t => { t with run := .running }

/-- A sprig's fault (R25): the record is written, the queue emptied, the sprig joins the unreported set (R319). Span state is 0
while FAULTED (R51); a reservation ends (R220). -/
def State.sprigFault (s : State) (q i code : Nat) (val : Word) : State :=
  let s := s.withdraw ⟨q, .sprig i⟩
  let s := s.modSprig q i fun p => { p with
    st := .faulted, queue := [], fcause := BitVec.ofNat 8 code, fpc := p.pc.setWidth 16, fval := val
    bstart := 0, free := false, ag := { p.ag with snap := none } }
  (s.modCore q fun c => { c with unrep := c.unrep ||| BitVec.ofNat 64 (2 ^ i) }).wakeIdle q

/-- A condition at an agent whose stores are performed: the trap of a thread, the fault of a sprig. -/
def State.condAt (s : State) (a : AgentId) (code detail : Nat) (val : Word) : State :=
  match a.who with
  | .thread => s.trapEntry a.core code detail false (s.pcOf a) val
  | .sprig i => s.sprigFault a.core i code val

end Sys2Proof.Machine
end

