-- ==== Sys2Proof/Machine/Tensor.lean ====
section
/-! DEFINITION. Tensor descriptors as the 64 bytes of their entry (R352), and the addresses of their elements (R197). -/

namespace Sys2Proof.Machine

/-- Field of `n` bytes at byte `k` of an entry. -/
def descField (d : BitVec 512) (k n : Nat) : Nat := d.toNat / 2 ^ (8 * k) % 2 ^ (8 * n)

def descBase (d : BitVec 512) : Nat := descField d 0 8

/-- EXT0 to EXT3. -/
def descExt (d : BitVec 512) (k : Nat) : Nat := descField d (8 + 4 * k) 4

/-- STR1 to STR3. -/
def descStr (d : BitVec 512) (k : Nat) : Nat := descField d (16 + 8 * k) 8

/-- The word at byte 48: reserved, DOM, ETYPE, SCALED, WR, RD, V. -/
def descWord (d : BitVec 512) : Nat := descField d 48 8

def descDom (d : BitVec 512) : Nat := nbits (descWord d) 21 8
def descEtype (d : BitVec 512) : Nat := nbits (descWord d) 7 4
def descScaled (d : BitVec 512) : Bool := tst (descWord d) 3
def descWr (d : BitVec 512) : Bool := tst (descWord d) 2
def descRd (d : BitVec 512) : Bool := tst (descWord d) 1
def descV (d : BitVec 512) : Bool := tst (descWord d) 0

/-- The offset of the lowest field that fails step 4 of R353, or none: the entry is well formed. -/
def descFault (d : BitVec 512) : Option Nat :=
  let v := descV d
  if v && !canonical (BitVec.ofNat 64 (descBase d)) then some 0
  else if v && descExt d 0 == 0 then some 8
  else if v && descExt d 1 == 0 then some 12
  else if v && descExt d 2 == 0 then some 16
  else if v && descExt d 3 == 0 then some 20
  else if descWord d / 2 ^ 22 ≠ 0 || (v && (descEtype d == 15 || (descScaled d && !(8 ≤ descEtype d && descEtype d ≤ 12)))) then some 48
  else if descField d 56 8 ≠ 0 then some 56
  else none

/-- RowBase of R197, modulo 2^64. -/
def rowBase (d : BitVec 512) (x1 x2 x3 : Nat) : Nat :=
  (descBase d + x1 * descStr d 1 + x2 * descStr d 2 + x3 * descStr d 3) % 2 ^ 64

/-- InBounds of R197. -/
def inBounds (d : BitVec 512) (x0 x1 x2 x3 : Nat) : Bool :=
  x0 < descExt d 0 && x1 < descExt d 1 && x2 < descExt d 2 && x3 < descExt d 3

/-- Container size in bytes of an ETYPE code for `bcopyt` (R240). -/
def etypeBytes (e : Nat) : Nat :=
  if e = 1 ∨ e = 4 ∨ e = 5 then 2 else if e = 2 ∨ e = 6 ∨ e = 13 then 4 else if e = 3 ∨ e = 7 then 8 else 1

end Sys2Proof.Machine
end

