-- ==== Sys2Proof/Machine/Mem.lean ====
section
/-! DEFINITION. Memory by location (R251, R256): reading and writing bytes in canonical form, full bits (R228), uncorrectable
errors (R252), dirty copies (R247), and what the acceptance of a write does (R266, R230, R120, R348). -/

namespace Sys2Proof.Machine

/-! ### Locations -/

/-- Byte `off` of the scratchpad of core `q`. -/
def scratchLoc (q off : Nat) : Nat := 2 ^ 52 + q * 2 ^ 19 + off

def isScratch (l : Nat) : Bool := 2 ^ 52 ≤ l

/-- HBM of some package (Table 2 of chapter 10). -/
def isHbm (l : Nat) : Bool := l < 2 ^ 43 && l % 2 ^ 40 < 2 ^ 39

/-- The package whose HBM window holds a location. -/
def pkgOfLoc (l : Nat) : Nat := l / 2 ^ 40

/-- The pool aperture. -/
def isPool (l : Nat) : Bool := 2 ^ 50 ≤ l && l < 2 ^ 50 + 2 ^ 48

/-- Device space. -/
def isDevice (l : Nat) : Bool := 2 ^ 51 ≤ l && l < 2 ^ 52

/-- HBM of the system image: of a package that is present (R251). -/
def State.imageHbm (s : State) (l : Nat) : Bool := isHbm l && s.present.contains (pkgOfLoc l)

/-! ### Bytes -/

/-- What a byte of memory that nothing has written reads as (R252: HBM is zero after reset; elsewhere log 4). -/
def memDefault : Byte := 0

/-- The canonical form of memory. -/
def Memory.wf (m : List Host.Cell) : Bool := Store.wf m memDefault

/-- Reading one byte. -/
def Memory.read (m : List Host.Cell) (l : Nat) : Byte := Store.get m memDefault l

/-- Writing one byte. -/
def Memory.write (m : List Host.Cell) (l : Nat) (b : Byte) : List Host.Cell := Store.put m memDefault l b

/-- Writing cells, one after the other. -/
def Memory.writeCells (m : List Host.Cell) (cs : List Host.Cell) : List Host.Cell :=
  cs.foldl (fun m c => Memory.write m c.1 c.2) m

/-- The byte at a location. -/
def State.rd1 (s : State) (l : Nat) : Byte := Memory.read s.mem l

/-- The `n` bytes from a location. -/
def State.rdBytes (s : State) : Nat → Nat → List Byte
  | _, 0 => []
  | l, n + 1 => s.rd1 l :: State.rdBytes s (l + 1) n

/-- The little-endian value of `n` bytes from a location (R3). -/
def State.rdN (s : State) (l n : Nat) : Nat := leNat (s.rdBytes l n)

/-- The cells of `n` bytes of a value from a location, little-endian (R3). -/
def cellsOf (l n v : Nat) : List Host.Cell := (List.range n).map fun k => (l + k, BitVec.ofNat 8 (v / 2 ^ (8 * k)))

/-- The cells of bytes from a location. -/
def cellsOfBytes : Nat → List Byte → List Host.Cell
  | _, [] => []
  | l, b :: bs => (l, b) :: cellsOfBytes (l + 1) bs

/-! ### Full bits and uncorrectable errors -/

/-- The full bit of the aligned word at a location (R228). -/
def State.fullAt (s : State) (l : Nat) : Bool := Store.get s.fullBits false (l / 8)

/-- The full bits of the eight words of a line. -/
def State.fullsOfLine (s : State) (line : Nat) : BitVec 8 :=
  BitVec.ofNat 8 (sumNat ((List.range 8).map fun k => if Store.get s.fullBits false (8 * line + k) then 2 ^ k else 0))

/-- HBM of a package that became unreachable (R375). -/
def State.cutOff (s : State) (l : Nat) : Bool := isHbm l && s.unreachable.contains (pkgOfLoc l)

/-- A granule holds an uncorrectable error, or lies in a package that became unreachable (R252, R375). -/
def State.granuleBad (s : State) (g : Nat) : Bool :=
  (Store.find? s.ue g).isSome || s.cutOff (32 * g)

/-- Some of `n` bytes from a location lie in a granule with an uncorrectable error. -/
def State.ueAt (s : State) (l n : Nat) : Bool :=
  (List.range ((l + n - 1) / 32 - l / 32 + 1)).any fun k => s.granuleBad (l / 32 + k)

/-- Whether a granule's error is gone: every byte written since, and on a tagged-word page every full bit (R252). -/
def ueGone (u : Ue) (tagged : Bool) : Bool := u.bytes == BitVec.allOnes 32 && (!tagged || u.fulls == BitVec.allOnes 4)

/-- Note a byte written since an error arose (R252). -/
def State.ueWrote (s : State) (tag : Bool) (l : Nat) : State :=
  match Store.find? s.ue (l / 32) with
  | none => s
  | some u =>
    let u := { u with bytes := u.bytes ||| BitVec.ofNat 32 (2 ^ (l % 32)) }
    if ueGone u tag then { s with ue := Store.del s.ue (l / 32) } else { s with ue := Store.ins s.ue (l / 32) u }

/-- Write a full bit (R228), noting it for an error of its granule (R252). A line without a dirty
copy has it in memory at once, where no discarded copy undoes it (log 43). -/
def State.setFull (s : State) (l : Nat) (b : Bool) : State :=
  let s := { s with fullBits := Store.put s.fullBits false (l / 8) b }
  match Store.find? s.ue (l / 32) with
  | none => s
  | some u =>
    let u := { u with fulls := u.fulls ||| BitVec.ofNat 4 (2 ^ (l / 8 % 4)) }
    if ueGone u true then { s with ue := Store.del s.ue (l / 32) } else { s with ue := Store.ins s.ue (l / 32) u }

/-! ### Dirty copies -/

/-- A cached line becomes dirty: what memory itself holds is set aside (R247). Device space has no copies, and a scratchpad line only one
that an agent of another core writes (`far`, R258); any other write of it first recalls that copy (R256). -/
def State.dirtyLine (s : State) (line va : Nat) (far : Bool) : State :=
  if isDevice (64 * line) then s
  else if isScratch (64 * line) && !far then { s with behind := Store.del s.behind line }
  else match Store.find? s.behind line with
    | some b => { s with behind := Store.ins s.behind line { b with va := min b.va va } }
    | none => { s with behind := Store.ins s.behind line ⟨BitVec.ofNat 512 (s.rdN (64 * line) 64), s.fullsOfLine line, va⟩ }

/-- The pool region that holds a location, if any valid one does (R380). -/
def State.regionOf (s : State) (l : Nat) : Option Nat :=
  (s.pool.find? fun e => bit e.2.w0 0 && (bits e.2.w0 51 28 * 2 ^ 28 ≤ l && l < (bits e.2.w0 51 28 + bits e.2.w1 15 0) * 2 ^ 28)).map
    fun e => e.1

/-- The region of a pool location is LOST (R383). -/
def State.poolLost (s : State) (l : Nat) : Bool :=
  isPool l && match s.regionOf l with
    | some r => (s.region r).st == .lost
    | none => false

/-- Count a lost write of a region: `off` is its offset in the pool aperture (R383). -/
def Region.countLost (g : Region) (off : Nat) : Region :=
  { g with lostcnt := min (g.lostcnt + 1) (2 ^ 48 - 1), first := if g.lostcnt = 0 then off else min g.first off }

/-- The aperture offset of a write to a line whose lowest virtual address is `va`. -/
def poolOff (line va : Nat) : Nat := 64 * line + va % 64 - 2 ^ 50

/-- A write of a pool line goes to its device, where it is in flight until completed (R383). -/
def State.sendPool (s : State) (line : Nat) (b : Behind) : State :=
  match s.regionOf (64 * line) with
  | some r => State.modRegion { s with flights := s.flights + 1 } r fun g => { g with inFlight := g.inFlight ++ [⟨s.flights, line, b⟩] }
  | none => s

/-- A dirty line is written back: memory itself now holds it (R147, R247); a pool line goes to its device. -/
def State.writeBack (s : State) (line : Nat) : State :=
  match Store.find? s.behind line with
  | none => s
  | some b =>
    let s := { s with behind := Store.del s.behind line }
    if isPool (64 * line) then s.sendPool line b else s

/-- Give a line the bytes and full bits memory itself holds. -/
def State.restoreLine (s : State) (line : Nat) (b : Behind) : State :=
  let s := { s with mem := Memory.writeCells s.mem (cellsOf (64 * line) 64 b.data.toNat) }
  { s with fullBits := (List.range 8).foldl (fun m k => Store.put m false (8 * line + k) (tst b.full.toNat k)) s.fullBits }

/-- Every cached copy is discarded without write-back (R147). A granule whose error the copy's writes had ended stays without error, as log 43
says. -/
def State.discardLine (s : State) (line : Nat) : State :=
  match Store.find? s.behind line with
  | none => s
  | some b => { s.restoreLine line b with behind := Store.del s.behind line }

/-! ### Acceptance of a write -/

/-- The scratchpad chunk of a location becomes dirty (R327). -/
def State.scratchDirty (s : State) (l : Nat) : State :=
  if isScratch l then
    let q := (l - 2 ^ 52) / 2 ^ 19
    s.modCore q fun c => { c with dirty := { c.dirty with scr := c.dirty.scr ||| BitVec.ofNat 2048 (2 ^ (l % 2 ^ 19 / 256)) } }
  else s

/-- A monitor whose word reads `v` now: `waitne` completes when the value differs (R230). -/
def State.serveMonitor (s : State) (m : Monitor) (v : Word) : State :=
  if v = m.cmp then s
  else
    let s := { s with monitors := s.monitors.filter fun x => x.who ≠ m.who }
    (s.setG m.who m.dest v).retire m.who (.waitne 0 0 ⟨0, .none, .die, 0⟩)

/-- Monitors on the words of a line compare when a write is performed on their word (R230); the compare is a read, which takes MEMERR
while the word's granule is in error (R252). -/
def State.serveMonitors (s : State) (words : List Nat) : List Monitor → State
  | [] => s
  | m :: ms =>
    let s :=
      if !words.contains m.loc then s
      else if s.ueAt m.loc 8 then
        State.condAt { s with monitors := s.monitors.filter fun x => x.who ≠ m.who } m.who cMEMERR 0 (BitVec.ofNat 64 m.va)
      else s.serveMonitor m (BitVec.ofNat 64 (s.rdN m.loc 8))
    State.serveMonitors s words ms

/-- The exact state of words goes, with their records (R120, R260). -/
def State.dropExact (s : State) (f : Nat → Bool) : State :=
  if s.exact = [] then s
  else { s with
    exact := s.exact.filter fun e => !f e.1
    records := Store.mapV (fun _ ls => ls.filter fun l => !f l) s.records }

/-- The home accepts a write of cells of one line (R266): the bytes change, an ordinary write discards the deposits merged into
its range word (R120), monitors compare, requests parked on the line resume (R348), and translations read from the line go (R345).
A write to a package that became unreachable is lost as a dirty line of it is (R375); one to a LOST region is counted as a write that its
device will not complete (R383; log 27). -/
def State.accept (s : State) (w : LineW) : State :=
  match w.cells with
  | [] => s
  | c :: rest =>
    if s.cutOff c.1 then s.deliverMCheck (s.firstRunning.getD 0) none 1 (lineBase (BitVec.ofNat 64 (64 * w.vline)))
    else if s.poolLost c.1 then
      s.modRegion ((s.regionOf c.1).getD 0) fun g => g.countLost (poolOff (c.1 / 64) (64 * w.vline + c.1 % 64))
    else
    let cs := c :: rest
    let line := c.1 / 64
    let va := 64 * w.vline + c.1 % 64
    let s := if !w.uc then s.dirtyLine line va w.far
      else if isPool c.1 then s.sendPool line ⟨BitVec.ofNat 512 (s.rdN (64 * line) 64), s.fullsOfLine line, va⟩
      else s
    let s := { s with mem := Memory.writeCells s.mem cs }
    let s := if s.ue = [] then s else cs.foldl (fun s c => s.ueWrote w.tag c.1) s
    let s := s.dropExact fun l => cs.any fun c => c.1 == l
    let s := { s with
      parks := s.parks.filter fun p => p.line ≠ line
      tc := s.tc.filter fun e => !e.lines.contains line }
    let s := s.scratchDirty c.1
    if s.monitors = [] then s
    else s.serveMonitors (dedup (cs.map fun c => c.1 / 8 * 8)) s.monitors

/-- Accept several lines in order. -/
def State.acceptLines (s : State) (ls : List LineW) : State := ls.foldl State.accept s

end Sys2Proof.Machine
end

