-- ==== Sys2Proof/Machine/Xlate.lean ====
section
/-! DEFINITION. Protection (R336 to R338), the page-table walk and its details (R340 to R343), homes (R248, R249), scratchpad
windows (R257 to R259), and the checks of one access in their order (R144, R199, R215). -/

namespace Sys2Proof.Machine

/-- Why an access is not made now: a cause with its detail, a line that some other party holds, or an in-transit leaf. -/
inductive AccErr where
  | trap (code detail : Nat)
  | stall
  | park (line : Nat)
  deriving DecidableEq, Repr

/-- Rights (R336). -/
inductive Right where
  | r | w | x
  deriving DecidableEq, Repr

/-- Who makes an access: the agent (for reservations), its core, privilege and domain (R336), and the copy command it moves for,
if any. -/
structure Acc where
  agent : AgentId
  level : Level
  domain : BitVec 14
  cmd : Option Nat
  deriving DecidableEq, Repr

/-- A translated address: its location, the home core and package that its page names, the attribute fields, and whether a window
serves it. -/
structure Xl where
  loc : Nat
  home : Nat
  homePkg : Nat
  tag : Bool
  uc : Bool
  crf : Nat
  window : Bool
  deriving DecidableEq, Repr

/-- The L2 slice of the home, in the package that has it, as one number over all packages (R218, R248). -/
def Xl.slice (x : Xl) : Nat := 256 * x.homePkg + x.home

/-- The access of an agent: a sprig carries user privilege, a thread its own (R336). -/
def State.accOf (s : State) (a : AgentId) : Acc :=
  let p := s.priv a.core
  match a.who with
  | .thread => ⟨a, p.status.pl, p.domain, none⟩
  | .sprig _ => ⟨a, .user, p.domain, none⟩

/-! ### The device's own reads through the system window (R335) -/

/-- A started command that has not yet written the line of memory that holds a location (R236). -/
def CopyCmd.ownsLoc (m : CopyCmd) (l : Nat) : Bool :=
  m.stage == .started && m.locs.any fun e => e.2 == l / 64 && !m.moved.contains e.1

/-- A copy engine, other than the one that makes the access, owns the line of a location: accesses of the device to its own structures
wait too (R236, R276). -/
def State.ownedLoc (s : State) (a : AgentId) (l : Nat) : Bool :=
  s.cores.any fun e => e.2.cpy.cmds.any fun m => m.ownsLoc l && a != ⟨e.1, .sprig 64⟩

/-- Read 8 bytes of a structure of the device: XLATE 12 outside the HBM of the image, MEMERR on an error in the line. -/
def State.sysRead (s : State) (a : AgentId) (l : Nat) : Except AccErr Nat :=
  if !s.imageHbm l then .error (.trap cXLATE 12)
  else if s.blocked a (l / 64) || s.ownedLoc a l then .error .stall
  else if s.ueAt (l / 64 * 64) 64 then .error (.trap cMEMERR 0)
  else .ok (s.rdN l 8)

/-! ### Protection -/

/-- Addresses of the system window: 0xFF80_0000_0000_0000 to 0xFF8F_FFFF_FFFF_FFFF (R335). -/
def inSysWindow (va : Word) : Bool := va.toNat / 2 ^ 52 == 0xFF8

/-- The number of the page of an address, over all 64 bits. -/
def vpage (va : Word) : Nat := va.toNat / 4096

/-- BASE of a region as a page number: sign-extended from bit 55 (R337). -/
def regionBase (w0 : Nat) : Nat := (sextN (nbits w0 55 12) 44).toNat % 2 ^ 52

/-- The regions from number `i`, at most `n` of them, in ascending order from page `prev` (R337): the rights of the one that
holds page `vp`, as a lookaside entry of a domain. -/
def State.scanRegions (s : State) (a : AgentId) (dom : BitVec 14) (list vp : Nat) :
    Nat → Nat → Nat → Except AccErr (Option PlbEntry)
  | 0, _, _ => .ok none
  | n + 1, i, prev =>
    match s.sysRead a (list + 16 * i), s.sysRead a (list + 16 * i + 8) with
    | .error e, _ => .error e
    | _, .error e => .error e
    | .ok w0, .ok w1 =>
      let base := regionBase w0
      let pages := nbits w1 43 0
      if w0 / 2 ^ 56 ≠ 0 ∨ nbits w0 11 4 ≠ 0 ∨ w1 / 2 ^ 44 ≠ 0 ∨ pages = 0 ∨ base < prev then .error (.trap cXLATE 11)
      else if vp < base then .ok none
      else if vp < base + pages then .ok (some ⟨dom, base, pages, tst w0 3, BitVec.ofNat 3 (nbits w0 2 0)⟩)
      else State.scanRegions s a dom list vp n (i + 1) (base + pages)

/-- RegionRights of R336 from the tables (R337): the region of a domain that holds an address. -/
def State.tableRights (s : State) (a : AgentId) (dom : BitVec 14) (va : Word) : Except AccErr (Option PlbEntry) :=
  let e := bits (s.part (s.partOf a.core)).protroot 51 18 * 2 ^ 18 + 16 * dom.toNat
  match s.sysRead a e, s.sysRead a (e + 8) with
  | .error x, _ => .error x
  | _, .error x => .error x
  | .ok w0, .ok w1 =>
    if w0 / 2 ^ 52 ≠ 0 ∨ nbits w0 5 1 ≠ 0 ∨ w1 / 2 ^ 13 ≠ 0 then .error (.trap cXLATE 11)
    else if !tst w0 0 then .ok none
    else if w1 = 0 ∨ 4096 < w1 then .error (.trap cXLATE 11)
    else s.scanRegions a dom (nbits w0 51 6 * 2 ^ 6) (vpage va) w1 0 0

/-- The region of a lookaside entry holds an address. -/
def PlbEntry.holds (e : PlbEntry) (va : Word) : Bool := e.base ≤ vpage va && vpage va < e.base + e.pages

/-- RegionRights: an entry of the core's protection lookaside buffer, else the tables (R338; log 9). -/
def State.regionRights (s : State) (a : AgentId) (dom : BitVec 14) (va : Word) : Except AccErr (Option PlbEntry) :=
  match (s.core a.core).plb.find? fun e => e.domain = dom && e.holds va with
  | some e => .ok (some e)
  | none => s.tableRights a dom va

/-- Whether rights [2:0] X, W, R include one. -/
def hasRight (xwr : Nat) : Right → Bool
  | .r => tst xwr 0
  | .w => tst xwr 1
  | .x => tst xwr 2

/-- Rights of R336 and R335: whether an access has the right it needs. -/
def State.allowed (s : State) (c : Acc) (rt : Right) (va : Word) : Except AccErr Bool :=
  let user := c.level = .user
  if inSysWindow va then .ok (!decide user && rt != .x)
  else if !bit (s.part (s.partOf c.agent.core)).protroot 0 then .ok (!decide user)
  else
    match s.regionRights c.agent c.domain va with
    | .error e => .error e
    | .ok r =>
      let own := match r with
        | some e => hasRight e.xwr.toNat rt && !(decide user && e.k)
        | none => false
      if user then .ok own
      else match s.regionRights c.agent 0 va with
        | .error e => .error e
        | .ok (some e) => .ok (own || hasRight e.xwr.toNat rt)
        | .ok none => .ok own

/-- The regions that an access is checked against: of its domain, and of domain 0 for the kernel (R336, R338, R351). -/
def State.checkedAt (s : State) (c : Acc) (va : Word) : List PlbEntry :=
  let region (dom : BitVec 14) : List PlbEntry := match s.regionRights c.agent dom va with
    | .ok (some e) => [e]
    | .ok none | .error _ => []
  if inSysWindow va || !bit (s.part (s.partOf c.agent.core)).protroot 0 then []
  else region c.domain ++ if c.level = .user then [] else region 0

/-! ### Homes (R248, R249) -/

/-- The hash of R249. -/
def homeHash (va : Word) : Nat :=
  let n := va56 va / 64
  (n % 4096) ^^^ (n / 4096 % 4096) ^^^ (n / 2 ^ 24 % 4096) ^^^ (n / 2 ^ 36 % 4096) ^^^ (n / 2 ^ 48 % 4)

/-- The vats of a mask, ascending. -/
def maskVats (m : Nat) : List Nat := (List.range 16).filter fun v => tst m v

/-- Physical core of the group slice that homes an address (R248, R249). -/
def groupHome (va : Word) (die m : Nat) : Nat :=
  let vats := maskVats m
  let i := homeHash va % (4 * vats.length)
  64 * die + 4 * vats.getD (i / 4) 0 + i % 4

/-- The home that word 0 of an attribute record names. -/
def recordHome (va : Word) (w0 : Nat) : Nat :=
  if tst w0 6 then groupHome va (nbits w0 17 16) (nbits w0 33 18) else nbits w0 15 8

/-- Every home that a record may name lies in the partition (R248); packages of a larger image form one partition (R374). -/
def State.homeOk (s : State) (part w0 : Nat) : Bool :=
  if tst w0 6 then
    nbits w0 33 18 ≠ 0 && (maskVats (nbits w0 33 18)).all fun v => Store.get s.vatPart 0 (16 * nbits w0 17 16 + v) == part
  else s.partOf (nbits w0 15 8) == part

/-! ### The walk (R340 to R343) -/

/-- A leaf found by a walk: the entry, the level it stands at, the size of its page, and the location of the entry. -/
structure Leaf where
  entry : Nat
  size : Nat
  at_ : Nat
  deriving DecidableEq, Repr

/-- Page size of a leaf by level; a contiguous leaf is 64 KiB. -/
def leafSize (level : Nat) (c : Bool) : Nat :=
  if level = 2 then 2 ^ 30 else if level = 1 then 2 ^ 21 else if c then 2 ^ 16 else 2 ^ 12

/-- A malformed entry: detail 2 of R343. -/
def entryBad (level e : Nat) : Bool :=
  let leaf := tst e 1
  e / 2 ^ 62 ≠ 0 || nbits e 11 10 ≠ 0 || tst e 2 || (level = 0 && !leaf) || (3 ≤ level && leaf) ||
  (!leaf && (nbits e 61 52 ≠ 0 || nbits e 9 4 ≠ 0 || tst e 3)) || (leaf && level ≠ 0 && tst e 3) ||
  (leaf && level = 2 && nbits e 29 12 ≠ 0) || (leaf && level = 1 && nbits e 20 12 ≠ 0)

/-- An in-transit entry is well placed and its zero fields are zero (R340). -/
def transitBad (level e : Nat) : Bool := 3 ≤ level || e / 2 ^ 52 ≠ 0 || nbits e 5 3 ≠ 0 || tst e 1

/-- The entries of a contiguous page below number `n` agree with one of them; all are read (R341). `first` is the location of
entry 0. -/
def State.contiguousOk (s : State) (a : AgentId) (first e : Nat) : Nat → Except AccErr Bool
  | 0 => .ok true
  | n + 1 =>
    match s.sysRead a (first + 8 * n) with
    | .error x => .error x
    | .ok f =>
      match State.contiguousOk s a first e n with
      | .error x => .error x
      | .ok b => .ok (b && f / 2 ^ 16 == e / 2 ^ 16 && f % 2 ^ 12 == e % 2 ^ 12 && nbits f 15 12 == n)

/-- The walk from a node at a level down (R340, R341, R343 details 1 to 3, R348). -/
def State.walkFrom (s : State) (a : AgentId) (va : Word) : Nat → Nat → Except AccErr Leaf
  | 0, node =>
    let at_ := node + 8 * (va56 va / 2 ^ 12 % 512)
    match s.sysRead a at_ with
    | .error x => .error x
    | .ok e =>
      if !tst e 0 && !tst e 2 then .error (.trap cXLATE 1)
      else if !tst e 0 then if transitBad 0 e then .error (.trap cXLATE 2) else .error (.park (at_ / 64))
      else if entryBad 0 e then .error (.trap cXLATE 2)
      else if tst e 3 then
        match s.contiguousOk a (at_ - 8 * (va56 va / 2 ^ 12 % 16)) e 16 with
        | .error x => .error x
        | .ok true => .ok ⟨e, leafSize 0 true, at_⟩
        | .ok false => .error (.trap cXLATE 3)
      else .ok ⟨e, leafSize 0 false, at_⟩
  | l + 1, node =>
    let level := l + 1
    let at_ := node + 8 * (va56 va / 2 ^ (12 + 9 * level) % 512)
    match s.sysRead a at_ with
    | .error x => .error x
    | .ok e =>
      if !tst e 0 && !tst e 2 then .error (.trap cXLATE 1)
      else if !tst e 0 then if transitBad level e then .error (.trap cXLATE 2) else .error (.park (at_ / 64))
      else if entryBad level e then .error (.trap cXLATE 2)
      else if tst e 1 then .ok ⟨e, leafSize level false, at_⟩
      else State.walkFrom s a va l (nbits e 51 12 * 4096)

/-- A leaf with its attribute record (R342). -/
structure Mapped where
  leaf : Nat
  size : Nat
  w0 : Nat
  crbase : Nat
  crlimit : Nat
  shbase : Nat
  deriving DecidableEq, Repr

/-- The root of a partition's tables. -/
def State.ptRoot (s : State) (p : Nat) : Nat := bits (s.part p).ptroot 51 12 * 4096

/-- The leaf of an address: PTROOT.EN, then the walk. -/
def State.walk (s : State) (a : AgentId) (va : Word) : Except AccErr Leaf :=
  let p := s.partOf a.core
  if !bit (s.part p).ptroot 0 then .error (.trap cXLATE 1) else s.walkFrom a va 4 (s.ptRoot p)

/-- The in-transit leaf that a walk which does not park meets from a node of a level down, with its level; no other failure counts (R346). -/
def State.transitFrom (s : State) (a : AgentId) (va : Word) : Nat → Nat → Except AccErr (Option (Nat × Nat))
  | level, node =>
    match s.sysRead a (node + 8 * (va56 va / 2 ^ (12 + 9 * level) % 512)) with
    | .error .stall => .error .stall
    | .error _ => .ok none
    | .ok e =>
      if !tst e 0 then .ok (if tst e 2 && !transitBad level e then some (e, level) else none)
      else match level with
        | 0 => .ok none
        | l + 1 => if entryBad level e || tst e 1 then .ok none else State.transitFrom s a va l (nbits e 51 12 * 4096)

/-- The in-transit leaf of a page; none is looked for in the system window (R335). -/
def State.transitOf (s : State) (a : AgentId) (va : Word) : Except AccErr (Option (Nat × Nat)) :=
  let p := s.partOf a.core
  if inSysWindow va || !bit (s.part p).ptroot 0 then .ok none else s.transitFrom a va 4 (s.ptRoot p)

/-- The leaf of an address is in transit (R348). -/
def State.inTransit (s : State) (a : AgentId) (va : Word) : Bool :=
  match s.transitOf a va with
  | .ok (some _) => true
  | .ok none | .error _ => false

/-- The attribute record of a leaf (R342, R343 detail 4). -/
def State.record (s : State) (a : AgentId) (f : Leaf) : Except AccErr Mapped :=
  let r := s.ptRoot (s.partOf a.core) + 2048 + 32 * nbits f.entry 9 4
  match s.sysRead a r, s.sysRead a (r + 8), s.sysRead a (r + 16), s.sysRead a (r + 24) with
  | .ok w0, .ok w1, .ok w2, .ok w3 =>
    if !tst w0 0 ∨ w0 / 2 ^ 34 ≠ 0 ∨ tst w0 7 ∨ 5 ≤ nbits w0 5 3 ∨ (nbits w0 5 3 = 0 ∧ (w1 ≠ 0 ∨ w2 ≠ 0 ∨ w3 ≠ 0)) then
      .error (.trap cXLATE 4)
    else .ok ⟨f.entry, f.size, w0, w1, w2, w3⟩
  | .error x, _, _, _ => .error x
  | _, .error x, _, _ => .error x
  | _, _, .error x, _ => .error x
  | _, _, _, .error x => .error x

/-- Details 5 to 9 of R343 for a page; one in pool memory is judged by the first byte of its frame (log 25). -/
def State.attrCheck (s : State) (part : Nat) (m : Mapped) : Option Nat :=
  let frame := nbits m.leaf 51 12 * 4096
  let page := frame / m.size * m.size
  let crf := nbits m.w0 5 3
  let tag := tst m.w0 2
  let uc := tst m.w0 1
  let reg := nbits m.leaf 61 52
  if (crf ≠ 0 && tag) || ((crf ≠ 0 || tag) && uc) || ((crf ≠ 0 || tag) && isPool frame) then some 5
  else if !s.homeOk part m.w0 then some 6
  else if !(s.imageHbm frame || isPool frame || isDevice frame) || (isDevice frame && !uc) ||
      (s.imageHbm frame && pkgOfLoc frame == s.pkg && Store.get s.granPart 0 (frame / 2 ^ 30) != part) then some 7
  else if (if isPool frame then s.regionOf frame != some reg || bits (s.region reg).w0 17 16 != part else reg != 0) then some 8
  else if crf ≠ 0 && (page < m.crbase || m.crlimit < page + m.size || m.shbase % 64 ≠ 0) then some 9
  else none

/-- The mapping of a page as the tables give it now: the walk and its checks (R343). -/
def State.walkPage (s : State) (a : AgentId) (va : Word) : Except AccErr Mapped :=
  match s.walk a va with
  | .error x => .error x
  | .ok f =>
    match s.record a f with
    | .error x => .error x
    | .ok m => match s.attrCheck (s.partOf a.core) m with
      | some d => .error (.trap cXLATE d)
      | none => .ok m

/-- An entry of the translation cache of the die that homes a page translates an address of a partition (R344). -/
def TcEntry.serves (e : TcEntry) (p : Nat) (va : Word) : Bool :=
  e.part == p && e.vbase ≤ va56 va && va56 va < e.vbase + e.size && e.die == dieOf (recordHome va e.attr.toNat)

/-- The mapping of a page: a translation in use (R344, R345; log 9), else the walk. No leaf is consulted for the system window
(R335). -/
def State.mapping (s : State) (a : AgentId) (va : Word) : Except AccErr Mapped :=
  if inSysWindow va then .error (.trap cXLATE 12)
  else match s.tc.find? fun e => e.serves (s.partOf a.core) va with
    | some e => .ok ⟨e.leaf.toNat, e.size, e.attr.toNat, e.crbase.toNat, e.crlimit.toNat, e.shbase.toNat⟩
    | none => s.walkPage a va

/-- The lines of the tables that a walk from a node reads (R344). -/
def State.walkLines (s : State) (va : Word) : Nat → Nat → List Nat
  | 0, node =>
    let i := va56 va / 2 ^ 12 % 512
    if tst (s.rdN (node + 8 * i) 8) 3 then [(node + 8 * i) / 128 * 2, (node + 8 * i) / 128 * 2 + 1] else [(node + 8 * i) / 64]
  | l + 1, node =>
    let at_ := node + 8 * (va56 va / 2 ^ (12 + 9 * (l + 1)) % 512)
    let e := s.rdN at_ 8
    if tst e 1 then [at_ / 64] else at_ / 64 :: State.walkLines s va l (nbits e 51 12 * 4096)

/-- The lines of the tables that the translation of an address comes from: those of the walk, and that of the attribute record. -/
def State.tableLines (s : State) (p : Nat) (va : Word) (leaf : Nat) : List Nat :=
  (s.ptRoot p + 2048 + 32 * nbits leaf 9 4) / 64 :: s.walkLines va 4 (s.ptRoot p)

/-! ### Windows (R256 to R259) -/

/-- The mapped windows of a partition's cores that hold an address: core and segment. -/
def State.windowsAt (s : State) (part : Nat) (va : Word) : List (Nat × Nat) :=
  s.cores.flatMap fun e =>
    if s.partOf e.1 = part then
      ((List.range 8).filter fun i =>
        let w := Store.get e.2.priv.spwin 0 i
        bit w 0 && bits w 63 16 == va.toNat / 2 ^ 16).map fun i => (e.1, i)
    else []

/-- The unmapped windows whose line at an address is not yet written back (R259), each with its core. -/
def State.pendingAt (s : State) (part : Nat) (va : Word) : List (Nat × WinPending) :=
  s.cores.flatMap fun e =>
    if s.partOf e.1 = part then
      (e.2.pendWb.filter fun w => w.vbase == va.toNat / 2 ^ 16 && w.left.getLsbD (va.toNat / 64 % 1024)).map fun w => (e.1, w)
    else []

/-- The one of them that was unmapped last: its segment holds the line's latest value (R258). -/
def newestPending : List (Nat × WinPending) → Option (Nat × WinPending)
  | [] => none
  | p :: ps => match newestPending ps with
    | none => some p
    | some r => if r.2.num ≤ p.2.num then some p else some r

/-- The line of a segment still waits to be written to its old range (R259). -/
def State.segPending (s : State) (q seg line : Nat) : Bool :=
  (s.core q).pendWb.any fun w => w.seg == seg && w.left.getLsbD line

/-- The line of a segment is to be written first to a range it held before the one at `vbase` (R259). -/
def State.segEarlier (s : State) (q seg vbase line : Nat) : Bool :=
  match (s.core q).pendWb.find? fun w => w.seg == seg && w.left.getLsbD line with
  | some w => w.vbase != vbase
  | none => false

/-! ### Ownership by copy commands (R236, R244) -/

/-- The tensor lines that a started `.out` command still owns: some in-bounds element of the box has a byte in the line. -/
def tensorOwns (desc : BitVec 512) (x0 x1 rows cols : Nat) (line : Nat) : Bool :=
  let sz := etypeBytes (descEtype desc)
  (List.range rows).any fun r => (List.range cols).any fun c =>
    inBounds desc (x0 + c) (x1 + r) 0 0 &&
      (let e := (rowBase desc (x1 + r) 0 0 + sz * (x0 + c)) % 2 ^ 64
       e / 64 ≤ line && line ≤ (e + sz - 1) / 64)

/-- The destination line, by virtual line number, is one the command writes. -/
def CopyCmd.destHas (m : CopyCmd) (line : Nat) : Bool :=
  match m.kind with
  | .copy | .fill _ | .lines => m.len ≠ 0 && m.dst.toNat / 64 ≤ line && line ≤ (m.dst.toNat + m.len - 1) / 64
  | .block => false
  | .tensor out d x0 x1 rows cols =>
    if out then tensorOwns d x0 x1 rows cols line
    else m.len ≠ 0 && m.dst.toNat / 64 ≤ line && line ≤ (m.dst.toNat + m.len - 1) / 64

/-- A started command owns the line and has not written it (R236). -/
def CopyCmd.owns (m : CopyCmd) (line : Nat) : Bool := m.stage == .started && m.destHas line && !m.moved.contains line

/-- A copy engine of the partition owns the virtual line, other than the command that makes the access. -/
def State.owned (s : State) (part : Nat) (c : Acc) (line : Nat) : Bool :=
  s.cores.any fun e => s.partOf e.1 == part &&
    e.2.cpy.cmds.any fun m => m.owns line && !(c.agent.core == e.1 && c.cmd == some m.id)

/-! ### One access -/

/-- The home of a line of the system window, among the slices of the die of its memory (R335). -/
def sysHome (l : Nat) : Nat := groupHome (BitVec.ofNat 64 (0xFF80000000000000 + l)) (l % 2 ^ 39 / 2 ^ 37) 0xFFFF

/-- Translation of an address (step 4 of R144): the mapping, or the system window (log 38), then scratchpad windows. The home of a window
line stays that of its page (R258). A line that unmapped windows still wait to write back is served from the last of them; an access that no
window serves, of a tagged, uncacheable or commutative page, of the pool or of a device, waits for the write-back (R257, R262; log 38). The
system window has no tag attribute, so a write of all bytes of a granule there ends its error (R252): the model's choice (log 43). -/
def State.translate (s : State) (a : AgentId) (va : Word) : Except AccErr Xl :=
  if inSysWindow va then
    let l := va.toNat % 2 ^ 52
    if s.imageHbm l then
      .ok ⟨l, sysHome l, pkgOfLoc l, false, false, 0, false⟩
    else .error (.trap cXLATE 12)
  else
    match s.mapping a va with
    | .error x => .error x
    | .ok m =>
      let frame := nbits m.leaf 51 12 * 4096
      let l := frame / m.size * m.size + va56 va % m.size
      let x : Xl := ⟨l, recordHome va m.w0, if isHbm l then pkgOfLoc l else s.pkg, tst m.w0 2, tst m.w0 1, nbits m.w0 5 3, false⟩
      let part := s.partOf a.core
      let ws := s.windowsAt part va
      let at_ (q i : Nat) : Xl :=
        { x with loc := scratchLoc q (65536 * i + va.toNat % 65536), window := true }
      let plain := !x.tag && !x.uc && x.crf == 0 && !isPool l
      match ws, newestPending (s.pendingAt part va) with
      | [], none => .ok x
      | [], some (q, w) =>
        if !plain || s.segEarlier q w.seg (va.toNat / 2 ^ 16) (va.toNat / 64 % 1024) then .error .stall else .ok (at_ q w.seg)
      | (q, i) :: more, _ =>
        if more ≠ [] ∨ !plain then .error (.trap cXLATE 13)
        else if s.segPending q i (va.toNat / 64 % 1024) then .error .stall
        else .ok (at_ q i)

/-- The checks of one access from the rights on (R144 steps 3 and 4), and the delays of R219, R236, R375 and R382. -/
def State.access (s : State) (c : Acc) (rt : Right) (va : Word) : Except AccErr Xl :=
  match s.allowed c rt va with
  | .error e => .error e
  | .ok false => .error (.trap cPROT 0)
  | .ok true =>
    match s.translate c.agent va with
    | .error e => .error e
    | .ok x =>
      if s.owned (s.partOf c.agent.core) c (va.toNat / 64) then .error .stall
      else if s.rerouting && isHbm x.loc && pkgOfLoc x.loc != s.pkg then .error .stall
      else if isPool x.loc && (match s.regionOf x.loc with
          | some r => (s.region r).st == .failover
          | none => false) then .error (.park (x.loc / 64))
      else .ok x

/-- The core whose scratchpad holds a window line. -/
def Xl.owner (x : Xl) : Nat := (x.loc - 2 ^ 52) / 2 ^ 19

/-- An access of a window's own core first recalls a copy that another agent holds dirty (R256, R258). -/
def State.recall (s : State) (q : Nat) (x : Xl) : State := if x.window && x.owner == q then s.writeBack (x.loc / 64) else s

/-- The home of the line stands on the agent's die, in this package; a window line counts as homed at its owning core (R269). -/
def State.dieLocal (s : State) (q : Nat) (x : Xl) : Bool :=
  if x.window then dieOf x.owner == dieOf q else x.homePkg == s.pkg && dieOf x.home == dieOf q

end Sys2Proof.Machine
end

