-- ==== Sys2Proof/Machine/Buffer.lean ====
section
/-! DEFINITION. The store buffer of an agent: entry, forwarding, and acceptance at the homes (R145, R266, R269). -/

namespace Sys2Proof.Machine

/-- The latest buffered byte of an agent for a location. -/
def sbByte (es : List SbEntry) (l : Nat) : Option Byte :=
  es.foldl (fun acc e => e.lines.foldl (fun acc w => w.cells.foldl (fun acc c => if c.1 = l then some c.2 else acc) acc) acc) none

/-- A byte as the agent reads it: its own buffered write first (R266). -/
def State.seen (s : State) (a : AgentId) (l : Nat) : Byte :=
  match sbByte (s.ag a).sb l with
  | some b => b
  | none => s.rd1 l

/-- `n` bytes as the agent reads them. -/
def State.seenBytes (s : State) (a : AgentId) (l n : Nat) : List Byte :=
  if (s.ag a).sb = [] then s.rdBytes l n else (List.range n).map fun k => s.seen a (l + k)

/-- An entry writes some of the `n` bytes from a location. -/
def SbEntry.touches (e : SbEntry) (l n : Nat) : Bool := e.lines.any fun w => w.cells.any fun c => l ≤ c.1 && c.1 < l + n

/-- A new entry of an agent's buffer: it depends, as far as the model follows it, on every read forwarded before it (R271, log 8). A read
made early of a byte it writes is forgotten, and one before it of such a byte is performed (R265). -/
def Agent.buffered (g : Agent) (e : SbEntry) : Agent :=
  { g with
    sb := g.sb ++ [{ e with dep := g.fwd.any id }]
    ahead := g.ahead.filter fun r => !e.touches r.loc r.n
    late := g.late.filter fun r => !e.touches r.loc r.n }

/-- Place a write in the agent's store buffer (R145). -/
def State.push (s : State) (a : AgentId) (e : SbEntry) : State := s.modAg a fun g => g.buffered e

/-! ### Reads -/

/-- The marks of the entries from which a read of `n` bytes is forwarded (R268). -/
def forwarded : List SbEntry → List Bool → Nat → Nat → List Bool
  | [], _, _, _ => []
  | e :: es, fs, l, n => (fs.headD false || e.touches l n) :: forwarded es (fs.drop 1) l n

/-- A read of `n` bytes stands at its place in program order: those made early of the same bytes, and of die-local lines where it is
die-local, are forgotten, since it precedes them; those before it of the same bytes are performed (R265, R269). -/
def Agent.readInPlace (g : Agent) (l n : Nat) (local_ : Bool) : Agent :=
  { g with
    ahead := g.ahead.filter fun r => (r.loc + r.n ≤ l || l + n ≤ r.loc) && !(local_ && r.dieLocal)
    late := g.late.filter fun r => r.loc + r.n ≤ l || l + n ≤ r.loc }

/-- A read of an agent is performed or forwarded: the entries it is forwarded from are marked (R268). -/
def Agent.read (g : Agent) (l n : Nat) (local_ : Bool) : Agent :=
  { g.readInPlace l n local_ with fwd := forwarded g.sb g.fwd l n }

/-- No read of the agent is out of its place. -/
def Agent.readsInPlace (g : Agent) : Bool := g.ahead == [] && g.late == []

/-- Note a read of the agent. -/
def State.noteRead (s : State) (a : AgentId) (l n : Nat) (local_ : Bool) : State :=
  if (s.ag a).sb = [] ∧ (s.ag a).readsInPlace then s else s.modAg a fun g => g.read l n local_

/-- Note a read of a code line, which nothing is forwarded to (R74). -/
def State.noteFetch (s : State) (a : AgentId) (l n : Nat) (local_ : Bool) : State :=
  if (s.ag a).readsInPlace then s else s.modAg a fun g => g.readInPlace l n local_

/-! ### Store instructions of several entries (R73) -/

/-- An entry has a write to the line of another. -/
def SbEntry.onLineOf (x y : SbEntry) : Bool := x.lines.any fun a => y.lines.any fun b =>
  match a.cells, b.cells with
  | c :: _, d :: _ => c.1 / 64 == d.1 / 64
  | _, _ => false

/-- The entries after the first `n` are those of one store instruction. -/
def Agent.oneStore (g : Agent) (n : Nat) : Agent :=
  let es := g.sb.drop n
  let k := (g.sb.map fun e => e.store + 1).foldl max 0
  { g with sb := g.sb.take n ++ es.map fun e => { e with store := k, parts := (es.filter e.onLineOf).length } }

/-- Some entries of a store instruction for a line have left the buffer, and some have not. -/
def Agent.splitOn (g : Agent) (line : Nat) : Bool :=
  g.sb.any fun e => e.touches (64 * line) 64 && (g.sb.filter fun x => x.store == e.store && x.onLineOf e).length < e.parts

/-- A line holds a part of the bytes of a store instruction. -/
def State.partStored (s : State) (line : Nat) : Bool := s.allAgents.any fun a => (s.ag a).splitOn line

/-- No other agent's reservation and no copy engine holds the line of a buffered write. While the page is in transit the engine is parked,
and a write that was translated before does not wait for it (R245, R349; log 29). -/
def State.lineFree (s : State) (a : AgentId) (w : LineW) : Bool :=
  match w.cells with
  | [] => true
  | c :: _ => !s.blocked a (c.1 / 64) && !(s.owned (s.partOf a.core) (s.accOf a) w.vline && !s.inTransit a (BitVec.ofNat 64 (64 * w.vline)))

/-- Every buffered write of an agent can be accepted now. -/
def State.canDrain (s : State) (a : AgentId) : Bool := (s.ag a).sb.all fun e => e.lines.all fun w => s.lineFree a w

/-- Every buffered write of an agent is accepted, in order (log 8). -/
def State.drain (s : State) (a : AgentId) : State :=
  let es := (s.ag a).sb
  if es = [] then s
  else es.foldl (fun s e => s.acceptLines e.lines) (s.modAg a fun g => { g with sb := [], fwd := [] })

/-! ### The order in which entries leave (R255, R269 to R271, R275) -/

/-- The memory or device that serves a location: the HBM of a package, or the pool. -/
def serverOf (l : Nat) : Nat := if isPool l then 16 else pkgOfLoc l % 16

/-- Two entries make uncacheable writes to one memory or device (R255). -/
def sharesServer (x y : SbEntry) : Bool :=
  x.lines.any fun a => y.lines.any fun b =>
    match a.cells, b.cells with
    | c :: _, d :: _ => a.uc && b.uc && serverOf c.1 == serverOf d.1
    | _, _ => false

/-- Entry `e` may become visible before an earlier entry `o` of its buffer, from which `f` says that a read was forwarded. -/
def passes (o : SbEntry) (f : Bool) (e : SbEntry) : Bool :=
  !o.onLineOf e && !sharesServer o e && !(e.dieLocal && (o.dieLocal || o.tile)) && !e.tile && !(f && e.dep)

/-- Entry `e` may become visible before the earlier entries of its buffer, given with their marks. -/
def mayPass (earlier : List SbEntry) (fwd : List Bool) (e : SbEntry) : Bool :=
  match earlier with
  | [] => true
  | o :: os => passes o (fwd.headD false) e && mayPass os (fwd.drop 1) e

/-- The entries that must be accepted before every read forwarded so far is performed, and the others: an entry that was forwarded
from, and one that such an entry may not pass. -/
def splitForwarded : List SbEntry → List Bool → List SbEntry × List SbEntry
  | [], _ => ([], [])
  | o :: os, fwd =>
    let r := splitForwarded os (fwd.drop 1)
    if fwd.headD false || r.1.any fun e => !passes o (fwd.headD false) e then (o :: r.1, r.2) else (r.1, o :: r.2)

/-- The entries of a buffer, each with the mark that says whether a read was forwarded from it. -/
def markedEntries : List SbEntry → List Bool → List (SbEntry × Bool)
  | [], _ => []
  | e :: es, fs => (e, fs.headD false) :: markedEntries es (fs.drop 1)

/-- The entries that must be accepted for those that `need` names to be, which may not pass them, and the others. -/
def splitNeeded (need : SbEntry → Bool) : List (SbEntry × Bool) → List (SbEntry × Bool) × List (SbEntry × Bool)
  | [] => ([], [])
  | o :: os =>
    let r := splitNeeded need os
    if need o.1 || r.1.any fun e => !passes o.1 o.2 e.1 then (o :: r.1, r.2) else (r.1, o :: r.2)

/-- The entries of an agent's buffer that `need` names are accepted, with those before them that they may not pass; none says that one of
them must wait. -/
def State.drainNeeded (s : State) (a : AgentId) (need : SbEntry → Bool) : Option State :=
  let r := splitNeeded need (markedEntries (s.ag a).sb (s.ag a).fwd)
  if r.1 = [] then some s
  else if r.1.all fun e => e.1.lines.all fun w => s.lineFree a w then
    some (r.1.foldl (fun s e => s.acceptLines e.1.lines)
      (s.modAg a fun g => { g with sb := r.2.map fun e => e.1, fwd := r.2.map fun e => e.2 }))
  else none

/-- The entries that hold back the reads of an agent. -/
def State.holdBack (s : State) (a : AgentId) : List SbEntry :=
  if (s.ag a).fwd.any id then (splitForwarded (s.ag a).sb (s.ag a).fwd).1 else []

/-- Every read that was forwarded to the agent can be performed now. -/
def State.canPerform (s : State) (a : AgentId) : Bool := (s.holdBack a).all fun e => e.lines.all fun w => s.lineFree a w

/-- They are accepted, so that every earlier read of the agent is performed (R268). -/
def State.performReads (s : State) (a : AgentId) : State :=
  match s.holdBack a with
  | [] => s
  | e :: es =>
    let rest := (splitForwarded (s.ag a).sb (s.ag a).fwd).2.map fun x => { x with dep := false }
    (e :: es).foldl (fun s e => s.acceptLines e.lines) (s.modAg a fun g => { g with sb := rest, fwd := [] })

/-! ### Errors and reads of uncacheable pages -/

/-- An uncacheable read follows the agent's buffered uncacheable writes to its memory (R255). -/
def State.ucBehind (s : State) (a : AgentId) (x : Xl) : Bool :=
  x.uc && (s.ag a).sb.any fun e => e.lines.any fun w => w.uc && match w.cells with
    | c :: _ => serverOf c.1 == serverOf x.loc
    | [] => false

/-- A load consumes a byte in error: one that memory gives it, not its own buffered store (R144, R252, R266). The fold of a range word
reads memory, and an uncacheable read is judged once the agent's own writes to its memory are performed. -/
def State.ueSeen (s : State) (a : AgentId) (x : Xl) (n : Nat) : Bool :=
  if (s.ag a).sb = [] || x.crf != 0 then s.ueAt x.loc n
  else if x.uc then !s.ucBehind a x && s.ueAt x.loc n
  else (List.range n).any fun k => (sbByte (s.ag a).sb (x.loc + k)).isNone && s.granuleBad ((x.loc + k) / 32)

end Sys2Proof.Machine
end

