-- ==== Sys2Proof/Machine/Raise.lean ====
section
/-! DEFINITION. Conditions at an instruction: a sprig's fault (R25, R191), the trap or fault of the present step (R315, R66), the
contexts of opcodes (R85), and waiting (R37). -/

namespace Sys2Proof.Machine

/-- A synchronous condition at the instruction of an agent: a precise trap of a thread (R315), or a fault of a
sprig once the stores of its earlier instructions are performed (R25, R191). -/
def State.raiseAt (s : State) (a : AgentId) (code detail : Nat) (val : Word) : State :=
  match a.who with
  | .thread => s.trapEntry a.core code detail false (s.pcOf a) val
  | .sprig i => if s.canDrain a then (s.drain a).sprigFault a.core i code val else s

/-- The instruction of the present step takes a trap or faults. -/
def raise (s : State) (code detail : Nat) (val : Word) : Out := .next (s.raiseAt s.cur code detail val)

/-- The value of an ILLEGAL (R66). -/
def illegalVal (detail : Nat) (head : BitVec 16) : Word := BitVec.ofNat 64 (detail * 65536 + head.toNat)

/-- ILLEGAL at the head `i` (R66). -/
def illegal (s : State) (detail : Nat) (i : Instr) : Out := raise s cILLEGAL detail (illegalVal detail (headOf i))

/-- OPERAND. -/
def operand (s : State) (val : Word) : Out := raise s cOPERAND 0 val

/-! ### Contexts of opcodes (R85) -/

/-- An instruction that a sprig may not execute: detail 9. -/
def onlyThread (i : Instr) (s : State) (k : Out) : Out :=
  match s.cur.who with
  | .thread => k
  | .sprig _ => illegal s 9 i

/-- An instruction that a thread may not execute: detail 9. -/
def onlySprig (i : Instr) (s : State) (k : Nat → Out) : Out :=
  match s.cur.who with
  | .thread => illegal s 9 i
  | .sprig n => k n

/-- An instruction of K only: PRIV at user privilege, with the value of R66 detail 9; detail 9 in a sprig. -/
def onlyKernel (i : Instr) (s : State) (k : Out) : Out :=
  match s.cur.who with
  | .sprig _ => illegal s 9 i
  | .thread => if (s.priv s.cur.core).status.pl = .user then raise s cPRIV 9 (illegalVal 9 (headOf i)) else k

/-! ### Waiting -/

/-- The limit of a wait that begins now (R37). -/
def State.waitLimit (s : State) (a : AgentId) : Nat := (s.thr a.core).waitlim.toNat

/-- The instruction of the present step waits: a wait begins at the first unmet condition (R37) and runs on after, also where it then
waits for something else (R245). `what` says whether its grant is a condition on the state, `checked` what its access was checked against. -/
def waitHere (s : State) (val : Word) (what : WaitFor := .served) (checked : List PlbEntry := []) : Out :=
  let a := s.cur
  match (s.ag a).wait with
  | some w => .next (if w.what = what ∧ w.checked = checked then s
      else s.modAg a fun g => { g with wait := some { w with what := what, checked := checked } })
  | none =>
    let w : Wait := ⟨s.time, s.waitLimit a, val, what, checked⟩
    .next <| match a.who with
      | .thread => s.modThr a.core fun t => { t with ag := { t.ag with wait := some w } }
      | .sprig i => s.modSprig a.core i fun p => { p with ag := { p.ag with wait := some w }, st := .waiting }

/-- The instruction of the present step stalls without waiting in the sense of R37: it executes again. -/
def stall (s : State) : Out := .next s

end Sys2Proof.Machine
end

