-- ==== Sys2Proof/Machine/Desc.lean ====
section
/-! DEFINITION. Reading the tensor descriptor table (R196, R352) and the accesses of a tensor's elements (R197 to R199). -/

namespace Sys2Proof.Machine

/-- An access that is not made, and the value to report with it. -/
abbrev Bad := AccErr × Word

/-- The system-window address of a physical one (R335). -/
def sysAddr (l : Nat) : Word := BitVec.ofNat 64 (0xFF80000000000000 + l)

/-- Location of the descriptor entry of an index (R339, R352). -/
def State.descLoc (s : State) (p idx : Nat) : Nat := bits (s.part p).descbase 51 22 * 2 ^ 22 + 64 * idx

/-- Read an entry as one line (R352): a free line of HBM of the image; an error gives MEMERR with the index and bit 63 (R196). -/
def State.descLine (s : State) (a : AgentId) (idx : Nat) : Except Bad (BitVec 512) :=
  let l := s.descLoc (s.partOf a.core) idx
  if !s.imageHbm l then .error (.trap cXLATE 12, sysAddr l)
  else if s.blocked a (l / 64) || s.ownedLoc a l then .error (.stall, 0)
  else if s.ueAt l 64 then .error (.trap cMEMERR 0, BitVec.ofNat 64 (2 ^ 63 + idx))
  else .ok (BitVec.ofNat 512 (s.rdN l 64))

/-- Check 1 of R196: a valid, well-formed entry; EN = 0 is judged without reading the table. -/
def State.descEntry (s : State) (a : AgentId) (idx : Nat) : Except Bad (BitVec 512) :=
  let bad : Except Bad (BitVec 512) := .error (.trap cDESC 0, BitVec.ofNat 64 idx)
  if !bit (s.part (s.partOf a.core)).descbase 0 then bad
  else match s.descLine a idx with
    | .error e => .error e
    | .ok d => if !descV d || (descFault d).isSome then bad else .ok d

/-! ### One access of a tile or tensor element (R199, Table 2 of chapter 08) -/

/-- The lowest of the bytes of an access that fail a check. -/
def lowestBad {α : Type} (f : Word → Except AccErr α) (bs : List Word) : Option Bad :=
  bs.foldl (fun acc b =>
    match f b with
    | .ok _ => acc
    | .error e => match acc with
      | some (e', b') => if b.toNat < b'.toNat then some (e, b) else some (e', b')
      | none => some (e, b)) none

/-- Check one access over all of its bytes, check by check. -/
def State.checkBytes (s : State) (c : Acc) (rt : Right) (bs : List Word) : Except Bad Unit :=
  let canon (b : Word) : Except AccErr Unit := if canonical b then .ok () else .error (.trap cXLATE 0)
  let right (b : Word) : Except AccErr Unit :=
    match s.allowed c rt b with
    | .ok true => .ok ()
    | .ok false => .error (.trap cPROT 0)
    | .error e => .error e
  let onXl (f : Xl → Option AccErr) (b : Word) : Except AccErr Unit :=
    match s.access c rt b with
    | .error e => .error e
    | .ok x => match f x with
      | some e => .error e
      | none => .ok ()
  let steps : List (Word → Except AccErr Unit) := [canon, right, onXl fun _ => none,
    onXl fun x => if x.crf ≠ 0 then some (.trap cOPERAND 0) else none,
    onXl fun x => if s.poolLost x.loc then some (.trap cPOOL 0) else none,
    onXl fun x => match rt with
      | .r | .x => if s.ueSeen c.agent x 1 then some (.trap cMEMERR 0)
          else if s.blocked c.agent (x.loc / 64) then some .stall else none
      | .w => none]
  match steps.findSome? fun f => lowestBad f bs with
  | some e => .error e
  | none => .ok ()

/-- The `n` byte addresses from one. -/
def byteAddrs (a : Word) (n : Nat) : List Word := (List.range n).map fun k => a + BitVec.ofNat 64 k

/-- Every access of a list passes, in order; else the first that fails. -/
def State.checkAll (s : State) (c : Acc) (rt : Right) : List (Word × Nat) → Except Bad Unit
  | [] => .ok ()
  | (a, n) :: rest =>
    match s.checkBytes c rt (byteAddrs a n) with
    | .error e => .error e
    | .ok () => State.checkAll s c rt rest

end Sys2Proof.Machine
end

