-- ==== Sys2Proof/Machine/Flags.lean ====
section
/-! DEFINITION. The flags of `FPSTAT` as a mask (R56: META NV DZ OF UF NX from bit 5 down) and the rounding mode an
instruction uses (R88, R107, R129). -/

namespace Sys2Proof.Machine

def flMETA : BitVec 6 := 0x20
def flNV : BitVec 6 := 0x10
def flDZ : BitVec 6 := 0x08
def flOF : BitVec 6 := 0x04
def flUF : BitVec 6 := 0x02
def flNX : BitVec 6 := 0x01

/-- A flag when a condition holds. -/
def flIf (c : Bool) (f : BitVec 6) : BitVec 6 := if c then f else 0

/-- The mode a code of `FPCTL.RM` names (R56); the forbidden codes never stand there. -/
def modeOfRm (c : BitVec 3) : Rnd :=
  if c == 2 then .rtz else if c == 3 then .rdn else if c == 4 then .rup else if c == 5 then .rna else .rne

/-- The forbidden codes of RM (R56): 000, 110 and 111. -/
def rmForbidden (c : BitVec 3) : Bool := c == 0 || c == 6 || c == 7

/-- The mode of an instruction: its own field, or the agent's `FPCTL.RM` when the field is 000 (R129). -/
def State.mode (s : State) (a : AgentId) (r : Rnd) : Rnd :=
  match r with
  | .dyn => modeOfRm (s.rmOf a)
  | .rne => .rne
  | .rtz => .rtz
  | .rdn => .rdn
  | .rup => .rup
  | .rna => .rna

end Sys2Proof.Machine
end

