-- ==== Sys2Proof/Machine/Num.lean ====
section
/-! DEFINITION. Exact numbers and their rounding: the formats of R100 to R102 (named by `Ty`), `RoundInt`, `RoundToFormat`,
`IntConvert`, e8m0 and `StochasticRound` of R107 to R110, exact sums, products, quotients and roots, and the special functions
of R112. -/

namespace Sys2Proof.Machine

/-- An exact value: NaN (signalling or not), infinity, or sign x (m x 2^e + d), where `sticky` says 0 < d < 2^e. -/
inductive Num where
  | nan (sig : Bool)
  | inf (neg : Bool)
  | fin (neg : Bool) (m : Nat) (e : Int) (sticky : Bool)
  deriving DecidableEq, Repr

/-! ### Formats (Table 1 of R100) -/

/-- Fraction bits F. -/
def fracBits : Ty → Nat
  | .f64 => 52 | .f32 => 23 | .f16 => 10 | .bf16 => 7 | .e8m10 => 10 | .e4m3 => 3 | .e5m2 => 2 | .e3m2 => 2 | .e2m3 => 3 | .e2m1 => 1
  | .b8 | .b16 | .b32 | .b64 | .e8m0 => 0

/-- Exponent bits. -/
def expBits : Ty → Nat
  | .f64 => 11 | .f32 | .bf16 | .e8m10 => 8 | .f16 | .e5m2 => 5 | .e4m3 => 4 | .e3m2 => 3 | .e2m3 | .e2m1 => 2
  | .b8 | .b16 | .b32 | .b64 | .e8m0 => 0

/-- Bias. -/
def bias (f : Ty) : Nat := 2 ^ (expBits f - 1) - 1

/-- EMin. -/
def emin (f : Ty) : Int := 1 - (bias f : Int)

/-- The format has infinities, in the manner of IEEE 754. -/
def hasInf : Ty → Bool
  | .f64 | .f32 | .f16 | .bf16 | .e8m10 | .e5m2 => true
  | _ => false

/-- The format has a NaN. -/
def hasNan (f : Ty) : Bool := hasInf f || f == .e4m3

/-- The largest finite magnitude, as exponent and fraction fields. -/
def maxMag (f : Ty) : Nat :=
  if hasInf f then (2 ^ expBits f - 1) * 2 ^ fracBits f - 1
  else if f == .e4m3 then 0x7E else 2 ^ (expBits f + fracBits f) - 1

/-- The magnitude of infinity. -/
def infMag (f : Ty) : Nat := (2 ^ expBits f - 1) * 2 ^ fracBits f

/-- The magnitude of the canonical NaN. -/
def nanMag (f : Ty) : Nat := if f == .e4m3 then 0x7F else infMag f + 2 ^ (fracBits f - 1)

/-- An encoding from sign and magnitude fields; e8m10 stands in the top of its container (R101). -/
def packF (f : Ty) (neg : Bool) (mag : Nat) : Nat :=
  if f == .e8m10 then (if neg then 2 ^ 31 else 0) + mag * 2 ^ 13
  else (if neg then 2 ^ (expBits f + fracBits f) else 0) + mag

/-- The canonical NaN of a format (R100, R103). -/
def canonNan (f : Ty) : Nat := packF f false (nanMag f)

/-- A value of type `et` in its container: the bits that the type does not use are written 0 and ignored on a read, the upper
ones of a 6-bit or 4-bit type (R48) and [12:0] of e8m10 (R101). -/
def inContainer (et : Ty) (v : Nat) : Nat :=
  match et with
  | .e3m2 | .e2m3 => v % 2 ^ 6
  | .e2m1 => v % 2 ^ 4
  | .e8m10 => v / 2 ^ 13 * 2 ^ 13
  | _ => v

/-- The value of an encoding (R101). -/
def unpackF (f : Ty) (v : Nat) : Num :=
  let w := expBits f + fracBits f
  let neg := if f == .e8m10 then tst v 31 else tst v w
  let mag := if f == .e8m10 then v / 2 ^ 13 % 2 ^ w else v % 2 ^ w
  let fr := mag % 2 ^ fracBits f
  let ex := mag / 2 ^ fracBits f
  if hasInf f && ex == 2 ^ expBits f - 1 then
    if fr = 0 then .inf neg else .nan (f != .e5m2 && !tst fr (fracBits f - 1))
  else if f == .e4m3 && mag == 0x7F then .nan false
  else if ex = 0 then .fin neg fr (emin f - fracBits f) false
  else .fin neg (2 ^ fracBits f + fr) ((ex : Int) - bias f - fracBits f) false

/-- The value of an e8m0 scale (R102). -/
def unpackE8m0 (v : Nat) : Num := if v % 256 = 255 then .nan false else .fin false 1 ((v % 256 : Int) - 127) false

/-! ### Rounding (R107) -/

/-- 2^k for a possibly negative difference: 1 below zero. -/
def pow2 (k : Int) : Nat := 2 ^ k.toNat

/-- Whether a magnitude with remainder `r` of `2^k` rounds up to the next integer after `n`. -/
def roundsUp (mode : Rnd) (neg : Bool) (n r half : Nat) (sticky : Bool) : Bool :=
  let inexact := r ≠ 0 || sticky
  match mode with
  | .rtz => false
  | .rdn => neg && inexact
  | .rup => !neg && inexact
  | .rna => half ≤ r && 0 < half
  | .rne | .dyn => (half < r || (r == half && sticky) || (r == half && n % 2 == 1)) && 0 < half

/-- `RoundInt` of (m x 2^e, sticky) in units of 2^u: the integer, and whether it is inexact. -/
def roundUnits (m : Nat) (e : Int) (sticky : Bool) (u : Int) (mode : Rnd) (neg : Bool) : Nat × Bool :=
  if u ≤ e then
    let n := m * pow2 (e - u)
    (if roundsUp mode neg n 0 0 sticky then n + 1 else n, sticky)
  else
    let k := (u - e).toNat
    let n := m / 2 ^ k
    let r := m % 2 ^ k
    (if roundsUp mode neg n r (2 ^ (k - 1)) sticky then n + 1 else n, r ≠ 0 || sticky)

/-- `TowardZero` of R107. -/
def towardZero (mode : Rnd) (neg : Bool) : Bool :=
  match mode with
  | .rtz => true
  | .rdn => !neg
  | .rup => neg
  | .rne | .rna | .dyn => false

/-- Floor(Log2) of a positive m x 2^e. -/
def flog2 (m : Nat) (e : Int) : Int := (Nat.log2 m : Int) + e

/-- A number with flags raised on the way. -/
abbrev Rounded := Nat × BitVec 6

/-- The overflow of `RoundToFormat`. -/
def overflowTo (f : Ty) (mode : Rnd) (sat neg : Bool) : Rounded :=
  if sat || !(hasInf f || hasNan f) || towardZero mode neg then (packF f neg (maxMag f), flOF ||| flNX)
  else if hasInf f then (packF f neg (infMag f), flOF ||| flNX)
  else (canonNan f, flOF ||| flNX)

/-- `RoundToFormat` (R107). -/
def roundTo (x : Num) (f : Ty) (mode : Rnd) (sat : Bool) : Rounded :=
  match x with
  | .nan sig =>
    if hasNan f then (canonNan f, flIf sig flNV) else (0, flNV)
  | .inf neg =>
    if hasInf f && !sat then (packF f neg (infMag f), 0)
    else if hasNan f && !sat then (canonNan f, flNV)
    else (packF f neg (maxMag f), flNV)
  | .fin neg m e sticky =>
    if m = 0 ∧ !sticky then (packF f neg 0, 0)
    else
      let x := max (flog2 m e) (emin f)
      let n := roundUnits m e sticky (x - fracBits f) mode neg
      let mag := n.1 + (x - emin f).toNat * 2 ^ fracBits f
      if maxMag f < mag then overflowTo f mode sat neg
      else (packF f neg mag, flIf n.2 flNX ||| flIf (n.2 && flog2 m e < emin f) flUF)

/-- `IntConvert` (R108): the integer modulo 2^w, and flags. -/
def intConvert (x : Num) (w : Nat) (signed : Bool) (mode : Rnd) : Rounded :=
  let lo : Int := if signed then -(2 ^ (w - 1) : Int) else 0
  let hi : Int := if signed then 2 ^ (w - 1) - 1 else 2 ^ w - 1
  let wrap (n : Int) : Nat := (n % (2 ^ w : Int)).toNat
  match x with
  | .nan _ => (0, flNV)
  | .inf neg => (wrap (if neg then lo else hi), flNV)
  | .fin neg m e sticky =>
    -- a magnitude of 2^80 or more is out of every range
    if m ≠ 0 ∧ 80 ≤ flog2 m e then (wrap (if neg then lo else hi), flNV)
    else
      let r := roundUnits m e sticky 0 mode neg
      let n : Int := if neg then -(r.1 : Int) else r.1
      if n < lo then (wrap lo, flNV) else if hi < n then (wrap hi, flNV) else (wrap n, flIf r.2 flNX)

/-- Conversion to e8m0 (R109). -/
def toE8m0 (x : Num) (sat : Bool) : Rounded :=
  match x with
  | .nan sig => (0xFF, flIf sig flNV)
  | .inf _ => (0xFF, flNV)
  | .fin _ m e sticky =>
    if m = 0 then (0, flUF ||| flNX)
    else
      let l := flog2 m e
      if l < -127 then (0, flUF ||| flNX)
      else if 128 ≤ l then (if sat then 0xFE else 0xFF, flOF ||| flNX)
      else ((l + 127).toNat, flIf (m ≠ 2 ^ Nat.log2 m || sticky) flNX)

/-- `StochasticRound` (R110), with the 16-bit random value q. -/
def stochastic (x : Num) (f : Ty) (q : Nat) (sat : Bool) : Rounded :=
  match x with
  | .nan _ | .inf _ => roundTo x f .rtz sat
  | .fin neg m e sticky =>
    if m = 0 then roundTo x f .rtz sat
    else
      let ex := max (flog2 m e) (emin f)
      let u := ex - fracBits f
      -- |x| / u + q x 2^-16, floored: in units of 2^(min e (u - 16))
      let b := min e (u - 16)
      let n := (m * pow2 (e - b) + q * pow2 (u - 16 - b)) / pow2 (u - b)
      let y : Num := .fin neg n u false
      let r := roundTo y f .rtz sat
      let inexact := sticky || m * pow2 (e - b) != n * pow2 (u - b)
      (if n = 0 then packF f neg 0 else r.1,
        r.2 ||| flIf inexact flNX ||| flIf (inexact && flog2 m e < emin f) flUF)

/-! ### Exact arithmetic (R104 to R106, R130) -/

def Num.isNan : Num → Bool
  | .nan _ => true
  | _ => false

def Num.isSig : Num → Bool
  | .nan sig => sig
  | _ => false

def Num.isInf : Num → Bool
  | .inf _ => true
  | _ => false

def Num.isZero : Num → Bool
  | .fin _ m _ sticky => m == 0 && !sticky
  | _ => false

def Num.neg : Num → Bool
  | .nan _ => false
  | .inf n => n
  | .fin n _ _ _ => n

/-- The opposite of a number that is not a NaN. -/
def Num.flip : Num → Num
  | .nan sig => .nan sig
  | .inf n => .inf (!n)
  | .fin n m e st => .fin (!n) m e st

/-- Sum of finite values; a zero sum of cancelling operands is +0, in rdn -0 (R106). -/
def finAdd (mode : Rnd) (n1 : Bool) (m1 : Nat) (e1 : Int) (n2 : Bool) (m2 : Nat) (e2 : Int) : Num :=
  let e := min e1 e2
  let a := m1 * pow2 (e1 - e)
  let b := m2 * pow2 (e2 - e)
  if n1 = n2 then .fin n1 (a + b) e false
  else if a = b then .fin (mode == .rdn) 0 e false
  else if b < a then .fin n1 (a - b) e false
  else .fin n2 (b - a) e false

/-- Exact sum, NV for infinities of opposite sign; operands are not NaN. -/
def numAdd (mode : Rnd) (x y : Num) : Num × BitVec 6 :=
  match x, y with
  | .inf a, .inf b => if a = b then (.inf a, 0) else (.nan false, flNV)
  | .inf a, _ => (.inf a, 0)
  | _, .inf b => (.inf b, 0)
  | .fin n1 m1 e1 _, .fin n2 m2 e2 _ => (finAdd mode n1 m1 e1 n2 m2 e2, 0)
  | _, _ => (.nan false, 0)

/-- Exact product, NV for 0 x infinity; operands are not NaN. -/
def numMul (x y : Num) : Num × BitVec 6 :=
  match x, y with
  | .inf a, .inf b => (.inf (a != b), 0)
  | .inf a, .fin n m _ _ => if m = 0 then (.nan false, flNV) else (.inf (a != n), 0)
  | .fin n m _ _, .inf b => if m = 0 then (.nan false, flNV) else (.inf (b != n), 0)
  | .fin n1 m1 e1 _, .fin n2 m2 e2 _ => (.fin (n1 != n2) (m1 * m2) (e1 + e2) false, 0)
  | _, _ => (.nan false, 0)

/-- Quotient with 70 or more significant bits and sticky; NV for 0/0 and infinity/infinity, DZ for a finite nonzero dividend. -/
def numDiv (x y : Num) : Num × BitVec 6 :=
  match x, y with
  | .inf _, .inf _ => (.nan false, flNV)
  | .inf a, .fin n _ _ _ => (.inf (a != n), 0)
  | .fin n _ e _, .inf b => (.fin (n != b) 0 e false, 0)
  | .fin n1 m1 e1 _, .fin n2 m2 e2 _ =>
    if m2 = 0 then if m1 = 0 then (.nan false, flNV) else (.inf (n1 != n2), flDZ)
    else if m1 = 0 then (.fin (n1 != n2) 0 0 false, 0)
    else
      let k := Nat.log2 m2 + 72
      (.fin (n1 != n2) (m1 * 2 ^ k / m2) (e1 - e2 - k) (m1 * 2 ^ k % m2 != 0), 0)
  | _, _ => (.nan false, 0)

/-- Bits of the integer square root from bit `b` down. -/
def isqrtFrom (n : Nat) : Nat → Nat → Nat
  | 0, r => if (r + 1) * (r + 1) ≤ n then r + 1 else r
  | b + 1, r => isqrtFrom n b (if (r + 2 ^ (b + 1)) * (r + 2 ^ (b + 1)) ≤ n then r + 2 ^ (b + 1) else r)

/-- Integer square root. -/
def isqrt (n : Nat) : Nat := isqrtFrom n (Nat.log2 n / 2 + 1) 0

/-- Square root with 70 or more significant bits and sticky (R130): NV below -0. -/
def numSqrt (x : Num) : Num × BitVec 6 :=
  match x with
  | .nan sig => (.nan sig, 0)
  | .inf n => if n then (.nan false, flNV) else (.inf false, 0)
  | .fin n m e _ =>
    if m = 0 then (x, 0)
    else if n then (.nan false, flNV)
    else
      let odd := e % 2 ≠ 0
      let m' := (if odd then m * 2 else m) * 2 ^ 144
      let e' := (if odd then e - 1 else e) - 144
      let r := isqrt m'
      (.fin false r (e' / 2) (r * r != m'), 0)

/-- Order of two finite magnitudes with signs: x < y, -0 equal to +0. -/
def finLt (n1 : Bool) (m1 : Nat) (e1 : Int) (n2 : Bool) (m2 : Nat) (e2 : Int) : Bool :=
  let e := min e1 e2
  let a : Int := (m1 * pow2 (e1 - e) : Nat)
  let b : Int := (m2 * pow2 (e2 - e) : Nat)
  decide ((if n1 then -a else a) < (if n2 then -b else b))

/-- x < y; neither is a NaN. -/
def numLt (x y : Num) : Bool :=
  match x, y with
  | .inf a, .inf b => a && !b
  | .inf a, _ => a
  | _, .inf b => !b
  | .fin n1 m1 e1 _, .fin n2 m2 e2 _ => finLt n1 m1 e1 n2 m2 e2
  | _, _ => false

/-- x = y; -0 equals +0; a NaN equals nothing (R105). -/
def numEq (x y : Num) : Bool := !x.isNan && !y.isNan && !numLt x y && !numLt y x

/-- x is below y with -0 below +0 (R105). -/
def numBelow (x y : Num) : Bool := numLt x y || (numEq x y && x.neg && !y.neg)

/-- `fmin`, `fmax` and their vector forms on encodings (R105, R131): the result and flags. -/
def minMaxF (f : Ty) (maxi : Bool) (a b : Nat) : Rounded :=
  let x := unpackF f a
  let y := unpackF f b
  let fl := flIf (x.isSig || y.isSig) flNV
  if x.isNan then (if y.isNan then canonNan f else b, fl)
  else if y.isNan then (a, fl)
  else (if numBelow x y then (if maxi then b else a) else (if maxi then a else b), fl)

/-- A comparison (R105, R132): whether it holds, and flags. -/
def cmpF (f : Ty) (q : VCond) (a b : Nat) : Bool × BitVec 6 :=
  let x := unpackF f a
  let y := unpackF f b
  let un := x.isNan || y.isNan
  let quiet := flIf (x.isSig || y.isSig) flNV
  let loud := flIf un flNV
  match q with
  | .eq => (numEq x y, quiet)
  | .ne => (!numEq x y, quiet)
  | .un => (un, quiet)
  | .lt => (!un && numLt x y, loud)
  | .le => (!un && !numLt y x, loud)
  | .gt => (!un && numLt y x, loud)
  | .ge => (!un && !numLt x y, loud)

/-- The arithmetic operations of R130. -/
inductive FOp where
  | add | sub | mul | div
  deriving DecidableEq, Repr

/-- One correctly rounded operation on encodings of a format (R129, R130). -/
def arithF (o : FOp) (f : Ty) (mode : Rnd) (a b : Nat) : Rounded :=
  let x := unpackF f a
  let y := unpackF f b
  if x.isNan || y.isNan then (canonNan f, flIf (x.isSig || y.isSig) flNV)
  else
    let z := match o with
      | .add => numAdd mode x y
      | .sub => numAdd mode x y.flip
      | .mul => numMul x y
      | .div => numDiv x y
    let r := roundTo z.1 f mode false
    (r.1, z.2 ||| r.2)

/-- Fused multiply-add (R130): one rounding in all. -/
def fmaF (f : Ty) (mode : Rnd) (a b d : Nat) : Rounded :=
  let x := unpackF f a
  let y := unpackF f b
  let w := unpackF f d
  if x.isNan || y.isNan || w.isNan then (canonNan f, flIf (x.isSig || y.isSig || w.isSig) flNV)
  else
    let p := numMul x y
    if p.1.isNan then (canonNan f, p.2)
    else
      let z := numAdd mode p.1 w
      let r := roundTo z.1 f mode false
      (r.1, z.2 ||| r.2)

/-- Correctly rounded square root (R130). -/
def sqrtF (f : Ty) (mode : Rnd) (a : Nat) : Rounded :=
  let x := unpackF f a
  if x.isNan then (canonNan f, flIf x.isSig flNV)
  else
    let z := numSqrt x
    let r := roundTo z.1 f mode false
    (r.1, z.2 ||| r.2)

/-- The class mask of R134. -/
def classF (f : Ty) (a : Nat) : Nat :=
  match unpackF f a with
  | .nan sig => if sig then 0x100 else 0x200
  | .inf neg => if neg then 0x001 else 0x080
  | .fin neg m e _ =>
    if m = 0 then if neg then 0x008 else 0x010
    else if flog2 m e < emin f then if neg then 0x004 else 0x020
    else if neg then 0x002 else 0x040

/-- The value of an integer as a number. -/
def numOfInt (n : Int) : Num := .fin (decide (n < 0)) n.natAbs 0 false

/-! ### Special functions (R112; log 11) -/

/-- Working precision of the constants of `exp2`, in bits. -/
def expPrec : Nat := 320

/-- The product of 2^(2^-i) over the set bits of a fraction below 2^k, most significant first; `c` is 2^(2^-i) scaled. -/
def exp2Bits (fr : Nat) : Nat → Nat → Nat → Nat
  | 0, _, acc => acc
  | k + 1, c, acc =>
    let c' := isqrt (c * 2 ^ expPrec)
    exp2Bits fr k c' (if tst fr k then acc * c' / 2 ^ expPrec else acc)

/-- 2^x for a finite x: exact for an integer, else with sticky (2^x is irrational). Far outside every format's range the
exponent alone decides. -/
def numExp2 (neg : Bool) (m : Nat) (e : Int) : Num :=
  if m = 0 then .fin false 1 0 false
  else if 12 ≤ flog2 m e then .fin false 1 (if neg then -5000 else 5000) true
  else if 0 ≤ e then
    let n : Int := (m * pow2 e : Nat)
    .fin false 1 (if neg then -n else n) false
  else
    let k := (-e).toNat
    let w := m / 2 ^ k
    let r := m % 2 ^ k
    if r = 0 then .fin false 1 (if neg then -(w : Int) else w) false
    else
      let n : Int := if neg then -(w : Int) - 1 else w
      let fr := if neg then 2 ^ k - r else r
      .fin false (exp2Bits fr k (2 * 2 ^ expPrec) (2 ^ expPrec)) (n - expPrec) true

/-- Bits of log2 of y / 2^p in [1, 2), by repeated squaring, most significant first. -/
def log2Bits (p : Nat) : Nat → Nat → Nat → Nat
  | 0, _, acc => acc
  | n + 1, y, acc =>
    let y2 := y * y / 2 ^ p
    if 2 ^ (p + 1) ≤ y2 then log2Bits p n (y2 / 2) (2 * acc + 1) else log2Bits p n y2 (2 * acc)

/-- log2 of a positive finite value: exact for a power of two, else with sticky. -/
def numLog2 (m : Nat) (e : Int) : Num :=
  let l := flog2 m e
  if m = 2 ^ Nat.log2 m then numOfInt l
  else
    let p := 560
    let y := m * 2 ^ p / 2 ^ Nat.log2 m
    let n : Int := l * 2 ^ 200 + log2Bits p 200 y 0
    if n < 0 then .fin true (n.natAbs - 1) (-200) true else .fin false n.natAbs (-200) true

/-- 1 / sqrt(x) of a positive finite value. -/
def numRsq (m : Nat) (e : Int) : Num :=
  let odd := e % 2 ≠ 0
  let m' := if odd then m * 2 else m
  let e' := if odd then e - 1 else e
  let k := 2 * (Nat.log2 m' + 72)
  let r := isqrt (2 ^ k / m')
  .fin false r (-(e' / 2) - (k / 2 : Nat)) (r * r * m' != 2 ^ k)

/-- The special functions. -/
inductive SFn where
  | rcp | rsq | exp2 | log2
  deriving DecidableEq, Repr

/-- The exact result and the flags of the special operands (Table 3 of R112); the Bool says a special operand. An integer operand of
`vexp2` whose power the format does not have raises the flags of the general rule: the model's choice (log 11). -/
def specialExact (o : SFn) (x : Num) : Num × BitVec 6 × Bool :=
  match o, x with
  | _, .nan sig => (.nan false, flIf sig flNV, true)
  | .rcp, .inf n => (.fin n 0 0 false, 0, true)
  | .rcp, .fin n m e _ => if m = 0 then (.inf n, flDZ, true) else ((numDiv (.fin false 1 0 false) (.fin n m e false)).1, 0, false)
  | .rsq, .inf n => if n then (.nan false, flNV, true) else (.fin false 0 0 false, 0, true)
  | .rsq, .fin n m e _ =>
    if m = 0 then (.inf n, flDZ, true) else if n then (.nan false, flNV, true) else (numRsq m e, 0, false)
  | .exp2, .inf n => if n then (.fin false 0 0 false, 0, true) else (.inf false, 0, true)
  | .exp2, .fin n m e _ => (numExp2 n m e, 0, false)
  | .log2, .inf n => if n then (.nan false, flNV, true) else (.inf false, 0, true)
  | .log2, .fin n m e _ =>
    if m = 0 then (.inf true, flDZ, true) else if n then (.nan false, flNV, true) else (numLog2 m e, 0, false)

/-- A special function on an encoding of f16, bf16 or f32 (R112): the narrow forms round the binary32 result again; flags compare
the delivered result with the exact one. -/
def specialF (o : SFn) (f : Ty) (a : Nat) : Rounded :=
  let x := specialExact o (unpackF f a)
  if x.2.2 then ((roundTo x.1 f .rne false).1, x.2.1)
  else
    let r32 := (roundTo x.1 .f32 .rne false).1
    let r := if f == .f32 then r32 else (roundTo (unpackF .f32 r32) f .rne false).1
    let direct := roundTo x.1 f .rne false
    let same := match unpackF f r, x.1 with
      | .fin n1 m1 e1 _, .fin n2 m2 e2 st => !st && n1 == n2 && numEq (.fin n1 m1 e1 false) (.fin n2 m2 e2 false)
      | _, _ => false
    let tiny := match x.1 with
      | .fin _ m e _ => flog2 m e < emin f
      | _ => false
    (r, flIf (!same) flNX ||| flIf (!same && tiny) flUF ||| (direct.2 &&& flOF))

end Sys2Proof.Machine
end

