-- ==== Sys2Proof/Machine/Commut.lean ====
section
/-! DEFINITION. Commutative ranges (R118 to R120, R231, R260): deposits, partial sums, merges and folds. -/

namespace Sys2Proof.Machine

/-- The float format of a range code (R342): 2 binary32, 3 bf16, 4 binary16. -/
def crfTy (crf : Nat) : Ty := if crf = 2 then .f32 else if crf = 3 then .bf16 else .f16

/-- Word size of a commutative range in bytes (R118). -/
def crfSize (crf : Nat) : Nat := if crf = 1 then 8 else if crf = 2 then 4 else 2

/-- A finite value of a range format as a multiple of 2^-149, in two's complement (R118). -/
def toAcc : Num → BitVec 320
  | .fin neg m e _ =>
    let v := BitVec.ofNat 320 (m * pow2 (e + 149))
    if neg then -v else v
  | _ => 0

/-- The exact state of one deposit (R118, R119). -/
def Exact.ofDeposit (va part home shadow crf : Nat) (op : CredOp) (v : Word) : Exact :=
  if crf = 1 then ⟨va, part, home, shadow, crf, op, v.setWidth 320, false, false, false, some v⟩
  else
    let b := v.toNat % 2 ^ (8 * crfSize crf)
    match unpackF (crfTy crf) b with
    | .nan _ => ⟨va, part, home, shadow, crf, op, 0, false, false, true, none⟩
    | .inf neg => ⟨va, part, home, shadow, crf, op, 0, !neg, neg, false, some (BitVec.ofNat 64 b)⟩
    | x => ⟨va, part, home, shadow, crf, op, toAcc x, false, false, false, some (BitVec.ofNat 64 b)⟩

/-- The lesser or greater of two words of a range (R119): signed for int64, -0 below +0 for floats. -/
def crfExtreme (crf : Nat) (op : CredOp) (a b : Word) : Word :=
  let below := if crf = 1 then a.slt b
    else numBelow (unpackF (crfTy crf) a.toNat) (unpackF (crfTy crf) b.toNat)
  match op with
  | .min => if below then a else b
  | .max | .add => if below then b else a

/-- Two exact states of one operation combine (R119). -/
def Exact.merge (x y : Exact) : Exact :=
  { x with
    acc := x.acc + y.acc, pinf := x.pinf || y.pinf, ninf := x.ninf || y.ninf, nan := x.nan || y.nan
    ext := match x.ext, y.ext with
      | some a, some b => some (crfExtreme x.crf x.op a b)
      | some a, none => some a
      | none, b => b }

/-- The fold of a base with the deposits held for it (R120). -/
def Exact.fold (x : Exact) (base : Nat) : Nat :=
  match x.op with
  | .add =>
    if x.crf = 1 then (base + (x.acc.setWidth 64).toNat) % 2 ^ 64
    else
      let f := crfTy x.crf
      let b := unpackF f base
      let nan := x.nan || b.isNan
      let pinf := x.pinf || (b.isInf && !b.neg)
      let ninf := x.ninf || (b.isInf && b.neg)
      if nan || (pinf && ninf) then canonNan f
      else if pinf then packF f false (infMag f)
      else if ninf then packF f true (infMag f)
      else
        let a := x.acc + toAcc b
        (roundTo (.fin a.msb (if a.msb then (-a).toNat else a.toNat) (-149) false) f .rne false).1
  | .min | .max =>
    if x.crf ≠ 1 ∧ (unpackF (crfTy x.crf) base).isNan then
      match x.ext with
      | some e => e.toNat
      | none => canonNan (crfTy x.crf)
    else match x.ext with
      | some e => (crfExtreme x.crf x.op (BitVec.ofNat 64 base) e).toNat
      | none => base

/-- The load's write-back of a fold as the new base (R120). A word without a deposit keeps its base bit by bit, -0 and any NaN too: the
model's choice (log 15). -/
def State.foldWord (s : State) (l : Nat) : State :=
  match Store.find? s.exact l with
  | none => s
  | some x =>
    let n := crfSize x.crf
    State.accept (s.dropExact (· == l)) ⟨false, false, l / 64, cellsOf l n (x.fold (s.rdN l n)), false⟩

/-! ### The record store of a slice (R260) -/

/-- Records that a slice holds. -/
def recordsPerSlice : Nat := 1024

/-- The record of a word stands in the store of its slice; else its shadow holds it. -/
def State.recordHeld (s : State) (home l : Nat) : Bool := (Store.get s.records [] home).contains l

/-- A slice uses the record of a word: it is read back from the shadow if it stands there, and the least recently used record goes
to its shadow when the store is full. -/
def State.useRecord (s : State) (home l : Nat) : State :=
  { s with records := Store.put s.records [] home ((l :: (Store.get s.records [] home).filter fun k => k ≠ l).take recordsPerSlice) }

/-- The exact state of a word becomes `x`. -/
def State.setExact (s : State) (l : Nat) (x : Exact) : State := State.useRecord { s with exact := Store.ins s.exact l x } x.home l

/-- A deposit, or a core's partial value as one deposit, is merged at the home: another operation folds first (R120). -/
def State.mergeHome (s : State) (l : Nat) (x : Exact) : State :=
  match Store.find? s.exact l with
  | none => s.setExact l x
  | some y => if y.op = x.op then s.setExact l (y.merge x) else (s.foldWord l).setExact l x

/-- A core merges every partial sum it holds (R231). -/
def State.mergeCore (s : State) (q : Nat) : State :=
  ((s.core q).partials.foldl (fun s e => s.mergeHome e.1 e.2) s).modCore q fun c => { c with partials := [] }

/-- A core merges its oldest partial sum (R260). -/
def State.mergeOldest (s : State) (q : Nat) : State :=
  match (s.core q).partials with
  | [] => s
  | e :: rest => (s.mergeHome e.1 e.2).modCore q fun c => { c with partials := rest }

/-- A core merges the partial sum it holds for a word: before a write of its own to it, which is later than its deposits (R265,
R120). -/
def State.mergeWord (s : State) (q l : Nat) : State :=
  match (s.core q).partials.find? fun p => p.1 = l with
  | none => s
  | some p => (s.mergeHome l p.2).modCore q fun c => { c with partials := c.partials.filter fun p => p.1 ≠ l }

/-- A load recalls every core's partial sum of a word before folding (R231), in ascending order of core number (log 15). -/
def State.recallWord (s : State) (l : Nat) : State :=
  s.cores.foldl (fun s e =>
    ((s.core e.1).partials.filter fun p => p.1 = l).foldl (fun s p => s.mergeHome l p.2) s |>.modCore e.1 fun c =>
      { c with partials := c.partials.filter fun p => p.1 ≠ l }) s

/-- A deposit of the core: held as a partial sum (R231, R260). One of another operation held for the word is merged first; the
oldest is merged when there is no room. -/
def State.deposit (s : State) (q l : Nat) (x : Exact) : State :=
  match (s.core q).partials.find? fun p => p.1 = l with
  | some (_, y) =>
    if y.op = x.op then
      s.modCore q fun c => { c with partials := c.partials.map fun p => if p.1 = l then (l, p.2.merge x) else p }
    else
      ((s.mergeHome l y).mergeHome l x).modCore q fun c => { c with partials := c.partials.filter fun p => p.1 ≠ l }
  | none =>
    let s := if 32 ≤ (s.core q).partials.length then s.mergeOldest q else s
    s.modCore q fun c => { c with partials := c.partials ++ [(l, x)] }

end Sys2Proof.Machine
end

