-- ==== Sys2Proof/Machine/Device.lean ====
section
/-! DEFINITION. Device space of the package (R372): host port control blocks (R376), the pool region table (R380), the EXTERNAL
source sets (R373), the Caltik mailbox page (R387). Other contents are free values (log 12). -/

namespace Sys2Proof.Machine

/-- Offset of a location in this package's device window. -/
def State.devOffset (s : State) (l : Nat) : Option Nat :=
  let base := 2 ^ 51 + s.pkg * 2 ^ 44
  if base ≤ l ∧ l < base + 2 ^ 44 then some (l - base) else none

/-- Raise an EXTERNAL source on a core (R373). -/
def State.raiseExternal (s : State) (q src : Nat) : State :=
  s.modCore q fun c => { c with ext := c.ext ||| BitVec.ofNat 8192 (2 ^ src) }

/-- `HPCTL.EVCORE` of a port. -/
def Port.evcore (p : Port) : Nat := bits p.ctl 9 2

/-- Ports in CXL mode. -/
def State.cxlPorts (s : State) : Nat := ((List.range 4).filter fun j => bit (s.port j).ctl 1).length

/-- A write of `HPCTL` (R376): RZ fields stay 0; MODE is kept while the link is up, and a third CXL port is ignored (R379). -/
def State.writeHpctl (s : State) (j : Nat) (v : Word) : State :=
  let p := s.port j
  let old := bit p.ctl 1
  let mode := if tst p.link.toNat 0 then old else if bit v 1 && !old && 2 ≤ s.cxlPorts then false else bit v 1
  s.modPort j fun p => { p with
    ctl := field (bits v 51 20) 20 + field (bits v 9 2) 2 + flagAt mode 1 + flagAt (bit v 0) 0 }

/-- Word `k` of a host port's control block (Table 3 of chapter 18). -/
def State.readPortReg (s : State) (j k : Nat) : Word :=
  let p := s.port j
  if k = 0 then p.ctl else if k = 1 then p.link.setWidth 64 else if k = 2 then p.fault else if k = 3 then p.fsrc else 0

/-- A write of a host port's control block: `HPLINK` and `HPFAULT` are read-only, `HPFSRC.VALID` is cleared by a 1. -/
def State.writePortReg (s : State) (j k : Nat) (v : Word) : State :=
  if k = 0 then s.writeHpctl j v
  else if k = 3 ∧ bit v 63 then s.modPort j fun p => { p with fsrc := p.fsrc &&& 0x7FFFFFFFFFFFFFFF#64 }
  else s

/-- A write of a pool region entry (Table 5 of chapter 18): a region that becomes valid starts ONLINE on PORT,
with counts of 0, and keeps the stranded lines it had: the model's choice (log 27). -/
def State.writePoolEntry (s : State) (r k : Nat) (v : Word) : State :=
  if k = 0 then
    s.modRegion r fun g =>
      let w0 := field (bits v 51 28) 28 + field (bits v 17 8) 8 + field (bits v 5 0) 0
      if bit v 0 && !bit g.w0 0 then { g with w0 := w0, st := .online, onAlt := false, lostcnt := 0, first := 0 }
      else { g with w0 := w0 }
  else s.modRegion r fun g => { g with w1 := field (bits v 15 0) 0 }

/-- The most bytes of a payload (R387). -/
def payloadMax : Nat := 4088

/-- The bytes of an entry of Caltik's log. -/
def logBytes (e : Word) : List Byte := (List.range 64).map (Config.freeLogByte e)

/-- A payload as bytes (R387). -/
def Payload.toBytes : Payload → List Byte
  | .bytes l => l.take payloadMax
  | .summary x => (Config.freeSummary x).take payloadMax
  | .log es => (es.flatMap logBytes).take payloadMax

/-- The header of a response (R387). -/
def Response.header (r : Response) : Word :=
  field r.command.toNat 0 + field r.status.toNat 8 + field r.length.toNat 16 + field r.tag.toNat 32

/-- What stands in the mailbox page: the response, header first (R372, R387). -/
def State.mailbox (s : State) : List Byte :=
  match s.caltik.response with
  | none => []
  | some r => leBytes 8 r.header.toNat ++ r.payload.toBytes

/-- `n` bytes of the mailbox page from an offset; what the response does not reach is `free` (log 12). -/
def State.mailboxRead (s : State) (o n free : Nat) : Nat :=
  leNat ((List.range n).map fun k => s.mailbox.getD (o + k) (BitVec.ofNat 8 (free / 2 ^ (8 * k))))

/-- An uncacheable read of `n` bytes of device space (R255, R372): registers are read by 8 bytes, a narrower access of one or an
unlisted offset reads 0; BAR windows answer a free value, and the mailbox page its response (log 12). -/
def State.devRead (s : State) (l n : Nat) : State × Nat :=
  let drawn : State := { s with fresh := s.fresh + 1 }
  let free := (Config.freeDevice s.fresh).toNat % 2 ^ (8 * n)
  match s.devOffset l with
  | none => (drawn, free)
  | some o =>
    if o < 0x1000 then (drawn, s.mailboxRead o n free)
    else if 2 ^ 40 ≤ o then if o < 5 * 2 ^ 40 then (drawn, free) else (s, 0)
    else if n ≠ 8 then (s, 0)
    else if 0x10000 ≤ o ∧ o < 0x14000 then (s, (s.readPortReg ((o - 0x10000) / 0x1000) (o % 0x1000 / 8)).toNat)
    else if 0x1000000 ≤ o ∧ o < 0x1004000 then
      let r := (o - 0x1000000) / 16
      (s, (if o % 16 < 8 then (s.region r).w0 else (s.region r).w1).toNat)
    else (s, 0)

/-- What a write of device space does to its registers (R255, R372). A write of the mailbox page notes the core that asked (R373). -/
def State.devEffect (s : State) (q l n v : Nat) : State :=
  match s.devOffset l with
  | none => s
  | some o =>
    if o < 0x1000 then { s with caltik := { s.caltik with requester := q } }
    else if n ≠ 8 then s
    else if 0x10000 ≤ o ∧ o < 0x14000 then s.writePortReg ((o - 0x10000) / 0x1000) (o % 0x1000 / 8) (BitVec.ofNat 64 v)
    else if 0x1000000 ≤ o ∧ o < 0x1004000 then
      s.writePoolEntry ((o - 0x1000000) / 16) (o % 16 / 8) (BitVec.ofNat 64 v)
    else s

/-- Monitors on the written words of device space compare with what the words read now (R230). -/
def State.serveDevice (s : State) (l n : Nat) : List Monitor → State
  | [] => s
  | m :: ms =>
    let r := s.devRead m.loc 8
    State.serveDevice (if m.loc < l + n ∧ l < m.loc + 8 then r.1.serveMonitor m (BitVec.ofNat 64 r.2) else s) l n ms

/-- An uncacheable write of device space by a core (R255, R372), with the monitors it meets. -/
def State.devWrite (s : State) (q l n v : Nat) : State := State.serveDevice (s.devEffect q l n v) l n s.monitors

end Sys2Proof.Machine
end

