-- ==== Sys2Proof/Machine/Operands.lean ====
section
/-! DEFINITION. Operand forms: effective addresses (R143, R214), one checked load or store of an agent (R144, R145, R255), and
the releases that wait for it (R148, R217, R231, R283). -/

namespace Sys2Proof.Machine

/-! ### Addresses -/

/-- EffAddr of R143 for the agent of the step. -/
def State.effAddr (s : State) (m : MemOp) : Word :=
  let ea := s.rg m.b + sextN m.disp.toNat 17
  if m.x = 0 then ea else ea + (s.rg m.x <<< m.sc.toNat)

/-- ea of R214 for the agent of the step. -/
def State.syncAddr (s : State) (o : SyncOp) : Word := s.rg o.b + sextN o.imm.toNat 14

/-! ### Refused accesses -/

/-- The present instruction's request for `va` is parked: on the line of an in-transit leaf (R348), or on that of a pool region in
failover (R382). On a leaf it belongs to an instruction that has not been performed, which keeps no line (R348). -/
def State.park (s : State) (line : Nat) (va : Word) : State :=
  let s := if isPool (64 * line) then s else s.giveUpLines s.cur
  if s.parks.any fun p => p.who == s.cur && p.line == line then s else { s with parks := s.parks ++ [⟨s.cur, line, va⟩] }

/-- An access that is not made now: the trap at the instruction, a stall, or parking. -/
def notNow (s : State) (val : Word) : AccErr → Out
  | .trap c d => raise s c d val
  | .stall => stall s
  | .park line => .next (s.park line val)

/-- The same at a waiting instruction, whose time runs while it is parked on a leaf (R348). -/
def notNowWaiting (s : State) (val : Word) : AccErr → Out
  | .trap c d => raise s c d val
  | .stall => stall s
  | .park line => if isPool (64 * line) then .next (s.park line val) else waitHere (s.park line val) val

/-- Continue with a translated address. -/
def withAcc (s : State) (val : Word) (r : Except AccErr Xl) (k : Xl → Out) : Out :=
  match r with
  | .ok x => k x
  | .error e => notNow s val e

/-! ### Waiting for the store buffer -/

/-- Wait until the agent's earlier writes are performed, then go on. -/
def drained (s : State) (k : State → Out) : Out :=
  if s.canDrain s.cur then k (s.drain s.cur) else stall s

/-- The agents of a core. -/
def State.coreAgents (s : State) (q : Nat) : List AgentId := ⟨q, .thread⟩ :: (s.core q).arr.sprigs.map fun x => ⟨q, .sprig x.1⟩

/-- Wait until every earlier store of the core's thread and sprigs is performed, then go on. -/
def coreDrained (s : State) (k : State → Out) : Out :=
  match (s.coreAgents s.cur.core).foldl (fun (o : Option State) a =>
      o.bind fun s => if s.canDrain a then some (s.drain a) else none) (some s) with
  | some s => k s
  | none => stall s

/-- Wait until the agent's earlier reads are performed, those forwarded from its buffer too, then go on (R268, R272). -/
def readsDone (s : State) (k : State → Out) : Out :=
  if s.canPerform s.cur then k (s.performReads s.cur) else stall s

/-! ### Releases -/

/-- A line of a pool region of a partition (R386). -/
def State.poolOf (s : State) (p line : Nat) : Bool :=
  isPool (64 * line) && match s.regionOf (64 * line) with
    | some r => bits (s.region r).w0 17 16 == p
    | none => true

/-- Every dirty line of a partition's pool regions goes to its device (R283, R386). -/
def State.cleanPool (s : State) (p : Nat) : State :=
  (s.behind.filter fun e => s.poolOf p e.1).foldl (fun s e => s.writeBack e.1) s

/-- The writes in flight to the pool regions of a partition (R386), by number. -/
def State.poolFlights (s : State) (p : Nat) : List Nat :=
  (s.pool.filter fun e => bits e.2.w0 17 16 == p).flatMap fun e => e.2.inFlight.map fun f => f.id

/-- Some write that a release waits for is still in flight. -/
def State.poolWaits (s : State) (p : Nat) (w : PoolWait) : Bool := w.waits.any fun n => (s.poolFlights p).contains n

/-- The dirty lines of a partition go to their devices; the wait for the writes then in flight, if any. -/
def State.poolSend (s : State) (p : Nat) : State × Option PoolWait :=
  let t := s.cleanPool p
  (t, match t.poolFlights p with
    | [] => none
    | n :: ns => some ⟨n :: ns, none, true⟩)

/-- One step of a release at pool scope: the device first completes the writes in flight when it began, then the dirty lines go there,
and it completes those (R283, log 27). What it still waits for; none when it is done. -/
def State.poolStep (s : State) (p : Nat) (w : Option PoolWait) : State × Option PoolWait :=
  match w with
  | some w => if s.poolWaits p w then (s, some w) else if w.sent then (s, none) else s.poolSend p
  | none =>
    match s.poolFlights p with
    | [] => s.poolSend p
    | n :: ns => (s, some ⟨n :: ns, none, false⟩)

/-- What the instruction of the present step waits for at the pool's devices. -/
def State.fenceWait (s : State) : Option PoolWait := (s.poolFences.find? fun f => f.who = s.cur).map fun f => f.wait

/-- It waits for `w`, or for nothing any more; `line` is the address of a pool line that it cleans. -/
def State.setFence (s : State) (w : Option PoolWait) (line : Option Word) : State :=
  let fs := s.poolFences.filter fun f => f.who ≠ s.cur
  { s with poolFences := match w with
    | some w => fs ++ [⟨s.cur, w, line⟩]
    | none => fs }

/-- A release at pool scope of the present instruction: it completes only once the devices have completed the pool writes of its
partition, those that may happen before it (R283, log 27). A loss ends it (`State.loseRegion`). -/
def poolRelease (s : State) (k : State → Out) : Out :=
  let r := s.poolStep (s.partOf s.cur.core) s.fenceWait
  match r.2 with
  | some w => .next (r.1.setFence (some w) none)
  | none => k (r.1.setFence none none)

/-- The agent's earlier writes and deposits are performed, at pool scope by the device too (R148, R231, R272). -/
def releaseAt (s : State) (sc : Scope) (k : State → Out) : Out :=
  drained s fun s =>
    let s := s.mergeCore s.cur.core
    match sc with
    | .pool => poolRelease s k
    | .die | .pkg | .sys => k s

/-! ### One load -/

/-- A stranded line made readable by `cache.lift`, for a load at kernel privilege: that of the thread's core, whose own privilege judges
a sprig's `vld` too (R10, R384; log 10). -/
def State.lifted (s : State) (a : AgentId) (l : Nat) : Option Nat :=
  if (s.priv a.core).status.pl = .user then none
  else match s.regionOf l with
    | none => none
    | some r => match Store.find? (s.region r).stranded (l / 64) with
      | some (d, _, true) => some d.toNat
      | _ => none

/-- The bytes of memory that an agent's load reads, once nothing forbids it: after its own uncacheable writes; a range word is
folded, and its fold is the new base (R120). -/
def State.readMem (s : State) (a : AgentId) (x : Xl) (n : Nat) : Except AccErr (State × Nat) :=
  if s.ucBehind a x then
    if s.canDrain a then
      let s := s.drain a
      if s.ueAt x.loc n then .error (.trap cMEMERR 0)
      else .ok (s.noteRead a x.loc n (s.dieLocal a.core x), leNat (s.seenBytes a x.loc n))
    else .error .stall
  else if x.crf ≠ 0 then
    let s := (s.recallWord x.loc).foldWord x.loc
    .ok (s.noteRead a x.loc n (s.dieLocal a.core x), leNat (s.seenBytes a x.loc n))
  else .ok (s.noteRead a x.loc n (s.dieLocal a.core x), leNat (s.seenBytes a x.loc n))

/-- A load of `n` bytes by an agent at a canonical, aligned address, from step 3 of R144 on; `lift` says that a kernel one may read a
lifted line (R384). -/
def State.loadValue (s : State) (a : AgentId) (ea : Word) (n : Nat) (lift : Bool) : Except AccErr (State × Nat) :=
  match s.access (s.accOf a) .r ea with
  | .error e => .error e
  | .ok x =>
    if x.crf ≠ 0 ∧ n ≠ crfSize x.crf then .error (.trap cOPERAND 0)
    else if s.poolLost x.loc then
      match s.lifted a x.loc with
      | some d => if lift then .ok (s, d / 2 ^ (8 * (x.loc % 64)) % 2 ^ (8 * n)) else .error (.trap cPOOL 0)
      | none => .error (.trap cPOOL 0)
    else if s.ueSeen a x n then .error (.trap cMEMERR 0)
    else if isDevice x.loc then .ok (s.devRead x.loc n)
    else if s.blocked a (x.loc / 64) then .error .stall
    else (s.recall a.core x).readMem a x n

/-- The load of the present step; `k` gets the value. -/
def loadAt (s : State) (ea : Word) (n : Nat) (lift : Bool) (k : State → Nat → Out) : Out :=
  match s.loadValue s.cur ea n lift with
  | .ok (s, v) => k s v
  | .error e => notNow s ea e

/-- A scalar load: R144 whole. -/
def loadScalar (s : State) (ea : Word) (n : Nat) (lift : Bool) (k : State → Nat → Out) : Out :=
  if !canonical ea then raise s cXLATE 0 ea
  else if ea.toNat % n ≠ 0 then raise s cALIGN 0 ea
  else loadAt s ea n lift k

/-! ### One store -/

/-- The entry of a plain store. -/
def storeEntry (s : State) (a : AgentId) (ea : Word) (x : Xl) (bs : List Byte) : SbEntry :=
  ⟨[⟨x.tag, x.uc, ea.toNat / 64, cellsOfBytes x.loc bs, x.window && x.owner != a.core⟩], false, s.dieLocal a.core x, false, 0, 1, s.checkedAt (s.accOf a) ea⟩

/-- A write of device space by an agent, once every read that it may depend on is performed (R271). -/
def State.deviceStore (s : State) (a : AgentId) (l n v : Nat) : Except AccErr State :=
  if s.canPerform a then .ok ((s.performReads a).devWrite a.core l n v) else .error .stall

/-- A store of bytes within a line by an agent at a canonical, aligned address, from step 3 of R144 on: it enters the store buffer
(R145), after the core's own deposits in a range word (R120, R265); an uncacheable one to device space reaches its device in program
order (R255). -/
def State.storeValue (s : State) (a : AgentId) (ea : Word) (bs : List Byte) : Except AccErr State :=
  match s.access (s.accOf a) .w ea with
  | .error e => .error e
  | .ok x =>
    if x.crf ≠ 0 ∧ bs.length ≠ crfSize x.crf then .error (.trap cOPERAND 0)
    else if s.poolLost x.loc then .error (.trap cPOOL 0)
    else if isDevice x.loc then s.deviceStore a x.loc bs.length (leNat bs)
    else .ok ((if x.crf = 0 then s else s.mergeWord a.core x.loc).push a (storeEntry s a ea x bs))

/-- The store of the present step. -/
def storeAt (s : State) (ea : Word) (bs : List Byte) (k : State → Out) : Out :=
  match s.storeValue s.cur ea bs with
  | .ok s => k s
  | .error e => notNow s ea e

/-- A scalar store: R144 whole. -/
def storeScalar (s : State) (ea : Word) (bs : List Byte) (k : State → Out) : Out :=
  if !canonical ea then raise s cXLATE 0 ea
  else if ea.toNat % bs.length ≠ 0 then raise s cALIGN 0 ea
  else storeAt s ea bs k

end Sys2Proof.Machine
end

