-- ==== Sys2Proof/Machine/Fetch.lean ====
section
/-! DEFINITION. From the schedule to an instruction: what stands at a thread's boundary (R317), the end of an `idle` (R141), duty
(R363), entry into a line (R63, R69, R23), decoding (R64) and the rows that a value or a privilege selects (R310, R323, R382). -/

namespace Sys2Proof.Machine

/-- The applied duty (R362, R363). -/
def Duty.applied (d : Duty) : Nat := min d.tree d.cap

/-- The clock of a vat in MHz (R364): the lower of the old and new points until a change completes. -/
def Vat.mhz (v : Vat) : Nat :=
  1250 + 25 * (match v.next with
    | some n => min n v.opnow
    | none => v.opnow)

/-- The cycle of a core by which duty is counted: `CYCLE` while a context is resident; with none resident `CYCLE` stands still, and
the clock itself counts (log 4). -/
def State.dutyCycle (s : State) (q : Nat) : Nat :=
  if (s.core q).resident then (s.thr q).cycle.toNat else s.time * (s.vat (vatOf q)).mhz / 1000

/-- A core cycle is allowed (R363), and the vat's clock runs (R367). -/
def State.dutyOk (s : State) (q : Nat) : Bool :=
  s.dutyCycle q % 16 < (s.priv q).duty.applied && !(s.vat (vatOf q)).stopped

/-- A vat's clock runs again (R367). -/
def State.restartClock (s : State) (v : Nat) : State :=
  if (s.vat v).stopped then s.modVat v fun t => { t with stopped := false } else s

/-! ### Pending events (R317) -/

/-- The event bits of `FDUTY`, EVTHROTTLE lowest (R366). -/
def Duty.events (d : Duty) : Nat :=
  (if d.evthrottle then 1 else 0) + (if d.evrestore then 2 else 0) + (if d.evwear then 4 else 0) + (if d.evlimit then 8 else 0)

/-- `IPIPEND` as it reads (R312). -/
def Priv.ipipend (p : Priv) : Word :=
  flagAt p.ipiOvf 62 +
    match p.ipi with
    | [] => 0
    | (src, pay) :: _ => flagAt true 63 + field src.toNat 48 + field pay.toNat 0

/-- Some source of R141 is pending, enabled or not. -/
def State.anyPending (s : State) (q : Nat) : Bool :=
  let c := s.core q
  c.mchecks ≠ [] || c.priv.duty.events ≠ 0 || c.priv.timecmp.toNat ≤ s.time || c.priv.ipi ≠ [] || c.ext != 0 ||
  c.cpy.reports ≠ []

/-- The event to take at a boundary (R317): its code, detail, value, whether `TRAPPC` is 0, and what its entry removes. -/
def State.pendingEvent (s : State) (q : Nat) : Option (Nat × Nat × Word × Bool × State) :=
  let c := s.core q
  let st := c.priv.status
  let en (i : Nat) : Bool := st.ie && st.ien.getLsbD i
  if st.nest || (s.ag ⟨q, .thread⟩).inval then none
  else match c.mchecks with
    | m :: rest => some (cMCHECK, m.detail.toNat, m.val, m.zeroPc, s.modCore q fun c => { c with mchecks := rest })
    | [] =>
      if st.sprigtrap && st.ie && c.unrep != 0 then
        some (cSPRIG, 0, c.unrep, false, s.modCore q fun c => { c with unrep := 0 })
      else if en 4 && c.priv.duty.events ≠ 0 then
        let i := lowN 4 c.priv.duty.events
        some (cPOWER, 0, BitVec.ofNat 64 (i + 1), false, s.modPriv q fun p => { p with duty := { p.duty with
          evthrottle := p.duty.evthrottle && i ≠ 0, evrestore := p.duty.evrestore && i ≠ 1
          evwear := p.duty.evwear && i ≠ 2, evlimit := p.duty.evlimit && i ≠ 3 } })
      else if en 0 && c.priv.timecmp.toNat ≤ s.time then some (cTIMER, 0, c.priv.timecmp, false, s)
      else if en 1 && c.priv.ipi ≠ [] then some (cIPI, 0, c.priv.ipipend, false, s)
      else if en 2 && c.ext != 0 then
        let i := lowN 8192 c.ext.toNat
        some (cEXTERNAL, 0, BitVec.ofNat 64 i, false,
          s.modCore q fun c => { c with ext := c.ext &&& ~~~(BitVec.ofNat 8192 (2 ^ i)) })
      else if en 3 then
        match c.cpy.reports with
        | r :: rest => some (cCOPYERR, 0, r, false, s.modCore q fun c => { c with cpy := { c.cpy with reports := rest } })
        | [] => none
      else none

/-- The PC of the boundary: the oldest tile command not started, else the thread's PC (R35, R317). -/
def State.boundaryPc (s : State) (q : Nat) : Word :=
  match (s.core q).til.queue.find? fun t => !t.started with
  | some t => t.pc
  | none => (s.thr q).pc

/-- Taking the event of a boundary at which no started tile command is left: younger tile commands are squashed (R34, R35). -/
def State.takeEvent (s : State) (q : Nat) (e : Nat × Nat × Word × Bool × State) : State :=
  let pc := s.boundaryPc q
  let s := e.2.2.2.2.squashTiles q
  s.trapEntry q e.1 e.2.1 true (if e.2.2.2.1 then 0 else pc) e.2.2.1

/-! ### Lines and heads -/

/-- What a fetch ends in: the step is over (a trap, a stall, nothing to do), or an instruction to execute. -/
abbrev Fetched := Except State (Instr × State)

/-- The detail of a refused head (R64, R66). -/
def illegalDetail : Illegal → Nat
  | .badTail => 6
  | .reserved => 7
  | .forbidden => 8
  | .badSpr => 13

/-- ILLEGAL at the PC for a line entry: no head (R66). -/
def State.lineTrap (s : State) (a : AgentId) (detail : Nat) : State := s.raiseAt a cILLEGAL detail (illegalVal detail 0)

/-- The rows of the opcode table that a decoded `wrpr` or `svc` becomes by the value it writes or the privilege it runs at. -/
def State.specialise (s : State) (a : AgentId) (i : Instr) : Instr :=
  match i with
  | .wrpr r n =>
    if n = 0x100 then
      if bit (s.getG a r) 21 then .sholdSet r
      else if (s.priv a.core).status.shold then .sholdRelease r else i
    else if n = 0x112 then if bit (s.getG a r) 48 then .recover r else i
    else i
  | .svc code =>
    if (s.priv a.core).status.pl = .kernel ∧ !(s.priv a.core).status.nest then
      if code = 0xFF00 then .fwCallVersion else if code = 0xFF01 then .sign else if code = 0xFF02 then .fwCallSetLimit
      else if code = 0xFF03 then .setRestart else if code = 0xFF04 then .fwCallLogRead else i
    else i
  | _ => i

/-- Decode the head at the PC of a line the agent has entered (R64). -/
def State.decodeAt (s : State) (a : AgentId) (l : BitVec 512) : Fetched :=
  let slot := slotOf (s.pcOf a).toNat
  match decodeSlot l slot with
  | .ok i => .ok (s.specialise a i, s)
  | .error e => .error (s.raiseAt a cILLEGAL (illegalDetail e) (illegalVal (illegalDetail e) (lineHead l slot)))

/-- Enter a line: its form is checked (R63), and the agent keeps it. -/
def State.enterLine (s : State) (a : AgentId) (base : Nat) (l : BitVec 512) : Fetched :=
  match lineCheck l (slotOf (s.pcOf a).toNat) with
  | some d => .error (s.lineTrap a d)
  | none => (s.modAg a fun g => { g with snap := some ⟨base, l⟩ }).decodeAt a l

/-- The thread's fetch of a line: PROT, XLATE and MEMERR report the line base at the PC of entry (R69). Its read stands in program order
and reads memory (R74, R270; log 7); a line that holds a part of one store instruction's bytes is not read (R73). A line of a LOST region
takes POOL_LOST with the line base, after XLATE and before MEMERR: the model's choice, since R69 does not list it (log 27). -/
def State.fetchThread (s : State) (q : Nat) : Fetched :=
  let a : AgentId := ⟨q, .thread⟩
  let pc := s.pcOf a
  let base := lineBase pc
  match (s.ag a).snap with
  | some n => if n.base = base.toNat then s.decodeAt a n.line else .error (s.modAg a fun g => { g with snap := none })
  | none =>
    if !canonical pc then
      match s.allowed (s.accOf a) .x base with
      | .ok false => .error (s.raiseAt a cPROT 0 base)
      | .ok true => .error (s.raiseAt a cXLATE 0 base)
      | .error (.trap c d) => .error (s.raiseAt a c d base)
      | .error .stall => .error s
      | .error (.park l) => .error ({ s with cur := a }.park l base)
    else match s.access (s.accOf a) .x base with
      | .error (.trap c d) => .error (s.raiseAt a c d base)
      | .error .stall => .error s
      | .error (.park l) => .error ({ s with cur := a }.park l base)
      | .ok x =>
        if s.poolLost x.loc then .error (s.raiseAt a cPOOL 0 base)
        else if s.ueAt x.loc 64 then .error (s.raiseAt a cMEMERR 0 base)
        else if s.blocked a (x.loc / 64) || s.partStored (x.loc / 64) then .error s
        else ((s.recall q x).noteFetch a x.loc 64 (s.dieLocal q x)).enterLine a base.toNat (BitVec.ofNat 512 (s.rdN x.loc 64))

/-- A started `bloadb` of the core has not written the block-store line (R24). -/
def State.blockOwned (s : State) (q line : Nat) : Bool :=
  (s.core q).cpy.cmds.any fun m =>
    m.stage == .started && m.kind == .block && m.dst.toNat / 64 ≤ line && line < (m.dst.toNat + m.len) / 64

/-- The sprig's fetch of a line: the span of R23, the wait of R24, an error in the block store (R191). -/
def State.fetchSprig (s : State) (q i : Nat) : Fetched :=
  let a : AgentId := ⟨q, .sprig i⟩
  let p := s.sprig q i
  let base := p.pc.toNat / 64 * 64
  match p.ag.snap with
  | some n => if n.base = base then s.decodeAt a n.line else .error (s.modAg a fun g => { g with snap := none })
  | none =>
    if 0x10000 ≤ base ∨ (!p.free ∧ ¬(p.bstart.toNat ≤ base ∧ base ≤ p.bstart.toNat + 15 * 64)) then .error (s.lineTrap a 11)
    else if s.blockOwned q (base / 64) then .error s
    else if (s.core q).arr.blkUe.contains (base / 64) then .error (s.raiseAt a cMEMERR 0 (BitVec.ofNat 64 base))
    else s.enterLine a base (Store.get (s.core q).arr.blk 0 (base / 64))

/-- A sprig takes the head of its block queue (R19, R22, R51): the PC is set to the block's first head. -/
def State.takeBlock (s : State) (q i : Nat) : State :=
  match (s.sprig q i).queue with
  | [] => s
  | b :: rest =>
    if s.blockOwned q (b.addr.toNat / 64) then s
    else s.modSprig q i fun p => { p with
      st := .running, queue := rest, pc := b.addr.setWidth 17 + 2, bstart := b.addr, free := false
      ag := { p.ag with snap := none } }

/-- The core is halted, its sprigs with it (R321, R331). -/
def State.coreDead (s : State) (q : Nat) : Bool :=
  match (s.thr q).run with
  | .halted | .lost => true
  | .off | .running | .idle _ => false

/-- One step of a sprig up to its instruction; a wait that was withdrawn ends in its fault (R38). -/
def State.sprigTurn (s : State) (q i : Nat) : Fetched :=
  if (s.priv q).status.shold ∨ !s.dutyOk q ∨ s.parks.any (fun p => p.who = ⟨q, .sprig i⟩) ∨ s.coreDead q then .error s
  else match (s.sprig q i).st with
    | .idle => .error (s.takeBlock q i)
    | .faulted => .error s
    | .running | .waiting =>
      match (s.sprig q i).ag.wait with
      | some ⟨_, _, val, .withdrawn, _⟩ => .error (s.raiseAt ⟨q, .sprig i⟩ cWAITLIM 0 val)
      | some _ | none => s.fetchSprig q i

end Sys2Proof.Machine
end

