-- ==== Sys2Proof/Machine/MemInstr.lean ====
section
/-! DEFINITION. Loads, stores, prefetch, cache maintenance, fences and the user special registers (R55 to R58, R143 to R149, R274,
R384). -/

namespace Sys2Proof.Machine

/-! ### Loads and stores -/

/-- Bytes of a load width. -/
def memWBytes : MemW → Nat
  | .u8 | .s8 => 1
  | .u16 | .s16 => 2
  | .u32 | .s32 => 4
  | .u64 => 8

/-- A loaded value as the register receives it (R145). -/
def memWExtend (w : MemW) (v : Nat) : Word :=
  match w with
  | .u8 | .u16 | .u32 | .u64 => BitVec.ofNat 64 v
  | .s8 => sextN v 8
  | .s16 => sextN v 16
  | .s32 => sextN v 32

/-- Bytes of a store width. -/
def stWBytes : StW → Nat
  | .b1 => 1
  | .b2 => 2
  | .b4 => 4
  | .b8 => 8

/-- What an early read of the agent with this operand returned, if it made one (R270). -/
def State.early (s : State) (a : AgentId) (m : MemOp) (ea : Word) (n : Nat) : Option Nat :=
  ((s.ag a).ahead.find? fun e => e.m = m && e.ea = ea && e.n = n).map fun e => e.value

/-- A load of a thread from cacheable memory that is not die-local and that nothing of its buffer is forwarded to: its read may still be
performed after later accesses (R269, R270; log 7). -/
def State.mayBeLate (s : State) (x : Xl) (n : Nat) : Bool :=
  x.crf == 0 && !x.uc && !isDevice x.loc && !s.poolLost x.loc && !s.dieLocal s.cur.core x && !(s.ag s.cur).sb.any fun e => e.touches x.loc n

/-- Note a load that may be late; `s` is the state in which it was checked. -/
def State.noteLate (t s : State) (w : MemW) (d : BitVec 5) (ea : Word) : State :=
  match s.cur.who, s.access (s.accOf s.cur) .r ea with
  | .thread, .ok x =>
    if d != 0 && s.mayBeLate x (memWBytes w) then t.modAg t.cur fun g => { g with late := g.late ++ [⟨d, w, ea, x.loc, memWBytes w⟩] } else t
  | _, _ => t

/-- Load (R144, R145); a read that was performed early returns what it read then (R270). -/
def execLd (w : MemW) (d : BitVec 5) (m : MemOp) (s : State) : Out :=
  let ea := s.effAddr m
  let n := memWBytes w
  loadScalar s ea n true fun t v =>
    match s.early s.cur m ea n with
    | some v => finishG (.ld w d m) d (memWExtend w v) t
    | none => finishG (.ld w d m) d (memWExtend w v) (t.noteLate s w d ea)

/-- The thread of a core performs the read of a later load now, before the reads and the writes to other locations that precede it
(R269, R270; log 7). It reads a cacheable line that nothing holds, and no byte that its own buffer writes (R265). No read is made while an
instruction waits, which its later reads follow (R272). -/
def State.readAhead (s : State) (q : Nat) (w : MemW) (m : MemOp) : State :=
  let a : AgentId := ⟨q, .thread⟩
  let n := memWBytes w
  let ea := ({ s with cur := a } : State).effAddr m
  if (s.thr q).run ≠ .running || (s.ag a).wait.isSome || !canonical ea || ea.toNat % n ≠ 0 then s
  else match s.access (s.accOf a) .r ea with
    | .error _ => s
    | .ok x =>
      if x.crf ≠ 0 || x.uc || isDevice x.loc || s.poolLost x.loc || s.ueAt x.loc n || s.blocked a (x.loc / 64) ||
          (s.ag a).sb.any fun e => e.touches x.loc n then s
      else s.modAg a fun g => { g with
        ahead := g.ahead ++ [⟨m, ea, x.loc, n, s.rdN x.loc n, s.dieLocal q x⟩]
        late := g.late.filter fun r => r.loc + r.n ≤ x.loc || x.loc + n ≤ r.loc }

/-- The read of a load of a core's thread, that of register `d`, is performed only now, when nothing forbids it (R270; log 7). -/
def State.readLate (s : State) (q : Nat) (d : BitVec 5) : State :=
  let a : AgentId := ⟨q, .thread⟩
  match (s.thr q).run, (s.ag a).late.find? fun r => r.d = d with
  | .running, some r =>
    match s.access (s.accOf a) .r r.ea with
    | .error _ => s
    | .ok x =>
      if x.loc ≠ r.loc || x.uc || s.poolLost x.loc || s.ueAt x.loc r.n || s.blocked a (x.loc / 64) then s
      else (s.modAg a fun g => { g.readInPlace r.loc r.n false with late := g.late.filter fun x => x.d ≠ d }).setG a d
        (memWExtend r.w (s.rdN r.loc r.n))
  | _, _ => s

/-- Instructions that may stand between an early read and the load it belongs to: registers, branches, loads and stores, and fences
that order no later read (R272, R274). Whatever else a thread executes is followed by its later reads (log 7). -/
def keepsReads (i : Instr) : Bool :=
  match i with
  | .ld _ _ _ | .st _ _ _ | .pref _ _ | .time _ | .rdsr _ _ | .wrsr _ _ | .nop | .jmp _ _ | .call _ _ _ | .jmpr _ | .callr _ _
  | .br _ _ _ _ _ _ | .brz _ _ _ _ _ => true
  | .fence .rel _ | .fence .acq .die => true
  | i => energyClass i == some 0 || energyClass i == some 1 || energyClass i == some 2

/-- The scalar registers that an instruction reads or writes; none for one whose reads and writes are more than these, or that orders
earlier reads. -/
def scalarRegs : Instr → Option (List (BitVec 5))
  | .add d b c | .sub d b c | .and d b c | .or d b c | .xor d b c | .shl d b c | .shr d b c | .sra d b c | .mul d b c
  | .mulh _ d b c | .div _ d b c | .rem _ d b c | .min _ d b c | .max _ d b c | .slt _ d b c | .cmov d b c | .addsh d b c _
  | .fadd _ _ d b c | .fsub _ _ d b c | .fmul _ _ d b c | .fdiv _ _ d b c | .fma _ _ d b c | .fmin _ d b c | .fmax _ d b c
  | .fcmp _ _ d b c => some [d, b, c]
  | .clz d b | .ctz d b | .popc d b | .sext d b _ | .zext d b _ | .addi d b _ | .andi d b _ | .ori d b _ | .xori d b _ | .shli d b _
  | .shri d b _ | .srai d b _ | .fsqrt _ _ d b | .fcvt _ _ d b | .fclass _ d b | .callr d b => some [d, b]
  | .br _ _ _ _ b c => some [b, c]
  | .liTail2 d _ | .liTail4 d _ | .liTail8 d _ | .addpcLine d _ | .addpcByte d _ | .call d _ _ | .time d => some [d]
  | .jmpr b | .brz _ _ _ _ b => some [b]
  | .ld _ d m | .st _ d m => some [d, m.b, m.x]
  | .pref _ m => some [m.b, m.x]
  | .jmp _ _ | .nop | .fence .rel .die | .fence .acq .die => some []
  | _ => none

/-- Instructions that may stand between a load of register `d` and its late read: none that depends on what it returns, and none that
orders it (R271, R272; log 7). -/
def keepsLate (d : BitVec 5) (i : Instr) : Bool :=
  match scalarRegs i with
  | some rs => !rs.contains d
  | none => false

/-- Store (R144, R145). -/
def execSt (w : StW) (d : BitVec 5) (m : MemOp) (s : State) : Out :=
  storeScalar s (s.effAddr m) (leBytes (stWBytes w) (s.rg d).toNat) fun s => finish (.st w d m) s

/-- A prefetch has no architectural effect and never traps (R146). -/
def execPref (wr : Bool) (m : MemOp) (s : State) : Out := finish (.pref wr m) s

/-! ### Cache operations (R147, R384) -/

/-- The writes of a line in flight to a pool device, by number. -/
def State.lineFlights (s : State) (line : Nat) : List Nat :=
  s.pool.flatMap fun e => (e.2.inFlight.filter fun f => f.line == line).map fun f => f.id

/-- `.clean` and `.flush` of a line (R147): a dirty copy is written to memory; a pool line completes when its device has
acknowledged, and a loss ends it (`State.loseRegion`). -/
def cacheWrite (i : Instr) (ea : Word) (line : Nat) (s : State) : Out :=
  drained s fun s =>
    match s.fenceWait with
    | some w => if s.poolWaits (s.partOf s.cur.core) w then .next s else finish i (s.setFence none none)
    | none =>
      if s.blocked s.cur line then stall s
      else
        let s := s.writeBack line
        match s.lineFlights line with
        | [] => finish i s
        | n :: ns => .next (s.setFence (some ⟨n :: ns, none, true⟩) (some ea))

/-- `.inval` of a line (R147, R263): memory's value stands, as a write by the issuing agent. -/
def cacheInval (i : Instr) (line : Nat) (s : State) : Out :=
  drained s fun s =>
    if s.blocked s.cur line then stall s
    else
      let s := s.discardLine line
      finish i (s.serveMonitors ((List.range 8).map fun k => 64 * line + 8 * k) s.monitors)

/-- The LOST region that holds a location (R384). -/
def State.strandedIn (s : State) (l : Nat) : Option Nat :=
  match s.regionOf l with
  | some r => if (s.region r).st = .lost then some r else none
  | none => none

/-- `.lift` makes a stranded line readable (R384). -/
def liftLine (g : Region) (line : Nat) : Region :=
  match Store.find? g.stranded line with
  | some (d, die, _) => { g with stranded := Store.ins g.stranded line (d, die, true) }
  | none => g

/-- `.drop` discards a stranded line (R384). -/
def dropLine (g : Region) (line : Nat) : Region := { g with stranded := Store.del g.stranded line }

/-- Checks 1, 3 and 4 of R144 for a `cache` on the line of `ea`; a line of device space takes OPERAND (R255). -/
def cacheAt (rt : Right) (ea : Word) (s : State) (k : Xl → Out) : Out :=
  if !canonical ea then raise s cXLATE 0 ea
  else withAcc s ea (s.access (s.accOf s.cur) rt ea) fun x => if isDevice x.loc then operand s ea else k x

/-- The `cache` operations (R147, R384). An OPERAND trap reports the address as it is formed (log 44). -/
def cacheOpAt (op : CacheOp) (m : MemOp) (s : State) : Out :=
  let i : Instr := .cache op m
  let ea := s.effAddr m
  match op with
  | .clean | .flush => cacheAt .r ea s fun x => if s.poolLost x.loc then raise s cPOOL 0 ea else cacheWrite i ea (x.loc / 64) s
  | .inval => cacheAt .w ea s fun x =>
      if s.poolLost x.loc then raise s cPOOL 0 ea
      else if x.window then operand s ea else cacheInval i (x.loc / 64) s
  | .lift => cacheAt .r ea s fun x =>
      match s.strandedIn x.loc with
      | none => operand s ea
      | some r => finish i (s.modRegion r fun g => liftLine g (x.loc / 64))
  | .drop => cacheAt .w ea s fun x =>
      match s.strandedIn x.loc with
      | none => operand s ea
      | some r => finish i (s.modRegion r fun g => dropLine g (x.loc / 64))

/-- Cache maintenance: `.inval`, `.drop` and `.lift` are K only (R147). -/
def execCache (op : CacheOp) (m : MemOp) (s : State) : Out :=
  match op with
  | .clean | .flush => cacheOpAt op m s
  | .inval | .drop | .lift => onlyKernel (.cache op m) s (cacheOpAt op m s)

/-! ### Fences (R148, R272, R274) -/

/-- A fence. `.acq` beyond the die waits until the earlier reads are performed (R268, R272); `.rel` at die scope orders nothing. A
`.rel` or `.full` of any scope merges the core's partial sums first (R231, R280). -/
def execFence (k : FenceKind) (sc : Scope) (s : State) : Out :=
  let i : Instr := .fence k sc
  match k, sc with
  | .acq, .die => finish i s
  | .acq, .pkg | .acq, .sys | .acq, .pool => readsDone s (finish i ·)
  | .rel, .die => finish i (s.mergeCore s.cur.core)
  | .full, .die => drained s fun s => finish i (s.mergeCore s.cur.core)
  | .rel, .pkg | .rel, .sys | .rel, .pool | .full, .pkg | .full, .sys | .full, .pool => releaseAt s sc (finish i ·)

/-! ### User special registers (R55 to R58) -/

/-- The number of members of a core's level-3 group (R314); 0 when it is in none. -/
def State.level3Count (s : State) (q : Nat) : Nat :=
  let b := (s.priv q).barcfg
  if !bit b 3 then 0
  else (s.cores.filter fun e => s.partOf e.1 == s.partOf q && bit e.2.priv.barcfg 3 &&
    bits e.2.priv.barcfg 15 8 == bits b 15 8).length

/-- What `rdsr` returns in an agent (R56, R58). -/
def State.readSr (s : State) (a : AgentId) (n : BitVec 12) : Word :=
  let t := s.thr a.core
  let q := a.core
  let fp : BitVec 3 × BitVec 6 := match a.who with
    | .thread => (t.rm, t.fpstat)
    | .sprig i => ((s.sprig q i).rm, (s.sprig q i).fpstat)
  if n = 0 then fp.1.setWidth 64
  else if n = 1 then fp.2.setWidth 64
  else if n = 2 then t.waitlim.setWidth 64
  else if n = 3 then t.ltbase
  else if n = 4 then field (q % 4) 8 + field (bits (s.priv q).coretab 7 0) 0
  else if n = 5 then field (s.core q).arr.r 8 + field (s.core q).arr.n 0
  else if n = 6 then flagAt t.sat 63 + (t.energy >>> 16)
  else if n = 7 then t.cycle
  else if n = 8 then t.retired
  else if n = 9 then field (s.level3Count q) 8 + field (bits (s.priv q).barcfg 3 0) 0
  else field (s.binding q) 16 + (s.vat (vatOf q)).wshare.setWidth 64

/-- Read a user special register (R149). -/
def execRdsr (d : BitVec 5) (n : BitVec 12) (s : State) : Out := finishG (.rdsr d n) d (s.readSr s.cur n) s

/-- The forbidden values of Table 3 of chapter 02. -/
def srForbidden (a : AgentId) (n : BitVec 12) (v : Word) : Bool :=
  (n == 0 && rmForbidden (v.setWidth 3)) || (n == 3 && decide (a.who = .thread) && !canonical v)

/-- A write of a thread's own register (R55, R56). -/
def Thread.writeSr (t : Thread) (n : BitVec 12) (v : Word) : Thread :=
  if n = 0 then { t with rm := v.setWidth 3 }
  else if n = 1 then { t with fpstat := v.setWidth 6 }
  else if n = 2 then { t with waitlim := v.setWidth 48 }
  else if n = 3 then { t with ltbase := v &&& ~~~7#64 }
  else if n = 7 then { t with cycle := v }
  else if n = 8 then { t with retired := v }
  else t

/-- A write of a sprig's own register; the thread's are ignored (R58). -/
def Sprig.writeSr (p : Sprig) (n : BitVec 12) (v : Word) : Sprig :=
  if n = 0 then { p with rm := v.setWidth 3 }
  else if n = 1 then { p with fpstat := v.setWidth 6 }
  else p

/-- Write a user special register (R55, R57, R149). The write follows the count of its own retirement, so that `RETIRED` then holds
the value written. -/
def execWrsr (r : BitVec 5) (n : BitVec 12) (s : State) : Out :=
  let a := s.cur
  let v := s.rg r
  if srForbidden a n v then operand s v
  else
    let s := s.retire a (.wrsr r n)
    .next <| match a.who with
      | .thread => s.modThr a.core fun t => t.writeSr n v
      | .sprig i => s.modSprig a.core i fun p => p.writeSr n v

end Sys2Proof.Machine
end

