-- ==== Sys2Proof/Machine/SprigRegs.lean ====
section
/-! DEFINITION. The vector, predicate and link state of a sprig (R47 to R50), and the lent sets (R26). -/

namespace Sys2Proof.Machine

/-- The pool register, over all lanes, that is vj of sprig `i` under claim `r` (R47). -/
def poolKey (i r j : Nat) : Nat := 256 * (i % 8) + i / 8 * r + j

/-- Reading v register `j` of sprig `i`. -/
def State.getV (s : State) (q i : Nat) (j : BitVec 6) : BitVec 512 :=
  Store.get (s.core q).arr.pool 0 (poolKey i (s.core q).arr.r j.toNat)

/-- Writing v register `j` of sprig `i`. -/
def State.setV (s : State) (q i : Nat) (j : BitVec 6) (v : BitVec 512) : State :=
  s.modCore q fun c =>
    let p := poolKey i c.arr.r j.toNat
    { c with
      arr := { c.arr with pool := Store.put c.arr.pool 0 p v }
      dirty := { c.dirty with pool := c.dirty.pool ||| BitVec.ofNat 2048 (2 ^ p) } }

/-- Reading predicate `j` of sprig `i`: k0 is all ones (R49). -/
def State.getK (s : State) (q i : Nat) (j : BitVec 3) : Word :=
  if j = 0 then 0xFFFFFFFFFFFFFFFF else Store.get (s.sprig q i).k 0 j.toNat

/-- Writing predicate `j` of sprig `i`: k0 ignores writes (R49). -/
def State.setK (s : State) (q i : Nat) (j : BitVec 3) (v : Word) : State :=
  if j = 0 then s else s.modSprig q i fun p => { p with k := Store.put p.k 0 j.toNat v }

/-- The place of the link slot of an offset -7 to -1 or 1 to 7, given in 6 bits. -/
def linkSlot (d : BitVec 6) : Nat := ((if d.toInt < 0 then d.toInt + 7 else d.toInt + 6) : Int).toNat

/-- Fill or empty a link slot of a sprig (R50, R172): the slot's unit becomes dirty, and the sprig's, whose record holds the full
bit (R326, R327). -/
def State.setLink (s : State) (q i slot : Nat) (v : Option (BitVec 512)) : State :=
  s.modCore q fun c =>
    let p := (Store.find? c.arr.sprigs i).getD Sprig.reset
    let p' := match v with
      | some x => { p with links := Store.put p.links 0 slot x, full := p.full ||| BitVec.ofNat 14 (2 ^ slot) }
      | none => { p with full := p.full &&& ~~~(BitVec.ofNat 14 (2 ^ slot)) }
    { c with
      arr := { c.arr with sprigs := Store.ins c.arr.sprigs i p' }
      dirty := { c.dirty with
        slot := c.dirty.slot ||| BitVec.ofNat 896 (2 ^ (14 * i + slot)), sprig := c.dirty.sprig ||| BitVec.ofNat 64 (2 ^ i) } }

/-- The lent set of accumulator `j` of a core (R26). -/
def State.lentSet (s : State) (q j : Nat) : Word := Store.get (s.core q).til.lent 0 j

/-- Set a lent set; the units of the sprigs that join or leave it become dirty, whose records hold it as LENT (R326, R327). -/
def State.setLent (s : State) (q j : Nat) (m : Word) : State :=
  s.modCore q fun c => { c with
    til := { c.til with lent := Store.put c.til.lent 0 j m }
    dirty := { c.dirty with sprig := c.dirty.sprig ||| (Store.get c.til.lent 0 j ^^^ m) } }

/-- Remove sprigs from every lent set (R26). -/
def State.unlend (s : State) (q : Nat) (m : Word) : State :=
  [0, 1, 2, 3].foldl (fun s j => s.setLent q j (s.lentSet q j &&& ~~~m)) s

/-- A sprig is FAULTED, or IDLE with an empty queue. -/
def State.sprigDone (s : State) (q i : Nat) : Bool :=
  match (s.sprig q i).st with
  | .faulted => true
  | .idle => (s.sprig q i).queue == []
  | .running | .waiting => false

/-- No sprig of a core's array is ready, running or waiting (R18). -/
def State.sprigsDone (s : State) (q : Nat) : Bool := (List.range (s.core q).arr.n).all fun i => s.sprigDone q i

/-- The sprigs of a mask below `n`. -/
def maskSprigs (n : Nat) (m : Word) : List Nat := (List.range n).filter fun i => m.getLsbD i

/-- The FAULTED sprigs of a mask (R165). -/
def State.faultedOf (s : State) (q : Nat) (is : List Nat) : Word :=
  BitVec.ofNat 64 (sumNat (is.map fun i => if (s.sprig q i).st = .faulted then 2 ^ i else 0))

end Sys2Proof.Machine
end

