-- ==== Sys2Proof/Machine/Sync.lean ====
section
/-! DEFINITION. Synchronisation (R214 to R233): queued reservations, atomics, `mcas`, tagged words, monitors, deposits, semaphores
and barriers, with the end of holds, waits and idles (R38, R141, R220). -/

namespace Sys2Proof.Machine

/-! ### Checks (R215) -/

/-- What Table 1 of chapter 09 asks of the page. -/
inductive PageNeed where
  | plain | tagged | range
  deriving DecidableEq, Repr

/-- Steps 5 and 6 of R215. -/
def syncAttrs (s : State) (ea : Word) (x : Xl) (need : PageNeed) (pool : Bool) (k : Out) : Out :=
  let refused := match need with
    | .plain => x.crf ≠ 0
    | .tagged => !x.tag
    | .range => x.crf = 0
  if refused || (!pool && isPool x.loc) then operand s ea
  else if s.poolLost x.loc then raise s cPOOL 0 ea
  else k

/-- Steps 1 to 6 of R215, for a word of `n` bytes and the rights named; `k` gets the translated address, `refuse` why the access is not
made now. -/
def syncSteps (refuse : AccErr → Out) (s : State) (ea : Word) (n : Nat) (r w : Bool) (need : PageNeed) (pool : Bool) (k : Xl → Out) : Out :=
  let c := s.accOf s.cur
  if !canonical ea then raise s cXLATE 0 ea
  else if ea.toNat % n ≠ 0 then raise s cALIGN 0 ea
  else match s.allowed c .r ea, s.allowed c .w ea with
    | .error e, _ => refuse e
    | _, .error e => refuse e
    | .ok hr, .ok hw =>
      if (r && !hr) || (w && !hw) then raise s cPROT 0 ea
      else match s.access c (if r then .r else .w) ea with
        | .error e => refuse e
        | .ok x => syncAttrs s ea x need pool (k x)

/-- The checks of R215. -/
def syncCheck (s : State) (ea : Word) (n : Nat) (r w : Bool) (need : PageNeed) (pool : Bool) (k : Xl → Out) : Out :=
  syncSteps (notNow s ea) s ea n r w need pool k

/-- The same for a waiting instruction, whose time runs while its request is parked (R348). -/
def syncCheckWaiting (s : State) (ea : Word) (n : Nat) (r w : Bool) (need : PageNeed) (pool : Bool) (k : Xl → Out) : Out :=
  syncSteps (notNowWaiting s ea) s ea n r w need pool k

/-- Step 7 of R215, of the word as it stands once the agent's earlier writes are performed (R217, R252). -/
def wordSound (s : State) (ea : Word) (x : Xl) (n : Nat) (k : Out) : Out :=
  if s.ueAt x.loc n then raise s cMEMERR 0 ea else k

/-- `.pool` away from the pool acts as `.sys` (R217). -/
def scopeAt (sc : Scope) (inPool : Bool) : Scope := if sc = .pool ∧ !inPool then .sys else sc

/-- The agent's accesses before the instruction (R217): performed at die scope, as by a `fence.full.die`, which merges the core's
partial sums too (R231; log 15), or released at its scope. -/
def ordered (s : State) (o : Ordr) (sc : Scope) (inPool : Bool) (k : State → Out) : Out :=
  match o with
  | .none | .acq => drained s fun s => k (s.mergeCore s.cur.core)
  | .rel | .ar => releaseAt s (scopeAt sc inPool) k

/-- The instruction of the present step stands in a queue that hands its result to it, or has armed its monitor: it was checked when it
arrived, and it waits on (R229, R230). -/
def State.arrived (s : State) (a : AgentId) : Bool :=
  s.monitors.any (fun m => m.who == a) ||
    s.tagQ.any fun e => e.2.fullQ.any (fun w => w.who == a) || e.2.emptyQ.any fun w => w.who == a

/-- Unless it has arrived already, the instruction acts. -/
def arriving (s : State) (k : Out) : Out := if s.arrived s.cur then .next s else k

/-- The word at a translated address. -/
def State.wordAt (s : State) (x : Xl) (n : Nat) : State × Nat :=
  if isDevice x.loc then s.devRead x.loc n else (s.recall s.cur.core x, s.rdN x.loc n)

/-- Write the word at a translated address, as one event at the home. -/
def State.setWordAt (s : State) (x : Xl) (ea : Word) (n v : Nat) : State :=
  if isDevice x.loc then s.devWrite s.cur.core x.loc n v
  else s.accept ⟨x.tag, x.uc, ea.toNat / 64, cellsOf x.loc n v, false⟩

/-! ### Reservations (R218 to R222) -/

/-- The agent holds the line by `lrw`. -/
def State.holdsLrw (s : State) (a : AgentId) (line : Nat) : Bool :=
  match Store.find? s.res line with
  | some e => e.holder == some a && e.byLrw
  | none => false

/-- Lines with a slot at a slice (R218). -/
def State.slotsUsed (s : State) (home : Nat) : Nat := (s.res.filter fun e => e.2.home == home).length

/-- The agent waits in some queue of a line or a slice. -/
def State.queuedFor (s : State) (a : AgentId) (line : Nat) : Bool :=
  (match Store.find? s.res line with
    | some e => e.queue.any fun w => w.1 == a
    | none => false) || s.sliceQ.any fun e => e.2.any fun w => w.who == a && w.line == line

/-- Request a line (R218): the holder has it; a free line with a slot is granted; otherwise the agent joins a queue once. The Bool
says granted. -/
def State.request (s : State) (a : AgentId) (lrw : Bool) (home line vline : Nat) : Bool × State :=
  match Store.find? s.res line with
  | some e =>
    if e.holder = some a then (true, s)
    else if s.queuedFor a line then (false, s)
    else (false, { s with res := Store.ins s.res line { e with queue := e.queue ++ [(a, lrw)] } })
  | none =>
    if s.queuedFor a line then (false, s)
    else if s.slotsUsed home < 128 then (true, { s with res := Store.ins s.res line ⟨home, vline, some a, lrw, s.time, []⟩ })
    else (false, { s with sliceQ := Store.put s.sliceQ [] home (Store.get s.sliceQ [] home ++ [⟨a, lrw, line, vline⟩]) })

/-- An instruction of 0x44 to 0x54 begins: a reservation the agent holds by `lrw` ends, except on the line kept (R220). -/
def State.beginSync (s : State) (keep : Option Nat) : State :=
  ((s.heldLines s.cur true).filter fun l => some l != keep).foldl State.releaseLine s

/-- `lrw` (R219). -/
def execLrw (d : BitVec 5) (o : SyncOp) (s : State) : Out :=
  let ea := s.syncAddr o
  syncCheckWaiting s ea 8 true false .plain true fun x =>
    let s := s.beginSync (some (x.loc / 64))
    ordered s o.ord o.scope (isPool x.loc) fun s => wordSound s ea x 8 <|
      let r := s.request s.cur true x.slice (x.loc / 64) (ea.toNat / 64)
      if r.1 then
        let w := r.2.wordAt x 8
        finishG (.lrw d o) d (BitVec.ofNat 64 w.2) w.1
      else waitHere r.2 ea (.line (x.loc / 64)) (r.2.checkedAt (r.2.accOf r.2.cur) ea)

/-- `sch` (R221): the store and the hand-over are one event. -/
def execSch (d c : BitVec 5) (o : SyncOp) (s : State) : Out :=
  let ea := s.syncAddr o
  syncCheck s ea 8 false true .plain true fun x =>
    ordered s o.ord o.scope (isPool x.loc) fun s =>
      if s.holdsLrw s.cur (x.loc / 64) then
        finishG (.sch d c o) d 0 ((s.setWordAt x ea 8 (s.rg c).toNat).releaseLine (x.loc / 64))
      else finishG (.sch d c o) d 1 s

/-- `relq` (R222). -/
def execRelq (o : SyncOp) (s : State) : Out :=
  let ea := s.syncAddr o
  syncCheck s ea 8 true false .plain true fun x =>
    ordered s o.ord o.scope (isPool x.loc) fun s =>
      finish (.relq o) (if s.holdsLrw s.cur (x.loc / 64) then s.releaseLine (x.loc / 64) else s)

/-! ### Atomics (R223, R224) -/

/-- The new word of an `amo` (R223). -/
def amoNew (op : AmoOp) (old v : Word) : Word :=
  match op with
  | .add => old + v
  | .and => old &&& v
  | .or => old ||| v
  | .swap => v
  | .min => if v.slt old then v else old
  | .max => if old.slt v then v else old
  | .minU => if v.ult old then v else old
  | .maxU => if old.ult v then v else old

/-- A read-modify-write of one word under an internal reservation: `f` gives the new word, or none to leave it. The register
receives the old word. -/
def rmw (i : Instr) (d : BitVec 5) (o : SyncOp) (f : Word → Option Word) (s : State) : Out :=
  let ea := s.syncAddr o
  syncCheck s ea 8 true true .plain true fun x =>
    let s := s.beginSync none
    ordered s o.ord o.scope (isPool x.loc) fun s => wordSound s ea x 8 <|
      let r := s.request s.cur false x.slice (x.loc / 64) (ea.toNat / 64)
      if r.1 then
        let w := r.2.wordAt x 8
        let s := match f (BitVec.ofNat 64 w.2) with
          | some v => w.1.setWordAt x ea 8 v.toNat
          | none => w.1
        finishG i d (BitVec.ofNat 64 w.2) (s.releaseLine (x.loc / 64))
      else stall r.2

/-- `amo` (R223). -/
def execAmo (op : AmoOp) (d c : BitVec 5) (o : SyncOp) (s : State) : Out :=
  rmw (.amo op d c o) d o (fun old => some (amoNew op old (s.rg c))) s

/-- `cas` (R224). -/
def execCas (d c : BitVec 5) (o : SyncOp) (s : State) : Out :=
  rmw (.cas d c o) d o (fun old => if old = s.rg d then some (s.rg c) else none) s

/-! ### Multi-word compare-and-swap (R225 to R227) -/

/-- Check the words of a parameter block from offset `o`, `n` of them, and collect their values (R226 steps 1 and 3). R215 gives no row
for these words: a commutative range refuses them, the pool does not (log 39). -/
def mcasWords (p : Word) (w : Bool) : Nat → Nat → List Word → State → (State → List Word → Out) → Out
  | 0, _, acc, s, k => k s acc.reverse
  | n + 1, o, acc, s, k =>
    let ea := p + BitVec.ofNat 64 o
    syncCheck s ea 8 true w .plain true fun x => wordSound s ea x 8 <|
      if s.blocked s.cur (x.loc / 64) then stall s
      else
        let v := s.wordAt x 8
        mcasWords p w n (o + 8) (BitVec.ofNat 64 v.2 :: acc) v.1 k

/-- The entries of a block from its words. -/
def mcasEntries : Nat → List Word → List McasEntry
  | i, a :: e :: n :: rest => ⟨i, a, e, n⟩ :: mcasEntries (i + 1) rest
  | _, _ => []

/-- The lowest address that two entries name (R226 step 4). -/
def mcasDup (es : List McasEntry) : Option Nat :=
  let as_ := es.map fun e => e.addr.toNat
  (sortAsc as_).find? fun a => 2 ≤ (as_.filter fun b => b = a).length

/-- Insert an entry by ascending address. -/
def mcasInsert (e : McasEntry) : List McasEntry → List McasEntry
  | [] => [e]
  | f :: fs => if e.addr.toNat ≤ f.addr.toNat then e :: f :: fs else f :: mcasInsert e fs

/-- Entries in ascending address. -/
def mcasSort : List McasEntry → List McasEntry
  | [] => []
  | e :: es => mcasInsert e (mcasSort es)

/-- Entries in ascending address, line by line. -/
def mcasLines : List McasEntry → List (List McasEntry)
  | [] => []
  | e :: es =>
    match mcasLines es with
    | (f :: fs) :: gs => if e.addr.toNat / 64 = f.addr.toNat / 64 then (e :: f :: fs) :: gs else [e] :: (f :: fs) :: gs
    | gs => [e] :: gs

/-- Check every entry of one line, the lowest first (R227); `k` gets their locations. -/
def mcasCheck (s : State) : List McasEntry → List (McasEntry × Xl) → (List (McasEntry × Xl) → Out) → Out
  | [], acc, k => k acc.reverse
  | e :: es, acc, k =>
    syncCheck s e.addr 8 true true .plain false fun x => wordSound s e.addr x 8 (mcasCheck s es ((e, x) :: acc) k)

/-- Check and reserve the lines in ascending address (R227); `k` gets the locations of the entries. -/
def mcasLock (s : State) : List (List McasEntry) → List (McasEntry × Xl) → (State → List (McasEntry × Xl) → Out) → Out
  | [], acc, k => k s acc
  | g :: gs, acc, k =>
    mcasCheck s g [] fun xs =>
      match xs with
      | [] => mcasLock s gs acc k
      | (e, x) :: _ =>
        let r := s.request s.cur false x.slice (x.loc / 64) (e.addr.toNat / 64)
        if r.1 then mcasLock r.2 gs (acc ++ xs) k else stall r.2

/-- The words of the entries as they stand. -/
def State.mcasRead (s : State) : List (McasEntry × Xl) → State × List (McasEntry × Word)
  | [] => (s, [])
  | (e, x) :: es =>
    let v := s.wordAt x 8
    let r := State.mcasRead v.1 es
    (r.1, (e, BitVec.ofNat 64 v.2) :: r.2)

/-- Where the observed values are written back (R227). -/
def mcasPlaces (p : Word) (obs : List (McasEntry × Word)) : List (Word × Word) :=
  obs.map fun e => (p + BitVec.ofNat 64 (16 + 24 * e.1.idx), e.2)

/-- The write-backs can be made now; `held` is the state in which they wait for one that cannot. -/
def mcasBackOk (s held : State) : List (Word × Word) → Out → Out
  | [], k => k
  | (ea, v) :: rest, k =>
    if canonical ea && ea.toNat % 8 == 0 then
      match s.storeValue s.cur ea (leBytes 8 v.toNat) with
      | .ok _ => mcasBackOk s held rest k
      | .error e => notNow held ea e
    else k

/-- The write-back of the observed values: ordinary stores of the agent (R227). -/
def mcasWriteBack : List (Word × Word) → State → (State → Out) → Out
  | [], s, k => k s
  | (ea, v) :: rest, s, k => storeScalar s ea (leBytes 8 v.toNat) fun s => mcasWriteBack rest s k

/-- The agent's `mcas` is in progress, its block read. -/
def State.beginMcas (s : State) (h : McasHold) : State := s.modAg s.cur fun g => { g with mcas := some h }

/-- The lines are released and the observed values `ws` are stored, before any younger instruction: all of them once each can be made
(R227). Until then nothing of the instruction can be seen, and one withdrawn has not begun (R216; log 35). -/
def mcasBack (i : Instr) (d : BitVec 5) (h : McasHold) (code : Word) (ws : List (Word × Word)) (s : State) : Out :=
  mcasBackOk s (s.beginMcas { h with back := some (code, ws) }) ws (mcasWriteBack ws s (finishG i d code))

/-- All lines are held: compare, write or not, release, and report (R227). -/
def mcasAct (i : Instr) (d : BitVec 5) (h : McasHold) (s : State) (es : List (McasEntry × Xl)) : Out :=
  let r := s.mcasRead es
  let lines := (dedup (es.map fun e => e.2.loc / 64)).reverse
  match r.2.find? fun e => e.2 ≠ e.1.expected with
  | none =>
    let s := es.foldl (fun s e => s.setWordAt e.2 e.1.addr 8 e.1.new.toNat) r.1
    finishG i d 0 (lines.foldl State.releaseLine s)
  | some (e, _) =>
    let t := lines.foldl State.releaseLine r.1
    let code := BitVec.ofNat 64 (1 + e.idx)
    if h.nowb then finishG i d code t
    else mcasBack i d h code (mcasPlaces h.block r.2) t

/-- Locking of a block that has been read, and what follows (R227). -/
def mcasRun (i : Instr) (d : BitVec 5) (h : McasHold) (s : State) : Out := mcasLock s (mcasLines h.entries) [] (mcasAct i d h)

/-- `mcas` (R225 to R227). The header is read with R right before NOWB says whether W is asked of it (log 39). Once its block is read
and checked, the instruction goes on with what it read. -/
def execMcas (d : BitVec 5) (imm : BitVec 14) (sc : Scope) (b : BitVec 5) (s : State) : Out :=
  let i : Instr := .mcas d imm sc b
  let p := s.syncAddr ⟨imm, .none, sc, b⟩
  match (s.ag s.cur).mcas with
  | some h => match h.back with
    | some (code, ws) => mcasBack i d h code ws s
    | none => mcasRun i d h s
  | none =>
    drained s fun s => mcasWords p false 1 0 [] s fun s hdr =>
      let h := hdr.headD 0
      let nowb := bit h 16
      let n := bits h 3 0
      syncCheck s p 8 true (!nowb) .plain true fun _ =>
        if bits h 63 17 ≠ 0 ∨ bits h 15 10 ≠ 0 ∨ bits h 7 4 ≠ 0 ∨ n = 0 ∨ 8 < n ∨ bits h 9 8 ≠ sc.code.toNat then operand s p
        else mcasWords p (!nowb) (3 * n) 8 [] s fun s ws =>
          let es := mcasEntries 0 ws
          match mcasDup es with
          | some a => operand s (BitVec.ofNat 64 a)
          | none =>
            let h : McasHold := ⟨p, nowb, mcasSort es, none⟩
            releaseAt (s.beginSync none) (scopeAt sc false) fun s => mcasRun i d h (s.beginMcas h)

/-! ### Tagged words (R228, R229) -/

/-- The waiters of a word. -/
def State.tagAt (s : State) (l : Nat) : TagQueues := (Store.find? s.tagQ l).getD ⟨[], []⟩

def State.setTag (s : State) (l : Nat) (t : TagQueues) : State := { s with tagQ := Store.put s.tagQ ⟨[], []⟩ l t }

/-- Write a tagged word and its full bit. -/
def State.fillTag (s : State) (l vline : Nat) (v : Word) : State :=
  (s.accept ⟨true, false, vline, cellsOf l 8 v.toNat, false⟩).setFull l true

/-- A waiter for a full word is dequeued: it receives the word, and a `takew` empties it (R229). A word in error gives it MEMERR
instead, and keeps its full bit (R252, R262). -/
def State.serveFull (s : State) (l : Nat) (w : TagWaiter) : State :=
  if s.ueAt l 8 then s.condAt w.who cMEMERR 0 (BitVec.ofNat 64 w.va)
  else
    let s := (s.setG w.who w.dest (BitVec.ofNat 64 (s.rdN l 8))).retire w.who (.takew 0 ⟨0, .none, .die, 0⟩)
    if w.take then s.setFull l false else s

/-- A waiting `putw` is dequeued: the word is written and full (R229); a full bit in error gives it MEMERR (R215, R262). -/
def State.serveEmpty (s : State) (l vline : Nat) (w : TagWaiter) : State :=
  if s.ueAt l 8 then s.condAt w.who cMEMERR 0 (BitVec.ofNat 64 w.va)
  else (s.fillTag l vline w.value).retire w.who (.putw 0 ⟨0, .none, .die, 0⟩)

/-- `Serve` of R229; the number bounds the waiters served. -/
def State.serveTag (s : State) (l vline : Nat) : Nat → State
  | 0 => s
  | n + 1 =>
    let t := s.tagAt l
    if s.fullAt l then
      match t.fullQ with
      | [] => s
      | w :: rest => State.serveTag ((s.setTag l { t with fullQ := rest }).serveFull l w) l vline n
    else
      match t.emptyQ with
      | [] => s
      | w :: rest => State.serveTag ((s.setTag l { t with emptyQ := rest }).serveEmpty l vline w) l vline n

/-- Serve every waiter of a word that can be served. -/
def State.serveWord (s : State) (l vline : Nat) : State :=
  s.serveTag l vline ((s.tagAt l).fullQ.length + (s.tagAt l).emptyQ.length)

/-- The common part of the tagged-word instructions: checks, order, and the delay of a reserved line; `ue` says that the word or its
full bit is read (R215), which those do that wait for it. -/
def tagged (o : SyncOp) (s : State) (r w ue : Bool) (k : Word → Xl → State → Out) : Out :=
  let ea := s.syncAddr o
  arriving s <| syncSteps (if ue then notNowWaiting s ea else notNow s ea) s ea 8 r w .tagged false fun x =>
    let s := s.beginSync none
    ordered s o.ord o.scope false fun s =>
      if s.blocked s.cur (x.loc / 64) then stall s
      else if ue then wordSound s ea x 8 (k ea x s)
      else k ea x s

/-- `takew` (R229). -/
def execTakew (d : BitVec 5) (o : SyncOp) (s : State) : Out :=
  tagged o s true true true fun ea x s =>
    if s.fullAt x.loc then
      let v := BitVec.ofNat 64 (s.rdN x.loc 8)
      finishG (.takew d o) d v ((s.setFull x.loc false).serveWord x.loc (ea.toNat / 64))
    else
      let t := s.tagAt x.loc
      waitHere (s.setTag x.loc { t with fullQ := t.fullQ ++ [⟨s.cur, ea.toNat, true, d, 0⟩] }) ea .served (s.checkedAt (s.accOf s.cur) ea)

/-- `peekw` (R229). -/
def execPeekw (d : BitVec 5) (o : SyncOp) (s : State) : Out :=
  tagged o s true false true fun ea x s =>
    if s.fullAt x.loc then finishG (.peekw d o) d (BitVec.ofNat 64 (s.rdN x.loc 8)) s
    else
      let t := s.tagAt x.loc
      waitHere (s.setTag x.loc { t with fullQ := t.fullQ ++ [⟨s.cur, ea.toNat, false, d, 0⟩] }) ea .served (s.checkedAt (s.accOf s.cur) ea)

/-- `putw` (R229). -/
def execPutw (c : BitVec 5) (o : SyncOp) (s : State) : Out :=
  tagged o s false true true fun ea x s =>
    if s.fullAt x.loc then
      let t := s.tagAt x.loc
      waitHere (s.setTag x.loc { t with emptyQ := t.emptyQ ++ [⟨s.cur, ea.toNat, false, 0, s.rg c⟩] }) ea .served (s.checkedAt (s.accOf s.cur) ea)
    else finish (.putw c o) ((s.fillTag x.loc (ea.toNat / 64) (s.rg c)).serveWord x.loc (ea.toNat / 64))

/-- `fillw` (R229). -/
def execFillw (c : BitVec 5) (o : SyncOp) (s : State) : Out :=
  tagged o s false true false fun ea x s =>
    finish (.fillw c o) ((s.fillTag x.loc (ea.toNat / 64) (s.rg c)).serveWord x.loc (ea.toNat / 64))

/-- `emptyw` (R229). -/
def execEmptyw (o : SyncOp) (s : State) : Out :=
  tagged o s false true false fun ea x s =>
    finish (.emptyw o) ((s.setFull x.loc false).serveWord x.loc (ea.toNat / 64))

/-! ### Monitors and deposits (R230, R231) -/

/-- `waitne` (R230). -/
def execWaitne (d c : BitVec 5) (o : SyncOp) (s : State) : Out :=
  let ea := s.syncAddr o
  arriving s <| syncCheckWaiting s ea 8 true false .plain true fun x =>
    let s := s.beginSync none
    ordered s o.ord o.scope (isPool x.loc) fun s =>
      if s.blocked s.cur (x.loc / 64) then stall s
      else wordSound s ea x 8 <|
        let w := s.wordAt x 8
        if BitVec.ofNat 64 w.2 ≠ s.rg c then finishG (.waitne d c o) d (BitVec.ofNat 64 w.2) w.1
        else waitHere { w.1 with monitors := w.1.monitors ++ [⟨s.cur, ea.toNat, x.loc, s.rg c, d⟩] } ea .served (s.checkedAt (s.accOf s.cur) ea)

/-- Deposits of another operation are held for the word (R120, R215 step 7). -/
def State.credMustFold (s : State) (q l : Nat) (op : CredOp) : Bool :=
  (match Store.find? s.exact l with
    | some x => x.op != op
    | none => false) || (s.core q).partials.any fun p => p.1 == l && p.2.op != op

/-- The size of the words of the page of an address: 1 where it is no commutative range. -/
def State.rangeSize (s : State) (ea : Word) : Nat :=
  match s.translate s.cur ea with
  | .ok x => if x.crf = 0 then 1 else crfSize x.crf
  | .error _ => 1

/-- The place of the shadow of a range word (R342). -/
def State.shadowOf (s : State) (ea : Word) (x : Xl) : Nat :=
  match s.mapping s.cur ea with
  | .ok m => m.shbase + 64 * ((x.loc - m.crbase) / crfSize x.crf)
  | .error _ => 0

/-- The order of a `cred` among the agent's accesses (R217). Without `.rel` it merges nothing of what the core holds, or no partial sum
would ever be held (R231, R260; log 15). -/
def credOrdered (s : State) (o : SyncOp) (k : State → Out) : Out :=
  match o.ord with
  | .none | .acq => drained s k
  | .rel | .ar => releaseAt s (scopeAt o.scope false) k

/-- `cred` (R231). The word size, and so the alignment, comes from the page. -/
def execCred (op : CredOp) (c : BitVec 5) (o : SyncOp) (s : State) : Out :=
  let ea := s.syncAddr o
  syncCheck s ea (s.rangeSize ea) false true .range false fun x =>
    let s := s.beginSync none
    credOrdered s o fun s =>
      let q := s.cur.core
      if s.blocked s.cur (x.loc / 64) then stall s
      else if s.credMustFold q x.loc op && s.ueAt x.loc (crfSize x.crf) then raise s cMEMERR 0 ea
      else finish (.cred op c o)
        (s.deposit q x.loc (Exact.ofDeposit ea.toNat (s.partOf q) x.slice (s.shadowOf ea x) x.crf op (s.rg c)))

/-! ### Semaphores (R232) -/

/-- The common part: a pending reservation ends, the order of R217. -/
def semOp (o : Ordr) (sc : Scope) (s : State) (k : State → Out) : Out := ordered (s.beginSync none) o sc false k

/-- `semp` (R232). -/
def execSemp (o : Ordr) (sc : Scope) (c : BitVec 5) (sem : BitVec 8) (s : State) : Out :=
  let n := s.rg c
  if 0xFFFFFFFF < n.toNat then operand s n
  else semOp o sc s fun s =>
    let v := vatOf s.cur.core
    let m := s.sem v sem.toNat
    if m.queue.any fun w => w.1 = .agent s.cur then waitHere s (sem.setWidth 64)
    else if m.queue = [] ∧ n.toNat ≤ m.count.toNat then
      finish (.semp o sc c sem) (s.setSem v sem.toNat { m with count := m.count - n.setWidth 32, ovf := false })
    else waitHere (s.setSem v sem.toNat { m with queue := m.queue ++ [(.agent s.cur, n.setWidth 32)] }) (sem.setWidth 64)

/-- Add to a semaphore, saturating, and serve its queue (R232). -/
def State.semAdd (s : State) (v n k : Nat) : State :=
  let m := s.sem v n
  let t := m.count.toNat + k
  (s.setSem v n { m with count := BitVec.ofNat 32 (min t 0xFFFFFFFF), ovf := m.ovf || decide (0xFFFFFFFF < t) }).serveSem v n

/-- `semv` (R232). -/
def execSemv (o : Ordr) (sc : Scope) (c : BitVec 5) (sem : BitVec 8) (s : State) : Out :=
  let n := s.rg c
  if 0xFFFFFFFF < n.toNat then operand s n
  else semOp o sc s fun s => finish (.semv o sc c sem) (s.semAdd (vatOf s.cur.core) sem.toNat n.toNat)

/-- `semrd` (R232). -/
def execSemrd (o : Ordr) (sc : Scope) (d : BitVec 5) (sem : BitVec 8) (s : State) : Out :=
  semOp o sc s fun s =>
    let m := s.sem (vatOf s.cur.core) sem.toNat
    finishG (.semrd o sc d sem) d (flagAt m.ovf 32 + m.count.setWidth 64) s

/-! ### Barriers (R14, R233, R314) -/

/-- The members of a core's group at a level (R314). -/
def State.groupOf (s : State) (q level : Nat) : List Nat :=
  let b := (s.priv q).barcfg
  (s.cores.filter fun e =>
    s.partOf e.1 == s.partOf q && bit e.2.priv.barcfg level &&
      (if level = 0 then vatOf e.1 == vatOf q else if level = 1 then dieOf e.1 == dieOf q
       else if level = 2 then true else bits e.2.priv.barcfg 15 8 == bits b 15 8)).map fun e => e.1

/-- If every member of a core's group at a level has arrived, all complete at once (R14, R233). -/
def State.barrierCheck (s : State) (q level : Nat) : State :=
  let ms := s.groupOf q level
  let arr := s.arrivals.filter fun r => r.level = level && ms.contains r.core
  if ms ≠ [] && (ms.all fun m => arr.any fun r => r.core = m) then
    let v : Word := flagAt (arr.all fun r => r.vote) 0 + flagAt (arr.any fun r => r.vote) 1
    let s := { s with arrivals := s.arrivals.filter fun r => !(r.level = level && ms.contains r.core) }
    arr.foldl (fun t r =>
      let a : AgentId := ⟨r.core, .thread⟩
      State.retire (State.setG t a r.dest v) a (.bar .none .die 0 0 0)) s
  else s

/-- `bar` (R233). -/
def execBar (o : Ordr) (sc : Scope) (d c : BitVec 5) (level : BitVec 2) (s : State) : Out :=
  onlyThread (.bar o sc d c level) s <|
    let q := s.cur.core
    if !bit (s.priv q).barcfg level.toNat then operand s (level.setWidth 64)
    else if s.arrivals.any fun r => r.core = q then waitHere s (level.setWidth 64)
    else semOp o sc s fun s =>
      let s := { s with arrivals := s.arrivals ++ [(⟨q, level.toNat, bit (s.rg c) 0, d⟩ : Arrival)] }
      let t := s.barrierCheck q level.toNat
      if t.arrivals.any fun r => r.core = q then waitHere t (level.setWidth 64) else .next t

/-! ### Limits -/

/-- The hold limit of R220 in ns. -/
def holdLimitNs : Nat := 4096

/-- End the holds of an agent that have lasted 4,096 ns (R220). -/
def State.expireHolds (s : State) (a : AgentId) : State :=
  ((s.heldLines a true).filter fun l =>
    match Store.find? s.res l with
    | some e => e.granted + holdLimitNs ≤ s.time
    | none => false).foldl State.releaseLine s

/-- HOLD_LIMIT: the hold of an agent ends when it is due (R220). -/
def execHoldLimit (a : AgentId) (s : State) : Out := .next (s.expireHolds a)

/-- What an agent waits for is there: the grant came first at the place where the wait is held (R39). A message that grants completes its
instruction at once, so nothing is left to ask of such a wait. -/
def State.granted (s : State) (a : AgentId) (w : Wait) : Bool :=
  match w.what with
  | .served | .withdrawn => false
  | .line l => match Store.find? s.res l with
    | some e => e.holder == some a
    | none => false
  | .link slot => match a.who with
    | .thread => false
    | .sprig i => (s.sprig a.core i).full.getLsbD slot
  | .sprigs m => (maskSprigs 64 m).all fun i => s.sprigDone a.core i

/-- The wait of an agent reached its limit `late` ns ago or earlier and nothing was granted (R38, R39). -/
def State.withdrawalDue (s : State) (a : AgentId) (late : Nat) : Bool :=
  match (s.ag a).wait with
  | some w => w.limit ≠ 0 && w.since + w.limit + late ≤ s.time && w.what != .withdrawn && !s.granted a w
  | none => false

/-- Withdraw a wait at its limit (R38): WAITLIM at the waiting instruction. A tile command that waits to end a lending period stands at
the head of the tile queue (R28). A sprig leaves its queues at once, and faults when its stores are performed (R25). -/
def State.withdrawAtLimit (s : State) (a : AgentId) : State :=
  match (s.ag a).wait with
  | none => s
  | some w =>
    match a.who with
    | .sprig i =>
      let s := s.withdraw a
      if s.canDrain a then s.raiseAt a cWAITLIM 0 w.val
      else s.modSprig a.core i fun p => { p with st := .waiting, ag := { p.ag with wait := some { w with what := .withdrawn } } }
    | .thread =>
      match (s.core a.core).til.queue with
      | [] => s.raiseAt a cWAITLIM 0 w.val
      | t :: _ => ((s.squashTiles a.core).setPc a t.pc false).raiseAt a cWAITLIM 0 w.val

/-- WAIT_WITHDRAWAL: the wait of an agent is withdrawn, from its limit on (R38). -/
def execWaitWithdrawal (a : AgentId) (s : State) : Out := .next (if s.withdrawalDue a 0 then s.withdrawAtLimit a else s)

/-- The idle of a core has an ending event (R141). -/
def State.idleDue (s : State) (q : Nat) : Bool :=
  match (s.thr q).run with
  | .idle since => s.anyPending q || ((s.thr q).waitlim.toNat ≠ 0 && since + (s.thr q).waitlim.toNat ≤ s.time)
  | .off | .running | .halted | .lost => false

/-- IDLE_END: the `idle` of a core completes when it is due, and a stopped clock restarts (R141, R367). -/
def execIdleEnd (core : Nat) (s : State) : Out :=
  .next (if s.idleDue core then (s.restartClock (vatOf core)).wakeIdle core else s)

end Sys2Proof.Machine
end

