-- ==== Sys2Proof/Machine/CopyOps.lean ====
section
/-! DEFINITION. The copy engine: where the bytes of a command stand (R239 to R243), the checks of a line (R237), ownership and
start (R236, R244, R359), the move of one line, completion and reports (R236 to R238). -/

namespace Sys2Proof.Machine

/-! ### Bytes of a command -/

/-- What a destination byte receives. -/
inductive CopySrc where
  | addr (a : Word)
  | const (b : Byte)
  deriving DecidableEq, Repr

/-- One byte of a command: its destination, its offset on the flat side, and its source. -/
structure CopyByte where
  dst : Nat
  off : Nat
  src : CopySrc
  deriving DecidableEq, Repr

/-- Address of byte `k` of element (r, c) of a box. -/
def boxAddr (d : BitVec 512) (x0 x1 r c k : Nat) : Nat :=
  (rowBase d (x1 + r) 0 0 + etypeBytes (descEtype d) * (x0 + c) + k) % 2 ^ 64

/-- The destination lines of a range. -/
def rangeLines (a len : Nat) : List Nat :=
  if len = 0 then [] else (List.range ((a + len - 1) / 64 - a / 64 + 1)).map fun k => a / 64 + k

/-- The in-bounds bytes of a box as (address, flat offset), in flat order. -/
def boxBytes (d : BitVec 512) (x0 x1 rows cols : Nat) : List (Nat × Nat) :=
  let sz := etypeBytes (descEtype d)
  (List.range (rows * cols)).flatMap fun n =>
    if inBounds d (x0 + n % cols) (x1 + n / cols) 0 0 then
      (List.range sz).map fun k => (boxAddr d x0 x1 (n / cols) (n % cols) k, n * sz + k)
    else []

/-- Remove repeats, keeping the first of each. -/
def firsts : List Nat → List Nat → List Nat
  | _, [] => []
  | seen, x :: xs => if seen.contains x then firsts seen xs else x :: firsts (x :: seen) xs

/-- The destination lines of a command, those of the lowest offsets first. -/
def CopyCmd.destLines (m : CopyCmd) : List Nat :=
  match m.kind with
  | .tensor true d x0 x1 rows cols => firsts [] ((boxBytes d x0 x1 rows cols).map fun b => b.1 / 64)
  | _ => rangeLines m.dst.toNat m.len

/-- The byte at flat offset `off` of a range command. -/
def CopyCmd.rangeByte (m : CopyCmd) (off : Nat) : CopyByte :=
  let src := match m.kind with
    | .fill p => CopySrc.const (BitVec.ofNat 8 (p.toNat / 2 ^ (8 * ((m.dst.toNat + off) % 8))))
    | .tensor _ d x0 x1 _ cols =>
      let sz := etypeBytes (descEtype d)
      let n := off / sz
      if inBounds d (x0 + n % cols) (x1 + n / cols) 0 0 then .addr (BitVec.ofNat 64 (boxAddr d x0 x1 (n / cols) (n % cols) (off % sz)))
      else .const 0
    | .copy | .block | .lines => .addr (m.src + BitVec.ofNat 64 off)
  ⟨m.dst.toNat + off, off, src⟩

/-- The bytes of a destination line of a command. -/
def CopyCmd.bytesOf (m : CopyCmd) (line : Nat) : List CopyByte :=
  match m.kind with
  | .tensor true d x0 x1 rows cols =>
    ((boxBytes d x0 x1 rows cols).filter fun b => b.1 / 64 = line).map fun b => ⟨b.1, b.2, .addr (m.src + BitVec.ofNat 64 b.2)⟩
  | _ =>
    let lo := 64 * line - m.dst.toNat
    let hi := min m.len (64 * line + 64 - m.dst.toNat)
    (List.range (hi - lo)).map fun k => m.rangeByte (lo + k)

/-! ### Offsets of failing lines (R237) -/

/-- Offset of a line in a range. -/
def rangeOff (a line : Nat) : Nat := 64 * line - a

/-- Flat offset of the first element of a box with a byte in a line. -/
def boxOff (d : BitVec 512) (x0 x1 rows cols line : Nat) : Nat :=
  let sz := etypeBytes (descEtype d)
  match (boxBytes d x0 x1 rows cols).find? fun b => b.1 / 64 = line with
  | some b => b.2 / sz * sz
  | none => 0

/-- Offset of a failing destination line. -/
def CopyCmd.destOff (m : CopyCmd) (line : Nat) : Nat :=
  match m.kind with
  | .tensor true d x0 x1 rows cols => boxOff d x0 x1 rows cols line
  | _ => rangeOff m.dst.toNat line

/-- Offset of a failing source line; the addresses of a flat source wrap at 2^64. -/
def CopyCmd.srcOff (m : CopyCmd) (line : Nat) : Nat :=
  match m.kind with
  | .tensor false d x0 x1 rows cols => boxOff d x0 x1 rows cols line
  | _ => if 64 * line + 64 ≤ m.src.toNat then 64 * line + 2 ^ 64 - m.src.toNat else rangeOff m.src.toNat line

/-- The source addresses of a command that one source line holds. -/
def CopyCmd.srcAddrs (m : CopyCmd) (line : Nat) : List Word :=
  match m.kind with
  | .fill _ => []
  | .tensor false d x0 x1 rows cols =>
    ((boxBytes d x0 x1 rows cols).filter fun b => b.1 / 64 = line).map fun b => BitVec.ofNat 64 b.1
  | .tensor true d x0 x1 rows cols =>
    ((boxBytes d x0 x1 rows cols).map fun b => m.src + BitVec.ofNat 64 b.2).filter fun a => a.toNat / 64 = line
  | .copy | .block | .lines =>
    let off := m.srcOff line
    (List.range (min (64 - (m.src.toNat + off) % 64) (m.len - off))).map fun k => m.src + BitVec.ofNat 64 (off + k)

/-! ### Checks -/

/-- The name under which a core's copy engine makes accesses: it holds no reservation. -/
def engineId (q : Nat) : AgentId := ⟨q, .sprig 64⟩

/-- The access of a command: the rights of its issuer (R336). -/
def CopyCmd.acc (m : CopyCmd) (q : Nat) : Acc := ⟨engineId q, m.level, m.domain, some m.id⟩

/-- A copy command's access to `n` bytes of one line (R237): the checks of R144 without alignment. -/
def State.copyAccess (s : State) (c : Acc) (rt : Right) (va n : Nat) : Except AccErr Xl :=
  let w := BitVec.ofNat 64 va
  if !canonical w then .error (.trap cXLATE 0)
  else match s.access c rt w with
    | .error e => .error e
    | .ok x =>
      if x.crf ≠ 0 then .error (.trap cOPERAND 0)
      else if s.poolLost x.loc then .error (.trap cPOOL 0)
      else if rt = .r && s.ueAt x.loc n then .error (.trap cMEMERR 0)
      else if s.blocked c.agent (x.loc / 64) then .error .stall
      else .ok x

/-- A failure of a line: offset, whether on the source side, cause code. -/
structure CopyFail where
  off : Nat
  src : Bool
  code : Nat
  deriving DecidableEq, Repr

/-- The lesser of two failures; at one offset the source side is reported (R237). -/
def CopyFail.least (x y : CopyFail) : CopyFail :=
  if y.off < x.off || (y.off == x.off && y.src && !x.src) then y else x

/-- The outcome of the checks of one destination line: free to move, to be tried again, or failing. -/
inductive LineCheck where
  | ok
  | later
  | bad (f : CopyFail)
  deriving DecidableEq, Repr

/-- Combine the outcome of one more check. -/
def LineCheck.and (c : LineCheck) (r : Except AccErr Xl) (off : Nat) (src : Bool) : LineCheck :=
  match r, c with
  | .ok _, c => c
  | .error (.trap code _), .bad f => .bad (f.least ⟨off, src, code⟩)
  | .error (.trap code _), _ => .bad ⟨off, src, code⟩
  | .error _, .bad f => .bad f
  | .error _, _ => .later

/-- The check of a destination line of a command (R237); a block-store line has none. -/
def State.destAccess (s : State) (q : Nat) (m : CopyCmd) (line : Nat) : Option (Except AccErr Xl) :=
  if m.kind = .block then none
  else match m.bytesOf line with
    | b :: bs => some (s.copyAccess (m.acc q) .w (b.dst % 2 ^ 64) (bs.length + 1))
    | [] => none

/-- The check of a source byte of a command (R237). -/
def State.srcAccess (s : State) (q : Nat) (m : CopyCmd) (a : Word) : Except AccErr Xl := s.copyAccess (m.acc q) .r a.toNat 1

/-- The checks of a destination line and of the bytes it receives (R237). -/
def State.copyCheck (s : State) (q : Nat) (m : CopyCmd) (line : Nat) : LineCheck :=
  let dst : LineCheck := match s.destAccess q m line with
    | some r => LineCheck.and .ok r (m.destOff line) false
    | none => .ok
  (m.bytesOf line).foldl (fun r b => match b.src with
    | .const _ => r
    | .addr a => r.and (s.srcAccess q m a) (m.srcOff (a.toNat / 64)) true) dst

/-- The failure that the outcome of a check reports. -/
def failOf (off : Nat) (src : Bool) : Except AccErr Xl → Option CopyFail
  | .error (.trap code _) => some ⟨off, src, code⟩
  | .error _ | .ok _ => none

/-- The destination lines of a command that are not moved. -/
def CopyCmd.unmoved (m : CopyCmd) : List Nat := m.destLines.filter fun l => !m.moved.contains l

/-- The source lines of a destination line of a command. -/
def CopyCmd.srcLines (m : CopyCmd) (line : Nat) : List Nat :=
  firsts [] ((m.bytesOf line).filterMap fun b => match b.src with
    | .const _ => none
    | .addr a => some (a.toNat / 64))

/-- The failing lines of a command (R237): destination lines not moved, and their source lines, each of which fails as a whole
(log 34). -/
def State.copyFails (s : State) (q : Nat) (m : CopyCmd) : List CopyFail :=
  m.unmoved.flatMap fun l =>
    ((s.destAccess q m l).bind (failOf (m.destOff l) false)).toList ++
      (m.srcLines l).flatMap fun k => (m.srcAddrs k).filterMap fun a => failOf (m.srcOff k) true (s.srcAccess q m a)

/-- The least of some failures. -/
def leastFail : List CopyFail → Option CopyFail
  | [] => none
  | f :: fs => match leastFail fs with
    | none => some f
    | some g => some (f.least g)

/-- The failure that a command reports: F, its side and its cause (R237). -/
def State.copyFailure (s : State) (q : Nat) (m : CopyCmd) : Option CopyFail := leastFail (s.copyFails q m)

/-! ### Moving -/

/-- The addresses of device space among the sources of some bytes of a command. -/
def State.deviceSources (s : State) (q : Nat) (m : CopyCmd) (bs : List CopyByte) : List Nat :=
  bs.filterMap fun b => match b.src with
    | .const _ => none
    | .addr a => match s.srcAccess q m a with
      | .ok x => if isDevice x.loc then some a.toNat else none
      | .error _ => none

/-- Ascending addresses as runs of bytes that follow one another in one line: each is one access of device space (R255). -/
def addrRuns : List Nat → List (Nat × Nat)
  | [] => []
  | a :: as_ =>
    match addrRuns as_ with
    | (b, n) :: rest => if b = a + 1 ∧ b % 64 ≠ 0 then (a, n + 1) :: rest else (a, 1) :: (b, n) :: rest
    | [] => [(a, 1)]

/-- Read runs of device space, in order: the value of each byte by its address. -/
def State.readRuns (s : State) (q : Nat) (m : CopyCmd) : List (Nat × Nat) → State × Store Byte
  | [] => (s, [])
  | (a, n) :: rest =>
    match s.srcAccess q m (BitVec.ofNat 64 a) with
    | .error _ => State.readRuns s q m rest
    | .ok x =>
      let d := s.devRead x.loc n
      let r := State.readRuns d.1 q m rest
      (r.1, cellsOf a n d.2 ++ r.2)

/-- The value of a source byte; `dev` gives what device space answered. -/
def State.copyValue (s : State) (q : Nat) (m : CopyCmd) (dev : Store Byte) (b : CopyByte) : Byte :=
  match b.src with
  | .const v => v
  | .addr a => match Store.find? dev a.toNat, s.srcAccess q m a with
    | some v, _ => v
    | none, .ok x => s.rd1 x.loc
    | none, .error _ => 0

/-- The engine's reads of lines of its own core's windows recall copies that others hold dirty (R256). -/
def State.recallSources (s : State) (q : Nat) (m : CopyCmd) (bs : List CopyByte) : State :=
  bs.foldl (fun s b => match b.src with
    | .const _ => s
    | .addr a => match s.srcAccess q m a with
      | .ok x => s.recall q x
      | .error _ => s) s

/-- The values of bytes of a line; device space is read first, in ascending address (R255). -/
def State.copyBytes (s : State) (q : Nat) (m : CopyCmd) (bs : List CopyByte) : State × List (CopyByte × Byte) :=
  let r := (s.recallSources q m bs).readRuns q m (addrRuns (sortAsc (dedup (s.deviceSources q m bs))))
  (r.1, bs.map fun b => (b, r.1.copyValue q m r.2 b))

/-- Write bytes of a block-store line (R60, R242); a whole line ends an error of it. -/
def State.writeBlockLine (s : State) (q line : Nat) (vs : List (CopyByte × Byte)) : State :=
  s.modCore q fun c =>
    let old := Store.get c.arr.blk 0 line
    let bytes := (List.range 64).map fun k => match vs.find? fun e => e.1.dst % 64 = k with
      | some e => e.2
      | none => BitVec.ofNat 8 (old.toNat / 256 ^ k)
    { c with
      arr := { c.arr with
        blk := Store.put c.arr.blk 0 line (BitVec.ofNat 512 (leNat bytes))
        blkUe := if vs.length = 64 then c.arr.blkUe.filter fun l => l ≠ line else c.arr.blkUe }
      dirty := { c.dirty with blk := c.dirty.blk ||| BitVec.ofNat 256 (2 ^ (line / 4)) } }

/-- Write bytes of a line of device space: each run of addresses that follow one another is one access, in ascending address (R255). Where
elements of a box lie over each other, the last in flat order gives the byte its value (R240). -/
def State.writeRuns (s : State) (q base : Nat) (vs : List (CopyByte × Byte)) : List (Nat × Nat) → State
  | [] => s
  | (o, n) :: rest =>
    let v := (List.range n).map fun k => match vs.reverse.find? fun e => e.1.dst % 64 = o + k with
      | some e => e.2
      | none => 0
    State.writeRuns (s.devWrite q (base + o) n (leNat v)) q base vs rest

/-- Write bytes of a destination line. -/
def State.writeDest (s : State) (q : Nat) (m : CopyCmd) (vs : List (CopyByte × Byte)) : State :=
  match vs with
  | [] => s
  | (b, _) :: _ =>
    if m.kind = .block then s.writeBlockLine q (b.dst / 64) vs
    else match s.copyAccess (m.acc q) .w (b.dst % 2 ^ 64) 1 with
      | .error _ => s
      | .ok x =>
        let base := x.loc / 64 * 64
        if isDevice x.loc then s.writeRuns q base vs (addrRuns (sortAsc (dedup (vs.map fun e => e.1.dst % 64))))
        else s.accept ⟨x.tag, x.uc, b.dst % 2 ^ 64 / 64, (vs.map fun e => (base + e.1.dst % 64, e.2)), false⟩

/-- Change a command. -/
def State.modCmd (s : State) (q id : Nat) (f : CopyCmd → CopyCmd) : State :=
  s.modCore q fun c => { c with cpy := { c.cpy with cmds := c.cpy.cmds.map fun m => if m.id = id then f m else m } }

/-- A command of a core by its number. -/
def State.cmd? (s : State) (q id : Nat) : Option CopyCmd := (s.core q).cpy.cmds.find? fun m => m.id = id

/-- A destination line of a command lies in an uncacheable page. -/
def State.destUc (s : State) (q : Nat) (m : CopyCmd) (line : Nat) : Bool :=
  match s.destAccess q m line with
  | some (.ok x) => x.uc
  | _ => false

/-- The source lines of a destination line that lie in an uncacheable page. -/
def State.srcUcLines (s : State) (q : Nat) (m : CopyCmd) (line : Nat) : List Nat :=
  (m.bytesOf line).filterMap fun b => match b.src with
    | .const _ => none
    | .addr a => match s.srcAccess q m a with
      | .ok x => if x.uc then some (a.toNat / 64) else none
      | .error _ => none

/-- The place of a line among the uncacheable accesses of a command: whether its destination is such a page, else the least source line
that is; none where neither is. Where both are, the destination decides, and a source line that two destination lines share is read for
each: the model's choices (log 34). -/
def State.ucPlace (s : State) (q : Nat) (m : CopyCmd) (line : Nat) : Option (Bool × Nat) :=
  if s.destUc q m line then some (true, line) else ((s.srcUcLines q m line).min?).map fun l => (false, l)

/-- The destination line `x` goes before `y`, by what `ucPlace` gives for each: both on one side, at a lower address. -/
def ucBefore (x y : Option (Bool × Nat)) : Bool :=
  match x, y with
  | some (b, k), some (c, l) => b == c && k < l
  | _, _ => false

/-- The checks of a line end in a failure. -/
def LineCheck.fails : LineCheck → Bool
  | .bad _ => true
  | .ok | .later => false

/-- Uncacheable lines move in ascending order of their addresses (R255), the others in any (R236); a line that fails is not moved and holds
back none (R237). -/
def State.lineTurn (s : State) (q : Nat) (m : CopyCmd) (line : Nat) : Bool :=
  let p := s.ucPlace q m line
  p.isNone || !(m.unmoved.any fun l => ucBefore (s.ucPlace q m l) p && !(s.copyCheck q m l).fails)

/-- A line of a started command can move now. -/
def State.movable (s : State) (q : Nat) (m : CopyCmd) (line : Nat) : Bool :=
  m.stage == .started && m.unmoved.contains line && s.copyCheck q m line == .ok && s.lineTurn q m line

/-- The command whose line moves next: the first after the one that moved last, in the order of their starts and wrapping, of which
some line can move (R359). -/
def State.nextMover (s : State) (q : Nat) : Option Nat :=
  let e := (s.core q).cpy
  let os := (e.cmds.filter fun m => m.unmoved.any fun l => s.movable q m l).map fun m => m.order
  match (os.filter fun o => e.last < o).min? with
  | some o => some o
  | none => os.min?

/-- The engine moves one line of a started command in its turn (R236, R359), unless a check fails or it must wait. -/
def State.moveLine (s : State) (q id line : Nat) : State :=
  match s.cmd? q id with
  | none => s
  | some m =>
    if !s.movable q m line || s.nextMover q != some m.order then s
    else
      let r := s.copyBytes q m (m.bytesOf line)
      ((r.1.writeDest q m r.2).modCmd q id fun m =>
        { m with moved := line :: m.moved, release := m.release.filter fun w => w.lost.isSome }).modCore q fun c =>
        { c with cpy := { c.cpy with last := m.order } }

/-! ### Start (R236, R244, R359) -/

/-- The lines that a started command still owns: of the block store, or by virtual line number. -/
def CopyCmd.ownedLines (m : CopyCmd) : List Nat :=
  if m.stage = .started then m.unmoved else []

/-- A command's destination meets a line that a started command owns (R244). -/
def State.startDelayed (s : State) (q : Nat) (m : CopyCmd) : Bool :=
  s.cores.any fun e => s.partOf e.1 == s.partOf q &&
    e.2.cpy.cmds.any fun o => !(e.1 == q && o.id == m.id) && ((o.kind == .block) == (m.kind == .block)) &&
      (m.kind != .block || e.1 == q) && o.ownedLines.any fun l => m.destLines.contains l

/-- Where the destination lines of a command stand in memory: virtual line number and line (R276). -/
def State.destLocs (s : State) (q : Nat) (m : CopyCmd) : List (Nat × Nat) :=
  if m.kind = .block then []
  else m.destLines.filterMap fun l =>
    match s.translate (engineId q) (BitVec.ofNat 64 (64 * l)) with
    | .ok x => some (l, x.loc / 64)
    | .error _ => none

/-- A command has started and is not complete: one whose `semv` is still to come counts too (R236, R359). -/
def CopyCmd.begun (m : CopyCmd) : Bool :=
  match m.stage with
  | .started | .signal _ => true
  | .waiting | .ready | .lapsed => false

/-- COPY_START: the oldest ready command that no overlap delays starts, when fewer than four are started (R359). -/
def State.copyStart (s : State) (q : Nat) : State :=
  let cmds := (s.core q).cpy.cmds
  if 4 ≤ (cmds.filter CopyCmd.begun).length then s
  else match cmds.find? fun m => m.stage = .ready && !s.startDelayed q m with
    | none => s
    | some m =>
      let n := cmds.foldl (fun n o => max n o.order) (s.core q).cpy.last
      s.modCmd q m.id fun m => { m with stage := .started, order := n + 1, locs := s.destLocs q m }

/-! ### Completion and reports (R237, R238) -/

/-- A report word (Table 5 of chapter 09). -/
def CopyCmd.report (m : CopyCmd) (code : Nat) (src : Bool) (off : Nat) : Word :=
  field code 56 + flagAt src 55 + flagAt m.sprig.isSome 54 + field (m.sprig.getD 0) 48 + field (off % 2 ^ 48) 0

/-- A report joins the core's queue, or sets `STATUS.CEOVF` (R238). -/
def State.addReport (s : State) (q : Nat) (w : Word) : State :=
  if 16 ≤ (s.core q).cpy.reports.length then s.modStatus q fun t => { t with ceovf := true }
  else s.modCore q fun c => { c with cpy := { c.cpy with reports := c.cpy.reports ++ [w] } }

/-- The completion word of `bcopyc` is written, if it can be: none says that the write must wait, false that it fails. On a page of a
commutative range it is written where the words have its size: the model's choice (log 34). -/
def State.writeWord (s : State) (q : Nat) (m : CopyCmd) (w : Word) : Option (State × Bool) :=
  if m.kind ≠ .lines then some (s, true)
  else
    let va := m.cword.toNat
    match s.access (m.acc q) .w m.cword with
    | .error (.trap _ _) => some (s, false)
    | .error _ => none
    | .ok x =>
      if (x.crf ≠ 0 && crfSize x.crf ≠ 8) || s.poolLost x.loc then some (s, false)
      else if s.blocked (engineId q) (x.loc / 64) then none
      else if isDevice x.loc then some (s.devWrite q x.loc 8 w.toNat, true)
      else some (s.accept ⟨x.tag, x.uc, va / 64, cellsOf x.loc 8 w.toNat, false⟩, true)

/-- A step of a release of the engine at its scope: one at pool scope goes as an agent's (R236, R283, R386). The Bool says done, the address
is the lowest of a write that it waited for and that a loss has counted (R383). -/
def State.engineRelease (s : State) (q : Nat) (m : CopyCmd) : State × Bool × Option Nat :=
  match m.scope with
  | .pool =>
    match m.release.bind fun w => w.lost with
    | some va => (s, true, some va)
    | none =>
      let r := s.poolStep (s.partOf q) m.release
      (r.1.modCmd q m.id fun m => { m with release := r.2 }, r.2.isNone, none)
  | .die | .pkg | .sys => (s, true, none)

/-- The last of a command: its entry frees, and its semaphore is signalled (R236). -/
def State.signalCmd (s : State) (q : Nat) (m : CopyCmd) : State :=
  let s := s.modCore q fun c => { c with cpy := { c.cpy with cmds := c.cpy.cmds.filter fun o => o.id ≠ m.id } }
  if m.sinc = 0 then s else s.semAdd (vatOf q) m.ssem.toNat m.sinc.toNat

/-- The `semv` of a command is a release of its own, which at pool scope waits for the device to complete the completion word (R236,
R283). -/
def CopyCmd.signalsLater (m : CopyCmd) (written : Bool) : Bool := m.scope == .pool && m.kind == .lines && written && m.sinc != 0

/-- A command completes with a code (R236): the completion word, the reports, the signal. None says that the write of the word must
wait. -/
def State.completeCmd (s : State) (q : Nat) (m : CopyCmd) (code : Nat) (src : Bool) (off : Nat) : Option State :=
  let w := m.report code src off
  match s.writeWord q m w with
  | none => none
  | some (s, written) =>
    let s := if code = 1 then s else s.addReport q w
    let s := if written then s else s.addReport q (m.report 0x90 false off)
    some (if m.signalsLater written then s.modCmd q m.id fun m => { m with stage := .signal off, release := none } else s.signalCmd q m)

/-- A command whose completion word is written signals once that is released (R236, R283). Where the write of the word is lost, it reports
0x90 as for a word that cannot be written, and for another write that was lost POOL_LOST (R238, R383; log 27). -/
def State.endSignal (s : State) (q : Nat) (m : CopyCmd) (off : Nat) : State :=
  let r := s.engineRelease q m
  match r.2.1, r.2.2 with
  | false, _ => r.1
  | true, none => r.1.signalCmd q m
  | true, some va =>
    if va / 64 = m.cword.toNat / 64 then (r.1.addReport q (m.report 0x90 false off)).signalCmd q m
    else (State.addReport { r.1 with fresh := r.1.fresh + 1 } q (m.report (0x80 + cPOOL) false (Config.freeOffset r.1.fresh))).signalCmd q m

/-- A command whose release waited for a write that was lost reports POOL_LOST (R383) at the offset of the line, when it is one of its
own; for another's write the spec states none (log 12). -/
def State.endLost (s : State) (q : Nat) (m : CopyCmd) (va : Nat) : Option State :=
  if m.destLines.contains (va / 64) then s.completeCmd q m (0x80 + cPOOL) false (m.destOff (va / 64))
  else State.completeCmd { s with fresh := s.fresh + 1 } q m (0x80 + cPOOL) false (Config.freeOffset s.fresh)

/-- Completion by `k` once the release is done, from `t`; `s` stands again when the write of the completion word must wait. -/
def State.endCmd (s t : State) (q : Nat) (m : CopyCmd) (k : State → Option State) : State :=
  let r := t.engineRelease q m
  match r.2.1, r.2.2 with
  | false, _ => r.1
  | true, none => (k r.1).getD s
  | true, some va => (r.1.endLost q m va).getD s

/-- Whether a byte at or above F of a line in part below F takes its copied value: the spec leaves it open (R237, log 12). -/
def State.keepByte (s : State) (q : Nat) (m : CopyCmd) (b : CopyByte) (k : Nat) : Option Byte :=
  match b.src with
  | .const v => if Config.freeKeep s.fresh k then none else some v
  | .addr a =>
    match s.translate (engineId q) a with
    | .ok x => if Config.freeKeep s.fresh k || isDevice x.loc || m.kind = .block then none else some (s.rd1 x.loc)
    | .error _ => none

/-- The line in which a failure of the source side starts: its bytes below F receive their values; of those above, which are open, some
may too, and the others are not written. -/
def State.straddle (s : State) (q : Nat) (m : CopyCmd) (line F : Nat) : State :=
  let bs := m.bytesOf line
  let low := bs.filter fun b => b.off < F
  if low = [] then s
  else
    let r := s.copyBytes q m low
    let high := (bs.filter fun b => F ≤ b.off).filterMap fun b => (s.keepByte q m b b.off).map fun v => (b, v)
    { r.1.writeDest q m (r.2 ++ high) with fresh := r.1.fresh + 1 }

/-- The bytes of a line below F can be moved now: its destination can be written, and their sources read. -/
def State.belowReady (s : State) (q : Nat) (m : CopyCmd) (line F : Nat) : Bool :=
  let ok (r : Except AccErr Xl) : Bool := match r with
    | .ok _ => true
    | .error _ => false
  (match s.destAccess q m line with
    | some r => ok r
    | none => true) && (m.bytesOf line).all fun b => F ≤ b.off || match b.src with
    | .const _ => true
    | .addr a => ok (s.srcAccess q m a)

/-- The lines in which a failure at F leaves bytes below F to be written. -/
def State.belowF (s : State) (q : Nat) (m : CopyCmd) (F : Nat) : State :=
  m.unmoved.foldl (fun s l =>
    match s.copyCheck q m l with
    | .bad f => if f.src then s.straddle q m l F else s
    | .ok | .later => s) s

/-- No line that can still be moved stands before a failure at F: every line not moved lies at or above F, or fails on the source
side with its bytes below F ready to be written. -/
def State.failReady (s : State) (q : Nat) (m : CopyCmd) (F : Nat) : Bool :=
  m.unmoved.all fun l => (m.bytesOf l).all (fun b => F ≤ b.off) || match s.copyCheck q m l with
    | .bad g => g.src && s.belowReady q m l F
    | .ok | .later => false

/-- A lapsed command completes with code 0x8B and signals (R236). -/
def State.endLapsed (s : State) (q : Nat) (m : CopyCmd) : State :=
  s.endCmd s q m fun s => State.completeCmd { s with fresh := s.fresh + 1 } q m 0x8B false (Config.freeOffset s.fresh)

/-- COPY_COMPLETE: a started command whose lines are all moved, or that fails, completes (R236, R237). -/
def State.copyComplete (s : State) (q id : Nat) : State :=
  match s.cmd? q id with
  | none => s
  | some m =>
    match m.stage with
    | .waiting | .ready => s
    | .lapsed => s.endLapsed q m
    | .signal off => s.endSignal q m off
    | .started =>
      match m.unmoved, s.copyFailure q m with
      | [], _ => s.endCmd s q m fun s => s.completeCmd q m 1 false m.len
      | _ :: _, none => s
      | _ :: _, some f =>
        if s.failReady q m f.off then
          s.endCmd (if m.release = none then s.belowF q m f.off else s) q m fun s => s.completeCmd q m (0x80 + f.code) f.src f.off
        else s

/-- A command's wait for its semaphore reached its bound: it leaves the queue and moves nothing (R236). -/
def State.lapse (s : State) (q : Nat) (m : CopyCmd) : State :=
  (s.leaveSems (vatOf q) (.engine q m.id) (s.vat (vatOf q)).sems).modCmd q m.id fun m => { m with stage := .lapsed }

/-- COPY_WAIT_LIMIT: a command whose wait reached its bound lapses and completes (R236). -/
def State.copyWaitLimit (s : State) (q id : Nat) : State :=
  match s.cmd? q id with
  | none => s
  | some m =>
    match m.stage with
    | .waiting => if s.time < m.since + m.bound then s else (s.lapse q m).endLapsed q m
    | .lapsed => s.endLapsed q m
    | .ready | .started | .signal _ => s

end Sys2Proof.Machine
end

