-- ==== Sys2Proof/Machine/TileOps.lean ====
section
/-! DEFINITION. Tile registers by element (R52 to R54, R193), accumulation (R114 to R117) and the conversions of `tcvt` (R204). -/

namespace Sys2Proof.Machine

/-! ### Elements -/

/-- Bits of an element's place in a z row (Table 1 of R52). -/
def zBits (f : Ty) : Nat := if f = .e2m1 then 4 else f.width

/-- Bits of an element in memory (R197). -/
def memBits (f : Ty) : Nat := if f = .e2m1 then 4 else if f = .e3m2 ∨ f = .e2m3 then 6 else f.width

/-- Elements in a z row. -/
def rowK (f : Ty) : Nat := 1024 / zBits f

/-- Row `i` of a z register as a number of 1,024 bits. -/
def zRow (z : BitVec 34816) (i : Nat) : Nat := z.toNat / 2 ^ (1024 * i) % 2 ^ 1024

/-- Element `k` of row `i`; the upper bits of a 6-bit container are ignored (R193). -/
def zElem (z : BitVec 34816) (f : Ty) (i k : Nat) : Nat := zRow z i / 2 ^ (zBits f * k) % 2 ^ memBits f

/-- Side-band byte `m` of row `i`. -/
def zScale (z : BitVec 34816) (i m : Nat) : Nat := z.toNat / 2 ^ (32768 + 64 * i + 8 * m) % 256

/-- The side-band. -/
def zSide (z : BitVec 34816) : Nat := z.toNat / 2 ^ 32768

/-- Numbers of `w` bits side by side, the first lowest. -/
def packBits (w : Nat) : List Nat → Nat
  | [] => 0
  | x :: xs => x % 2 ^ w + 2 ^ w * packBits w xs

/-- A z register from its rows and side-band. -/
def mkZ (rows : List Nat) (side : Nat) : BitVec 34816 := BitVec.ofNat 34816 (packBits 1024 rows + 2 ^ 32768 * side)

/-- A z row from its elements. -/
def mkRow (f : Ty) (xs : List Nat) : Nat := packBits (zBits f) xs

/-- Element (i, j) of an accumulator (R54). -/
def cElem (c : BitVec 65536) (i j : Nat) : Nat := c.toNat / 2 ^ (2048 * i + 64 * j) % 2 ^ 64

/-- An accumulator from its elements, row after row. -/
def mkC (xs : List Nat) : BitVec 65536 := BitVec.ofNat 65536 (packBits 64 xs)

/-! ### Accumulation (R114 to R117) -/

/-- `Product`: the exact product with the scales' exponent, and flags. -/
def tileProduct (x y : Num) (sh : Int) : Num × BitVec 6 :=
  if x.isNan || y.isNan then (.nan false, flIf (x.isSig || y.isSig) flNV)
  else match numMul x y with
    | (.fin n m e st, f) => (.fin n m (e + sh) st, f)
    | r => r

/-- The exponent of the largest nonzero product of a group. -/
def groupExp : List Num → Option Int
  | [] => none
  | .fin _ m e _ :: ps =>
    if m = 0 then groupExp ps
    else match groupExp ps with
      | some g => some (max g (flog2 m e))
      | none => some (flog2 m e)
  | _ :: ps => groupExp ps

/-- The sum of finite products in units of 2^u, each truncated there, and whether a nonzero bit was discarded. -/
def groupSum (u : Int) : List Num → Int × Bool
  | [] => (0, false)
  | .fin n m e _ :: ps =>
    let t := if u ≤ e then m * pow2 (e - u) else m / pow2 (u - e)
    let lost := u > e && m % pow2 (u - e) != 0
    let r := groupSum u ps
    (r.1 + (if n then -(t : Int) else t), r.2 || lost)
  | _ :: ps => groupSum u ps

/-- The least exponent among finite products. -/
def groupLow : List Num → Int → Int
  | [], l => l
  | .fin _ m e _ :: ps, l => groupLow ps (if m = 0 then l else min l e)
  | _ :: ps, l => groupLow ps l

/-- S of one group of products (R114). -/
def groupS (g : Nat) (ps : List Num) : Num × BitVec 6 :=
  let pinf := ps.any fun p => p.isInf && !p.neg
  let ninf := ps.any fun p => p.isInf && p.neg
  if ps.any Num.isNan then (.nan false, 0)
  else if pinf && ninf then (.nan false, flNV)
  else if pinf || ninf then (.inf ninf, 0)
  else match groupExp ps with
    | none => (.fin (ps.all Num.neg) 0 0 false, 0)
    | some e =>
      let u := if 1 < g then e - 62 else groupLow ps e
      let r := groupSum u ps
      (.fin (decide (r.1 < 0)) r.1.natAbs u false, flIf r.2 flNX)

/-- One group added to a binary64 accumulator, rounded once in rne. -/
def accGroup (g : Nat) (acc : Rounded) (ps : List (Num × BitVec 6)) : Rounded :=
  let sg := groupS g (ps.map fun p => p.1)
  let fl := ps.foldl (fun f p => f ||| p.2) (acc.2 ||| sg.2)
  let a := unpackF .f64 acc.1
  if a.isNan || sg.1.isNan then (canonNan .f64, fl ||| flIf a.isSig flNV)
  else
    let t := numAdd .rne a sg.1
    let r := roundTo t.1 .f64 .rne false
    (r.1, fl ||| t.2 ||| r.2)

/-- The products of each group in ascending k; `fuel` bounds the groups. -/
def accGroups (g : Nat) : Nat → Rounded → List (Num × BitVec 6) → Rounded
  | 0, acc, _ => acc
  | n + 1, acc, ps => if ps = [] then acc else accGroups g n (accGroup g acc (ps.take g)) (ps.drop g)

/-- `TileAccumulate` over the products of one element. -/
def tileAccumulate (g : Nat) (acc : Nat) (ps : List (Num × BitVec 6)) : Rounded := accGroups g ps.length (acc, 0) ps

/-- The group size of a format (R114). -/
def groupSize (f : Ty) : Nat :=
  match f with
  | .f64 => 1
  | .e8m10 => 4
  | .f16 | .bf16 => 16
  | _ => 32

/-- The exponent that two e8m0 scales add, or none when one of them is NaN (R116). -/
def scaleExp (sa sb : Nat) : Option Int := if sa = 255 ∨ sb = 255 then none else some ((sa : Int) + sb - 254)

/-- A product of elements, with the scales' exponent when there are scales. -/
def scaledProduct (f : Ty) (a b : Nat) (sc : Option (Nat × Nat)) : Num × BitVec 6 :=
  match sc with
  | none => tileProduct (unpackF f a) (unpackF f b) 0
  | some (sa, sb) => match scaleExp sa sb with
    | none => (.nan false, 0)
    | some e => tileProduct (unpackF f a) (unpackF f b) e

/-- The factors of one element of an accumulator, in ascending logical k: the two elements with their scales, or none where no A
value is kept. -/
abbrev Factors := List (Option (Nat × Nat × Option (Nat × Nat)))

/-- An 8-bit integer. -/
def int8 (u : Bool) (v : Nat) : Int := if u || v % 256 < 128 then ((v % 256 : Nat) : Int) else ((v % 256 : Nat) : Int) - 256

/-- One accumulator element: `TileAccumulate`, or the integer sum of R115. -/
def accElem (f : Ty) (g : Nat) (ua ub : Bool) (acc : Nat) (fs : Factors) : Rounded :=
  if f = .b8 then
    let t := fs.foldl (fun t p => match p with
      | some (a, b, _) => t + int8 ua a * int8 ub b
      | none => t) (acc : Int)
    ((t % (2 ^ 64 : Int)).toNat, 0)
  else
    tileAccumulate g acc (fs.map fun p => match p with
      | some (a, b, sc) => scaledProduct f a b sc
      | none => (.fin false 0 0 false, 0))

/-- The factors of `tmma` and `tmmax` for row `i` of A and row `j` of B. -/
def denseFactors (f : Ty) (scaled : Bool) (za zb : BitVec 34816) (i j : Nat) : Factors :=
  (List.range (rowK f)).map fun k =>
    some (zElem za f i k, zElem zb f j k, if scaled then some (zScale za i (k / 32), zScale zb j (k / 32)) else none)

/-- The mask of group `h` of row `i` (R53). -/
def sparseMask (zc : BitVec 34816) (i h : Nat) : Nat := zRow zc i / 2 ^ (64 * h) % 2 ^ 64

/-- The places of the counted bits of a mask: the first 32 set bits (R117). -/
def countedBits (m : Nat) : List Nat := ((List.range 64).filter fun b => tst m b).take 32

/-- The factors of one group of `tmmas`. -/
def sparseGroup (f : Ty) (scaled : Bool) (za zb0 zb1 zc : BitVec 34816) (i j h : Nat) : Factors :=
  let bs := countedBits (sparseMask zc i h)
  let kk := rowK f
  (List.range 64).map fun b =>
    if bs.contains b then
      let t := (bs.takeWhile fun x => x ≠ b).length
      let k := 64 * h + b
      let bv := if k < kk then zElem zb0 f j k else zElem zb1 f j (k - kk)
      let sb := if k < kk then zScale zb0 j (k / 32) else zScale zb1 j ((k - kk) / 32)
      some (zElem za f i (32 * h + t), bv, if scaled then some (zScale za i h, sb) else none)
    else none

/-- The factors of `tmmas` (R208). -/
def sparseFactors (f : Ty) (scaled : Bool) (za zb0 zb1 zc : BitVec 34816) (i j : Nat) : Factors :=
  (List.range (rowK f / 32)).flatMap fun h => sparseGroup f scaled za zb0 zb1 zc i j h

/-- Some mask of some row holds more than 32 set bits (R117, R208). -/
def metaRaised (f : Ty) (zc : BitVec 34816) : Bool :=
  (List.range 32).any fun i => (List.range (rowK f / 32)).any fun h => 32 < popN 64 (sparseMask zc i h)

/-- Every element of an accumulator from its factors: the new register, and the flags. -/
def multiply (f : Ty) (g : Nat) (ua ub : Bool) (c : BitVec 65536) (fs : Nat → Nat → Factors) : BitVec 65536 × BitVec 6 :=
  let rs := (List.range 1024).map fun n => accElem f g ua ub (cElem c (n / 32) (n % 32)) (fs (n / 32) (n % 32))
  (mkC (rs.map fun r => r.1), rs.foldl (fun fl r => fl ||| r.2) 0)

/-! ### `tcvt` and `ttrans` (R204, R205) -/

/-- One converted element (Table 3 of chapter 08). -/
def tcvtElem (f : Ty) (mode : Rnd) (sat u : Bool) (c : Nat) : Rounded :=
  if f = .b8 then
    let v : Int := if c < 2 ^ 63 then (c : Int) else (c : Int) - 2 ^ 64
    let lo : Int := if u then 0 else -128
    let hi : Int := if u then 255 else 127
    let w := if sat then (if v < lo then lo else if hi < v then hi else v) else v
    ((w % 256).toNat, 0)
  else if f = .b64 then (c, 0)
  else roundTo (unpackF .f64 c) f mode sat

/-- `tcvt`: the new z register and the flags. -/
def tcvtTile (f : Ty) (mode : Rnd) (sat u : Bool) (z : BitVec 34816) (c : BitVec 65536) : BitVec 34816 × BitVec 6 :=
  let n := min (rowK f) 32
  let rs (i : Nat) : List Rounded := (List.range n).map fun j => tcvtElem f mode sat u (cElem c i j)
  let rows := (List.range 32).map fun i =>
    packBits (zBits f) ((rs i).map fun r => r.1) + zRow z i / 2 ^ (zBits f * n) * 2 ^ (zBits f * n)
  (mkZ rows (zSide z), (List.range 32).foldl (fun fl i => (rs i).foldl (fun fl r => fl ||| r.2) fl) 0)

/-- `ttrans`: blocks of zA transposed, under the side-band of zD. -/
def transTile (f : Ty) (zd za : BitVec 34816) : BitVec 34816 :=
  let b := min (rowK f) 32
  mkZ ((List.range 32).map fun i => mkRow f ((List.range (rowK f)).map fun k =>
    zElem za f (i / b * b + k % b) (k / b * b + i % b))) (zSide zd)

end Sys2Proof.Machine
end

