-- ==== Sys2Proof/Machine/TileMem.lean ====
section
/-! DEFINITION. Tile loads and stores: the descriptor checks of R196 and the accesses of R197 to R201. -/

namespace Sys2Proof.Machine

/-- The corner of a tile (R195): x0, x1, x2, x3 from g[B] and g[C]. -/
structure Corner where
  x0 : Nat
  x1 : Nat
  x2 : Nat
  x3 : Nat
  deriving DecidableEq, Repr

def cornerOf (rb rc : Word) : Corner := ⟨bits rb 31 0, bits rb 63 32, bits rc 31 0, bits rc 63 32⟩

/-- Check 4 of R196: the ETYPE codes that an FMT accepts (Table 1 of chapter 08). -/
def etypeOk (tile : Bool) (f : Ty) (e : Nat) : Bool :=
  if !tile then e == 3 || e == 7
  else if f = .b8 then e == 0 || e == 8 || e == 9 || e == 14
  else if f = .b64 then e == 3 || e == 7
  else e == f.code.toNat

/-- The alignment of x0 and EXT0 (checks 6 and 7 of R196). -/
def descAlign (scaled : Bool) (f : Ty) : Nat :=
  if scaled then 32 else if f = .e3m2 ∨ f = .e2m3 then 4 else if f = .e2m1 then 2 else 1

/-- `CheckDescriptor` (R196) for the thread of a core; `tile` says a z register, `wr` a store. -/
def State.tileDesc (s : State) (q idx : Nat) (tile wr scaled : Bool) (f : Ty) (x0 : Nat) : Except Bad (BitVec 512) :=
  match s.descEntry ⟨q, .thread⟩ idx with
  | .error e => .error e
  | .ok d =>
    if descDom d ≠ (s.priv q).domain.toNat || !(if wr then descWr d else descRd d) || !etypeOk tile f (descEtype d) ||
        descScaled d != scaled || x0 % descAlign scaled f ≠ 0 || descExt d 0 % descAlign scaled f ≠ 0 then
      .error (.trap cDESC 0, BitVec.ofNat 64 idx)
    else .ok d

/-- Where element `x` of a row lies: first byte, number of bytes and bit offset in them (R197). -/
def elemPlace (f : Ty) (scaled : Bool) (base x : Nat) : Word × Nat × Nat :=
  let b := memBits f
  let at_ := if scaled then 8 * ((4 * b + 1) * (x / 32)) + b * (x % 32) else b * x
  (BitVec.ofNat 64 (base + at_ / 8), (at_ % 8 + b + 7) / 8, at_ % 8)

/-- Where the scale byte of a block lies. -/
def scalePlace (f : Ty) (base m : Nat) : Word := BitVec.ofNat 64 (base + (4 * memBits f + 1) * m + 4 * memBits f)

/-- The base of row `i` of a tile. -/
def tileRowBase (d : BitVec 512) (o : Corner) (i : Nat) : Nat := rowBase d (o.x1 + i) o.x2 o.x3

/-- Element (i, k) of a tile lies in bounds. -/
def tileIn (d : BitVec 512) (o : Corner) (i k : Nat) : Bool := inBounds d (o.x0 + k) (o.x1 + i) o.x2 o.x3

/-- The number of the access of element (i, k) among those of a tile. -/
def elemKey (i k : Nat) : Nat := 256 * i + k

/-- The number of the access of the scale byte of block `m` of row `i`, the blocks counted from the tile's own corner. -/
def scaleKey (i m : Nat) : Nat := 2 ^ 13 + 256 * i + m

/-- The accesses of row `i` of a tile of `n` elements with their numbers, in the order of R199. -/
def rowPlaces (d : BitVec 512) (o : Corner) (f : Ty) (scaled : Bool) (n i : Nat) : List (Nat × Word × Nat) :=
  let base := tileRowBase d o i
  (List.range n).flatMap fun k =>
    (if tileIn d o i k then
      let p := elemPlace f scaled base (o.x0 + k)
      [(elemKey i k, p.1, p.2.1)]
    else []) ++
    (if scaled && k % 32 == 31 && tileIn d o i (k - 31) then [(scaleKey i (k / 32), scalePlace f base ((o.x0 + k) / 32), 1)] else [])

/-- The accesses of a tile with their numbers. -/
def tilePlaces (d : BitVec 512) (o : Corner) (f : Ty) (scaled : Bool) (n : Nat) : List (Nat × Word × Nat) :=
  (List.range 32).flatMap fun i => rowPlaces d o f scaled n i

/-- The accesses of a tile. -/
def tileAccesses (d : BitVec 512) (o : Corner) (f : Ty) (scaled : Bool) (n : Nat) : List (Word × Nat) :=
  (tilePlaces d o f scaled n).map fun p => p.2

/-- The translation of an address of a tile access, once its checks have passed. -/
def State.tileXl (s : State) (q : Nat) (rt : Right) (a : Word) : Option Xl :=
  match s.access (s.accOf ⟨q, .thread⟩) rt a with
  | .ok x => some x
  | .error _ => none

/-- Insert an access by ascending address, after those of its own address. -/
def byAddr {α : Type} (x : Word × α) : List (Word × α) → List (Word × α)
  | [] => [x]
  | y :: ys => if x.1.toNat < y.1.toNat then x :: y :: ys else y :: byAddr x ys

/-- Accesses in ascending address. -/
def addrOrder {α : Type} (xs : List (Word × α)) : List (Word × α) := xs.foldl (fun l x => byAddr x l) []

/-- The parts of `n` bytes from an address that lie in one page each: an access of a tile lies in two at most (R199). -/
def pageParts (a : Word) (n : Nat) : List (Word × Nat) :=
  let lo := 4096 - a.toNat % 4096
  if n ≤ lo then [(a, n)] else [(a, lo), (a + BitVec.ofNat 64 lo, n - lo)]

/-- The number of part `i` of an access. -/
def partKey (key i : Nat) : Nat := 2 * key + i

/-- The accesses of a tile load to device space are made first, one for each element and page, in ascending address (R255; log 41): what
they answer, by the number of the part. -/
def State.tileDevice (s : State) (q : Nat) (places : List (Nat × Word × Nat)) : State × Store Nat :=
  (addrOrder (places.flatMap fun p => (pageParts p.2.1 p.2.2).mapIdx fun i a => (a.1, partKey p.1 i, a.2))).foldl (fun r a =>
    match r.1.tileXl q .r a.1 with
    | some x =>
      if isDevice x.loc then
        let d := r.1.devRead x.loc a.2.2
        (d.1, r.2 ++ [(a.2.1, d.2)])
      else r
    | none => r) (s, [])

/-- A tile load recalls the lines of its own core's windows that other agents hold dirty (R256). -/
def State.recallTile (s : State) (q : Nat) (accs : List (Word × Nat)) : State :=
  if s.behind = [] then s
  else (dedup (accs.flatMap fun a => (byteAddrs a.1 a.2).map fun b => b.toNat / 64)).foldl (fun s v =>
    match s.tileXl q .r (BitVec.ofNat 64 (64 * v)) with
    | some x => s.recall q x
    | none => s) s

/-- The reads of a tile load are noted: those that the thread's buffer forwards are performed with their stores (R268). -/
def State.noteTile (s : State) (q : Nat) (accs : List (Word × Nat)) : State :=
  if (s.ag ⟨q, .thread⟩).sb = [] ∧ (s.ag ⟨q, .thread⟩).readsInPlace then s
  else (accs.flatMap fun a => pageParts a.1 a.2).foldl (fun s a => match s.tileXl q .r a.1 with
    | some x => s.noteRead ⟨q, .thread⟩ x.loc a.2 (s.dieLocal q x)
    | none => s) s

/-- Some access satisfies `f` at its first or at its last byte; one lies in two pages at most. -/
def State.tileAny (s : State) (q : Nat) (accs : List (Word × Nat)) (f : Xl → Bool) : Bool :=
  accs.any fun a => [a.1, a.1 + BitVec.ofNat 64 (a.2 - 1)].any fun b => match s.tileXl q .r b with
    | some x => f x
    | none => false

/-- Some access of a tile load is to an uncacheable page or to the pool: it is made only by the oldest instruction (R152, R199). -/
def State.tileAtHead (s : State) (q : Nat) (accs : List (Word × Nat)) : Bool := s.tileAny q accs fun x => x.uc || isPool x.loc

/-- The lines of memory that a tile load reads before it is the oldest, with what memory holds for them (R202). -/
def State.tileReads (s : State) (q : Nat) (accs : List (Word × Nat)) : List TileRead :=
  if s.tileAtHead q accs then []
  else (dedup ((accs.flatMap fun a => byteAddrs a.1 a.2).map fun b => b.toNat / 64)).filterMap fun v =>
    (s.tileXl q .r (BitVec.ofNat 64 (64 * v))).map fun x => ⟨v, x.loc / 64, BitVec.ofNat 512 (s.rdN (x.loc / 64 * 64) 64)⟩

/-- Some access of a tile load follows the thread's buffered uncacheable writes to its memory (R255). -/
def State.tileBehind (s : State) (q : Nat) (accs : List (Word × Nat)) : Bool := s.tileAny q accs (s.ucBehind ⟨q, .thread⟩)

/-- The checks of a tile load (R199), and the state from which it reads, once it may; `oldest` says that it is the oldest instruction of
its thread. -/
def State.tileLoad (s : State) (q : Nat) (accs : List (Word × Nat)) (oldest : Bool) : Except Bad State :=
  let a : AgentId := ⟨q, .thread⟩
  match s.checkAll (s.accOf a) .r accs with
  | .error e => .error e
  | .ok () =>
    if !oldest && s.tileAtHead q accs then .error (.stall, 0)
    else if !s.tileBehind q accs then .ok ((s.recallTile q accs).noteTile q accs)
    else if s.canDrain a then
      match (s.drain a).checkAll (s.accOf a) .r accs with
      | .error e => .error e
      | .ok () => .ok (((s.drain a).recallTile q accs).noteTile q accs)
    else .error (.stall, 0)

/-- The value of part `i` of access `key`: what device space answered, by `m`, or the bytes as the thread reads them. -/
def State.tilePart (s : State) (q : Nat) (m : Store Nat) (key i : Nat) (p : Word × Nat) : Nat :=
  match Store.find? m (partKey key i) with
  | some v => v
  | none => leNat ((byteAddrs p.1 p.2).map fun b => match s.tileXl q .r b with
    | some y => s.seen ⟨q, .thread⟩ y.loc
    | none => 0)

/-- The bytes of access `key` of a tile load, from its parts. -/
def State.tileBytes (s : State) (q : Nat) (m : Store Nat) (key : Nat) (a : Word) (n : Nat) : Nat :=
  match pageParts a n with
  | [p, r] => s.tilePart q m key 0 p + 2 ^ (8 * p.2) * s.tilePart q m key 1 r
  | _ => s.tilePart q m key 0 (a, n)

/-- Element (i, k) of a tile, 0 out of bounds; bits [12:0] of an e8m10 container are ignored (R101, R197). -/
def State.tileElem (s : State) (q : Nat) (m : Store Nat) (d : BitVec 512) (o : Corner) (f : Ty) (scaled : Bool) (i k : Nat) : Nat :=
  if tileIn d o i k then
    let p := elemPlace f scaled (tileRowBase d o i) (o.x0 + k)
    inContainer f (s.tileBytes q m (elemKey i k) p.1 p.2.1 / 2 ^ p.2.2 % 2 ^ memBits f)
  else 0

/-- The scale of block `m` of row `i` of a scaled tile; a block out of bounds has 0x7F (R198). -/
def State.tileScale (s : State) (q : Nat) (v : Store Nat) (d : BitVec 512) (o : Corner) (f : Ty) (i m : Nat) : Nat :=
  if tileIn d o i (32 * m) then s.tileBytes q v (scaleKey i m) (scalePlace f (tileRowBase d o i) (o.x0 / 32 + m)) 1 else 0x7F

/-- What a tile load delivers, once its checks have passed: the elements of each row, of `n` elements. -/
def State.loadTile (s : State) (q : Nat) (v : Store Nat) (d : BitVec 512) (o : Corner) (f : Ty) (scaled : Bool) (n : Nat) :
    List (List Nat) :=
  (List.range 32).map fun i => (List.range n).map fun k => s.tileElem q v d o f scaled i k

/-- The side-band rows of a scaled load: 8 bytes a row, of which the format uses K / 32 (R52). -/
def State.loadScales (s : State) (q : Nat) (v : Store Nat) (d : BitVec 512) (o : Corner) (f : Ty) (side : Nat) : Nat :=
  let used := 8 * (rowK f / 32)
  packBits 64 ((List.range 32).map fun i =>
    packBits 8 ((List.range (rowK f / 32)).map fun m => s.tileScale q v d o f i m) +
      side / 2 ^ (64 * i) % 2 ^ 64 / 2 ^ used * 2 ^ used)

/-! ### Stores -/

/-- A write of bytes at an address, as cells of the lines it touches. -/
def addCell (ls : List LineW) (x : Xl) (va : Word) (b : Byte) : List LineW :=
  match ls with
  | [] => [⟨x.tag, x.uc, va.toNat / 64, [(x.loc, b)], false⟩]
  | l :: rest =>
    if l.cells.any fun c => c.1 / 64 = x.loc / 64 then { l with cells := l.cells ++ [(x.loc, b)] } :: rest
    else l :: addCell rest x va b

/-- What a tile store writes: the value of each access, as its bytes; bits [12:0] of an e8m10 container are written 0 (R101, R197). A
packed byte is one access (R198). -/
def tileStores (d : BitVec 512) (o : Corner) (f : Ty) (n : Nat) (el : Nat → Nat → Nat) : List (Word × List Byte) :=
  let b := memBits f
  let per := if 8 ≤ b then 1 else if b = 6 then 4 else 2
  (List.range 32).flatMap fun i => (List.range (n / per)).flatMap fun g =>
    let ks := ((List.range per).map fun t => per * g + t).filter fun k => tileIn d o i k
    match ks with
    | [] => []
    | k0 :: _ =>
      [(BitVec.ofNat 64 (tileRowBase d o i + b * (o.x0 + k0) / 8), leBytes (b * ks.length / 8) (packBits b (ks.map fun k => inContainer f (el i k))))]

/-- The lines that a tile store writes; where elements overlap in memory, the last in ascending (i, k) stands (log 41). -/
def State.tileLines (s : State) (q : Nat) (ws : List (Word × List Byte)) : List LineW :=
  ws.foldl (fun ls w => ((byteAddrs w.1 w.2.length).zip w.2).foldl (fun ls c =>
    match s.tileXl q .w c.1 with
    | some y => if isDevice y.loc then ls else addCell ls y c.1 c.2
    | none => ls) ls) []

/-- The bytes of a write by the pages they lie in. -/
def writeParts (w : Word × List Byte) : List (Word × List Byte) :=
  (pageParts w.1 w.2.length).mapIdx fun i p =>
    (p.1, if i = 0 then w.2.take p.2 else w.2.drop (w.2.length - p.2))

/-- What a tile store writes to device space, one access for each element and page, in ascending address (R255; log 41): address,
location and bytes. -/
def State.tileDeviceWrites (s : State) (q : Nat) (ws : List (Word × List Byte)) : List (Word × Nat × List Byte) :=
  (addrOrder (ws.flatMap writeParts)).filterMap fun w =>
    match s.tileXl q .w w.1 with
    | some y => if isDevice y.loc then some (w.1, y.loc, w.2) else none
    | none => none

end Sys2Proof.Machine
end

