-- ==== Sys2Proof/Machine/Press.lean ====
section
/-! DEFINITION. The tile queue and the presses: decode into the queue (R31), what a command waits for (R27, R28, R31), the start by
deficit round robin (R358), and retirement in order with its effect (R33, R192 to R212). -/

namespace Sys2Proof.Machine

/-! ### Registers of a command -/

/-- The z registers whose earlier value a command needs: its sources, and its destination for the side-band (R194). -/
def tileZReads : Instr → List Nat
  | .tld _ _ zd _ _ _ => [zd.toNat]
  | .tst _ za _ _ _ => [za.toNat]
  | .tmma _ _ _ _ za zb => [za.toNat, zb.toNat]
  | .tmmas _ _ _ _ _ za zb zc => [za.toNat, zb.toNat, (zb.toNat + 1) % 8, zc.toNat]
  | .tmmax _ _ za zb => [za.toNat, zb.toNat]
  | .tcvt _ _ _ _ zd _ => [zd.toNat]
  | .ttrans _ zd za => [zd.toNat, za.toNat]
  | _ => []

/-- The z registers a command writes. -/
def tileZWrites : Instr → List Nat
  | .tld _ _ zd _ _ _ => [zd.toNat]
  | .tcvt _ _ _ _ zd _ => [zd.toNat]
  | .ttrans _ zd _ => [zd.toNat]
  | _ => []

/-- The accumulators a command reads. -/
def tileCReads : Instr → List Nat
  | .tstc _ cd _ _ _ => [cd.toNat]
  | .tmma _ _ _ cd _ _ => [cd.toNat]
  | .tmmas _ _ _ _ cd _ _ _ => [cd.toNat]
  | .tmmax _ cd _ _ => [cd.toNat]
  | .tcvt _ _ _ _ _ cs => [cs.toNat]
  | _ => []

/-- The accumulators a command writes. -/
def tileCWrites : Instr → List Nat
  | .tldc _ cd _ _ _ => [cd.toNat]
  | .tzero cd => [cd.toNat]
  | .tmma _ _ _ cd _ _ => [cd.toNat]
  | .tmmas _ _ _ _ cd _ _ _ => [cd.toNat]
  | .tmmax _ cd _ _ => [cd.toNat]
  | _ => []

/-- The accumulators a command names. -/
def tileCNames (i : Instr) : List Nat := dedup (tileCReads i ++ tileCWrites i)

/-- A command stores to memory, or orders the stores before it. -/
def tileStoresMem : Instr → Bool
  | .tst _ _ _ _ _ | .tstc _ _ _ _ _ | .tsync => true
  | _ => false

/-- A command loads from memory. -/
def tileLoadsMem : Instr → Bool
  | .tld _ _ _ _ _ _ | .tldc _ _ _ _ _ => true
  | _ => false

/-- An older command writes what a younger one needs: a tile, or memory that a load may read (R265). -/
def feeds (older younger : Instr) : Bool :=
  (tileZWrites older).any (fun z => (tileZReads younger).contains z) ||
  (tileCWrites older).any (fun c => (tileCReads younger).contains c) || (tileStoresMem older && tileLoadsMem younger)

/-- The tile register that a command writes: whether it is a z register, and its number. -/
def tileDest (i : Instr) : Option (Bool × Nat) :=
  match tileZWrites i, tileCWrites i with
  | z :: _, _ => some (true, z)
  | [], c :: _ => some (false, c)
  | [], [] => none

/-! ### Starting -/

/-- The first command not started, and those before it. -/
def splitQueue : List TileCmd → List TileCmd × Option TileCmd
  | [] => ([], none)
  | t :: ts =>
    if t.started then
      let r := splitQueue ts
      (t :: r.1, r.2)
    else ([], some t)

/-- The lent accumulators that a command names (R27). -/
def State.lentNamed (s : State) (q : Nat) (i : Instr) : List Nat := (tileCNames i).filter fun j => s.lentSet q j != 0

/-- Every sprig of a set is FAULTED, or IDLE with an empty queue. -/
def State.setDone (s : State) (q : Nat) (m : Word) : Bool := (maskSprigs 64 m).all fun i => s.sprigDone q i

/-- The core's next command may start now (R27, R28, R31, R358): its sources are written, and no accumulator it names is lent,
unless it is the oldest and their lending can end. -/
def State.eligible (s : State) (q : Nat) : Bool :=
  let sp := splitQueue (s.core q).til.queue
  match sp.2 with
  | none => false
  | some t =>
    !(sp.1.any fun o => feeds o.instr t.instr) && s.dutyOk q &&
    (let js := s.lentNamed q t.instr
     js == [] || (sp.1 == [] && js.all fun j => s.setDone q (s.lentSet q j)))

/-- The protection regions that the accesses of a command's outcome were checked against (R338, R351). -/
def State.tileChecked (s : State) (q : Nat) (h : TileHeld) (rs : List TileRead) : List PlbEntry :=
  let written := match h with
    | .store ls dev => (ls.map fun w => w.vline) ++ dev.map fun w => w.1.toNat / 64
    | .waiting _ | .trap _ _ _ | .z _ _ _ | .c _ _ _ | .sync => []
  dedup (((rs.map fun r => r.vline) ++ written).flatMap fun v => s.checkedAt (s.accOf ⟨q, .thread⟩) (BitVec.ofNat 64 (64 * v)))

/-- A command with its outcome: it holds `h`, has read the lines of `rs`, and was checked against the regions of `cs`. -/
def TileCmd.begin (t : TileCmd) (h : TileHeld) (rs : List TileRead) (cs : List PlbEntry) : TileCmd :=
  { t with held := some h, reads := rs, checked := cs }

/-- The first command not started starts. -/
def startFirst (h : TileHeld) (rs : List TileRead) (cs : List PlbEntry) : List TileCmd → List TileCmd
  | [] => []
  | t :: ts => if t.started then t :: startFirst h rs cs ts else t.begin h rs cs :: ts

/-- The wait of R28 begins: the oldest command names a lent accumulator whose sprigs still run. -/
def State.lendWait (s : State) (q : Nat) : State :=
  let sp := splitQueue (s.core q).til.queue
  match sp.1, sp.2, (s.thr q).ag.wait with
  | [], some t, none =>
    match sortAsc (s.lentNamed q t.instr) with
    | [] => s
    | j :: js =>
      if (j :: js).all fun j => s.setDone q (s.lentSet q j) then s
      else
        let m := (j :: js).foldl (fun m j => m ||| s.lentSet q j) 0
        s.modThr q fun h => { h with ag := { h.ag with wait := some ⟨s.time, h.waitlim.toNat, BitVec.ofNat 64 j, .sprigs m, []⟩ } }
  | _, _, _ => s

/-! ### Arbitration (R357, R358) -/

/-- Cost of a command (Table 2 of chapter 17). -/
def mulCost (f : Ty) : Nat := if f = .f64 then 16 else if f = .e8m10 then 8 else 4

def tileCost : Instr → Nat
  | .tmma f _ _ _ _ _ => mulCost f
  | .tmmas _ f _ _ _ _ _ _ => mulCost f
  | .tmmax f _ _ _ => mulCost f
  | .tld _ _ _ _ _ _ | .tst _ _ _ _ _ => 4
  | .tldc _ _ _ _ _ | .tstc _ _ _ _ _ => 8
  | .tcvt _ _ _ _ _ _ | .ttrans _ _ _ => 2
  | .tzero _ => 1
  | _ => 0

/-- Cost of a core's next command. -/
def State.headCost (s : State) (q : Nat) : Nat :=
  match (splitQueue (s.core q).til.queue).2 with
  | some t => tileCost t.instr
  | none => 0

/-- The positions bound to a press of a vat, ascending (R13). -/
def State.boundTo (s : State) (v p : Nat) : List Nat := (List.range 4).filter fun c => s.binding (4 * v + c) = p

/-- The weight of a position (R356). -/
def State.weight (s : State) (v c : Nat) : Nat := (s.vat v).wshare.toNat / 16 ^ c % 16

/-- The next position after `p` among some, wrapping. -/
def nextAfter (cs : List Nat) (p : Nat) : Nat :=
  match cs.find? fun c => p < c with
  | some c => c
  | none => cs.headD 0

/-- The loop of `PressPick`; `fuel` bounds the advances, of which two rounds suffice. -/
def pickLoop (bound elig : List Nat) (w cost : Nat → Nat) : Nat → Press → Option Nat × Press
  | 0, x => (none, x)
  | n + 1, x =>
    if elig.contains x.p && cost x.p ≤ Store.get x.d 0 x.p then
      (some x.p, { x with d := Store.put x.d 0 x.p (Store.get x.d 0 x.p - cost x.p) })
    else
      let p := nextAfter bound x.p
      pickLoop bound elig w cost n
        { x with p := p, d := Store.put x.d 0 p (if elig.contains p then Store.get x.d 0 p + 16 * w p else 0) }

/-- `PressPick` (R358): the position whose command starts, and the arbitration state after. -/
def pressPick (bound : List Nat) (ready : Nat → Bool) (w cost : Nat → Nat) (x : Press) : Option Nat × Press :=
  let r := bound.filter fun c => 0 < w c && ready c
  let z := bound.filter fun c => w c = 0 && ready c
  if r ≠ [] then pickLoop bound r w cost 16 x
  else if z ≠ [] then
    let c := nextAfter z x.z
    (some c, { x with z := c })
  else (none, x)

/-! ### Effects at retirement -/

/-- z register `j` of a core. -/
def State.zreg (s : State) (q : Nat) (j : BitVec 3) : BitVec 34816 := Store.get (s.core q).til.z 0 j.toNat

def State.setZ (s : State) (q : Nat) (j : BitVec 3) (v : BitVec 34816) : State :=
  s.modCore q fun c => { c with
    til := { c.til with z := Store.put c.til.z 0 j.toNat v }
    dirty := { c.dirty with z := c.dirty.z ||| BitVec.ofNat 8 (2 ^ j.toNat) } }

def State.creg (s : State) (q : Nat) (j : BitVec 2) : BitVec 65536 := Store.get (s.core q).til.c 0 j.toNat

def State.setC (s : State) (q : Nat) (j : BitVec 2) (v : BitVec 65536) : State :=
  s.modCore q fun c => { c with
    til := { c.til with c := Store.put c.til.c 0 j.toNat v }
    dirty := { c.dirty with c := c.dirty.c ||| BitVec.ofNat 4 (2 ^ j.toNat) } }

/-- What a command that starts will hold, with the state after its reads of device space and the lines that it read; or why it must wait,
or its condition. -/
abbrev TileResult := Except Bad (State × TileHeld × List TileRead)

/-- `tld` (R200). -/
def tldHeld (s : State) (q : Nat) (t : TileCmd) (oldest scaled : Bool) (f : Ty) (zd : BitVec 3) (idx : Nat) : TileResult :=
  let o := cornerOf t.rb t.rc
  match s.tileDesc q idx true false scaled f o.x0 with
  | .error e => .error e
  | .ok d =>
    let accs := tileAccesses d o f scaled (rowK f)
    match s.tileLoad q accs oldest with
    | .error e => .error e
    | .ok u =>
      let r := u.tileDevice q (tilePlaces d o f scaled (rowK f))
      let side := zSide (s.zreg q zd)
      let sc := if scaled then r.1.loadScales q r.2 d o f side else side
      .ok (r.1, .z zd (mkZ ((r.1.loadTile q r.2 d o f scaled (rowK f)).map fun xs => mkRow f xs) sc) 0, r.1.tileReads q accs)

/-- `tldc` (R200). -/
def tldcHeld (s : State) (q : Nat) (t : TileCmd) (oldest : Bool) (f : Ty) (cd : BitVec 2) (idx : Nat) : TileResult :=
  let o := cornerOf t.rb t.rc
  match s.tileDesc q idx false false false f o.x0 with
  | .error e => .error e
  | .ok d =>
    let accs := tileAccesses d o f false 32
    match s.tileLoad q accs oldest with
    | .error e => .error e
    | .ok u =>
      let r := u.tileDevice q (tilePlaces d o f false 32)
      .ok (r.1, .c cd (mkC ((r.1.loadTile q r.2 d o f false 32).flatMap fun xs => xs)) 0, r.1.tileReads q accs)

/-- `tst` and `tstc` (R201): every element is checked and every line translated. -/
def tstHeld (s : State) (q : Nat) (t : TileCmd) (tile : Bool) (f : Ty) (idx n : Nat) (el : Nat → Nat → Nat) : TileResult :=
  let o := cornerOf t.rb t.rc
  match s.tileDesc q idx tile true false f o.x0 with
  | .error e => .error e
  | .ok d =>
    match s.checkAll (s.accOf ⟨q, .thread⟩) .w (tileAccesses d o f false n) with
    | .error e => .error e
    | .ok () =>
      let ws := tileStores d o f n el
      .ok (s, .store (s.tileLines q ws) (s.tileDeviceWrites q ws), [])

/-- A multiply (R206 to R208). -/
def mulHeld (s : State) (q : Nat) (f : Ty) (g : Nat) (ua ub : Bool) (cd : BitVec 2) (extra : BitVec 6)
    (fs : Nat → Nat → Factors) : TileResult :=
  let r := multiply f g ua ub (s.creg q cd) fs
  .ok (s, .c cd r.1 (r.2 ||| extra), [])

/-- What a tile command does with its sources when it starts (R200 to R210); other instructions never stand in the queue. -/
def tileResult (s : State) (q : Nat) (t : TileCmd) (oldest : Bool) : TileResult :=
  match t.instr with
  | .tld scaled f zd desc _ _ => tldHeld s q t oldest scaled f zd desc.toNat
  | .tldc f cd desc _ _ => tldcHeld s q t oldest f cd desc.toNat
  | .tst f za desc _ _ => tstHeld s q t true f desc.toNat (rowK f) (zElem (s.zreg q za) f)
  | .tstc f cd desc _ _ => tstHeld s q t false f desc.toNat 32 (cElem (s.creg q cd))
  | .tzero cd => .ok (s, .c cd 0 0, [])
  | .tmma f ua ub cd za zb => mulHeld s q f (groupSize f) ua ub cd 0 (denseFactors f false (s.zreg q za) (s.zreg q zb))
  | .tmmax f cd za zb => mulHeld s q f (groupSize f) false false cd 0 (denseFactors f true (s.zreg q za) (s.zreg q zb))
  | .tmmas scaled f ua ub cd za zb zc =>
    mulHeld s q f (2 * groupSize f) ua ub cd (flIf (metaRaised f (s.zreg q zc)) flMETA)
      (sparseFactors f scaled (s.zreg q za) (s.zreg q zb) (s.zreg q (zb + 1)) (s.zreg q zc))
  | .tcvt f r sat u zd cs =>
    let m := match r with
      | .dyn => modeOfRm t.rm
      | r => r
    let x := tcvtTile f m sat u (s.zreg q zd) (s.creg q cs)
    .ok (s, .z zd x.1 x.2, [])
  | .ttrans f zd za => .ok (s, .z zd (transTile f (s.zreg q zd) (s.zreg q za)) 0, [])
  | _ => .ok (s, .sync, [])

/-- The outcome that a command of a core holds from its start on (R33, R210), and the lines it read (R202). -/
def State.tileOutcome (s : State) (q : Nat) (t : TileCmd) (oldest : Bool) : State × TileHeld × List TileRead :=
  match tileResult s q t oldest with
  | .ok r => r
  | .error (.trap c d, v) => (s, .trap c d v, [])
  | .error (.stall, _) => (s, .waiting none, [])
  | .error (.park line, v) => (State.park { s with cur := ⟨q, .thread⟩ } line v, .waiting (some line), [])

/-- Start a core's next command: its checks are made and its sources read (R210). -/
def State.startCmd (s : State) (q : Nat) : State :=
  let sp := splitQueue (s.core q).til.queue
  match sp.2 with
  | none => s
  | some t =>
    let r := s.tileOutcome q t (sp.1 == [])
    (r.1.endWait ⟨q, .thread⟩).modCore q fun c => { c with til := { c.til with queue := startFirst r.2.1 r.2.2 (r.1.tileChecked q r.2.1 r.2.2) c.til.queue } }

/-- A press starts one command, or none is eligible (R357, R358). -/
def State.pressTurn (s : State) (v p : Nat) : State :=
  let bound := s.boundTo v p
  let s := bound.foldl (fun s c => s.lendWait (4 * v + c)) s
  let r := pressPick bound (fun c => s.eligible (4 * v + c)) (s.weight v) (fun c => s.headCost (4 * v + c)) (s.press v p)
  let s := s.setPress v p r.2
  match r.1 with
  | some c => s.startCmd (4 * v + c)
  | none => s

/-! ### Completion -/

/-- Remove the oldest command; a branch that stood behind the last has its turn, and its checkpoint is free (R32). -/
def State.popTile (s : State) (q : Nat) : State :=
  s.modCore q fun c => { c with til := { c.til with
    queue := c.til.queue.drop 1, checkpoints := if c.til.queue.length ≤ 1 then [] else c.til.checkpoints } }

/-- The tile that a retiring command's register had before returns to the pool (R32). -/
def State.freeOld (s : State) (q : Nat) (r : Option Rename) : State :=
  match r with
  | none => s
  | some r => s.setPress (vatOf q) (s.binding q) ((s.press (vatOf q) (s.binding q)).free r.isZ r.old)

/-- The lending that a command waited to end has ended (R28); one that traps leaves the lent sets as they were (R211). -/
def State.endLending (s : State) (q : Nat) (i : Instr) : State := (s.lentNamed q i).foldl (fun s j => s.setLent q j 0) s

/-- The oldest command retires, its effect made. -/
def State.popRetired (s : State) (q : Nat) (t : TileCmd) : State :=
  ((((s.freeOld q t.ren).endLending q t.instr).popTile q).chargeInstr ⟨q, .thread⟩ t.instr).countRetired ⟨q, .thread⟩

/-- The device writes and the lines of a tile store, at its retirement (R201, R202). -/
def State.tileWrite (s : State) (q : Nat) (lines : List LineW) (dev : List (Word × Nat × List Byte))
    (checked : List PlbEntry) : State :=
  let s := dev.foldl (fun s w => s.devWrite q w.2.1 w.2.2.length (leNat w.2.2)) s
  if lines = [] then s else s.push ⟨q, .thread⟩ ⟨lines, true, false, false, 0, 1, checked⟩

/-- A line that a tile load read has changed since (R202). -/
def State.staleRead (s : State) (t : TileCmd) : Bool := t.reads.any fun r => BitVec.ofNat 512 (s.rdN (64 * r.line) 64) != r.data

/-- The oldest command makes its request again. -/
def State.againTile (s : State) (q : Nat) (t : TileCmd) (ts : List TileCmd) : State :=
  let r := s.tileOutcome q t true
  r.1.modCore q fun c => { c with til := { c.til with queue := t.begin r.2.1 r.2.2 (r.1.tileChecked q r.2.1 r.2.2) :: ts } }

/-- The oldest command, once started, completes and retires, or traps at its own PC with the younger ones squashed (R33, R211). One whose
request had to wait makes it again, and so does a load of which a line has been written since (R202). The reads that follow a `tsync` are
made after it (R209). -/
def State.tileRetire (s : State) (q : Nat) : State :=
  let s := { s with cur := ⟨q, .thread⟩ }
  match (s.core q).til.queue with
  | [] => s
  | t :: ts =>
    match t.held with
    | none => s
    | some (.waiting p) => if p.any fun l => s.parks.any fun k => k.who == ⟨q, .thread⟩ && k.line == l then s else s.againTile q t ts
    | some (.trap c d v) => (s.squashTiles q).trapEntry q c d false t.pc v
    | some (.z j v fl) => if s.staleRead t then s.againTile q t ts else ((s.setZ q j v).raiseFlags ⟨q, .thread⟩ fl).popRetired q t
    | some (.c j v fl) => if s.staleRead t then s.againTile q t ts else ((s.setC q j v).raiseFlags ⟨q, .thread⟩ fl).popRetired q t
    | some (.store ls dev) =>
      if dev = [] then (s.tileWrite q ls dev t.checked).popRetired q t
      else if s.canPerform ⟨q, .thread⟩ then ((s.performReads ⟨q, .thread⟩).tileWrite q ls dev t.checked).popRetired q t
      else s
    | some .sync => if s.canDrain ⟨q, .thread⟩ then ((s.drain ⟨q, .thread⟩).dropAhead ⟨q, .thread⟩).popRetired q t else s

/-- One move of the core's tile stream: its oldest command retires, or its press starts a command. -/
def State.tileProgress (s : State) (q : Nat) : State :=
  match (s.core q).til.queue with
  | [] => s
  | t :: _ => if t.started then s.tileRetire q else s.pressTurn (vatOf q) (s.binding q)

/-! ### Decode into the queue -/

/-- The fresh tile that an instruction takes for the register it writes, with the press after; none when the pool is empty (R32). -/
def State.renameFor (s : State) (q : Nat) (i : Instr) : Option (Option Rename × State) :=
  match tileDest i with
  | none => some (none, s)
  | some (z, n) => match (s.press (vatOf q) (s.binding q)).take z (q % 4) n with
    | some (r, x) => some (some r, s.setPress (vatOf q) (s.binding q) x)
    | none => none

/-- A tile instruction is decoded (R31, R32, R192): unbound it traps; otherwise it takes its tile and enters the queue with the values it
captures. -/
def enqueueTile (i : Instr) (b c : BitVec 5) (s : State) : Out :=
  onlyThread i s <|
    let q := s.cur.core
    let full := (s.core q).til.queue.length
    if s.binding q = 3 then if full = 0 then operand s 0 else .next (s.tileProgress q)
    else if 16 ≤ full then .next (s.tileProgress q)
    else match s.renameFor q i with
      | none => .next (s.tileProgress q)
      | some (r, u) =>
        let t : TileCmd := ⟨s.pcOf s.cur, i, s.rg b, s.rg c, (s.thr q).rm, r, none, [], []⟩
        let n := s.nextPc s.cur
        let keep := lineBase n == lineBase (s.pcOf s.cur)
        .next ((u.modCore q fun c => { c with til := { c.til with queue := c.til.queue ++ [t] } }).setPc s.cur n keep)

end Sys2Proof.Machine
end

