-- ==== Sys2Proof/Machine/SprigCtl.lean ====
section
/-! DEFINITION. Driving the sprig array from the thread (R161 to R168), and the instructions of a sprig beside the scalar and
vector ones (R169 to R173). -/

namespace Sys2Proof.Machine

/-- The mask operand (R20, R161): bits `n` to 63 cleared. -/
def State.maskOp (s : State) (c : BitVec 5) : Word := s.rg c &&& BitVec.ofNat 64 (2 ^ (s.core s.cur.core).arr.n - 1)

/-- An idle sprig with an entry starts it at once (R19, R163). -/
def State.startBlock (s : State) (q i : Nat) : State :=
  if (s.sprig q i).st = .idle ∧ !(s.priv q).status.shold then s.takeBlock q i else s

/-! ### `sconf` -/

/-- Configure the array (R18, R162): every link slot is empty, and holds 0 (log 4). The stores that its sprigs have buffered stay to be
performed. -/
def State.configure (s : State) (q n r : Nat) : State :=
  let rm := (s.thr q).rm
  let s := (List.range 64).foldl (fun s i => s.modSprig q i fun p =>
    { p with
      g := if i < n then [] else p.g, k := if i < n then [] else p.k, st := .idle, pc := 0, queue := [], fcause := 0
      fpc := 0, fval := 0, rm := rm, fpstat := 0, bstart := 0, free := false, links := [], full := 0, ag := { Agent.reset with sb := p.ag.sb, fwd := p.ag.fwd } }) s
  s.modCore q fun c =>
    let claimed := (List.range n).flatMap fun i => (List.range r).map fun j => poolKey i r j
    { c with
      arr := { c.arr with n := n, r := r, lanePtr := [], pool := claimed.foldl Store.del c.arr.pool }
      til := { c.til with lent := [] }
      unrep := 0
      dirty := { c.dirty with
        sprig := BitVec.allOnes 64, slot := BitVec.allOnes 896
        pool := claimed.foldl (fun m p => m ||| BitVec.ofNat 2048 (2 ^ p)) c.dirty.pool } }

/-- Configure n sprigs of r vector registers (R18, R162). -/
def execSconf (b c : BitVec 5) (s : State) : Out :=
  onlyThread (.sconf b c) s <|
    let q := s.cur.core
    let n := (s.rg b).toNat
    let r := (s.rg c).toNat
    if n < 1 ∨ 64 < n then operand s (s.rg b)
    else if r < 8 ∨ 64 < r ∨ r % 8 ≠ 0 ∨ 256 < (n + 7) / 8 * r then operand s (s.rg c)
    else if s.sprigsDone q then finish (.sconf b c) (s.configure q n r)
    else waitHere s 0 (.sprigs (BitVec.ofNat 64 (2 ^ (s.core q).arr.n - 1)))

/-! ### Blocks -/

/-- Queue an entry on one sprig (R163). -/
def State.queueBlock (s : State) (q i : Nat) (e : Block) : State :=
  s.modSprig q i fun p =>
    if p.st = .faulted then { p with st := .idle, fcause := 0, fpc := 0, fval := 0, queue := [e] }
    else { p with queue := p.queue ++ [e] }

/-- Queue a block on the sprigs of a mask (R21, R29, R163), ordered as a `fence.full.die` (R164), which merges the core's partial sums
(R231). -/
def execSbcast (b c : BitVec 5) (lend : BitVec 4) (s : State) : Out :=
  onlyThread (.sbcast b c lend) s <|
    let q := s.cur.core
    let a := s.rg b
    let m := s.maskOp c
    let is := maskSprigs (s.core q).arr.n m
    if 0xFFFF < a.toNat ∨ a.toNat % 64 ≠ 0 then operand s a
    else if lend ≠ 0 ∧ s.binding q = 3 then operand s (lend.setWidth 64)
    else if m = 0 then finish (.sbcast b c lend) s
    else drained s fun s =>
      let s := s.mergeCore q
      if is.any fun i => (s.sprig q i).queue.length = 4 then stall s
      else
        let s := is.foldl (fun s i => s.queueBlock q i ⟨a.setWidth 16, lend⟩) s
        let s := [0, 1, 2, 3].foldl (fun s j => if lend.getLsbD j then s.setLent q j (s.lentSet q j ||| m) else s) s
        finish (.sbcast b c lend) (is.foldl (fun s i => s.startBlock q i) s)

/-- Wait for the sprigs of a mask (R165). -/
def execSwait (d c : BitVec 5) (s : State) : Out :=
  onlyThread (.swait d c) s <|
    let q := s.cur.core
    let m := s.maskOp c
    let is := maskSprigs (s.core q).arr.n m
    if is.all fun i => s.sprigDone q i then finishG (.swait d c) d (s.faultedOf q is) (s.unlend q m)
    else waitHere s 0 (.sprigs m)

/-- Stop one sprig that is not FAULTED (R19, R166): its stores are performed, its queue emptied; registers and slots stay. -/
def State.stopSprig (s : State) (q i : Nat) : State :=
  let a : AgentId := ⟨q, .sprig i⟩
  if (s.sprig q i).st = .faulted ∨ !s.canDrain a then s
  else
    let s := (s.withdraw a).drain a
    let s := { s with poolFences := s.poolFences.filter fun f => f.who ≠ a }
    s.modSprig q i fun p => { p with st := .idle, queue := [], bstart := 0, free := false, ag := { p.ag with snap := none } }

/-- Stop the sprigs of a mask (R166). -/
def execSkill (c : BitVec 5) (s : State) : Out :=
  onlyThread (.skill c) s <|
    let q := s.cur.core
    let m := s.maskOp c
    let is := maskSprigs (s.core q).arr.n m
    let s := is.foldl (fun s i => s.stopSprig q i) s
    if is.all fun i => s.sprigDone q i then finish (.skill c) (s.unlend q m) else stall s

/-- The mask of the `skill` at which a core's thread stands, if it stands at one. -/
def State.skillAt (s : State) (q : Nat) : Word :=
  match (s.ag ⟨q, .thread⟩).snap, (s.thr q).run with
  | some n, .running =>
    match decodeSlot n.line (slotOf (s.thr q).pc.toNat) with
    | .ok (.skill c) => ({ s with cur := ⟨q, .thread⟩ } : State).maskOp c
    | _ => 0
  | _, _ => 0

/-- SKILL_SPRIG_STOP: a sprig that a `skill` in progress names stops at its boundary (R19, R166). -/
def execSkillSprigStop (core sprig : Nat) (s : State) : Out :=
  .next (if (s.skillAt core).getLsbD sprig then s.stopSprig core sprig else s)

/-! ### Reading and writing a sprig -/

/-- The state code of Table 3 of chapter 07. -/
def sprigStCode : SprigSt → Nat
  | .idle => 0
  | .running => 1
  | .waiting => 2
  | .faulted => 3

/-- What `sget` reads (Tables 2 and 3 of chapter 07). -/
def State.sgetVal (s : State) (q i : Nat) (sel : BitVec 6) : Word :=
  let p := s.sprig q i
  if sel.toNat < 32 then s.getG ⟨q, .sprig i⟩ (sel.setWidth 5)
  else if sel = 32 then field p.fpc.toNat 16 + field p.fcause.toNat 0
  else if sel = 33 then p.fval
  else
    let lent := sumNat ([0, 1, 2, 3].map fun j => if (s.lentSet q j).getLsbD i then 2 ^ j else 0)
    field (p.pc.toNat % 65536) 16 + field lent 8 + field p.queue.length 2 + field (sprigStCode p.st) 0

/-- Read state of a sprig (R167). -/
def execSget (d b : BitVec 5) (sel : BitVec 6) (s : State) : Out :=
  onlyThread (.sget d b sel) s <|
    let q := s.cur.core
    if (s.core q).arr.n ≤ (s.rg b).toNat then operand s (s.rg b)
    else finishG (.sget d b sel) d (s.sgetVal q (s.rg b).toNat sel) s

/-- Write a register of a sprig (R168). -/
def execSput (b c : BitVec 5) (sel : BitVec 5) (s : State) : Out :=
  onlyThread (.sput b c sel) s <|
    let q := s.cur.core
    let i := (s.rg b).toNat
    if (s.core q).arr.n ≤ i then operand s (s.rg b)
    else if (s.sprig q i).st = .running ∨ (s.sprig q i).st = .waiting then operand s (s.rg b)
    else finish (.sput b c sel) (s.setG ⟨q, .sprig i⟩ sel (s.rg c))

/-! ### Inside a sprig -/

/-- The sprig's number (R169). -/
def execSid (d : BitVec 5) (s : State) : Out := onlySprig (.sid d) s fun i => finishG (.sid d) d (BitVec.ofNat 64 i) s

/-- Move to a block-store address and lift the span rule (R23, R170). -/
def execBfetch (b : BitVec 5) (s : State) : Out :=
  onlySprig (.bfetch b) s fun i =>
    let t := s.rg b
    if 0xFFFF < t.toNat then illegal s 11 (.bfetch b)
    else if !isHeadAddr t.toNat then raise s cALIGN 0 t
    else .next ((s.retireTo s.cur (.bfetch b) t false).modSprig s.cur.core i fun p => { p with free := true })

/-- End the block (R171): the sprig's stores are performed, a reservation it holds ends (R220), it enters IDLE, and its next entry
starts. -/
def execStop (s : State) : Out :=
  onlySprig .stop s fun i =>
    drained s fun s =>
      let q := s.cur.core
      let s := ((s.releaseHeld s.cur true).retire s.cur .stop).modSprig q i fun p =>
        { p with st := .idle, bstart := 0, free := false, ag := { p.ag with snap := none } }
      .next ((s.wakeIdle q).startBlock q i)

/-- The sprig at an offset, if the array has it. -/
def State.neighbour (s : State) (q i : Nat) (d : BitVec 6) : Option Nat :=
  let t : Int := (i : Int) + d.toInt
  if t < 0 ∨ ((s.core q).arr.n : Int) ≤ t then none else some t.toNat

/-- Send a v register to a neighbour's slot (R50, R172, R173). -/
def execLsend (et : Ty) (va : BitVec 6) (delta : BitVec 6) (s : State) : Out :=
  let ins : Instr := .lsend et va delta
  onlySprig ins s fun i =>
    let q := s.cur.core
    if (s.core q).arr.r ≤ va.toNat then illegal s 12 ins
    else match s.neighbour q i delta with
      | none => finish ins s
      | some t => drained s fun s =>
          let slot := linkSlot (-delta)
          if (s.sprig q t).full.getLsbD slot then operand s (sextN delta.toNat 6)
          else finish ins (s.setLink q t slot (some (s.getV q i va)))

/-- Receive a v register from the sprig's slot (R50, R172, R173). -/
def execLrecv (et : Ty) (vd : BitVec 6) (delta : BitVec 6) (s : State) : Out :=
  let ins : Instr := .lrecv et vd delta
  onlySprig ins s fun i =>
    let q := s.cur.core
    if (s.core q).arr.r ≤ vd.toNat then illegal s 12 ins
    else match s.neighbour q i delta with
      | none => operand s (sextN delta.toNat 6)
      | some _ =>
        let slot := linkSlot delta
        if (s.sprig q i).full.getLsbD slot then
          finish ins ((s.setV q i vd (Store.get (s.sprig q i).links 0 slot)).setLink q i slot none)
        else waitHere s (sextN delta.toNat 6) (.link slot)

end Sys2Proof.Machine
end

