-- ==== Sys2Proof/Machine/Inval.lean ====
section
/-! DEFINITION. `plbinv` (R351), `xlinv` and moving a page (R345 to R350). -/

namespace Sys2Proof.Machine

/-! ### Every agent of a partition -/

/-- The agents of a partition's cores. -/
def State.agentsOf (s : State) (p : Nat) : List AgentId :=
  s.cores.flatMap fun e =>
    if s.partOf e.1 = p then ⟨e.1, .thread⟩ :: e.2.arr.sprigs.map fun x => ⟨e.1, .sprig x.1⟩ else []

/-- The command has made an access that is not performed, to an address that `hit` chooses, by 56 bits: a store that has not retired, or
a load that may read again (R202, R210). -/
def TileCmd.pending (t : TileCmd) (hit : Nat → Bool) : Bool :=
  (t.reads.any fun r => hit (64 * r.vline % 2 ^ 56)) || match t.held with
    | some (.store ls dev) => (ls.any fun w => hit (64 * w.vline % 2 ^ 56)) || dev.any fun w => hit (w.1.toNat % 2 ^ 56)
    | _ => false

/-- A tile command of the partition has such an access. -/
def State.tilesPending (s : State) (p : Nat) (hit : Nat → Bool) : Bool :=
  s.cores.any fun e => s.partOf e.1 == p && e.2.til.queue.any fun t => t.pending hit

/-- A tile command of the partition has any. -/
def State.tilesBusy (s : State) (p : Nat) : Bool := s.tilesPending p fun _ => true

/-- The command has one that was checked against regions that `hit` chooses (R351). -/
def TileCmd.checkedBy (t : TileCmd) (hit : List PlbEntry → Bool) : Bool := t.pending (fun _ => true) && hit t.checked

/-- A tile command of the partition has. -/
def State.tilesChecked (s : State) (p : Nat) (hit : List PlbEntry → Bool) : Bool :=
  s.cores.any fun e => s.partOf e.1 == p && e.2.til.queue.any fun t => t.checkedBy hit

/-- The request of a tile command is parked. -/
def TileCmd.parked (t : TileCmd) : Bool :=
  match t.held with
  | some (.waiting (some _)) => true
  | some (.waiting none) | some (.trap _ _ _) | some (.z _ _ _) | some (.c _ _ _) | some (.store _ _) | some .sync | none => false

/-- The commands behind one that is parked start again where `hit` chooses them for their accesses: they hold nothing that is performed
before the parked one retires (R210, R348; log 29). -/
def restartBehind (hit : TileCmd → Bool) : List TileCmd → List TileCmd
  | [] => []
  | t :: ts =>
    if t.parked then t :: ts.map fun u => if hit u then { u with held := none, reads := [], checked := [] } else u
    else t :: restartBehind hit ts

/-- The same for every core of a partition. -/
def State.restartTiles (s : State) (p : Nat) (hit : TileCmd → Bool) : State :=
  { s with cores := Store.mapV (fun q c =>
      if s.partOf q = p ∧ c.til.queue.any TileCmd.parked then { c with til := { c.til with queue := restartBehind hit c.til.queue } } else c) s.cores }

/-- The reads of an agent at chosen addresses that were made early are forgotten, and those that may still be late are performed. -/
def State.readsInPlaceAt (s : State) (a : AgentId) (hit : Nat → Bool) : State :=
  let early (r : EarlyRead) : Bool := hit (va56 r.ea)
  let late (r : LateRead) : Bool := hit (va56 r.ea)
  if (s.ag a).ahead.any early || (s.ag a).late.any late then
    s.modAg a fun g => { g with ahead := g.ahead.filter fun r => !early r, late := g.late.filter fun r => !late r }
  else s

/-- The buffered writes of the partition that `need` names are accepted, and its reads at chosen addresses stand in their places; none says
that a write must wait. -/
def State.drainStores (s : State) (p : Nat) (need : SbEntry → Bool) (read : Nat → Bool) : Option State :=
  (s.agentsOf p).foldl (fun o a => o.bind fun s => (s.drainNeeded a need).map fun s => s.readsInPlaceAt a read) (some s)

/-- Every access of the partition that was translated, to addresses that `hit` chooses, is performed (R346): buffered writes are accepted,
and no read stands ahead of its load. -/
def State.drainAt (s : State) (p : Nat) (hit : Nat → Bool) : Option State :=
  if s.tilesPending p hit then none else s.drainStores p (fun e => e.lines.any fun w => hit (64 * w.vline % 2 ^ 56)) hit

/-- Wait for every access of the issuer's partition, then go on. -/
def allDrained (s : State) (k : State → Out) : Out :=
  match s.drainAt (s.partOf s.cur.core) fun _ => true with
  | some s => k s
  | none => stall s

/-- An `xlinv` that has begun waits: no interrupt comes between (R346). -/
def invalWait (s : State) : Out := .next (s.modAg s.cur fun g => { g with inval := true })

/-- The wait of an `xlinv` for every request translated for the chosen addresses (R346). -/
def allTranslated (s : State) (hit : Nat → Bool) (k : State → Out) : Out :=
  let p := s.partOf s.cur.core
  let s := s.restartTiles p fun t => t.pending hit
  match s.drainAt p hit with
  | some s => k s
  | none => invalWait s

/-! ### `plbinv` -/

/-- Drop lookaside entries on every core of a partition (R351). -/
def State.dropPlb (s : State) (p : Nat) (f : PlbEntry → Bool) : State :=
  { s with cores := Store.mapV (fun q c => if s.partOf q = p then { c with plb := c.plb.filter fun e => !f e } else c) s.cores }

/-- The ports of a partition. -/
def State.portsOf (s : State) (p : Nat) : List Nat := (List.range 4).filter fun j => Store.get s.portPart 0 j == p

/-- An invalidation goes to every device that holds translations (R378). -/
def State.sendInval (s : State) (js : List Nat) : State :=
  js.foldl (fun s j => s.modPort j fun p => { p with ats := false, inval := p.inval || p.ats }) s

/-! ### Queued instructions -/

/-- A line's reservation state goes; its slot frees (R245). -/
def State.dropLine (s : State) (line : Nat) : State :=
  match Store.find? s.res line with
  | none => s
  | some e => State.slotFreed { s with res := Store.del s.res line } e.home

/-- An agent of a core of the partition. -/
def State.inPart (s : State) (p : Nat) (a : AgentId) : Bool := s.partOf a.core == p

/-- The lines under reservation by the partition whose virtual address is chosen. -/
def State.linesHit (s : State) (p : Nat) (hit : Nat → Bool) : List (Nat × ResLine) :=
  s.res.filter fun e => e.2.holder.any (s.inPart p) && hit (64 * e.2.vline % 2 ^ 56)

/-- The agents of a partition that hold a chosen line, or wait for one, for an instruction still in progress. -/
def State.busyOn (s : State) (p : Nat) (hit : Nat → Bool) : List AgentId :=
  (s.res.flatMap fun e =>
    if hit (64 * e.2.vline % 2 ^ 56) then
      ((if e.2.byLrw then [] else e.2.holder.toList) ++ (e.2.queue.filter fun w => !w.2).map fun w => w.1).filter (s.inPart p)
    else []) ++
  s.sliceQ.flatMap fun e => (e.2.filter fun r => !r.lrw && s.inPart p r.who && hit (64 * r.vline % 2 ^ 56)).map fun r => r.who

/-- Every instruction of a partition that is queued at a chosen address leaves its queue and executes again; its wait goes on (R245). One in
progress gives up every line it holds and leaves every queue it is in, and locks from the first line again (R227). -/
def State.unqueue (s : State) (p : Nat) (hit : Nat → Bool) : State :=
  let busy := s.busyOn p hit
  let line (vline : Nat) (a : AgentId) : Bool := s.inPart p a && hit (64 * vline % 2 ^ 56)
  let out (w : TagWaiter) : Bool := s.inPart p w.who && hit (w.va % 2 ^ 56)
  let s : State := { s with
    res := Store.mapV (fun _ (e : ResLine) => { e with queue := e.queue.filter fun w => !line e.vline w.1 }) s.res
    sliceQ := (Store.mapV (fun _ (l : List SlotReq) => l.filter fun r => !line r.vline r.who) s.sliceQ).filter fun e => e.2 ≠ []
    tagQ := (Store.mapV (fun _ (t : TagQueues) => (⟨t.fullQ.filter fun w => !out w, t.emptyQ.filter fun w => !out w⟩ : TagQueues)) s.tagQ).filter
      fun e => e.2 ≠ ⟨[], []⟩
    monitors := s.monitors.filter fun m => !(s.inPart p m.who && hit (m.va % 2 ^ 56)) }
  busy.foldl State.giveUpLines s

/-- A waiting instruction's access was checked against regions that `hit` chooses (R351). -/
def State.waitChecked (s : State) (p : Nat) (hit : List PlbEntry → Bool) (a : AgentId) : Bool :=
  s.inPart p a && match (s.ag a).wait with
    | some w => hit w.checked
    | none => false

/-- The waiting instructions of a partition whose access was checked against regions that `hit` chooses leave the queues of lines and words,
and their monitors, and execute again; their waits go on (R351). An `amo`, a `cas` and an `mcas` make their checks again when they act. -/
def State.squash (s : State) (p : Nat) (hit : List PlbEntry → Bool) : State :=
  let out (a : AgentId) : Bool := s.waitChecked p hit a
  { s with
    res := Store.mapV (fun _ (e : ResLine) => { e with queue := e.queue.filter fun w => !out w.1 }) s.res
    sliceQ := (Store.mapV (fun _ (l : List SlotReq) => l.filter fun r => !out r.who) s.sliceQ).filter fun e => e.2 ≠ []
    tagQ := (Store.mapV (fun _ (t : TagQueues) =>
      (⟨t.fullQ.filter fun w => !out w.who, t.emptyQ.filter fun w => !out w.who⟩ : TagQueues)) s.tagQ).filter fun e => e.2 ≠ ⟨[], []⟩
    monitors := s.monitors.filter fun m => !out m.who }

/-- Every access of the partition that was checked against regions that `hit` chooses is performed (R351). -/
def State.drainChecked (s : State) (p : Nat) (hit : List PlbEntry → Bool) : Option State :=
  let s := s.restartTiles p fun t => t.checkedBy hit
  if s.tilesChecked p hit then none else s.drainStores p (fun e => hit e.checked) fun _ => true

/-- The common part of `plbinv` and of a write of `PROTROOT`: earlier stores, the accesses checked against regions that `hit` chooses, and
devices; waiting instructions among them are squashed and execute again (R351); then `k`. -/
def plbWait (s : State) (hit : List PlbEntry → Bool) (k : State → Out) : Out :=
  releaseAt s .sys fun s =>
    let p := s.partOf s.cur.core
    match s.drainChecked p hit with
    | none => stall s
    | some t =>
      let js := t.portsOf p
      if js.any fun j => (t.port j).ats || (t.port j).inval then .next (t.sendInval js)
      else k (t.squash p hit)

/-- `plbinv`: wait, drop the entries, complete (R351). -/
def plbinv (i : Instr) (f : PlbEntry → Bool) (s : State) : Out :=
  plbWait s (fun es => es.any f) fun s => finish i (s.dropPlb (s.partOf s.cur.core) f)

/-- Entries of a domain whose region holds an address (R351). -/
def execPlbinvOne (b c : BitVec 5) (s : State) : Out :=
  let i : Instr := .plbinvOne b c
  let va := s.rg b
  let d := s.rg c
  onlyKernel i s <|
    if !canonical va then raise s cXLATE 0 va
    else if 16383 < d.toNat then operand s d
    else
      plbinv i (fun e => e.domain.toNat = d.toNat && e.holds va) s

/-- Every entry of a domain (R351). -/
def execPlbinvDom (c : BitVec 5) (s : State) : Out :=
  let i : Instr := .plbinvDom c
  let d := s.rg c
  onlyKernel i s <| if 16383 < d.toNat then operand s d else plbinv i (fun e => e.domain.toNat = d.toNat) s

/-- Every entry (R351). -/
def execPlbinvAll (s : State) : Out := onlyKernel .plbinvAll s (plbinv .plbinvAll (fun _ => true) s)

/-! ### What `xlinv` does to caches, exact state and queues (R346) -/

/-- Every dirty copy is written back (R247; lines beyond the page may be written back at any time, log 14). -/
def State.writeBackAll (s : State) : State := (s.behind.map fun e => e.1).foldl State.writeBack s

/-- The exact state of a partition's words, chosen by 56-bit virtual address, is folded into the bases (R120). -/
def State.foldWords (s : State) (p : Nat) (hit : Nat → Bool) : State :=
  let f (x : Exact) : Bool := x.part == p && hit (x.va % 2 ^ 56)
  let ls := s.cores.flatMap fun e => (e.2.partials.filter fun d => f d.2).map fun d => d.1
  let s := (dedup ls).foldl State.recallWord s
  (s.exact.filter fun e => f e.2).foldl (fun s e => s.foldWord e.1) s

/-- Held reservations on the chosen lines end, and every queued request is answered MOVED: its instruction executes again (R245, R346). -/
def State.endHolds (s : State) (p : Nat) (hit : Nat → Bool) : State :=
  let lines := (s.linesHit p hit).map fun e => e.1
  lines.foldl State.releaseLine (s.unqueue p hit)

/-- The effects of `xlinv` on a partition, for the pages chosen by 56-bit address, but for the translation caches and the move. -/
def State.sweep (s : State) (p : Nat) (hit : Nat → Bool) : State := ((s.foldWords p hit).writeBackAll).endHolds p hit

/-! ### Moving a page (R347 to R350) -/

/-- Bytes of a page by size code (R346). -/
def sizeOf (code : Nat) : Nat := if code = 0 then 2 ^ 12 else if code = 1 then 2 ^ 16 else if code = 2 then 2 ^ 21 else 2 ^ 30

/-- The level at which a page of a size code has its leaf (R340). -/
def codeLevel (code : Nat) : Nat := if code ≤ 1 then 0 else code - 1

/-- A valid leaf whose level and C bit match a size code (R347). -/
def leafFits (code e : Nat) : Bool :=
  tst e 0 && tst e 1 && !entryBad (codeLevel code) e && (tst e 3 == (code == 1))

/-- `CheckMoveRecord` of R347 for the record at a location, which an in-transit entry of a level names. -/
def State.moveOk (s : State) (m code level : Nat) : Bool :=
  level == codeLevel code && s.imageHbm m && ([16, 24, 32, 40, 48, 56].all fun o => s.rdN (m + o) 8 == 0) && leafFits code (s.rdN m 8) &&
    leafFits code (s.rdN (m + 8) 8)

/-- Entries of a map in one range, moved to another. -/
def shifted {α : Type} (m : Store α) (old new n : Nat) : Store α :=
  (m.filter fun e => old ≤ e.1 && e.1 < old + n).map fun e => (e.1 - old + new, e.2)

/-- Entries of a map outside a range. -/
def outside {α : Type} (m : Store α) (lo n : Nat) : Store α := m.filter fun e => !(lo ≤ e.1 && e.1 < lo + n)

/-- Replace a range of a map by another range of it. -/
def moveRange {α : Type} (m : Store α) (old new n : Nat) : Store α :=
  (shifted m old new n).foldl (fun m e => Store.ins m e.1 e.2) (outside m new n)

/-- A frame holds an uncorrectable line. -/
def State.frameBad (s : State) (f n : Nat) : Bool :=
  (s.ue.any fun e => f / 32 ≤ e.1 && e.1 < (f + n) / 32) || (isHbm f && s.unreachable.contains (pkgOfLoc f))

/-- `CopyFrame` of R350: bytes, full bits, and the marks of uncorrectable granules. -/
def State.copyFrame (s : State) (old new n : Nat) : State :=
  let lost := isHbm old && s.unreachable.contains (pkgOfLoc old)
  let ue := moveRange s.ue (old / 32) (new / 32) (n / 32)
  let moved (l : Nat) : Nat := if old ≤ 64 * l && 64 * l < old + n then l - old / 64 + new / 64 else l
  let s := s.dropExact fun l => new ≤ l && l < new + n
  { s with
    cores := Store.mapV (fun _ c => { c with cpy := { c.cpy with
      cmds := c.cpy.cmds.map fun m => { m with locs := m.locs.map fun e => (e.1, moved e.2) } } }) s.cores
    mem := moveRange s.mem old new n
    fullBits := moveRange s.fullBits (old / 8) (new / 8) (n / 8)
    ue := if lost then (List.range (n / 32)).foldl (fun m k => Store.ins m (new / 32 + k) ⟨0, 0⟩) ue else ue
    behind := outside s.behind (new / 64) (n / 64) }

/-- The frame of a leaf for its page size. -/
def frameOf (e n : Nat) : Nat := nbits e 51 12 * 4096 / n * n

/-- The move steps of `xlinv.page` with a checked record (R346). -/
def State.movePage (s : State) (m n : Nat) : State :=
  let old := frameOf (s.rdN m 8) n
  let new := frameOf (s.rdN (m + 8) 8) n
  let bad := old ≠ new && s.frameBad old n
  let s := if old ≠ new then s.copyFrame old new n else s
  s.accept ⟨false, false, (0xFF80000000000000 + m + 16) / 64, cellsOf (m + 16) 8 (if bad then 2 else 1), false⟩

/-- Drop the translations of a partition that cover a byte of a page. -/
def State.dropTc (s : State) (p lo n : Nat) : State :=
  { s with tc := s.tc.filter fun e => !(e.part == p && e.vbase < lo + n && lo < e.vbase + e.size) }

/-- `xlinv.page` from its walk on. -/
def xlinvPage (i : Instr) (va : Word) (code : Nat) (s : State) : Out :=
  let a := s.cur
  let p := s.partOf a.core
  let n := sizeOf code
  let lo := va56 va / 4096 * 4096
  let hit (x : Nat) : Bool := lo ≤ x && x < lo + n
  match s.transitOf a va with
  | .error _ => invalWait s
  | .ok none => allTranslated (s.dropTc p lo n) hit fun s => finish i (s.sweep p hit)
  | .ok (some (e, level)) =>
    let m := nbits e 51 6 * 64
    if !s.imageHbm m then operand s (BitVec.ofNat 64 m)
    else if s.blocked a (m / 64) || s.ownedLoc a m then invalWait s
    else if s.ueAt m 64 then raise s cMEMERR 0 (BitVec.ofNat 64 m)
    else if !s.moveOk m code level then operand s (BitVec.ofNat 64 m)
    else allTranslated (s.dropTc p lo n) hit fun s => finish i ((s.sweep p hit).movePage m n)

/-- Invalidate the translations of one page, and move it if it is in transit (R346). -/
def execXlinvPage (b : BitVec 5) (s : State) : Out :=
  let i : Instr := .xlinvPage b
  let v := s.rg b
  let code := bits v 1 0
  onlyKernel i s <|
    if !canonical v then raise s cXLATE 0 v
    else if bits v 11 2 ≠ 0 ∨ v.toNat / 4096 * 4096 % sizeOf code ≠ 0 then operand s v
    else releaseAt s .sys fun s => xlinvPage i v code s

/-- The effects of `xlinv.all` on a partition. -/
def State.sweepAll (s : State) (p : Nat) : State :=
  State.sweep { s with tc := s.tc.filter fun e => e.part ≠ p } p fun _ => true

/-- Earlier stores and translated requests, then `k`: the wait of `xlinv.all`. -/
def xlinvWait (s : State) (k : State → Out) : Out := releaseAt s .sys fun s => allTranslated s (fun _ => true) k

/-- Invalidate every translation of the partition (R346). -/
def execXlinvAll (s : State) : Out :=
  onlyKernel .xlinvAll s <| xlinvWait s fun s => finish .xlinvAll (s.sweepAll (s.partOf s.cur.core))

end Sys2Proof.Machine
end

