-- ==== Sys2Proof/Machine/Window.lean ====
section
/-! DEFINITION. Scratchpad windows: mapping, unmapping and the write-back of a segment (R257 to R259). -/

namespace Sys2Proof.Machine

/-- The window register with its reserved bits zero (R312). -/
def winWord (v : Word) : Word := field (bits v 63 16) 16 + flagAt (bit v 0) 0

/-- The number of the next unmapping: above those of every pending one. -/
def State.nextUnmap (s : State) : Nat := (s.cores.flatMap fun e => e.2.pendWb.map fun w => w.num + 1).foldl max 0

/-- A window stops being mapped at its range: every line of the segment is to be written back (R259). -/
def State.unmapWindow (s : State) (q i : Nat) : State :=
  let w := Store.get (s.priv q).spwin 0 i
  if bit w 0 then
    s.modCore q fun c => { c with pendWb := c.pendWb ++ [⟨i, bits w 63 16, BitVec.allOnes 1024, s.nextUnmap⟩] }
  else s

/-- A virtual range stands elsewhere now, at `new`: the monitors, reservations and requests on the lines of it that stood where `was` says
follow it (R230, R258). -/
def State.rehome (s : State) (p lo n new : Nat) (was : Nat → Bool) : State :=
  let inR (va : Nat) : Bool := lo ≤ va && va < lo + n
  let hit (e : Nat × ResLine) : Bool := e.2.holder.any (s.inPart p) && inR (64 * e.2.vline) && was (64 * e.1)
  { s with
    monitors := s.monitors.map fun m =>
      if s.partOf m.who.core == p && inR m.va && was m.loc then { m with loc := new + (m.va - lo) } else m
    res := (s.res.filter hit).foldl (fun r e => Store.ins r ((new + (64 * e.2.vline - lo)) / 64) e.2) (s.res.filter fun e => !hit e)
    sliceQ := Store.mapV (fun _ (l : List SlotReq) => l.map fun r =>
      if s.inPart p r.who && inR (64 * r.vline) && was (64 * r.line) then { r with line := (new + (64 * r.vline - lo)) / 64 } else r) s.sliceQ }

/-- A mapped window takes its range: what stood on the frame stands on the segment (R258). -/
def State.takeRange (s : State) (q i : Nat) : State :=
  let w := Store.get (s.priv q).spwin 0 i
  if bit w 0 then s.rehome (s.partOf q) (bits w 63 16 * 65536) 65536 (scratchLoc q (65536 * i)) fun _ => true else s

/-- A range that a window left is served by the one window that still has it (R258). -/
def State.leaveRange (s : State) (p : Nat) (w : Word) : State :=
  match bit w 0, s.windowsAt p w with
  | true, [(q, i)] => s.takeRange q i
  | _, _ => s

/-- A window register is written: the old range is unmapped unless the window stays where it is (R257, R259). -/
def State.setWindow (s : State) (q i : Nat) (v : Word) : State :=
  let w := winWord v
  let old := Store.get (s.priv q).spwin 0 i
  let s := if w = old then s else s.unmapWindow q i
  ((s.modPriv q fun p => { p with spwin := Store.put p.spwin 0 i w }).leaveRange (s.partOf q) old).takeRange q i

/-- SPWINi (R257, R259, R313): cached copies of the range are written to the backing memory before the window is mapped.
The write first performs the buffered stores of every agent of the partition, so that those to the range lie in the backing memory: the
model's choice (log 38). -/
def execSpwinWrite (r : BitVec 5) (i : BitVec 3) (s : State) : Out :=
  let ins : Instr := .spwinWrite r i
  let v := s.rg r
  onlyKernel ins s <|
    if !canonical v then operand s v
    else allDrained s fun s =>
      let q := s.cur.core
      .next ((s.writeBackAll.retire s.cur ins).setWindow q i.toNat v)

/-- A line of a pending write-back is done. -/
def lineDone (seg line : Nat) : List WinPending → List WinPending
  | [] => []
  | w :: ws =>
    if w.seg = seg ∧ w.left.getLsbD line then
      let left := w.left &&& ~~~(BitVec.ofNat 1024 (2 ^ line))
      if left = 0 then ws else { w with left := left } :: ws
    else w :: lineDone seg line ws

/-- Write a segment line to a location of its backing range, on a tagged-word page or not; an uncorrectable granule stays one (R252,
R259). A page that has come to lie in device space takes nothing (log 38). -/
def State.segToMemory (s : State) (tag : Bool) (src l : Nat) (va : Word) : State :=
  if isDevice l then s
  else
    let s := s.accept ⟨tag, true, va.toNat / 64, cellsOfBytes l (s.rdBytes src 64), false⟩
    [0, 1].foldl (fun (s : State) k =>
      match Store.find? s.ue (src / 32 + k) with
      | some u => { s with ue := Store.ins s.ue (l / 32 + k) u }
      | none => s) s

/-- A write is to a line. -/
def LineW.onLine (w : LineW) (line : Nat) : Bool := w.cells.any fun c => c.1 / 64 == line

/-- A tile command that has started stores to a line, or has read it (R202, R210). -/
def TileCmd.usesLine (t : TileCmd) (line : Nat) : Bool :=
  (t.reads.any fun r => r.line == line) || match t.held with
    | some (.store ls _) => ls.any fun w => w.onLine line
    | _ => false

/-- An agent has a buffered store to a line, or a tile command has made its access to it: it holds a copy, which is recalled first (R259). -/
def State.lineBuffered (s : State) (line : Nat) : Bool :=
  (s.allAgents.any fun a => (s.ag a).sb.any fun e => e.lines.any fun w => w.onLine line) ||
    s.cores.any fun e => e.2.til.queue.any fun t => t.usesLine line

/-- WINDOW_LINE_WRITEBACK: one line of an unmapped window goes to its backing range, once every store to it has reached the segment, its
page has a valid leaf, and the windows that left the line before it have written theirs (R257, R259). What stood on the segment stands on the frame then, unless a window has the range again (R258). -/
def State.writeSegLine (s : State) (q seg line : Nat) : State :=
  match (s.core q).pendWb.find? fun w => w.seg = seg && w.left.getLsbD line with
  | none => s
  | some w =>
    let va := BitVec.ofNat 64 (w.vbase * 65536 + 64 * line)
    let src := scratchLoc q (65536 * seg + 64 * line)
    if s.lineBuffered (src / 64) || (s.pendingAt (s.partOf q) va).any fun p => p.2.num < w.num then s
    else match s.mapping ⟨q, .thread⟩ va with
      | .error _ => s
      | .ok x =>
        let l := nbits x.leaf 51 12 * 4096 / x.size * x.size + va56 va % x.size
        let s := s.segToMemory (tst x.w0 2) src l va
        (if s.windowsAt (s.partOf q) va = [] then s.rehome (s.partOf q) va.toNat 64 l fun m => m / 64 == src / 64 else s).modCore q
          fun c => { c with pendWb := lineDone seg line c.pendWb }

def execWindowLineWriteback (core seg line : Nat) (s : State) : Out := .next (s.writeSegLine core seg line)

end Sys2Proof.Machine
end

