-- ==== Sys2Proof/Machine/PrivRegs.lean ====
section
/-! DEFINITION. The privileged registers: `rdpr` and `wrpr` (R311 to R314, R324, R339, R356, R362, R370, R381). -/

namespace Sys2Proof.Machine

/-! ### Reading -/

/-- The code of a level (R308). -/
def Level.code : Level → Nat
  | .user => 0
  | .kernel => 1
  | .firmware => 2

/-- `STATUS` as it reads; firmware sees its own copies of PPL, PIE and NEST (R310, R312). -/
def Priv.statusWord (p : Priv) : Word :=
  let t := p.status
  let fw := t.pl == .firmware
  flagAt t.arr 23 + flagAt t.acc 22 + flagAt t.shold 21 + flagAt (if fw then p.fw.nest else t.nest) 20 + flagAt t.sprigtrap 19 +
    flagAt t.ceovf 13 + field t.ien.toNat 8 + flagAt (if fw then p.fw.pie else t.pie) 5 + flagAt t.ie 4 +
    flagAt (if fw then p.fw.pplKernel else t.pplKernel) 2 + field t.pl.code 0

/-- `FDUTY` as it reads (Table 3 of chapter 17). -/
def State.fdutyWord (s : State) (q : Nat) : Word :=
  let d := (s.priv q).duty
  let v := s.vat (vatOf q)
  field d.events 28 + field v.ceilNext 20 + field v.opnow 16 + field d.freq.toNat 12 + field d.applied 5 + field d.cap 0

/-- A region is valid. -/
def Region.valid (g : Region) : Bool := bit g.w0 0

/-- The code of a region's state (Table 6 of chapter 18). -/
def Region.stateCode (g : Region) : Nat :=
  if !g.valid then 3 else match g.st with
    | .online => 0
    | .failover => 1
    | .lost => 2

/-- The port that serves a region (R380). -/
def Region.serving (g : Region) : Nat := if g.onAlt then bits g.w0 4 3 else bits g.w0 2 1

/-- `POOLSTAT` as it reads (R381). -/
def State.poolstatWord (s : State) (q : Nat) : Word :=
  let p := s.priv q
  let g := s.region p.poolRegion.toNat
  let data := if p.poolWord = 0 then g.lostcnt else if p.poolWord = 1 then g.first else if p.poolWord = 2 then g.stranded.length
    else g.serving
  field g.stateCode 62 + field p.poolWord.toNat 60 + field p.poolRegion.toNat 50 + field (data % 2 ^ 48) 0

/-- A privileged register as `rdpr` reads it (R311). -/
def State.readPriv (s : State) (q n : Nat) : Word :=
  let p := s.priv q
  let fw := p.status.pl == .firmware
  let v := s.vat (vatOf q)
  let t := s.part (s.partOf q)
  if n = 0x100 then p.statusWord
  else if n = 0x101 then p.trapvec
  else if n = 0x102 then if fw then p.fw.trapcause else p.trapcause
  else if n = 0x103 then if fw then p.fw.trappc else p.trappc
  else if n = 0x104 then if fw then p.fw.trapval else p.trapval
  else if n = 0x105 then p.trapscratch
  else if n = 0x106 then p.domain.setWidth 64
  else if n = 0x107 then t.protroot
  else if n = 0x108 then t.ptroot
  else if n = 0x109 then t.descbase
  else if n = 0x10A then p.coretab
  else if n = 0x10B then p.ctximg
  else if n = 0x10C then v.pressbind.setWidth 64
  else if n = 0x10D then v.wshare.setWidth 64
  else if n = 0x10E then s.fdutyWord q
  else if n = 0x10F then p.estatic.setWidth 64
  else if n = 0x110 then p.timecmp
  else if n = 0x111 then p.ipipend
  else if n = 0x112 then s.poolstatWord q
  else if n = 0x113 then p.barcfg
  else if 0x118 ≤ n ∧ n ≤ 0x11F then Store.get p.spwin 0 (n - 0x118)
  else if 0x120 ≤ n ∧ n ≤ 0x12F then (Store.get p.eweight 0 (n - 0x120)).setWidth 64
  else Store.get (s.thr q).g 0 (n - 0x130 + 24)

/-- Read a privileged register (R324). -/
def execRdpr (d : BitVec 5) (n : BitVec 12) (s : State) : Out :=
  onlyKernel (.rdpr d n) s (finishG (.rdpr d n) d (s.readPriv s.cur.core n.toNat) s)

/-! ### `STATUS` -/

/-- The held sprigs resume at their PCs; an idle one with an entry starts it (R19, R323). -/
def State.releaseSprigs (s : State) (q : Nat) : State :=
  (List.range (s.core q).arr.n).foldl (fun s i => s.startBlock q i) (s.modStatus q fun t => { t with shold := false })

/-- Sprigs stop as step 3 of R35 does and are held (R312). -/
def State.holdSprigs (s : State) (q : Nat) : State := (s.stopSprigs q).modStatus q fun t => { t with shold := true }

/-- The fields of `STATUS` but SHOLD, as a write leaves them (R312). -/
def Priv.writeStatus (p : Priv) (v : Word) : Priv :=
  let t := p.status
  let fw := t.pl == .firmware
  { p with
    status := { t with
      arr := t.arr && !bit v 23, acc := bit v 22, sprigtrap := bit v 19, ceovf := t.ceovf && !bit v 13
      ien := BitVec.ofNat 5 (bits v 12 8), ie := bit v 4
      nest := if fw then t.nest else bit v 20
      pie := if fw then t.pie else bit v 5
      pplKernel := if fw then t.pplKernel else bit v 2 }
    fw := if fw then { p.fw with nest := bit v 20, pie := bit v 5, pplKernel := bit v 2 } else p.fw }

/-- A write of `STATUS` with its effect on the sprigs. -/
def State.writeStatus (s : State) (q : Nat) (v : Word) : State :=
  let s := s.modPriv q fun p => p.writeStatus v
  if bit v 21 then s.holdSprigs q else s.releaseSprigs q

/-- `wrpr STATUS` (R312, R313): PPL 10 and 11 are forbidden. -/
def statusWrite (i : Instr) (v : Word) (s : State) : Out :=
  onlyKernel i s <|
    if bit v 3 then operand s v else .next ((s.retire s.cur i).writeStatus s.cur.core v)

/-- SHOLD_SET: `STATUS` written with SHOLD 1 (R323). -/
def execSholdSet (a : BitVec 5) (s : State) : Out := statusWrite (.sholdSet a) (s.rg a) s

/-- SHOLD_RELEASE: `STATUS` written with SHOLD 0 while sprigs are held (R323). -/
def execSholdRelease (a : BitVec 5) (s : State) : Out := statusWrite (.sholdRelease a) (s.rg a) s

/-! ### `POOLSTAT` (R381, R382) -/

/-- The link of a port is up. -/
def State.linkUp (s : State) (j : Nat) : Bool := (s.port j).link.getLsbD 0

/-- Some link of a region is up. -/
def State.regionLinkUp (s : State) (g : Region) : Bool := s.linkUp (bits g.w0 2 1) || (bit g.w0 5 && s.linkUp (bits g.w0 4 3))

/-- A region's state changes: the event goes to its EVCORE (R373, R382). -/
def State.regionEvent (s : State) (r : Nat) : State := s.raiseExternal (bits (s.region r).w0 15 8) (0x1800 + r)

/-- The selector fields of `POOLSTAT`. -/
def State.selectPool (s : State) (q : Nat) (v : Word) : State :=
  s.modPriv q fun p => { p with poolWord := BitVec.ofNat 2 (bits v 61 60), poolRegion := BitVec.ofNat 10 (bits v 59 50) }

/-- A LOST region returns ONLINE on a port whose link is up, its counts cleared (R382). -/
def State.recoverRegion (s : State) (r : Nat) : State :=
  let up := s.linkUp (s.region r).serving
  (s.modRegion r fun g => { g with st := .online, onAlt := if up then g.onAlt else !g.onAlt, lostcnt := 0, first := 0 }).regionEvent r

/-- `wrpr POOLSTAT` (R381, R382). -/
def poolstatWrite (i : Instr) (v : Word) (s : State) : Out :=
  onlyKernel i s <|
    let q := s.cur.core
    let r := bits v 59 50
    let g := s.region r
    if bit v 48 && g.valid && g.st == .lost then
      if g.stranded = [] ∧ s.regionLinkUp g then .next (((s.retire s.cur i).recoverRegion r).selectPool q v) else operand s v
    else .next ((s.retire s.cur i).selectPool q v)

/-- RECOVER: `POOLSTAT` written with bit 48 (R382). -/
def execRecover (a : BitVec 5) (s : State) : Out := poolstatWrite (.recover a) (s.rg a) s

/-! ### Registers without an effect of their own -/

/-- `CORETAB` and `CTXIMG` with their reserved bits zero (R312). -/
def coretabWord (v : Word) : Word := field (bits v 51 9) 9 + field (bits v 7 0) 0

def ctximgWord (v : Word) : Word := field (bits v 63 12) 12 + flagAt (bit v 0) 0

/-- `TRAPCAUSE` with its reserved bits zero. -/
def trapcauseWord (v : Word) : Word := field (bits v 16 0) 0

/-- A write of a privileged register of a core that has no further effect (R312, R313, R370). -/
def Priv.write (p : Priv) (n : Nat) (v : Word) : Priv :=
  let fw := p.status.pl == .firmware
  if n = 0x101 then { p with trapvec := lineBase v }
  else if n = 0x102 then
    if fw then { p with fw := { p.fw with trapcause := trapcauseWord v } } else { p with trapcause := trapcauseWord v }
  else if n = 0x103 then if fw then { p with fw := { p.fw with trappc := v } } else { p with trappc := v }
  else if n = 0x104 then if fw then { p with fw := { p.fw with trapval := v } } else { p with trapval := v }
  else if n = 0x105 then { p with trapscratch := v }
  else if n = 0x10A then { p with coretab := coretabWord v }
  else if n = 0x10B then { p with ctximg := ctximgWord v }
  else if n = 0x10F then { p with estatic := v.setWidth 16 }
  else if 0x120 ≤ n ∧ n ≤ 0x12F then { p with eweight := Store.put p.eweight 0 (n - 0x120) (v.setWidth 16) }
  else p

/-- The write of a register of a core, the user bank included (R309). -/
def State.writePriv (s : State) (q n : Nat) (v : Word) : State :=
  if 0x130 ≤ n ∧ n ≤ 0x137 then s.modThr q fun t => { t with g := Store.put t.g 0 (n - 0x130 + 24) v }
  else s.modPriv q fun p => p.write n v

/-- `wrpr` of a register without an effect of its own, and of `STATUS` and `POOLSTAT` (R313, R324). -/
def execWrpr (a : BitVec 5) (n : BitVec 12) (s : State) : Out :=
  let i : Instr := .wrpr a n
  let v := s.rg a
  if n = 0x100 then statusWrite i v s
  else if n = 0x112 then poolstatWrite i v s
  else onlyKernel i s <|
    if n = 0x101 ∧ !canonical v then operand s v else .next ((s.retire s.cur i).writePriv s.cur.core n.toNat v)

/-! ### Registers with a row of their own -/

/-- `DOMAIN`: refused while a sprig is RUNNING or WAITING (R313). -/
def execDomainWrite (a : BitVec 5) (s : State) : Out :=
  let i : Instr := .domainWrite a
  let v := s.rg a
  let q := s.cur.core
  onlyKernel i s <|
    if (List.range (s.core q).arr.n).any fun k => (s.sprig q k).st = .running || (s.sprig q k).st = .waiting then operand s v
    else .next ((s.retire s.cur i).modPriv q fun p => { p with domain := v.setWidth 14 })

/-- Position `c` of a `PRESSBIND` value. -/
def bindOf (v : BitVec 8) (c : Nat) : Nat := v.toNat / 4 ^ c % 4

/-- A core's tiles at a change of binding to or from none: z and c start at zero (R313). -/
def State.clearTiles (s : State) (q : Nat) : State :=
  s.modCore q fun c => { c with
    til := { c.til with z := [], c := [] }
    dirty := { c.dirty with z := BitVec.allOnes 8, c := BitVec.allOnes 4 } }

/-- A core's registers leave a press: their tiles return to its pool (R13). -/
def Press.leave (x : Press) (c : Nat) : Press :=
  let z := (List.range 8).map (tileKey true c)
  let k := (List.range 4).map (tileKey false c)
  { x with
    zfree := x.zfree ++ z.map fun j => Store.get x.zmap 0 j
    cfree := x.cfree ++ k.map fun j => Store.get x.cmap 0 j
    zmap := x.zmap.filter fun e => !z.contains e.1
    cmap := x.cmap.filter fun e => !k.contains e.1 }

/-- A core's registers come to a press: they take tiles of its pool (R13). -/
def Press.join (x : Press) (c : Nat) : Press :=
  { x with
    zmap := ((List.range 8).zip x.zfree).foldl (fun m e => Store.ins m (tileKey true c e.1) e.2) x.zmap
    cmap := ((List.range 4).zip x.cfree).foldl (fun m e => Store.ins m (tileKey false c e.1) e.2) x.cmap
    zfree := x.zfree.drop 8
    cfree := x.cfree.drop 4 }

/-- A press as its cores change: those that leave, then those that come, with tiles for each; none while older commands of its other cores
still hold the pool (R13, R32). Its pointers and deficits stay (log 32). -/
def Press.rebind (x : Press) (out come : List Nat) : Option Press :=
  let x := out.foldl Press.leave x
  if 8 * come.length ≤ x.zfree.length ∧ 4 * come.length ≤ x.cfree.length then some (come.foldl Press.join x) else none

/-- `PRESSBIND` (R312, R313): the refusals, the wait for the changed cores' tile queues, and the move of their tiles. -/
def execPressbindWrite (a : BitVec 5) (s : State) : Out :=
  let i : Instr := .pressbindWrite a
  let v := s.rg a
  let b : BitVec 8 := v.setWidth 8
  let w := vatOf s.cur.core
  let old := (s.vat w).pressbind
  let four := [0, 1, 2, 3]
  let changed := four.filter fun c => bindOf b c ≠ bindOf old c
  onlyKernel i s <|
    if (four.any fun c => bindOf b c = 2) || 3 < (four.filter fun c => bindOf b c = 0).length ||
        3 < (four.filter fun c => bindOf b c = 1).length then operand s v
    else if changed.any fun c => four.any fun j => s.lentSet (4 * w + c) j ≠ 0 then operand s v
    else if changed.any fun c => (s.core (4 * w + c)).til.queue ≠ [] then stall s
    else
      let moved (p : Nat) : Option Press := (s.press w p).rebind (changed.filter fun c => bindOf old c = p) (changed.filter fun c => bindOf b c = p)
      match moved 0, moved 1 with
      | some x, some y =>
        let s := (s.retire s.cur i).modVat w fun t => { t with pressbind := b, press0 := x, press1 := y }
        .next ((changed.filter fun c => bindOf b c = 3 || bindOf old c = 3).foldl (fun s c => s.clearTiles (4 * w + c)) s)
      | _, _ => stall s

/-- `IPIPEND`: the head entry goes, and OVF where bit 62 is 1 (R313). -/
def execIpipendWrite (a : BitVec 5) (s : State) : Out :=
  let i : Instr := .ipipendWrite a
  let v := s.rg a
  onlyKernel i s <| .next ((s.retire s.cur i).modPriv s.cur.core fun p =>
    { p with ipi := p.ipi.drop 1, ipiOvf := p.ipiOvf && !bit v 62 })

/-- `TIMECMP` (R313): TIMER is pending by the comparison with the time base. -/
def execTimecmpWrite (a : BitVec 5) (s : State) : Out :=
  let i : Instr := .timecmpWrite a
  let v := s.rg a
  onlyKernel i s <| .next ((s.retire s.cur i).modPriv s.cur.core fun p => { p with timecmp := v })

/-- `BARCFG` with its reserved bits zero (R312). -/
def barcfgWord (v : Word) : Word := field (bits v 15 8) 8 + field (bits v 3 0) 0

/-- Membership changed: arrivals of cores that left go, and a barrier whose members have all arrived completes (R314). -/
def State.recheckBarriers (s : State) : State :=
  let s := { s with arrivals := s.arrivals.filter fun r => bit (s.priv r.core).barcfg r.level }
  s.arrivals.foldl (fun s r => s.barrierCheck r.core r.level) s

/-- Write `BARCFG` (R314). -/
def State.setBarcfg (s : State) (q : Nat) (v : Word) : State :=
  (s.modPriv q fun p => { p with barcfg := barcfgWord v }).recheckBarriers

def execBarcfgWrite (a : BitVec 5) (s : State) : Out :=
  let i : Instr := .barcfgWrite a
  let v := s.rg a
  onlyKernel i s <| .next ((s.retire s.cur i).setBarcfg s.cur.core v)

/-- `PTROOT`, which completes as an `xlinv.all` (R339). -/
def execPtrootWrite (a : BitVec 5) (s : State) : Out :=
  let i : Instr := .ptrootWrite a
  let v := s.rg a
  onlyKernel i s <| xlinvWait s fun s =>
    let p := s.partOf s.cur.core
    .next (((s.retire s.cur i).modPart p fun t => { t with ptroot := field (bits v 51 12) 12 + flagAt (bit v 0) 0 }).sweepAll p)

/-- `PROTROOT`, which completes as a `plbinv.all` (R339). -/
def execProtrootWrite (a : BitVec 5) (s : State) : Out :=
  let i : Instr := .protrootWrite a
  let v := s.rg a
  onlyKernel i s <| plbWait s (fun _ => true) fun s =>
    let p := s.partOf s.cur.core
    .next (((s.retire s.cur i).modPart p fun t => { t with protroot := field (bits v 51 18) 18 + flagAt (bit v 0) 0 }).dropPlb p
      fun _ => true)

/-- `DESCBASE` (R339). -/
def execDescbaseWrite (a : BitVec 5) (s : State) : Out :=
  let i : Instr := .descbaseWrite a
  let v := s.rg a
  onlyKernel i s <| .next ((s.retire s.cur i).modPart (s.partOf s.cur.core) fun t =>
    { t with descbase := field (bits v 51 22) 22 + flagAt (bit v 0) 0 })

/-- `WSHARE`: every deficit counter of both presses becomes 0 (R356). -/
def execWshareWrite (a : BitVec 5) (s : State) : Out :=
  let i : Instr := .wshareWrite a
  let v := s.rg a
  onlyKernel i s <| .next ((s.retire s.cur i).modVat (vatOf s.cur.core) fun t =>
    { t with wshare := v.setWidth 16, press0 := { t.press0 with d := [] }, press1 := { t.press1 with d := [] } })

/-- `FDUTY` fields as a write leaves them (R362). -/
def Duty.write (d : Duty) (v : Word) : Duty :=
  { d with
    evlimit := d.evlimit && !bit v 31, evwear := d.evwear && !bit v 30, evrestore := d.evrestore && !bit v 29
    evthrottle := d.evthrottle && !bit v 28, freq := BitVec.ofNat 4 (bits v 15 12), cap := bits v 4 0 }

/-- `FDUTY` (R362, R363): FREQ above 10 and CAP outside 1 to 16 are forbidden. -/
def execFdutyWrite (a : BitVec 5) (s : State) : Out :=
  let i : Instr := .fdutyWrite a
  let v := s.rg a
  onlyKernel i s <|
    if 10 < bits v 15 12 ∨ bits v 4 0 = 0 ∨ 16 < bits v 4 0 then operand s v
    else .next ((s.retire s.cur i).modPriv s.cur.core fun p => { p with duty := p.duty.write v })

end Sys2Proof.Machine
end

