-- ==== Sys2Proof/Machine/Trapping.lean ====
section
/-! DEFINITION. Return from the kernel (R320), the boundary events TRAP_ENTRY and TIMER (R317), the core table (R312), `ipi` (R325)
and `descw` (R353). -/

namespace Sys2Proof.Machine

/-! ### `tret` (R320) -/

/-- The level `tret` returns to. -/
def Priv.returnLevel (p : Priv) : Level :=
  if (if p.status.pl = .firmware then p.fw.pplKernel else p.status.pplKernel) then .kernel else .user

/-- What `tret` makes of the status; firmware returns by its own copies (R310). -/
def Priv.leave (p : Priv) : Priv :=
  let l := p.returnLevel
  if p.status.pl = .firmware then { p with status := { p.status with pl := l, ie := p.fw.pie }, fw := { p.fw with nest := false } }
  else { p with status := { p.status with pl := l, ie := p.status.pie, nest := false } }

/-- Return from the kernel (R320); held sprigs resume on a return to user privilege. -/
def execTret (s : State) : Out :=
  onlyKernel .tret s <|
    let q := s.cur.core
    let p := s.priv q
    let t := if p.status.pl = .firmware then p.fw.trappc else p.trappc
    if !canonical t then raise s cXLATE 0 t
    else if !isHeadAddr t.toNat then raise s cALIGN 0 t
    else
      let u := (s.retireTo s.cur .tret t false).modPriv q Priv.leave
      .next (if p.returnLevel = .user then u.releaseSprigs q else u)

/-! ### Events of a boundary -/

/-- TRAP_ENTRY: the first pending event of a thread's boundary is taken, once started tile commands have retired (R317, R318). -/
def State.boundary (s : State) (q : Nat) : State :=
  match (s.thr q).run with
  | .off | .halted | .lost => s
  | .idle _ => if s.anyPending q then (s.restartClock (vatOf q)).wakeIdle q else s
  | .running =>
    match s.pendingEvent q with
    | none => s
    | some e => if (s.core q).til.queue.any fun t => t.started then s.tileRetire q else s.takeEvent q e

def execTrapEntry (core : Nat) (s : State) : Out := .next (s.boundary core)

/-- TIMER: the time base has reached `TIMECMP` (R312): an `idle` ends, and a stopped clock restarts (R141, R367). -/
def execTimer (core : Nat) (s : State) : Out :=
  .next (if (s.priv core).timecmp.toNat ≤ s.time then (s.restartClock (vatOf core)).wakeIdle core else s)

/-! ### The core table (R15, R312, R385) -/

/-- What naming a logical core gives. -/
inductive Named where
  | core (q : Nat)
  | unmapped
  | trap (code detail : Nat) (val : Word)
  | later
  deriving DecidableEq, Repr

/-- The location of an entry of a core's table. -/
def State.coreEntry (s : State) (q l : Nat) : Nat := bits (s.priv q).coretab 51 9 * 512 + 2 * l

/-- A line of HBM of this package lies in a granule of another partition (R385). -/
def State.foreignHbm (s : State) (p l : Nat) : Bool :=
  isHbm l && pkgOfLoc l == s.pkg && Store.get s.granPart 0 (l / 2 ^ 30) != p

/-- Read the entry of logical core `l` (R312); a table or a core of another partition takes XLATE detail 6 (R385). -/
def State.named (s : State) (a : AgentId) (l : Nat) (val : Word) : Named :=
  let at_ := s.coreEntry a.core l
  if !s.imageHbm at_ then .unmapped
  else if s.foreignHbm (s.partOf a.core) at_ then .trap cXLATE 6 val
  else if s.blocked a (at_ / 64) || s.ownedLoc a at_ then .later
  else if s.ueAt at_ 2 then .trap cMEMERR 0 (BitVec.ofNat 64 at_)
  else
    let e := s.rdN at_ 2
    if !tst e 15 ∨ nbits e 14 8 ≠ 0 then .unmapped
    else if s.partOf (e % 256) ≠ s.partOf a.core then .trap cXLATE 6 val
    else .core (e % 256)

/-- Name a logical core by a register's value, after every older store of the core (R15, R150, R312). -/
def namedCore (s : State) (v : Word) (k : State → Nat → Out) : Out :=
  if 255 < v.toNat then operand s v
  else coreDrained s fun s =>
    match s.named s.cur v.toNat v with
    | .core q => k s q
    | .unmapped => operand s v
    | .trap c d x => raise s c d x
    | .later => stall s

/-! ### `ipi` (R325) -/

/-- An IPI arrives at a core's queue, or sets OVF on a full one. -/
def State.sendIpi (s : State) (t : Nat) (src : BitVec 8) (payload : BitVec 48) : State :=
  s.modPriv t fun p =>
    if 16 ≤ p.ipi.length then { p with ipiOvf := true } else { p with ipi := p.ipi ++ [(src, payload)] }

/-- Send an interrupt to a logical core (R325). -/
def execIpi (b c : BitVec 5) (s : State) : Out :=
  let i : Instr := .ipi b c
  onlyKernel i s <|
    namedCore s (s.rg b) fun s t =>
      releaseAt s .pkg fun s =>
        finish i (s.sendIpi t ((s.priv s.cur.core).coretab.setWidth 8) ((s.rg c).setWidth 48))

/-! ### `descw` (R353) -/

/-- Copy 64 bytes into a descriptor table entry (R353). -/
def execDescw (b c : BitVec 5) (s : State) : Out :=
  let i : Instr := .descw b c
  let idx := s.rg b
  let src := s.rg c
  onlyKernel i s <|
    let p := s.partOf s.cur.core
    if 65535 < idx.toNat then operand s idx
    else if !bit (s.part p).descbase 0 then operand s 0
    else loadScalar s src 64 false fun s v =>
      match descFault (BitVec.ofNat 512 v) with
      | some o => operand s (src + BitVec.ofNat 64 o)
      | none =>
        let l := s.descLoc p idx.toNat
        if !s.imageHbm l then raise s cXLATE 12 (sysAddr l)
        else drained s fun s =>
          if s.blocked s.cur (l / 64) || s.ownedLoc s.cur l then stall s
          else finish i (s.accept ⟨false, false, (sysAddr l).toNat / 64, cellsOf l 64 v, false⟩)

end Sys2Proof.Machine
end

