-- ==== Sys2Proof/Machine/Power.lean ====
section
/-! DEFINITION. Time: static charges (R371), limits that fall due (R38, R141, R220), `CYCLE` (R364). Power: the budget tree and duty
(R361, R363), operating points and wear (R364, R365), clock stop and retention (R331, R367). -/

namespace Sys2Proof.Machine

/-! ### Time passes -/

/-- The crossings of 125 ns not yet charged are charged to every resident context (R368, R371). -/
def State.settle (s : State) : State :=
  let n := s.time / 125 - s.statics
  if n = 0 then s
  else
    let s := { s with statics := s.time / 125 }
    { s with cores := Store.mapV (fun _ c =>
        if c.resident then { c with thr := chargeUnits c.thr (n * c.priv.estatic.toNat * 8192) } else c) s.cores }

/-- STATIC_CHARGE (R371). -/
def execStaticCharge (s : State) : Out := .next s.settle

/-- `CYCLE` of every resident context counts the clock of its vat up to time `t` (R56, R364). -/
def State.countCycles (s : State) (t : Nat) : State :=
  { s with cores := Store.mapV (fun q c =>
      let v := s.vat (vatOf q)
      if c.resident && !v.stopped then
        { c with thr := { c.thr with cycle := c.thr.cycle + BitVec.ofNat 64 (t * v.mhz / 1000 - s.time * v.mhz / 1000) } }
      else c) s.cores }

/-- The latest time after its limit at which a wait is withdrawn, in ns (R38). A schedule may have it withdrawn earlier, from the limit on,
by WAIT_WITHDRAWAL, and a grant may come before it (log 40). -/
def withdrawalSlack : Nat := 32

/-- When the wait of an agent must be withdrawn, its holds and its idle end. -/
def State.agentDeadlines (s : State) (a : AgentId) : List Nat :=
  (match (s.ag a).wait with
    | some w => if w.limit = 0 then [] else [w.since + w.limit + withdrawalSlack]
    | none => []) ++
  ((s.heldLines a true).filterMap fun l => (Store.find? s.res l).map fun e => e.granted + holdLimitNs)

/-- When the idle of a core ends, and its copy commands wait no longer. -/
def State.coreDeadlines (s : State) (q : Nat) : List Nat :=
  (match (s.thr q).run with
    | .idle since => (s.priv q).timecmp.toNat :: if (s.thr q).waitlim = 0 then [] else [since + (s.thr q).waitlim.toNat]
    | .off | .running | .halted | .lost => []) ++
  ((s.core q).cpy.cmds.filter fun m => m.stage = .waiting).map fun m => m.since + m.bound

/-- The end of a watchdog that nothing has confirmed (R390). -/
def Caltik.deadline (k : Caltik) : Option Nat := if k.confirmed then none else k.watchdog

/-- The next epoch boundary (R361). -/
def State.epochEnd (s : State) : Nat := (s.epochs + 1) * 10000

/-- The time by which the changes of point that the last boundary began are complete: 2 µs after it (R364). -/
def State.pointsDue (s : State) : Nat := s.epochs * 10000 + 2000

/-- The first time after now at which something falls due. -/
def State.nextDeadline (s : State) : Option Nat :=
  ((s.allAgents.flatMap s.agentDeadlines ++ (s.cores.flatMap fun e => s.coreDeadlines e.1) ++ s.caltik.deadline.toList ++
    [s.pointsDue, s.epochEnd]).filter fun t => s.time < t).min?

/-- A watchdog has ended and the package is to be reset: no time passes before FW_WATCHDOG_EXPIRY (R390; log 16). -/
def State.rollbackDue (s : State) : Bool :=
  match s.caltik.deadline with
  | some d => d ≤ s.time
  | none => false

/-- The time base stands at an epoch boundary whose reallocation has not been made: no time passes before POWER_EPOCH, whose measured
energies are an input (R361; log 36). -/
def State.epochDue (s : State) : Bool := s.epochEnd ≤ s.time

/-- A vat's change of point, if one is in progress, completes (R364). -/
def State.pointChange (s : State) (vat : Nat) : State :=
  match (s.vat vat).next with
  | some p => s.modVat vat fun v => { v with opnow := p, next := none }
  | none => s

/-- What has fallen due: holds of 4,096 ns end, waits are withdrawn, copy commands wait no longer, idles end, changes of point complete
(R38, R141, R220, R236, R364); a wait still there is withdrawn at the end of R38's window (log 40). -/
def State.falldue (s : State) : State :=
  let s := if s.pointsDue ≤ s.time then (List.range 64).foldl State.pointChange s else s
  let s := s.allAgents.foldl State.expireHolds s
  let s := s.allAgents.foldl (fun s a => if s.withdrawalDue a withdrawalSlack then s.withdrawAtLimit a else s) s
  let s := s.cores.foldl (fun s e => e.2.cpy.cmds.foldl (fun s m => s.copyWaitLimit e.1 m.id) s) s
  (s.cores.map fun e => e.1).foldl (fun s q => if s.idleDue q then (s.restartClock (vatOf q)).wakeIdle q else s) s

/-- The time becomes `t`. -/
def State.passTo (s : State) (t : Nat) : State := (State.settle { s.countCycles t with time := t }).falldue

/-- `n` ns pass, but no more than to the first time at which something falls due; what is left of them passes after. -/
def State.pass (s : State) (n : Nat) : State :=
  if s.rollbackDue || s.epochDue then s
  else match s.nextDeadline with
  | some t => if t < s.time + n then State.passTo { s with sched := .pass (s.time + n - t) :: s.sched } t else s.passTo (s.time + n)
  | none => s.passTo (s.time + n)

/-! ### The budget tree (R361) -/

/-- A core is halted, in any way. -/
def State.haltedCore (s : State) (q : Nat) : Bool :=
  match (s.thr q).run with
  | .off | .halted | .lost => true
  | .running | .idle _ => false

/-- `Demand(core)` in W: the energy of the last epoch in nJ at full duty, over 10 us. -/
def State.coreDemand (s : State) (m : PowerMeas) (q : Nat) : Rat :=
  if s.haltedCore q || (s.vat (vatOf q)).stopped then 0
  else (m.coreEnergy.getD q 0 : Rat) * 16 / (s.priv q).duty.applied / 10000

/-- Sum of demands. -/
def sumRat (ds : List Rat) : Rat := ds.foldl (· + ·) 0

/-- A child's grant out of `rest`. -/
def shareOf (rest : Rat) (ds : List Rat) (d : Rat) : Rat :=
  if sumRat ds = 0 then rest / ds.length else rest * d / sumRat ds

/-- `max(0, G - own)`. -/
def restOf (g own : Rat) : Rat := if own ≤ g then g - own else 0

/-- The cores of a vat. -/
def vatCores (v : Nat) : List Nat := (List.range 4).map fun c => 4 * v + c

/-- The vats of a die. -/
def dieVats (d : Nat) : List Nat := (List.range 16).map fun v => 16 * d + v

def State.vatDemand (s : State) (m : PowerMeas) (v : Nat) : Rat :=
  (m.vatOwn.getD v 0 : Rat) + sumRat ((vatCores v).map (s.coreDemand m))

def State.dieDemand (s : State) (m : PowerMeas) (d : Nat) : Rat :=
  (m.dieOwn.getD d 0 : Rat) + sumRat ((dieVats d).map (s.vatDemand m))

/-- The grant of a die, a vat, a core. -/
def State.dieGrant (s : State) (m : PowerMeas) (d : Nat) : Rat :=
  shareOf (restOf s.budget m.pkgOwn) ((List.range 4).map (s.dieDemand m)) (s.dieDemand m d)

def State.vatGrant (s : State) (m : PowerMeas) (v : Nat) : Rat :=
  let d := v / 16
  shareOf (restOf (s.dieGrant m d) (m.dieOwn.getD d 0 : Rat)) ((dieVats d).map (s.vatDemand m)) (s.vatDemand m v)

def State.coreGrant (s : State) (m : PowerMeas) (q : Nat) : Rat :=
  let v := vatOf q
  shareOf (restOf (s.vatGrant m v) (m.vatOwn.getD v 0 : Rat)) ((vatCores v).map (s.coreDemand m)) (s.coreDemand m q)

/-! ### Duty, points and wear (R363 to R365) -/

/-- The tree duty (R363). -/
def treeDuty (g d : Rat) : Nat := if d ≤ g then 16 else max 1 (16 * g / d).floor.toNat

/-- `SetDuty` (R363). -/
def Duty.setTree (x : Duty) (t : Nat) : Duty :=
  { x with
    tree := t
    evthrottle := x.evthrottle || (decide (t < 16) && decide (x.tree = 16))
    evrestore := x.evrestore || (decide (t = 16) && decide (x.tree < 16)) }

/-- Set a core's tree duty; a core at reset that keeps its duty stays unlisted. -/
def State.setDuty (s : State) (q t : Nat) : State :=
  let d := (s.priv q).duty
  if d.setTree t = d then s else s.modPriv q fun p => { p with duty := p.duty.setTree t }

/-- The stress of an epoch at a point (R365). -/
def stress (op : Nat) (hot : Bool) : Nat :=
  let x := if op ≤ 5 then 0 else if op ≤ 8 then 1 else 2
  if hot then 2 * x else x

/-- `CEIL` by the wear count (R365). -/
def ceilOf (wear : Nat) : Nat := 10 - min 10 (wear / 2 ^ 40)

/-- The highest FREQ of a vat's cores. -/
def State.maxFreq (s : State) (v : Nat) : Nat := (vatCores v).foldl (fun f q => max f (s.priv q).duty.freq.toNat) 0

/-- A vat at an epoch: wear for the epoch that ends, the ceiling, the point for the next (R364, R365). -/
def State.vatEpoch (s : State) (m : PowerMeas) (v : Nat) (low : Bool) : State :=
  let x := s.vat v
  let wear := x.wear + stress x.opnow (m.hotDies.contains (v / 16))
  let p := if low then 0 else min (s.maxFreq v) x.ceilNext
  let y := { x with
    wear := wear, ceil := x.ceilNext, ceilNext := min x.ceilNext (ceilOf wear), next := if p = x.opnow then none else some p }
  let s := if y = x then s else s.modVat v fun _ => y
  if y.ceilNext < x.ceilNext then
    (vatCores v).foldl (fun s q => s.modPriv q fun p => { p with duty := { p.duty with evwear := true } }) s
  else s

/-- POWER_EPOCH: at each multiple of 10,000 ns the tree reallocates, once (R361 to R365). -/
def State.powerEpoch (s : State) (m : PowerMeas) : State :=
  if s.time < (s.epochs + 1) * 10000 then s
  else
    let duties := (List.range 256).map fun q => (q, treeDuty (s.coreGrant m q) (s.coreDemand m q))
    let lows := (List.range 64).map fun v => (v, decide (s.vatGrant m v < s.vatDemand m v))
    let s := duties.foldl (fun s e => s.setDuty e.1 e.2) s
    let s := lows.foldl (fun s e => s.vatEpoch m e.1 e.2) s
    { s with epochs := s.epochs + 1 }

def execPowerEpoch (m : PowerMeas) (s : State) : Out := .next (s.powerEpoch m)

/-- OPERATING_POINT_CHANGE: a vat's change of point completes (R364), before its 2 µs are over. -/
def execOperatingPointChange (vat : Nat) (s : State) : Out := .next (s.pointChange vat)

/-! ### Clock stop and retention (R331, R367) -/

/-- The conditions of R367 on one core. -/
def State.coreQuiet (s : State) (q : Nat) : Bool :=
  (match (s.thr q).run with
    | .running => false
    | .off | .idle _ | .halted | .lost => true) &&
  ((List.range (s.core q).arr.n).all fun i => (s.sprig q i).st != .running && (s.sprig q i).st != .waiting) &&
  (s.core q).til.queue == [] && (s.core q).cpy.cmds == []

/-- VAT_CLOCK_STOP (R367). -/
def execVatClockStop (vat : Nat) (s : State) : Out :=
  .next (if (vatCores vat).all s.coreQuiet then s.modVat vat fun v => { v with stopped := true } else s)

/-- A vat that lost its retained state: its registers are at reset; its point, ceiling and wear are kept outside (R331, R364, R365). -/
def Vat.lost (v : Vat) : Vat :=
  { Vat.reset with opnow := v.opnow, next := v.next, ceil := v.ceil, wear := v.wear, ceilNext := v.ceilNext, stopped := v.stopped }

/-- RETENTION_EXIT: a vat whose clock is stopped leaves retention, or loses its contexts and registers (R330, R331). -/
def State.retentionExit (s : State) (v : Nat) (parityOk : Bool) : State :=
  if !(s.vat v).stopped then s
  else if parityOk then s.restartClock v
  else
    let s := (vatCores v).foldl (fun s q => s.modCore q fun c => { c with thr := { c.thr with run := .lost }, resident := false }) s
    (s.modVat v Vat.lost).deliverMCheck (4 * v) (some v) 2 (BitVec.ofNat 64 v)

def execRetentionExit (vat : Nat) (parityOk : Bool) (s : State) : Out := .next (s.retentionExit vat parityOk)

/-- The position of a core in its partition, ascending (R393). -/
def State.positionOf (s : State) (q : Nat) : Nat := ((List.range q).filter fun k => s.partOf k = s.partOf q).length

/-- A core starts at an entry at kernel privilege, with `CORETAB.SELF` as given and every other register at its reset value (R393, R394). -/
def State.startCore (s : State) (q : Nat) (entry : Word) (self : Nat) : State :=
  let c := CoreSt.reset
  s.setCore q { c with
    thr := { c.thr with pc := entry, run := .running }
    priv := { c.priv with coretab := BitVec.ofNat 64 (self % 256) } }

/-- CORE_RESTART: a core lost by RETENTION_LOST begins at the restart entry, its registers at reset; with none set it stays halted (R331,
R394). -/
def execCoreRestart (core : Nat) (s : State) : Out :=
  .next <| match (s.thr core).run, (s.part (s.partOf core)).restart with
    | .lost, some e => (s.restartClock (vatOf core)).startCore core e 0
    | _, _ => s

end Sys2Proof.Machine
end

