-- ==== Sys2Proof/Machine/Boot.lean ====
section
/-! DEFINITION. Start-up of the package (R252, R385, R393): the partition map, the boot images, the initial page tables. -/

namespace Sys2Proof.Machine

/-! ### The partition map (R385) -/

/-- Every number of a list gets a value. -/
def assign (m : Store Nat) (ks : List Nat) (v : Nat) : Store Nat := ks.foldl (fun m k => Store.put m 0 k v) m

/-- The map gives vats, granules and ports to partitions 0, 1 and so on (R385); those that it does not name stay where they were (log 5). -/
def State.applyMap (s : State) : Nat → List PartBoot → State
  | _, [] => s
  | p, b :: bs =>
    State.applyMap { s with
      vatPart := assign s.vatPart b.vats p
      granPart := assign s.granPart b.granules p
      portPart := assign s.portPart b.ports p
      parts := Store.ins s.parts p Part.reset } (p + 1) bs

/-- A list names something twice. -/
def repeats : List Nat → Bool
  | [] => false
  | x :: xs => xs.contains x || repeats xs

/-- A map of whole vats, granules and ports, each in one partition; a larger system image forms one partition (R374, R385). -/
def State.mapOk (s : State) (bs : List PartBoot) : Bool :=
  let vs := bs.flatMap fun b => b.vats
  let gs := bs.flatMap fun b => b.granules
  let ps := bs.flatMap fun b => b.ports
  bs.length ≤ 4 && (s.present.length ≤ 1 || bs.length ≤ 1) && !repeats vs && !repeats gs && !repeats ps &&
    (vs.all fun v => v < 64) && (ps.all fun p => p < 4)

/-! ### The initial page table (R340, R342, R393) -/

/-- An 8-byte entry in memory. -/
def putWord (m : List Host.Cell) (l v : Nat) : List Host.Cell := Memory.writeCells m (cellsOf l 8 v)

/-- The entries that map one 2 MiB page at `a` to a frame, in a table whose first page is at `va`: the root at `t`, then two nodes of
each of levels 3 and 2, then the nodes of level 1, one for each GiB that the image reaches. -/
def bootPage (m : List Host.Cell) (t va a frame : Nat) : List Host.Cell :=
  let n3 := t + 0x1000 * (1 + (a / 2 ^ 48 - va / 2 ^ 48))
  let n2 := t + 0x1000 * (3 + (a / 2 ^ 39 - va / 2 ^ 39))
  let n1 := t + 0x1000 * (5 + (a / 2 ^ 30 - va / 2 ^ 30))
  let m := putWord m (t + 8 * (a / 2 ^ 48 % 256)) (n3 + 1)
  let m := putWord m (n3 + 8 * (a / 2 ^ 39 % 512)) (n2 + 1)
  let m := putWord m (n2 + 8 * (a / 2 ^ 30 % 512)) (n1 + 1)
  putWord m (n1 + 8 * (a / 2 ^ 21 % 512)) (frame + 3)

/-- A table at `t` maps `n` pages of 2 MiB from `va` to frames from `frame`, with attribute record 0 homing them on core `q`. -/
def bootTable (m : List Host.Cell) (t va frame n q : Nat) : List Host.Cell :=
  let m := putWord m (t + 2048) (1 + 256 * q)
  (List.range n).foldl (fun m k => bootPage m t va ((va / 2 ^ 21 + k) * 2 ^ 21) ((frame / 2 ^ 21 + k) * 2 ^ 21)) m

/-- The cores of a partition, ascending (R385). -/
def State.coresOf (s : State) (p : Nat) : List Nat := (List.range 256).filter fun q => s.partOf q = p

/-- Steps 1 to 3 of R393 for partition `p`: a boot image that fails its verification starts nothing. The image stands in its frame at the
offset that its virtual address has in its page; every core of the partition starts. -/
def State.bootPart (s : State) (p : Nat) (b : PartBoot) : State :=
  if !Config.freeVerifies b.image then s
  else
    let q := (s.coresOf p).headD 0
    let va := va56 b.va
    let n := (va % 2 ^ 21 + b.image.length + 2 ^ 21 - 1) / 2 ^ 21
    let frame := b.imageAt / 2 ^ 21 * 2 ^ 21
    let mem := Memory.writeCells s.mem (cellsOfBytes (frame + va % 2 ^ 21) b.image)
    let s := { s with mem := bootTable mem b.tableAt va frame n q }
    let s := s.modPart p fun t => { t with ptroot := field (b.tableAt / 2 ^ 12) 12 + 1 }
    (s.coresOf p).foldl (fun s q => s.startCore q b.entry (s.positionOf q)) s

/-- The partitions start, in order. -/
def State.bootParts (s : State) : Nat → List PartBoot → State
  | _, [] => s
  | p, b :: bs => State.bootParts (s.bootPart p b) (p + 1) bs

/-! ### Package reset -/

/-- A location outlives a reset of the package: pool memory and the HBM of other packages, of numbers other than its old and new one. -/
def State.outlives (s : State) (b : Startup) (l : Nat) : Bool :=
  isPool l || (isHbm l && pkgOfLoc l != s.pkg && pkgOfLoc l != b.pkg)

/-- What a reset leaves before any partition starts: HBM zero, registers at reset, the package's number and those of its image as Caltik
assigns them; Caltik's slots, fuses, log and limit, wear, Kerran links and the time base stay (R252, R365, R374, R390; log 2). -/
def State.resetKeep (s : State) (b : Startup) : State :=
  let s := (s.behind.map fun e => e.1).foldl State.discardLine s
  { State.reset with
    mem := s.mem.filter fun c => s.outlives b c.1
    fullBits := s.fullBits.filter fun e => s.outlives b (8 * e.1)
    ue := s.ue.filter fun e => s.outlives b (32 * e.1)
    vats := Store.mapV (fun _ v => { Vat.reset with wear := v.wear, ceil := ceilOf v.wear, ceilNext := ceilOf v.wear })
      (s.vats.filter fun e => e.2.wear ≠ 0)
    time := s.time, statics := s.time / 125, epochs := s.time / 10000
    pkg := b.pkg, present := b.present, kerranUp := s.kerranUp, budget := s.budget
    caltik := { s.caltik with feature := 0, negotiated := false, boots := [], busy := none, response := none, requester := 0 }
    sched := s.sched, cur := s.cur, fresh := s.fresh }

/-- The slot of a number. -/
def Caltik.slot (c : Caltik) (n : Nat) : FwSlot := if n = 0 then c.slot0 else c.slot1

/-- A slot as the boot finds it: one whose image's signature fails, or whose security version is below the fuses, is not valid (R390). -/
def FwSlot.verified (x : FwSlot) (m : FwImage) (minSec : Nat) : FwSlot :=
  { x with valid := x.valid && m.signed && decide (minSec ≤ x.secVersion) }

/-- Caltik verifies both slots again (R390). -/
def Caltik.verify (k : Caltik) : Caltik :=
  { k with slot0 := k.slot0.verified k.image0 k.minSec, slot1 := k.slot1.verified k.image1 k.minSec }

/-- Caltik boots its active slot, or the other if only that is valid; with none the package stays in reset (R390). A map that the package
cannot have starts no partition (R374, R385). -/
def State.packageReset (s : State) (b : Startup) : State :=
  let s := s.resetKeep b
  let k := s.caltik.verify
  let act := if (k.slot k.active).valid then k.active else 1 - k.active
  if !(k.slot act).valid then { s with caltik := k, heldInReset := true }
  else if !s.mapOk b.parts then { s with caltik := { k with active := act } }
  else
    let s := State.applyMap { s with caltik := { k with active := act, boots := b.parts.map fun p => p.image } } 0 b.parts
    s.bootParts 0 b.parts

/-- PACKAGE_RESET: power-on or reset (R393). -/
def execPackageReset (boot : Startup) (s : State) : Out := .next (s.packageReset boot)

end Sys2Proof.Machine
end

