-- ==== Sys2Proof/Machine/Caches.lean ====
section
/-! DEFINITION. What caches and lookaside buffers do at any moment (R247, R260, R338, R344; log 9, log 14), and the placing of an
instruction where the next step fetches it (log 2). -/

namespace Sys2Proof.Machine

/-- A protection lookaside buffer takes the region of a domain that holds an address; it holds 64 entries (R338). -/
def State.fillPlb (s : State) (q : Nat) (dom : BitVec 14) (va : Word) : State :=
  if !bit (s.part (s.partOf q)).protroot 0 then s
  else match s.tableRights ⟨q, .thread⟩ dom va with
    | .ok (some e) => s.modCore q fun c => { c with plb := e :: (c.plb.filter fun x => x ≠ e).take 63 }
    | .ok none | .error _ => s

/-- The entries of one translation cache. -/
def tcEntries : Nat := 8192

/-- A new entry of a die's translation cache; the oldest goes when the cache is full (R344). -/
def addTc (tc : List TcEntry) (e : TcEntry) : List TcEntry :=
  let tc := tc.filter fun x => x ≠ e
  e :: (tc.filter fun x => x.die ≠ e.die) ++ (tc.filter fun x => x.die = e.die).take (tcEntries - 1)

/-- A die's translation cache takes the page that holds an address, when the page is homed on that die, with the lines of the tables that
the walk read (R344). -/
def State.fillTc (s : State) (die part : Nat) (va : Word) : State :=
  let a : AgentId := ⟨4 * ((List.range 64).find? fun v => Store.get s.vatPart 0 v == part).getD 0, .thread⟩
  if s.partOf a.core ≠ part ∨ !canonical va ∨ inSysWindow va then s
  else match s.walkPage a va with
    | .error _ => s
    | .ok m =>
      if dieOf (recordHome va m.w0) ≠ die then s
      else { s with tc := addTc s.tc ⟨die, part, va56 va / m.size * m.size, m.size, BitVec.ofNat 64 m.leaf, BitVec.ofNat 64 m.w0,
        BitVec.ofNat 64 m.crbase, BitVec.ofNat 64 m.crlimit, BitVec.ofNat 64 m.shbase, s.tableLines part va m.leaf⟩ }

/-! ### Placing an instruction -/

/-- Opcodes that only a sprig executes (R85): they are placed in the block store. -/
def sprigOnly (h : BitVec 16) : Bool :=
  let op := h.toNat / 256
  (0x5E ≤ op && op ≤ 0x62) || (0x70 ≤ op && op ≤ 0x9C)

/-- A line where the thread of core 0 fetches next: at 0x20_0000, mapped to itself by a small table at 0x1_0000. -/
def State.placeLine (s : State) (l : BitVec 512) : State :=
  let mem := Memory.writeCells s.mem (cellsOf 0x200000 64 l.toNat)
  let s := { s with mem := bootTable mem 0x10000 0x200000 0x200000 1 0, tc := [], sched := [] }
  let s := s.modPart (s.partOf 0) fun t => { t with ptroot := 0x10001 }
  s.modThr 0 fun t => { t with pc := 0x200002, run := .running, ag := Agent.reset }

/-- A line where sprig 0 of core 0 fetches next: line 0 of the block store, with the array configured for it. -/
def State.placeBlock (s : State) (l : BitVec 512) : State :=
  let s := s.modCore 0 fun c => { c with arr := { c.arr with n := 1, r := 8, blk := Store.put c.arr.blk 0 0 l } }
  let s := s.modSprig 0 0 fun p => { p with st := .running, pc := 2, bstart := 0, ag := Agent.reset }
  { s with sched := [.agent ⟨0, .sprig 0⟩] }

/-- The line of one table word, placed for whoever may execute it. -/
def State.placeWord (s : State) (nbits w : Nat) : State :=
  let h := tableHead nbits w
  let l := lineOf h (tableTail nbits w)
  if sprigOnly h then s.placeBlock l else s.placeLine l

end Sys2Proof.Machine
end

