-- ==== Sys2Proof/Machine/Caltik.lean ====
section
/-! DEFINITION. Caltik's mailbox (R373, R387 to R391): one request at a time, the feature gate, and the commands. A payload whose
format the manual does not give is a free value (log 16). -/

namespace Sys2Proof.Machine

def okStatus : BitVec 8 := 0
def unsupportedStatus : BitVec 8 := 1
def badargStatus : BitVec 8 := 2
def busyStatus : BitVec 8 := 3
def authfailStatus : BitVec 8 := 4

/-- The features Caltik has: bits 0 to 7 (R388). -/
def ownFeatures : BitVec 128 := 0xFF

/-- What a command needs: nothing but a NEGOTIATE before it, or a feature bit too (R388). -/
def State.commandOk (s : State) (bit_ : Option Nat) : Bool :=
  s.caltik.negotiated && match bit_ with
    | some b => s.caltik.feature.getLsbD b
    | none => true

/-- The codes of the commands (Table 8 of chapter 18). -/
def cmdNegotiate : BitVec 8 := 0x01
def cmdSummary : BitVec 8 := 0x02
def cmdSetLimit : BitVec 8 := 0x10
def cmdPartition : BitVec 8 := 0x11
def cmdFwStage : BitVec 8 := 0x20
def cmdFwActivate : BitVec 8 := 0x21
def cmdFwConfirm : BitVec 8 := 0x22
def cmdSpdm : BitVec 8 := 0x30
def cmdLogRead : BitVec 8 := 0x40

/-- A response to a core, with its payload's length (R387). -/
def Response.of (core : Nat) (cmd st : BitVec 8) (tag : BitVec 32) (p : Payload) : Response :=
  ⟨core, cmd, st, BitVec.ofNat 16 p.toBytes.length, tag, p⟩

/-- Begin a request: a second one answers BUSY at once (R387); `k` gives the status, the payload and the state after the command. -/
def request (s : State) (cmd : BitVec 8) (tag : BitVec 32) (k : BitVec 8 × Payload × State) : Out :=
  match s.caltik.busy with
  | some _ =>
    .next (State.raiseExternal { s with caltik := { s.caltik with
      response := some (Response.of s.caltik.requester cmd busyStatus tag (.bytes [])) } } s.caltik.requester 0x1400)
  | none =>
    let t := k.2.2
    .next { t with caltik := { t.caltik with busy := some (Response.of s.caltik.requester cmd k.1 tag k.2.1) } }

/-- A status without a payload. -/
def plainStatus (st : BitVec 8) (s : State) : BitVec 8 × Payload × State := (st, .bytes [], s)

/-- A command behind the feature gate; a package held in reset answers none of them (R388, R390). -/
def gated (s : State) (cmd : BitVec 8) (tag : BitVec 32) (bit_ : Option Nat) (inReset : Bool) (k : BitVec 8 × Payload × State) : Out :=
  request s cmd tag (if !s.commandOk bit_ || (s.heldInReset && !inReset) then plainStatus unsupportedStatus s else k)

/-- MAILBOX_RESPONSE_READY: the response stands in the mailbox, and its source is raised on the core that wrote the request (R373, R387). -/
def execMailboxResponseReady (s : State) : Out :=
  .next <| match s.caltik.busy with
    | none => s
    | some r =>
      State.raiseExternal { s with caltik := { s.caltik with busy := none, response := some r, lastTag := r.tag } } r.core 0x1400

/-! ### NEGOTIATE, SUMMARY, SET_LIMIT, PARTITION, LOG_READ -/

/-- NEGOTIATE (R388). -/
def execNegotiate (tag : BitVec 32) (want : BitVec 128) (s : State) : Out :=
  let f := want &&& ownFeatures
  request s cmdNegotiate tag (okStatus, .bytes (leBytes 16 f.toNat), { s with caltik := { s.caltik with feature := f, negotiated := true } })

/-- The state of the device as Caltik holds it (R389). -/
def State.summaryOf (s : State) : Summary :=
  let k := s.caltik
  { feature := k.feature, slot0 := k.slot0, slot1 := k.slot1, active := k.active
    watchdogLeft := k.watchdog.map fun d => d - s.time
    rollback := k.rollback, budget := s.budget, vatPart := s.vatPart, granPart := s.granPart, portPart := s.portPart
    wear := (List.range 64).map fun v => ((s.vat v).ceilNext, (s.vat v).wear)
    kerranUp := s.kerranUp, hostLinks := (List.range 4).map fun j => (s.port j).link
    regions := (s.pool.filter fun e => e.2.valid).map fun e => (e.1, e.2.stateCode, e.2.lostcnt, e.2.first, e.2.stranded.length)
    logLength := k.log.length, lastTag := k.lastTag }

/-- SUMMARY changes nothing; before a NEGOTIATE it is always accepted (R388, R389). -/
def execSummary (tag : BitVec 32) (s : State) : Out :=
  request s cmdSummary tag
    (if s.caltik.negotiated && !s.caltik.feature.getLsbD 0 then plainStatus unsupportedStatus s
     else (okStatus, .summary s.summaryOf, s))

/-- The budget is set, and EVLIMIT on every core of the package (R361, R366). -/
def State.setBudget (s : State) (w : Nat) : State :=
  (List.range 256).foldl (fun s q => s.modPriv q fun p => { p with duty := { p.duty with evlimit := true } }) { s with budget := w }

/-- A limit that SET_LIMIT accepts. -/
def limitOk (w : Nat) : Bool := 1200 ≤ w && w ≤ 2400

/-- SET_LIMIT (R388). -/
def execSetLimit (tag : BitVec 32) (watts : Nat) (s : State) : Out :=
  gated s cmdSetLimit tag (some 3) false (if limitOk watts then plainStatus okStatus (s.setBudget watts) else plainStatus badargStatus s)

/-- A map affects a partition: it sets it, or takes a vat, a granule or a port from it (R385). -/
def State.mapTouches (s : State) (map : List PartBoot) (p : Nat) : Bool :=
  p < map.length || map.any fun b =>
    (b.vats.any fun v => Store.get s.vatPart 0 v == p) || (b.granules.any fun g => Store.get s.granPart 0 g == p) ||
      b.ports.any fun j => Store.get s.portPart 0 j == p

/-- Every core of the affected partitions is halted (R385). -/
def State.mapFree (s : State) (map : List PartBoot) : Bool :=
  s.cores.all fun e => s.haltedCore e.1 || !s.mapTouches map (s.partOf e.1)

/-- PARTITION: the map is set while the affected cores are halted, else refused as BADARG (R385). -/
def execPartition (tag : BitVec 32) (map : List PartBoot) (s : State) : Out :=
  gated s cmdPartition tag (some 4) false
    (if s.mapOk map && s.mapFree map then plainStatus okStatus (s.applyMap 0 map) else plainStatus badargStatus s)

/-- The entries of the log that one payload holds, 64 bytes each (R387, R392). -/
def logMax : Nat := payloadMax / 64

/-- LOG_READ: the entries from an index, as many as a payload holds (R387, R388). -/
def execLogRead (tag : BitVec 32) (index : Nat) (s : State) : Out :=
  gated s cmdLogRead tag none false
    (if s.caltik.log.length < index then plainStatus badargStatus s
     else (okStatus, .log ((s.caltik.log.drop index).take logMax), s))

/-! ### Firmware images (R390) -/

/-- Write a slot. -/
def Caltik.setSlot (c : Caltik) (n : Nat) (x : FwSlot) : Caltik := if n = 0 then { c with slot0 := x } else { c with slot1 := x }

/-- The image in a slot. -/
def Caltik.image (c : Caltik) (n : Nat) : FwImage := if n = 0 then c.image0 else c.image1

/-- Write the image of a slot. -/
def Caltik.setImage (c : Caltik) (n : Nat) (x : FwImage) : Caltik := if n = 0 then { c with image0 := x } else { c with image1 := x }

/-- Bytes written to the staged image. -/
def stageBytes (m : Store Byte) (o : Nat) (bs : List Byte) : Store Byte :=
  (cellsOfBytes o bs).foldl (fun m c => Store.ins m c.1 c.2) m

/-- FW_STAGE: a chunk, which a payload must hold (R387), goes to the inactive slot; an image whose signature fails, or whose security
version is below the fuses, is rejected and its slot marked invalid (R390). -/
def execFwStage (tag : BitVec 32) (offset : Nat) (chunk : List Byte) (valid : Bool) (version secVersion : Nat) (s : State) : Out :=
  let k := s.caltik
  let n := 1 - k.active
  let ok := valid && k.minSec ≤ secVersion
  let k' := (k.setSlot n ⟨version, secVersion, ok⟩).setImage n ⟨stageBytes (k.image n).bytes offset chunk, valid⟩
  gated s cmdFwStage tag (some 1) true
    (if payloadMax < chunk.length then plainStatus badargStatus s
     else plainStatus (if ok then okStatus else authfailStatus) { s with caltik := k' })

/-- The watchdog in seconds that an image header sets: 300 by default (R390). -/
def watchdogSeconds (w : Nat) : Nat := if w = 0 then 300 else w

/-- FW_ACTIVATE: the package is reset into the staged slot under a watchdog (R390); one out of its range is a bad
argument (log 16). -/
def execFwActivate (tag : BitVec 32) (watchdog : Nat) (boot : Startup) (s : State) : Out :=
  let k := s.caltik
  let n := 1 - k.active
  let w := watchdogSeconds watchdog
  gated s cmdFwActivate tag (some 1) false
    (if !(k.slot n).valid then plainStatus authfailStatus s
     else if w < 30 ∨ 3600 < w then plainStatus badargStatus s
     else plainStatus okStatus (State.packageReset { s with caltik := { k with
       active := n, watchdog := some (s.time + w * 1000000000), confirmed := false, rollback := false } } boot))

/-- FW_CONFIRM (R390): one that comes after the watchdog has ended confirms nothing, and is a bad argument (log 16). -/
def execFwConfirm (tag : BitVec 32) (s : State) : Out :=
  let late : Bool := match s.caltik.watchdog with
    | some d => d ≤ s.time
    | none => false
  gated s cmdFwConfirm tag (some 1) false
    (if late then plainStatus badargStatus s
     else plainStatus okStatus { s with caltik := { s.caltik with confirmed := true, watchdog := none } })

/-- FW_WATCHDOG_EXPIRY: without a confirmation in time the package is reset into the previous slot, and a rollback recorded
(R390). -/
def execFwWatchdogExpiry (boot : Startup) (s : State) : Out :=
  .next <| match s.caltik.watchdog with
    | none => s
    | some d =>
      if s.time < d || s.caltik.confirmed then s
      else State.packageReset { s with caltik := { s.caltik with
        active := 1 - s.caltik.active, watchdog := none, confirmed := true, rollback := true } } boot

/-! ### SPDM (R391) -/

/-- A response whose payload the manual gives no format for (log 16). -/
def freeAnswer (st : BitVec 8) (s : State) : BitVec 8 × Payload × State :=
  (st, .bytes (Config.freePayload s.fresh), { s with fresh := s.fresh + 1 })

/-- One SPDM message, answered OK. -/
def spdmAnswer (tag : BitVec 32) (s : State) : Out := gated s cmdSpdm tag (some 2) false (freeAnswer okStatus s)

/-- An SPDM message of the host: 4088 bytes at most (R388). -/
def spdmMessage (tag : BitVec 32) (msg : List Byte) (s : State) : Out :=
  if payloadMax < msg.length then gated s cmdSpdm tag (some 2) false (plainStatus badargStatus s) else spdmAnswer tag s

/-- SPDM: one message in either direction (R388, R391). -/
def execSpdm (tag : BitVec 32) (msg : List Byte) (s : State) : Out := spdmMessage tag msg s

/-- GET_VERSION (R391). -/
def execGetVersion (tag : BitVec 32) (s : State) : Out := spdmAnswer tag s

/-- GET_CAPABILITIES (R391). -/
def execGetCapabilities (tag : BitVec 32) (s : State) : Out := spdmAnswer tag s

/-- NEGOTIATE_ALGORITHMS (R391). -/
def execNegotiateAlgorithms (tag : BitVec 32) (msg : List Byte) (s : State) : Out := spdmMessage tag msg s

/-- GET_DIGESTS (R391). -/
def execGetDigests (tag : BitVec 32) (s : State) : Out := spdmAnswer tag s

/-- GET_CERTIFICATE: a part of the chain (R391). -/
def execGetCertificate (tag : BitVec 32) (offset len : Nat) (s : State) : Out :=
  let bs := (List.range (min len payloadMax)).map fun k => Config.freeCaltik s.fresh (offset + k)
  gated s cmdSpdm tag (some 2) false (okStatus, .bytes bs, { s with fresh := s.fresh + 1 })

/-- CHALLENGE: an answer signed with the identity key (R391). -/
def execChallenge (tag : BitVec 32) (nonce : List Byte) (s : State) : Out :=
  gated s cmdSpdm tag (some 2) false (if payloadMax < nonce.length then plainStatus badargStatus s else freeAnswer okStatus s)

/-- What the measurements cover (R391). -/
def State.measured (s : State) : Measured :=
  let k := s.caltik
  ⟨[(k.slot0, k.image0), (k.slot1, k.image1)], k.boots, s.vatPart, s.granPart, s.portPart, k.feature⟩

/-- GET_MEASUREMENTS: a function of what the measurements cover (R391). -/
def execGetMeasurements (tag : BitVec 32) (index : Nat) (s : State) : Out :=
  gated s cmdSpdm tag (some 2) false (okStatus, .bytes (Config.freeMeasurement index s.measured), s)

/-- KEY_EXCHANGE (R391). -/
def execKeyExchange (tag : BitVec 32) (msg : List Byte) (s : State) : Out :=
  gated s cmdSpdm tag (some 2) false (if payloadMax < msg.length then plainStatus badargStatus s else freeAnswer okStatus s)

/-- FINISH: AUTHFAIL when the message does not verify (R387, R391). -/
def execFinish (tag : BitVec 32) (msg : List Byte) (s : State) : Out :=
  gated s cmdSpdm tag (some 2) false
    (if payloadMax < msg.length then plainStatus badargStatus s
     else freeAnswer (if Config.freeVerifies msg then okStatus else authfailStatus) s)

end Sys2Proof.Machine
end

