-- ==== Sys2Proof/Machine/Context.lean ====
section
/-! DEFINITION. Context images: their layout (R326), `ctxsave` (R327, R328), the checks of an image (R401), and `ctxload` (R329). -/

namespace Sys2Proof.Machine

/-! ### Units of Table 5 of chapter 15 -/

/-- A unit with a dirty bit. Slots are numbered 14 i + s, pool registers 256 l + p, chunks by their place. -/
inductive CtxUnit where
  | z (k : Nat) | c (j : Nat) | sprig (i : Nat) | slot (n : Nat) | pool (p : Nat) | blk (n : Nat) | scr (n : Nat)
  deriving DecidableEq, Repr

/-- Offset of a unit. -/
def CtxUnit.off : CtxUnit → Nat
  | .z k => 0x400 + 0x1100 * k
  | .c j => 0x8C00 + 0x2000 * j
  | .sprig i => 0x10C00 + 0x200 * i
  | .slot n => 0x18C00 + 0x40 * n
  | .pool p => 0x26C00 + 0x40 * p
  | .blk n => 0x46C00 + 0x100 * n
  | .scr n => 0x56C00 + 0x100 * n

/-- Bytes of a unit. -/
def CtxUnit.size : CtxUnit → Nat
  | .z _ => 4352
  | .c _ => 8192
  | .sprig _ => 512
  | .slot _ | .pool _ => 64
  | .blk _ | .scr _ => 256

/-- Whether a unit is dirty. -/
def CtxUnit.dirty (d : Dirty) : CtxUnit → Bool
  | .z k => d.z.getLsbD k
  | .c j => d.c.getLsbD j
  | .sprig i => d.sprig.getLsbD i
  | .slot n => d.slot.getLsbD n
  | .pool p => d.pool.getLsbD p
  | .blk n => d.blk.getLsbD n
  | .scr n => d.scr.getLsbD n

/-- Every unit, by ascending offset. -/
def ctxUnits : List CtxUnit :=
  (List.range 8).map .z ++ (List.range 4).map .c ++ (List.range 64).map .sprig ++ (List.range 896).map .slot ++
    (List.range 2048).map .pool ++ (List.range 256).map .blk ++ (List.range 2048).map .scr

/-- A number with fields at byte offsets: each (offset, value), values below their width. -/
def atBytes (fs : List (Nat × Nat)) : Nat := sumNat (fs.map fun f => f.2 * 2 ^ (8 * f.1))

/-- The codes of sprig states in a record; a waiting sprig is saved as RUNNING (R326). -/
def SprigSt.code : SprigSt → Nat
  | .idle => 0
  | .running | .waiting => 1
  | .faulted => 3

/-- Bit `i` of each lent set, as the LENT field of a record. -/
def State.lentBits (s : State) (q i : Nat) : Nat :=
  sumNat ([0, 1, 2, 3].map fun j => if (s.lentSet q j).getLsbD i then 2 ^ j else 0)

/-- A sprig record (Table 7). -/
def State.sprigRecord (s : State) (q i : Nat) : Nat :=
  let p := s.sprig q i
  let span := p.bstart.toNat + (if p.free then 65536 else 0)
  atBytes ((List.range 31).map (fun m => (8 * m, (Store.get p.g 0 (m + 1)).toNat))) +
  atBytes ((List.range 7).map (fun m => (0x100 + 8 * m, (Store.get p.k 0 (m + 1)).toNat))) +
  atBytes ([0, 1, 2, 3].map fun n => (0x140 + 4 * n, match (p.queue.drop n).head? with
    | some b => b.addr.toNat + b.lend.toNat * 65536
    | none => 0)) +
  atBytes [(0x138, p.pc.toNat % 65536), (0x13A, p.st.code), (0x13B, s.lentBits q i + 16 * p.queue.length), (0x13C, p.rm.toNat),
    (0x13D, p.fpstat.toNat), (0x13E, p.full.toNat), (0x150, p.fcause.toNat), (0x152, p.fpc.toNat),
    (0x154, if p.st.code = 1 then span else 0), (0x158, p.fval.toNat)]

/-- The value of a unit (Table 5), little-endian. -/
def State.unitValue (s : State) (q : Nat) : CtxUnit → Nat
  | .z k => (Store.get (s.core q).til.z 0 k).toNat
  | .c j => (Store.get (s.core q).til.c 0 j).toNat
  | .sprig i => s.sprigRecord q i
  | .slot n => (Store.get (s.sprig q (n / 14)).links 0 (n % 14)).toNat
  | .pool p => (Store.get (s.core q).arr.pool 0 p).toNat
  | .blk n => atBytes ((List.range 4).map fun k => (64 * k, (Store.get (s.core q).arr.blk 0 (4 * n + k)).toNat))
  | .scr n => s.rdN (scratchLoc q (256 * n)) 256

/-- A unit holds an uncorrectable error, in the block store or the scratchpad (R252). -/
def State.unitBad (s : State) (q : Nat) : CtxUnit → Bool
  | .blk n => (s.core q).arr.blkUe.any fun l => l / 4 == n
  | .scr n => s.ueAt (scratchLoc q (256 * n)) 256
  | .z _ | .c _ | .sprig _ | .slot _ | .pool _ => false

/-- The control area (Table 6) but for LASTSAVE. -/
def State.controlArea (s : State) (q : Nat) : Nat :=
  let c := s.core q
  let t := c.thr
  let p := c.priv
  atBytes [(0, 0x4B564331), (4, 1), (8, p.trappc.toNat), (0x18, if p.status.sprigtrap then 2 ^ 19 else 0), (0x20, p.domain.toNat),
    (0x28, p.coretab.toNat), (0x70, t.rm.toNat), (0x78, t.fpstat.toNat), (0x80, t.waitlim.toNat), (0x88, t.ltbase.toNat),
    (0x90, t.cycle.toNat), (0x98, t.retired.toNat), (0xA0, (if t.sat then 2 ^ 63 else 0) + t.energy.toNat / 65536),
    (0xA8, t.energy.toNat % 65536), (0xB0, c.arr.r * 256 + c.arr.n), (0xD8, p.barcfg.toNat), (0xE0, c.unrep.toNat)] +
  atBytes ((List.range 8).map fun i => (0x30 + 8 * i, (Store.get p.spwin 0 i).toNat)) +
  atBytes ([0, 1, 2, 3].map fun j => (0xB8 + 8 * j, (s.lentSet q j).toNat)) +
  atBytes ((List.range 31).map fun m => (0x100 + 8 * m, (Store.get t.g 0 (m + 1)).toNat))

/-! ### `ctxsave` (R328) -/

/-- Why an image is not written on: the reason, the failing address, and the state with the writes before it. -/
abbrev SaveStop := AccErr × Word × State

/-- Store bytes to an image, one kernel store of 8 bytes after another (R144, R145, R328). -/
def State.saveBytes (s : State) (va : Word) : Nat → Nat → Except SaveStop State
  | 0, _ => .ok s
  | n + 1, v =>
    if !canonical va then .error (.trap cXLATE 0, va, s)
    else match s.storeValue s.cur va (leBytes 8 v) with
      | .error e => .error (e, va, s)
      | .ok s => State.saveBytes s (va + 8) n (v / 2 ^ 64)

/-- Store units to an image at `a`. -/
def State.saveUnits (s : State) (a : Word) : List CtxUnit → Except SaveStop State
  | [] => .ok s
  | u :: us =>
    let va := a + BitVec.ofNat 64 u.off
    if s.unitBad s.cur.core u then .error (.trap cMEMERR 0, va, s)
    else match s.saveBytes va (u.size / 8) (s.unitValue s.cur.core u) with
      | .error e => .error e
      | .ok s => State.saveUnits s a us

/-- The whole image, or its dirty units: the control area around LASTSAVE, the units, then LASTSAVE. -/
def State.saveImage (s : State) (a : Word) (us : List CtxUnit) : Except SaveStop State :=
  let v := s.controlArea s.cur.core
  match s.saveBytes a 2 (v % 2 ^ 128) with
  | .error e => .error e
  | .ok s => match s.saveBytes (a + 24) 125 (v / 2 ^ 192) with
    | .error e => .error e
    | .ok s => match s.saveUnits a us with
      | .error e => .error e
      | .ok s => s.saveBytes (a + 16) 1 (1024 + sumNat (us.map CtxUnit.size))

/-- `CTXIMG.V` becomes 0. -/
def State.dropImage (s : State) (q : Nat) : State := s.modPriv q fun p => { p with ctximg := p.ctximg &&& ~~~1#64 }

/-- `CTXIMG` names an image, and every unit is clean (R327). -/
def State.nameImage (s : State) (q : Nat) (a : Word) (resident : Bool) : State :=
  s.modCore q fun c => { c with
    priv := { c.priv with ctximg := a ||| 1 }, dirty := ⟨0, 0, 0, 0, 0, 0, 0⟩, resident := resident }

/-- The address checks of `ctxsave` and `ctxload`. -/
def imageAt (s : State) (a : Word) (k : Out) : Out :=
  if !canonical a then raise s cXLATE 0 a else if a.toNat % 4096 ≠ 0 then raise s cALIGN 0 a else k

/-- Write the context to its image (R328), after the core's stores and deposits, which another core may follow (R265, R280). -/
def execCtxsave (b : BitVec 5) (s : State) : Out :=
  let i : Instr := .ctxsave b
  let a := s.rg b
  let q := s.cur.core
  onlyKernel i s <| imageAt s a <| coreDrained s fun s =>
    let s := s.mergeCore q
    let u := s.holdSprigs q
    let full := (s.priv q).ctximg ≠ a ||| 1
    match u.saveImage a (ctxUnits.filter fun x => full || x.dirty (s.core q).dirty) with
    | .error (.trap c d, va, t) => raise (t.dropImage q) c d va
    | .error (.stall, _, _) => stall s
    | .error (.park l, va, _) => .next (s.park l va)
    | .ok t => finish i (t.nameImage q a false)

/-! ### Reading an image -/

/-- The words of an image by offset, as far as they could be read, and why no further. -/
structure ImageRead where
  st : State
  words : Store Nat
  stop : Option (AccErr × Nat)

/-- Load 8-byte words of an image by kernel loads, in ascending order (R329). -/
def State.readImage (s : State) (a : Word) : List Nat → Store Nat → ImageRead
  | [], m => ⟨s, m.reverse, none⟩
  | o :: os, m =>
    let va := a + BitVec.ofNat 64 o
    if !canonical va then ⟨s, m.reverse, some (.trap cXLATE 0, o)⟩
    else match s.loadValue s.cur va 8 false with
      | .error e => ⟨s, m.reverse, some (e, o)⟩
      | .ok (s, v) => State.readImage s a os ((o, v) :: m)

/-- `n` bytes at offset `o` within the words of an image, for a field inside one word. -/
def imgField (m : Store Nat) (o n : Nat) : Nat := Store.get m 0 (o / 8 * 8) / 2 ^ (8 * (o % 8)) % 2 ^ (8 * n)

/-- The words of an image from offset `o`, `n` of them. -/
def wordsFrom (o n : Nat) : List Nat := (List.range n).map fun k => o + 8 * k

/-- A range of words is all zero. -/
def zeroWords (m : Store Nat) (o n : Nat) : Bool := (wordsFrom o n).all fun x => Store.get m 0 x == 0

/-! ### The checks of R401 -/

/-- Codes of RM that are forbidden (R56). -/
def rmBad (v : Nat) : Bool := v = 0 || 5 < v

/-- Whether a configuration is one that `sconf` could leave (R18, R401). -/
def cfgBad (v : Nat) : Bool :=
  let n := nbits v 6 0
  let r := nbits v 14 8
  v / 2 ^ 15 ≠ 0 || tst v 7 || 64 < n || (n = 0 && r ≠ 0) ||
    (n ≠ 0 && (r < 8 || 64 < r || r % 8 ≠ 0 || 256 < (n + 7) / 8 * r))

/-- The fields of the control area that fail, as (offset, failing), ascending. -/
def controlChecks (m : Store Nat) : List (Nat × Bool) :=
  let chk (o : Nat) (b : Bool) : Nat × Bool := (o, b)
  let w (o : Nat) : Nat := Store.get m 0 o
  let n := min 64 (nbits (w 0xB0) 6 0)
  let noncanon (v : Nat) : Bool := !canonical (BitVec.ofNat 64 v)
  [chk 0 (imgField m 0 4 ≠ 0x4B564331), chk 4 (imgField m 4 2 ≠ 1), chk 6 (imgField m 6 2 ≠ 0), chk 0x18 (w 0x18 ≠ 0 && w 0x18 ≠ 2 ^ 19),
    chk 0x20 (w 0x20 / 2 ^ 14 ≠ 0), chk 0x28 (w 0x28 / 2 ^ 52 ≠ 0 || tst (w 0x28) 8)] ++
  (wordsFrom 0x30 8).map (fun o => chk o (nbits (w o) 15 1 ≠ 0 || noncanon (w o))) ++
  [chk 0x70 (w 0x70 / 8 ≠ 0 || rmBad (w 0x70)), chk 0x78 (w 0x78 / 64 ≠ 0), chk 0x80 (w 0x80 / 2 ^ 48 ≠ 0),
    chk 0x88 (w 0x88 % 8 ≠ 0 || noncanon (w 0x88)), chk 0xA0 (nbits (w 0xA0) 62 48 ≠ 0), chk 0xA8 (w 0xA8 / 65536 ≠ 0),
    chk 0xB0 (cfgBad (w 0xB0))] ++
  (wordsFrom 0xB8 4).map (fun o => chk o (w o / 2 ^ n ≠ 0)) ++
  [chk 0xD8 (w 0xD8 / 65536 ≠ 0 || nbits (w 0xD8) 7 4 ≠ 0), chk 0xE0 (w 0xE0 / 2 ^ n ≠ 0), chk 0xE8 (!zeroWords m 0xE8 3),
    chk 0x1F8 (!zeroWords m 0x1F8 65)]

/-- The fault causes of a sprig (Table 9 of chapter 07). -/
def sprigCauses : List Nat := [0x01, 0x03, 0x04, 0x05, 0x06, 0x07, 0x08, 0x0B, 0x0C, 0x0E]

/-- A link full bit of sprig `i` names a sender among 0 to n - 1. -/
def linkOk (i n slot : Nat) : Bool := if slot < 7 then 7 ≤ i + slot && i + slot - 7 < n else i + slot - 6 < n

/-- The fields of the record of sprig `i` that fail (R401), its reserved bytes among them (R5). A FAULTED record whose cause lies outside
Table 9 fails at the cause byte, and not at STATE: the model's choice (log 18). -/
def recordChecks (m : Store Nat) (n i : Nat) : List (Nat × Bool) :=
  let b := (CtxUnit.sprig i).off
  let chk (o : Nat) (v : Bool) : Nat × Bool := (o, v)
  let f (o k : Nat) : Nat := imgField m (b + o) k
  let queue := [0, 1, 2, 3].map fun t => (0x140 + 4 * t, f (0x140 + 4 * t) 4)
  let span := f 0x154 4 % 2 ^ 17
  let high := f 0x154 4 / 2 ^ 17 ≠ 0
  let cs : List (Nat × Bool) :=
    chk 0xF8 (f 0xF8 8 ≠ 0) ::
    if i < n then
      let st := f 0x13A 1
      let lent := sumNat ([0, 1, 2, 3].map fun j => if tst (Store.get m 0 (0xB8 + 8 * j)) i then 2 ^ j else 0)
      let cnt := f 0x13B 1 / 16
      [chk 0x13A (st = 2 || 3 < st), chk 0x13B (4 < cnt || f 0x13B 1 % 16 ≠ lent), chk 0x13C (rmBad (f 0x13C 1)), chk 0x13D (f 0x13D 1 / 64 ≠ 0),
        chk 0x13E (f 0x13E 2 / 2 ^ 14 ≠ 0 || (List.range 14).any fun t => tst (f 0x13E 2) t && !linkOk i n t)] ++
      queue.map (fun e => chk e.1 (if (e.1 - 0x140) / 4 < cnt then e.2 % 64 ≠ 0 || e.2 / 2 ^ 20 ≠ 0 else e.2 ≠ 0)) ++
      [chk 0x150 (if st = 3 then !sprigCauses.contains (f 0x150 1) else f 0x150 1 ≠ 0), chk 0x151 (f 0x151 1 ≠ 0),
        chk 0x152 (st ≠ 3 && f 0x152 2 ≠ 0), chk 0x154 (high || span % 65536 % 64 ≠ 0 || (st ≠ 1 && span ≠ 0)),
        chk 0x158 (st ≠ 3 && f 0x158 8 ≠ 0), chk 0x160 (!zeroWords m (b + 0x160) 20)]
    else
      [chk 0x13A (f 0x13A 1 ≠ 0), chk 0x13B (f 0x13B 1 ≠ 0), chk 0x13E (f 0x13E 2 ≠ 0)] ++ queue.map (fun e => chk e.1 (e.2 ≠ 0)) ++
      [chk 0x150 (f 0x150 1 ≠ 0), chk 0x151 (f 0x151 1 ≠ 0), chk 0x152 (f 0x152 2 ≠ 0), chk 0x154 (high || span ≠ 0),
        chk 0x158 (f 0x158 8 ≠ 0), chk 0x160 (!zeroWords m (b + 0x160) 20)]
  cs.map fun c => (b + c.1, c.2)

/-- The lowest offset at which a field of an image fails (R401), among those below `lim`. -/
def imageFault (m : Store Nat) (lim : Nat) : Option Nat :=
  let n := min 64 (nbits (Store.get m 0 0xB0) 6 0)
  ((controlChecks m ++ (List.range 64).flatMap (recordChecks m n)).find? fun c => c.2 && c.1 < lim).map fun c => c.1

/-! ### Loading -/

/-- The thread's part of a control area. -/
def Thread.loadFrom (t : Thread) (m : Store Nat) : Thread :=
  let w (o : Nat) : Word := BitVec.ofNat 64 (Store.get m 0 o)
  { t with
    g := (List.range 31).foldl (fun g k => Store.put g 0 (k + 1) (w (0x100 + 8 * k))) t.g
    rm := (w 0x70).setWidth 3, fpstat := (w 0x78).setWidth 6, waitlim := (w 0x80).setWidth 48, ltbase := w 0x88
    cycle := w 0x90, retired := w 0x98
    energy := field (bits (w 0xA0) 47 0) 16 + field (bits (w 0xA8) 15 0) 0, sat := bit (w 0xA0) 63 }

/-- Load the control area but for what completion loads (R329): registers, configuration, lent sets, windows. The lane pointers stand as after
`sconf` then: the model's choice (log 18). -/
def State.loadControl (s : State) (q : Nat) (m : Store Nat) : State :=
  let w (o : Nat) : Word := BitVec.ofNat 64 (Store.get m 0 o)
  let s := s.modCore q fun c => { c with
    thr := c.thr.loadFrom m
    priv := { c.priv with
      domain := (w 0x20).setWidth 14, coretab := w 0x28, barcfg := w 0xD8
      spwin := (List.range 8).foldl (fun x i => Store.put x 0 i (w (0x30 + 8 * i))) c.priv.spwin }
    arr := { c.arr with n := bits (w 0xB0) 6 0, r := bits (w 0xB0) 14 8, lanePtr := [] }
    til := { c.til with lent := [0, 1, 2, 3].foldl (fun x j => Store.put x 0 j (w (0xB8 + 8 * j))) c.til.lent }
    unrep := w 0xE0 }
  (List.range 8).foldl (fun s i => s.takeRange q i) s

/-- A sprig from its record (Table 7). -/
def Sprig.ofRecord (p : Sprig) (v : Nat) : Sprig :=
  let f (o k : Nat) : Nat := v / 2 ^ (8 * o) % 2 ^ (8 * k)
  { p with
    g := (List.range 31).foldl (fun g k => Store.put g 0 (k + 1) (BitVec.ofNat 64 (f (8 * k) 8))) []
    k := (List.range 7).foldl (fun g k => Store.put g 0 (k + 1) (BitVec.ofNat 64 (f (0x100 + 8 * k) 8))) []
    st := if f 0x13A 1 = 1 then .running else if f 0x13A 1 = 3 then .faulted else .idle
    pc := BitVec.ofNat 17 (f 0x138 2)
    queue := (List.range (min 4 (f 0x13B 1 / 16))).map fun t => ⟨BitVec.ofNat 16 (f (0x140 + 4 * t) 2), BitVec.ofNat 4 (f (0x142 + 4 * t) 1)⟩
    fcause := BitVec.ofNat 8 (f 0x150 1), fpc := BitVec.ofNat 16 (f 0x152 2), fval := BitVec.ofNat 64 (f 0x158 8)
    rm := BitVec.ofNat 3 (f 0x13C 1), fpstat := BitVec.ofNat 6 (f 0x13D 1), bstart := BitVec.ofNat 16 (f 0x154 2)
    free := tst (f 0x154 4) 16, full := BitVec.ofNat 14 (f 0x13E 2), ag := Agent.reset }

/-- Load one unit with a value (R329); tiles of a core bound to no press are discarded. -/
def State.loadUnit (s : State) (q : Nat) (u : CtxUnit) (v : Nat) : State :=
  match u with
  | .z k => s.modCore q fun c => { c with til := { c.til with
      z := Store.put c.til.z 0 k (if s.binding q = 3 then 0 else BitVec.ofNat 34816 v) } }
  | .c j => s.modCore q fun c => { c with til := { c.til with
      c := Store.put c.til.c 0 j (if s.binding q = 3 then 0 else BitVec.ofNat 65536 v) } }
  | .sprig i => s.modSprig q i fun p => p.ofRecord v
  | .slot n => s.modSprig q (n / 14) fun p => { p with links := Store.put p.links 0 (n % 14) (BitVec.ofNat 512 v) }
  | .pool p => s.modCore q fun c => { c with arr := { c.arr with pool := Store.put c.arr.pool 0 p (BitVec.ofNat 512 v) } }
  | .blk n => (List.range 4).foldl (fun s k => s.modCore q fun c => { c with arr := { c.arr with
      blk := Store.put c.arr.blk 0 (4 * n + k) (BitVec.ofNat 512 (v / 2 ^ (512 * k)))
      blkUe := c.arr.blkUe.filter fun l => l ≠ 4 * n + k } }) s
  | .scr n => (List.range 4).foldl (fun s k =>
      s.accept ⟨false, true, 0, cellsOf (scratchLoc q (256 * n + 64 * k)) 64 (v / 2 ^ (512 * k) % 2 ^ 512), false⟩) s

/-- The value of a unit among the words of an image. -/
def unitOf (m : Store Nat) (u : CtxUnit) : Nat :=
  atBytes ((List.range (u.size / 8)).map fun k => (8 * k, Store.get m 0 (u.off + 8 * k)))

/-- Load the control area and every unit that was read whole, below offset `lim`. -/
def State.loadUnits (s : State) (q : Nat) (m : Store Nat) (lim : Nat) : State :=
  (ctxUnits.filter fun u => u.off + u.size ≤ lim).foldl (fun s u => s.loadUnit q u (unitOf m u)) (s.loadControl q m)

/-- What completion adds (R329): the kernel's return registers, held sprigs, clean units, residency, barriers. -/
def State.loadDone (s : State) (q : Nat) (a : Word) (m : Store Nat) : State :=
  let held := (List.range 64).any fun i => (s.sprig q i).st == .running
  ((s.modPriv q fun p => { p with
    trappc := BitVec.ofNat 64 (Store.get m 0 8)
    status := { p.status with pplKernel := false, sprigtrap := tst (Store.get m 0 0x18) 19, shold := held } }).nameImage q a true)

/-- The windows of a core are unmapped (R259, R329). -/
def State.unmapAll (s : State) (q : Nat) : State :=
  (List.range 8).foldl (fun s i => s.setWindow q i 0) s

/-- The offsets whose fields R401 examines: the control area, then the sprig records. -/
def checkedOffsets : List Nat := wordsFrom 0 128 ++ wordsFrom 0x10C00 4096

/-- Every offset of an image. -/
def imageOffsets : List Nat := wordsFrom 0 109952

/-- Check and load an image (R329, R401). Stores of every agent are performed, and cached copies written back, before its windows are
mapped (R257, R258). While it waits for the write-back of its old windows an interrupt may be taken (log 18). -/
def execCtxload (b : BitVec 5) (s : State) : Out :=
  let i : Instr := .ctxload b
  let a := s.rg b
  let q := s.cur.core
  onlyKernel i s <| imageAt s a <| allDrained s fun s =>
    let r := s.readImage a checkedOffsets []
    let lim := match r.stop with
      | some (_, o) => o
      | none => 0xD6C00
    match imageFault r.words lim, r.stop with
    | some o, _ => operand s (a + BitVec.ofNat 64 o)
    | none, some (e, o) => notNow s (a + BitVec.ofNat 64 o) e
    | none, none =>
      let c := s.core q
      if c.cpy.cmds ≠ [] ∨ c.pendWb ≠ [] then stall s
      else if c.priv.spwin.any fun w => bit w.2 0 then .next (s.unmapAll q)
      else
        let r := s.readImage a imageOffsets []
        match r.stop with
        | none =>
          finish i (((r.st.writeBackAll.stopSprigs q).loadUnits q r.words 0xD6C00).loadDone q a r.words).recheckBarriers
        | some (.stall, _) => stall s
        | some (.park l, o) => .next (s.park l (a + BitVec.ofNat 64 o))
        | some (.trap c d, o) =>
          raise ((((r.st.writeBackAll.stopSprigs q).loadUnits q r.words o).dropImage q).recheckBarriers) c d (a + BitVec.ofNat 64 o)

end Sys2Proof.Machine
end

