-- ==== Sys2Proof/Machine/Control.lean ====
section
/-! DEFINITION. Control transfer, `brk`, `idle`, `time`, `nop` and `callx` (R68 to R70, R135 to R142). `svc` stands with the
firmware calls. -/

namespace Sys2Proof.Machine

/-- The target of a relative branch (R68). -/
def State.relTarget (s : State) (loff : Word) (slot : BitVec 5) : Word :=
  lineBase (s.pcOf s.cur) + loff * 64 + 2 + 2 * slot.setWidth 64

/-- A transfer is taken (R69, R70, R136, R137): the checks, then the link is written and the PC moves. `reg` says that the target
comes from a register or memory and must be a head address. -/
def transfer (i : Instr) (target : Word) (reg : Bool) (link : Option (BitVec 5)) (s : State) : Out :=
  let a := s.cur
  let bad : Option Out := match a.who with
    | .thread => if !canonical target then some (raise s cXLATE 0 target) else none
    | .sprig _ => if 0xFFFF < target.toNat then some (illegal s 11 i) else none
  match bad with
  | some o => o
  | none =>
    if reg && !isHeadAddr target.toNat then raise s cALIGN 0 target
    else
      let n := s.nextPc a
      let s := match link with
        | some d => s.setG a d n
        | none => s
      .next (s.retireTo a i target false)

/-- PC <- target (R135). -/
def execJmp (loff : BitVec 27) (slot : BitVec 5) (s : State) : Out :=
  transfer (.jmp loff slot) (s.relTarget (sextN loff.toNat 27) slot) false none s

/-- g[A] <- NextPC; PC <- target (R135). -/
def execCall (d : BitVec 5) (loff : BitVec 27) (slot : BitVec 5) (s : State) : Out :=
  transfer (.call d loff slot) (s.relTarget (sextN loff.toNat 27) slot) false (some d) s

/-- PC <- g[B] (R135). -/
def execJmpr (b : BitVec 5) (s : State) : Out := transfer (.jmpr b) (s.rg b) true none s

/-- t <- g[B]; g[A] <- NextPC; PC <- t (R135). -/
def execCallr (d b : BitVec 5) (s : State) : Out := transfer (.callr d b) (s.rg b) true (some d) s

/-- A `br` condition (R135). -/
def brHolds (q : BrCond) (x y : Word) : Bool :=
  match q with
  | .eq => x == y
  | .ne => x != y
  | .lt => x.slt y
  | .ge => !x.slt y
  | .ltu => x.ult y
  | .geu => !x.ult y

/-- A `brz` condition, signed against zero (R135). -/
def brzHolds (q : BrzCond) (x : Word) : Bool :=
  match q with
  | .eqz => x == 0
  | .nez => x != 0
  | .ltz => x.slt 0
  | .gez => !x.slt 0
  | .gtz => (0 : Word).slt x
  | .lez => !(0 : Word).slt x

/-- Branch on a comparison (R135). -/
def execBr (q : BrCond) (loff : BitVec 32) (hint : Bool) (slot b c : BitVec 5) (s : State) : Out :=
  let i : Instr := .br q loff hint slot b c
  if brHolds q (s.rg b) (s.rg c) then transfer i (s.relTarget (sextN loff.toNat 32) slot) false none s else finish i s

/-- Branch on a comparison with zero (R135). -/
def execBrz (q : BrzCond) (loff : BitVec 21) (hint : Bool) (slot b : BitVec 5) (s : State) : Out :=
  let i : Instr := .brz q loff hint slot b
  if brzHolds q (s.rg b) then transfer i (s.relTarget (sextN loff.toNat 21) slot) false none s else finish i s

/-- Call through a linkage entry (R81, R138); its read is an acquire (R272). -/
def execCallx (d : BitVec 5) (idx : BitVec 16) (s : State) : Out :=
  let i : Instr := .callx d idx
  onlyThread i s <|
    loadScalar s ((s.thr s.cur.core).ltbase + 8 * idx.setWidth 64) 8 false fun s e =>
      if e = 0 ∨ e % 2 = 1 then raise s cUNBOUND 0 (idx.setWidth 64)
      else readsDone s (transfer i (BitVec.ofNat 64 e) true (some d) ·)

/-- PC <- NextPC (R135). -/
def execNop (s : State) : Out := finish .nop s

/-- BRK: a trap at the `brk`, or a sprig's fault (R140). -/
def execBrk (code : BitVec 16) (s : State) : Out := raise s cBRK 0 (code.setWidth 64)

/-- The thread stops fetching (R141); a source already pending ends the `idle` at once. -/
def execIdle (s : State) : Out :=
  onlyThread .idle s <|
    let s := s.modThr s.cur.core fun t => { t with run := .idle s.time }
    if s.anyPending s.cur.core then .next (s.wakeIdle s.cur.core) else .next s

/-- The package time base in ns (R142). -/
def execTime (d : BitVec 5) (s : State) : Out := finishG (.time d) d (BitVec.ofNat 64 s.time) s

/-- OP unassigned: ILLEGAL detail 5 in every context (R84, R66). -/
def execUnassignedOpcode (head : BitVec 16) (s : State) : Out := raise s cILLEGAL 5 (illegalVal 5 head)

end Sys2Proof.Machine
end

