-- ==== Sys2Proof/Machine/Copy.lean ====
section
/-! DEFINITION. Copy instructions at entry (R11, R235, R236, R240 to R243, R369) and the events of the copy engine. -/

namespace Sys2Proof.Machine

/-! ### Entry -/

/-- The buffered stores that a copy instruction waits for: up to the last `st`, `vst` or `vscat`; tile-store lines that follow
stay (R236). -/
def plainPart : List SbEntry → Nat
  | [] => 0
  | e :: es =>
    let n := plainPart es
    if n ≠ 0 then n + 1 else if e.tile then 0 else 1

/-- The issuer's earlier stores are performed at die scope (R236). -/
def copyDrained (s : State) (k : State → Out) : Out :=
  let a := s.cur
  let es := (s.ag a).sb
  let n := plainPart es
  if es = [] then k s
  else if (es.take n).all fun e => e.lines.all fun w => s.lineFree a w then
    k ((es.take n).foldl (fun s e => s.acceptLines e.lines) (s.modAg a fun g => { g with sb := es.drop n, fwd := g.fwd.drop n }))
  else stall s

/-- Charge a copy instruction by its lines (R369). -/
def State.chargeCopy (s : State) (a : AgentId) (lines : Nat) : State :=
  if a.who = .thread ∧ (s.priv a.core).status.pl = .firmware then s else s.charge a.core 14 (max 1 lines)

/-- A semaphore grants an engine at once, or the engine joins its queue (R236). -/
def State.engineWait (s : State) (q id : Nat) (sem thr : BitVec 8) : Bool × State :=
  let v := vatOf q
  let m := s.sem v sem.toNat
  if m.queue = [] ∧ thr.toNat ≤ m.count.toNat then
    (true, s.setSem v sem.toNat { m with count := m.count - thr.setWidth 32, ovf := false })
  else (false, s.setSem v sem.toNat { m with queue := m.queue ++ [(.engine q id, thr.setWidth 32)] })

/-- A command enters the core's queue (R236): it is ready at once, or waits for its semaphore. -/
def enterCopy (i : Instr) (o : CopyOp) (kind : CopyKind) (dst src : Word) (len lines : Nat) (cword : Word) (s : State) : Out :=
  let a := s.cur
  let q := a.core
  let id := (s.core q).cpy.next
  let c := s.accOf a
  let lim := (s.thr q).waitlim.toNat
  let w := if o.wthr = 0 then (true, s) else s.engineWait q id o.wsem o.wthr
  let m : CopyCmd := {
    id := id, kind := kind, dst := dst, src := src, len := len, cword := cword, scope := o.scope, wsem := o.wsem, wthr := o.wthr
    ssem := o.ssem, sinc := o.sinc
    sprig := match a.who with
      | .thread => none
      | .sprig n => some n
    level := c.level, domain := c.domain, since := s.time, bound := if lim = 0 then 1000000 else lim
    stage := if w.1 then .ready else .waiting, order := 0, moved := [], locs := [], release := none }
  finish i ((w.2.modCore q fun c => { c with cpy := { c.cpy with cmds := c.cpy.cmds ++ [m], next := id + 1 } }).chargeCopy a lines)

/-- The common frame: a full queue stalls the instruction (R11); the issuer's earlier stores are performed. -/
def copyEntry (s : State) (k : State → Out) : Out :=
  if 16 ≤ (s.core s.cur.core).cpy.cmds.length then stall s else copyDrained s k

/-- Two ranges of `n` bytes overlap; a range that runs past 2^64 is judged as the numbers from its start on (log 34). -/
def overlap (a b n : Nat) : Bool := 0 < n && a < b + n && b < a + n

/-- 64-byte lines of a length. -/
def lineCount (n : Nat) : Nat := (n + 63) / 64

/-- `bcopy` (R239). -/
def execBcopy (o : CopyOp) (s : State) : Out :=
  copyEntry s fun s =>
    let b := s.rg o.b
    let c := s.rg o.c
    let l := s.rg o.l
    if 2 ^ 40 < l.toNat then operand s l
    else if overlap b.toNat c.toNat l.toNat then operand s b
    else enterCopy (.bcopy o) o .copy b c l.toNat (lineCount l.toNat) 0 s

/-- The descriptor checks of `bcopyt` (R235): checks 1 to 3 of R196, SCALED, and the element types in packed form. -/
def State.copyDesc (s : State) (a : AgentId) (idx : Nat) (out : Bool) : Except Bad (BitVec 512) :=
  match s.descEntry a idx with
  | .error e => .error e
  | .ok d =>
    if descDom d ≠ (s.priv a.core).domain.toNat || !(if out then descWr d else descRd d) || descScaled d ||
        (10 ≤ descEtype d && descEtype d ≤ 12) then
      .error (.trap cDESC 0, BitVec.ofNat 64 idx)
    else .ok d

/-- `bcopyt` (R240). -/
def execBcopyt (out : Bool) (desc : BitVec 16) (o : CopyOp) (s : State) : Out :=
  copyEntry s fun s =>
    match s.copyDesc s.cur desc.toNat out with
    | .error (e, v) => notNow s v e
    | .ok d =>
      let l := s.rg o.l
      let rows := bits l 63 32
      let cols := bits l 31 0
      let len := rows * cols * etypeBytes (descEtype d)
      if 2 ^ 40 < len then operand s l
      else
        let x := s.rg o.c
        enterCopy (.bcopyt out desc o) o (.tensor out d (bits x 31 0) (bits x 63 32) rows cols) (s.rg o.b) (s.rg o.b) len
          (lineCount len) 0 s

/-- `bfill` (R241). -/
def execBfill (o : CopyOp) (s : State) : Out :=
  copyEntry s fun s =>
    let l := s.rg o.l
    if 2 ^ 40 < l.toNat then operand s l
    else enterCopy (.bfill o) o (.fill (s.rg o.c)) (s.rg o.b) 0 l.toNat (lineCount l.toNat) 0 s

/-- `bloadb` (R242). -/
def execBloadb (o : CopyOp) (s : State) : Out :=
  copyEntry s fun s =>
    let b := s.rg o.b
    let c := s.rg o.c
    let l := s.rg o.l
    if 2 ^ 40 < l.toNat then operand s l
    else if b.toNat % 64 ≠ 0 then operand s b
    else if l.toNat % 64 ≠ 0 then operand s l
    else if 0x10000 < b.toNat + l.toNat then operand s b
    else if c.toNat % 64 ≠ 0 then operand s c
    else enterCopy (.bloadb o) o .block b c l.toNat (lineCount l.toNat) 0 s

/-- Steps 1 to 4 of R215 for the completion word of `bcopyc`. -/
def copyWordCheck (s : State) (va : Word) (k : Out) : Out :=
  if !canonical va then raise s cXLATE 0 va
  else if va.toNat % 8 ≠ 0 then raise s cALIGN 0 va
  else withAcc s va (s.access (s.accOf s.cur) .w va) fun _ => k

/-- `bcopyc` (R243). -/
def execBcopyc (lines : BitVec 16) (o : CopyOp) (s : State) : Out :=
  copyEntry s fun s =>
    let b := s.rg o.b
    let c := s.rg o.c
    let len := 64 * lines.toNat
    if b.toNat % 64 ≠ 0 then operand s b
    else if c.toNat % 64 ≠ 0 then operand s c
    else if overlap b.toNat c.toNat len then operand s b
    else copyWordCheck s (s.rg o.l) <| enterCopy (.bcopyc lines o) o .lines b c len lines.toNat (s.rg o.l) s

/-! ### Events -/

/-- COPY_START (R359). -/
def execCopyStart (core : Nat) (s : State) : Out := .next (s.copyStart core)

/-- COPY_LINE_MOVE (R236). -/
def execCopyLineMove (core cmd line : Nat) (s : State) : Out := .next (s.moveLine core cmd line)

/-- COPY_COMPLETE (R236). -/
def execCopyComplete (core cmd : Nat) (s : State) : Out := .next (s.copyComplete core cmd)

/-- COPY_WAIT_LIMIT (R236). -/
def execCopyWaitLimit (core cmd : Nat) (s : State) : Out := .next (s.copyWaitLimit core cmd)

end Sys2Proof.Machine
end

