-- ==== Sys2Proof/Machine/Errors.lean ====
section
/-! DEFINITION. Uncorrectable errors (R191, R252, R330). -/

namespace Sys2Proof.Machine

/-- An error arises in a granule of memory: a dirty copy of the line has been written back before (R252; log 14). -/
def State.granuleError (s : State) (g : Nat) : State :=
  let s := s.writeBack (g / 2)
  { s with ue := Store.ins s.ue g ⟨0, 0⟩ }

/-- UNCORRECTABLE_ERROR: a granule of memory, or a block-store line (R191, R252). -/
def execUncorrectableError (t : UeTarget) (s : State) : Out :=
  .next <| match t with
    | .granule g => s.granuleError g
    | .blockLine q l => s.modCore q fun c => { c with arr := { c.arr with blkUe := l :: c.arr.blkUe.filter fun x => x ≠ l } }

/-- A dirty cached line with an error is logged and not written back; the error stays with its granule (R252, R330). -/
def State.loseDirty (s : State) (q : Nat) (va : Word) (line g : Nat) : State :=
  if (Store.find? s.behind line).isSome then
    let s := s.discardLine line
    State.deliverMCheck { s with ue := Store.ins s.ue g ⟨0, 0⟩ } q none 1 (lineBase va)
  else s

/-- DIRTY_UE: detected by a core; `va` lies in the granule (R330). -/
def execDirtyUe (core : Nat) (va : Word) (line : Nat) (s : State) : Out :=
  .next (s.loseDirty core va line (2 * line + (if bit va 5 then 1 else 0)))

/-- The tiles of a mask that no longer hold their value read as zero. -/
def State.zeroTiles (s : State) (q : Nat) (z : BitVec 8) (c : BitVec 4) : State :=
  s.modCore q fun x => { x with til := { x.til with
    z := x.til.z.filter fun e => !z.getLsbD e.1, c := x.til.c.filter fun e => !c.getLsbD e.1 } }

/-- TILE_UE: tiles of a core read as zero from then on (R330). -/
def execTileUe (core : Nat) (zmask : BitVec 8) (cmask : BitVec 4) (s : State) : Out :=
  .next ((s.zeroTiles core zmask cmask).deliverMCheck core none 4
    (BitVec.ofNat 64 core + field zmask.toNat 8 + field cmask.toNat 16))

end Sys2Proof.Machine
end

