-- ==== Sys2Proof/Machine/Inbound.lean ====
section
/-! DEFINITION. Inbound requests of host ports: the I/O table, reads, writes and atomics (R377), translation and page requests
(R378), and the requests that wait (R282, R360), which an entry of `sched` presents again (log 1). -/

namespace Sys2Proof.Machine

/-- The name under which a request of a port is made: a core of the port's partition, as a party of its own by the request's number (R360). -/
def State.portAgent (s : State) (j id : Nat) : AgentId :=
  let p := Store.get s.portPart 0 j
  ⟨4 * ((List.range 64).find? fun v => Store.get s.vatPart 0 v == p).getD 0, .sprig (65 + id)⟩

/-- An inbound request fails (R377): the first fault is held, and every one raises its source. -/
def State.portFault (s : State) (j : Nat) (rid : BitVec 16) (code : Nat) (addr : Word) : State :=
  let s := if bit (s.port j).fsrc 63 then s
    else s.modPort j fun p => { p with fault := addr, fsrc := flagAt true 63 + field code 16 + field rid.toNat 0 }
  s.raiseExternal (s.port j).evcore (0x1100 + j)

/-- What a presented request comes to: the state, and whether it was served; one that was not waits. -/
abbrev Tried := State × Bool

/-- The port's answer. -/
def State.reply (s : State) (a : Answer) : Tried := ({ s with answer := some a }, true)

/-- The request waits. -/
def waits (s : State) : Tried := (s, false)

/-- A posted write (R282). -/
def PortReq.posted : PortReq → Bool
  | .write _ _ => true
  | .read _ _ | .fetchadd _ _ _ | .swap _ _ _ | .cas _ _ _ _ | .translation _ | .page _ => false

/-- The bytes of memory that a request is for. -/
def PortReq.range : PortReq → Option (Word × Nat)
  | .read va n | .fetchadd va n _ | .swap va n _ | .cas va n _ _ => some (va, n)
  | .write va bs => some (va, bs.length)
  | .translation _ | .page _ => none

/-- A failed request: a write is dropped, what expects data completes with Unsupported Request (R377). -/
def failReq (s : State) (x : Inbound) (code : Nat) (addr : Word) : Tried :=
  let s := s.portFault x.port x.rid code addr
  if x.req.posted then (s, true) else s.reply .unsupported

/-- The agent of a request. -/
def State.agentFor (s : State) (x : Inbound) : AgentId := s.portAgent x.port x.id

/-- Why a request is not served now: it fails, or waits; one that parks on a leaf keeps no line (R348). -/
def badReq (s : State) (x : Inbound) (addr : Word) : AccErr → Tried
  | .trap c _ => failReq s x c addr
  | .stall => waits s
  | .park l => waits (if isPool (64 * l) then s else s.giveUpLines (s.agentFor x))

/-- The first word of the requester's entry (Table 4 of chapter 18), or the cause for which it does not serve. -/
def State.ioEntry (s : State) (x : Inbound) : Except AccErr Nat :=
  let e := bits (s.port x.port).ctl 51 20 * 2 ^ 20 + 16 * x.rid.toNat
  match s.sysRead (s.agentFor x) e, s.sysRead (s.agentFor x) (e + 8) with
  | .error y, _ => .error y
  | _, .error y => .error y
  | .ok w0, .ok w1 =>
    if !tst w0 0 ∨ nbits w0 37 36 ≠ Store.get s.portPart 0 x.port ∨ w0 / 2 ^ 52 ≠ 0 ∨ nbits w0 35 3 ≠ 0 ∨ w1 ≠ 0 then
      .error (.trap cOPERAND 0)
    else .ok w0

/-- The access of a function (R377): user privilege, domain DOM. -/
def State.ioAcc (s : State) (x : Inbound) (w0 : Nat) : Acc := ⟨s.agentFor x, .user, BitVec.ofNat 14 (nbits w0 51 38), none⟩

/-- The pieces of a range by line: address and length. -/
def linePieces (va : Nat) : Nat → Nat → List (Nat × Nat)
  | 0, _ => []
  | _, 0 => []
  | f + 1, n =>
    let k := min n (64 - va % 64)
    (va, k) :: linePieces (va + k) f (n - k)

/-- The address of a request and its length; a translation or page request asks of one address. -/
def PortReq.span : PortReq → Word × Nat
  | .read va n => (va, n)
  | .write va bytes => (va, bytes.length)
  | .fetchadd va n _ | .swap va n _ => (va, n)
  | .cas va n _ _ => (va, n)
  | .translation va | .page va => (va, 1)

/-- The lines of the protection tables that the rights of a domain are read from (R337). -/
def State.protLines (s : State) (p dom : Nat) : List Nat :=
  let e := bits (s.part p).protroot 51 18 * 2 ^ 18 + 16 * dom
  e / 64 :: if !bit (s.part p).protroot 0 || !tst (s.rdN e 8) 0 then []
    else (List.range ((16 * min 4096 (s.rdN (e + 8) 8) + 63) / 64)).map fun k => nbits (s.rdN e 8) 51 6 + k

/-- The slices of this package, by core, that serve a request in its turn (R335, R344, R367): those of its entry in the I/O table, of the
protection and page tables, and the homes of what it names, where its page's translation is kept. -/
def State.homesOf (s : State) (x : Inbound) : List Nat :=
  let p := Store.get s.portPart 0 x.port
  let sys (lines : List Nat) : List Nat := (lines.filter fun l => isHbm (64 * l) && pkgOfLoc (64 * l) == s.pkg).map fun l => sysHome (64 * l)
  let entry := bits (s.port x.port).ctl 51 20 * 2 ^ 20 + 16 * x.rid.toNat
  sys [entry / 64] ++ match s.ioEntry x with
    | .error _ => []
    | .ok w0 =>
      let r := x.req.span
      sys (if bit (s.part p).protroot 0 then s.protLines p (nbits w0 51 38) else []) ++
        (linePieces r.1.toNat (r.2 / 64 + 2) r.2).flatMap fun t =>
          let va := BitVec.ofNat 64 t.1
          let walk := if inSysWindow va || !bit (s.part p).ptroot 0 then [] else match s.walk (s.agentFor x) va with
            | .ok f => s.tableLines p va f.entry
            | .error _ => s.walkLines va 4 (s.ptRoot p)
          sys walk ++ match s.translate (s.agentFor x) va with
            | .ok y => if y.homePkg = s.pkg then [y.home] else []
            | .error _ => []

/-- The clocks of the vats whose slices a request needs restart (R367). -/
def State.wakeSlices (s : State) (x : Inbound) : State := (s.homesOf x).foldl (fun s q => s.restartClock (vatOf q)) s

/-- A request up to its entry: IOTEN = 0 refuses it (R376). -/
def inbound (s : State) (x : Inbound) (va : Word) (k : State → Nat → Tried) : Tried :=
  if !bit (s.port x.port).ctl 0 then s.reply .unsupported
  else match s.ioEntry x with
    | .error e => badReq (s.wakeSlices x) x va e
    | .ok w0 => k (s.wakeSlices x) w0

/-- The checks of one piece of a request (R377); `take` says that it takes its place in the line's reservation queue (R360). -/
def State.ioAccess (s : State) (c : Acc) (rt : Right) (va : Word) (n : Nat) (ue take : Bool) : Except AccErr Xl :=
  if !canonical va then .error (.trap cXLATE 0)
  else match s.access c rt va with
    | .error e => .error e
    | .ok x =>
      if x.crf ≠ 0 then .error (.trap cOPERAND 0)
      else if s.poolLost x.loc then .error (.trap cPOOL 0)
      else if ue && s.ueAt x.loc n then .error (.trap cMEMERR 0)
      else if !take && s.blocked c.agent (x.loc / 64) then .error .stall
      else .ok x

/-- The translated pieces of a request, or the first that fails. -/
def State.ioPieces (s : State) (c : Acc) (rt : Right) : List (Nat × Nat) → Except (AccErr × Word) (List (Word × Nat × Xl))
  | [] => .ok []
  | (va, n) :: rest =>
    let w := BitVec.ofNat 64 va
    match s.ioAccess c rt w n (rt = .r) false with
    | .error e => .error (e, w)
    | .ok x => match State.ioPieces s c rt rest with
      | .error e => .error e
      | .ok xs => .ok ((w, n, x) :: xs)

/-- Read the pieces. -/
def State.readPieces (s : State) : List (Word × Nat × Xl) → State × List Byte
  | [] => (s, [])
  | (_, n, x) :: rest =>
    let r := if isDevice x.loc then
        let d := s.devRead x.loc n
        (d.1, leBytes n d.2)
      else (s, s.rdBytes x.loc n)
    let t := State.readPieces r.1 rest
    (t.1, r.2 ++ t.2)

/-- A read (R377, R282). -/
def tryRead (s : State) (x : Inbound) (va : Word) (len : Nat) : Tried :=
  inbound s x va fun s w0 =>
    match s.ioPieces (s.ioAcc x w0) .r (linePieces va.toNat (len / 64 + 2) len) with
    | .error (e, w) => badReq s x w e
    | .ok ps =>
      let r := s.readPieces ps
      r.1.reply (.data r.2)

/-- The core whose doorbell stands at a location of this package's device window (Table 1 of chapter 18). -/
def State.doorbellAt (s : State) (l : Nat) : Option Nat :=
  match s.devOffset l with
  | some o => if 0x100000 ≤ o ∧ o < 0x101000 ∧ o % 16 = 0 then some ((o - 0x100000) / 16) else none
  | none => none

/-- Write the pieces (R282): each is accepted by its home; full bits stay (R377). A 4-byte write to a doorbell raises its source. -/
def State.writePieces (s : State) (core : Nat) : List (Word × Nat × Xl) → List Byte → State
  | [], _ => s
  | (va, n, x) :: rest, bs =>
    let now := bs.take n
    let s := if isDevice x.loc then
        match s.doorbellAt x.loc with
        | some q => if n = 4 then s.raiseExternal q (leNat now % 4096) else s
        | none => s.devWrite core x.loc n (leNat now)
      else s.accept ⟨x.tag, x.uc, va.toNat / 64, cellsOfBytes x.loc now, false⟩
    State.writePieces s core rest (bs.drop n)

/-- A write (R377, R282). -/
def tryWrite (s : State) (x : Inbound) (va : Word) (bytes : List Byte) : Tried :=
  inbound s x va fun s w0 =>
    match s.ioPieces (s.ioAcc x w0) .w (linePieces va.toNat (bytes.length / 64 + 2) bytes.length) with
    | .error (e, w) => badReq s x w e
    | .ok ps => (s.writePieces (s.agentFor x).core ps bytes).reply .done

/-- The read-modify-write of an atomic at its home: the old value is returned. -/
def State.atomicAt (s : State) (core : Nat) (y : Xl) (va : Word) (size : Nat) (f : Nat → Option Nat) : Tried :=
  let r := if isDevice y.loc then s.devRead y.loc size else (s, s.rdN y.loc size)
  let t := match f r.2 with
    | none => r.1
    | some v =>
      if isDevice y.loc then r.1.devWrite core y.loc size v
      else r.1.accept ⟨y.tag, y.uc, va.toNat / 64, cellsOf y.loc size (v % 2 ^ (8 * size)), false⟩
  t.reply (.data (leBytes size r.2))

/-- An atomic (R377): naturally aligned, of 4 or 8 bytes, with both rights as `amo` (R215), under an internal reservation of its line, in whose queue it waits (R360). -/
def tryAtomic (s : State) (x : Inbound) (va : Word) (size : Nat) (f : Nat → Option Nat) : Tried :=
  inbound s x va fun s w0 =>
    if size ≠ 4 ∧ size ≠ 8 ∨ va.toNat % size ≠ 0 then failReq s x cOPERAND va
    else
      let c := s.ioAcc x w0
      if !canonical va then failReq s x cXLATE va
      else match s.allowed c .r va, s.allowed c .w va with
        | .error e, _ => badReq s x va e
        | _, .error e => badReq s x va e
        | .ok hr, .ok hw =>
          if !hr || !hw then failReq s x cPROT va
          else match s.ioAccess c .r va size true true with
            | .error e => badReq s x va e
            | .ok y =>
              let r := s.request c.agent false y.slice (y.loc / 64) (va.toNat / 64)
              if r.1 then r.2.atomicAt c.agent.core y va size f else waits r.2

/-- A translation request (R378): the address itself, with the rights of the function's domain; the device now holds a translation. -/
def tryTranslation (s : State) (x : Inbound) (va : Word) : Tried :=
  inbound s x va fun s w0 =>
    if !tst w0 1 then s.reply .unsupported
    else if !canonical va then failReq s x cXLATE va
    else
      let c := s.ioAcc x w0
      match s.allowed c .r va, s.allowed c .w va with
      | .error e, _ => badReq s x va e
      | _, .error e => badReq s x va e
      | .ok r, .ok w => (s.modPort x.port fun p => { p with ats := true }).reply (.translation va r w)

/-- A page without a valid translation: Invalid Request and source 0x1200 + j (R378). -/
def State.invalidPage (s : State) (j : Nat) : Tried :=
  (s.raiseExternal (s.port j).evcore (0x1200 + j)).reply (.page false)

/-- A page request (R378): the port walks the tables; Success for a page with a valid translation, else Invalid Request. -/
def tryPage (s : State) (x : Inbound) (va : Word) : Tried :=
  inbound s x va fun s w0 =>
    if !tst w0 2 then s.reply .unsupported
    else if !canonical va then s.invalidPage x.port
    else if inSysWindow va then if s.imageHbm (va.toNat % 2 ^ 52) then s.reply (.page true) else s.invalidPage x.port
    else match s.walkPage (s.agentFor x) va with
      | .ok _ => s.reply (.page true)
      | .error (.trap _ _) => s.invalidPage x.port
      | .error .stall | .error (.park _) => waits s

/-- The result of a CAS. -/
def casNew (size : Nat) (expected new : Word) (old : Nat) : Option Nat :=
  if old = expected.toNat % 2 ^ (8 * size) then some (new.toNat % 2 ^ (8 * size)) else none

/-- A request is presented. -/
def presented (s : State) (x : Inbound) : Tried :=
  match x.req with
  | .read va n => tryRead s x va n
  | .write va bs => tryWrite s x va bs
  | .fetchadd va n v => tryAtomic s x va n fun old => some ((old + v.toNat) % 2 ^ (8 * n))
  | .swap va n v => tryAtomic s x va n fun _ => some (v.toNat % 2 ^ (8 * n))
  | .cas va n e v => tryAtomic s x va n (casNew n e v)
  | .translation va => tryTranslation s x va
  | .page va => tryPage s x va

/-! ### Requests that wait (R282, R360) -/

/-- A posted write of the same requester waits among some requests: no later request passes it, as PCIe orders them (R282; log 26). -/
def heldBack (x : Inbound) (xs : List Inbound) : Bool := xs.any fun y => y.port == x.port && y.rid == x.rid && y.req.posted

/-- A served request leaves what it joined. -/
def State.leaveFor (s : State) (x : Inbound) : State :=
  let s := s.leaveAll (s.agentFor x)
  { s with inbound := s.inbound.filter fun y => y.id ≠ x.id }

/-- The number of the next request that waits. -/
def State.inboundId (s : State) : Nat := (s.inbound.map fun y => y.id + 1).foldl max 0

/-- A request arrives: it is served, or waits. -/
def arrives (port : Nat) (rid : BitVec 16) (req : PortReq) (s : State) : Out :=
  let x : Inbound := ⟨s.inboundId, port, rid, req⟩
  let r := if heldBack x s.inbound then waits s else presented s x
  .next (if r.2 then r.1.leaveFor x else { r.1 with inbound := r.1.inbound ++ [x] })

/-- A request that waits is presented again, but for one behind a posted write of its requester. -/
def State.presentAgain (s : State) (id : Nat) : State :=
  match s.inbound.find? fun y => y.id = id with
  | none => s
  | some x =>
    if heldBack x (s.inbound.takeWhile fun y => y.id ≠ id) then s
    else
      let r := presented s x
      if r.2 then r.1.leaveFor x else r.1

/-- INBOUND_READ (R377, R282). -/
def execInboundRead (port : Nat) (rid : BitVec 16) (va : Word) (len : Nat) (s : State) : Out := arrives port rid (.read va len) s

/-- INBOUND_WRITE (R377, R282). -/
def execInboundWrite (port : Nat) (rid : BitVec 16) (va : Word) (bytes : List Byte) (s : State) : Out :=
  arrives port rid (.write va bytes) s

/-- FETCHADD (R377). -/
def execFetchadd (port : Nat) (rid : BitVec 16) (va : Word) (size : Nat) (v : Word) (s : State) : Out :=
  arrives port rid (.fetchadd va size v) s

/-- SWAP (R377). -/
def execSwap (port : Nat) (rid : BitVec 16) (va : Word) (size : Nat) (v : Word) (s : State) : Out := arrives port rid (.swap va size v) s

/-- INBOUND_CAS (R377). -/
def execInboundCas (port : Nat) (rid : BitVec 16) (va : Word) (size : Nat) (expected new : Word) (s : State) : Out :=
  arrives port rid (.cas va size expected new) s

/-- ATS_TRANSLATION_REQUEST (R378). -/
def execAtsTranslationRequest (port : Nat) (rid : BitVec 16) (va : Word) (s : State) : Out := arrives port rid (.translation va) s

/-- PAGE_REQUEST (R378). -/
def execPageRequest (port : Nat) (rid : BitVec 16) (va : Word) (s : State) : Out := arrives port rid (.page va) s

/-- A vat has a reason to restart its clock (R367). -/
def State.wantsClock (s : State) (v : Nat) : Bool :=
  (vatCores v).any s.anyPending || s.inbound.any fun x => (s.homesOf x).any fun q => vatOf q == v

/-- VAT_CLOCK_RESTART (R367). -/
def execVatClockRestart (vat : Nat) (s : State) : Out := .next (if s.wantsClock vat then s.restartClock vat else s)

/-- DEVICE_INVALIDATION_ACK: the devices of a port have dropped their translations (R351, R378). -/
def execDeviceInvalidationAck (port : Nat) (s : State) : Out := .next (s.modPort port fun p => { p with inval := false })

end Sys2Proof.Machine
end

