-- ==== Sys2Proof/Machine/Fabric.lean ====
section
/-! DEFINITION. Kerran Link (R374, R375), host port links (R373, R376, R379) and the pool tier (R254, R380 to R383). -/

namespace Sys2Proof.Machine

/-! ### Reservation state by location -/

/-- Remove held reservations, queued requests, tagged-word waiters and monitors on the lines of some locations; parked requests look at
their leaf again (R375, R383). -/
def State.dropWhere (s : State) (f : Nat → Bool) : State :=
  let lines := (s.res.filter fun e => f (64 * e.1)).map fun e => e.1
  let s := { s with
    sliceQ := (Store.mapV (fun _ (l : List SlotReq) => l.filter fun r => !f (64 * r.line)) s.sliceQ).filter fun e => e.2 ≠ []
    tagQ := s.tagQ.filter fun e => !f e.1
    monitors := s.monitors.filter fun m => !f m.loc
    parks := [] }
  lines.foldl State.dropLine s

/-- The address that an agent's queued request names, on a line of a virtual line number: an entry of its `mcas`, the word that it waits
for, or that of the `amo` or `cas` at which it stands. -/
def State.requestAddr (s : State) (a : AgentId) (vline : Nat) : Word :=
  let line := BitVec.ofNat 64 (64 * vline)
  match (s.ag a).mcas, (s.ag a).wait, (s.ag a).snap with
  | some h, _, _ => ((h.entries.find? fun e => e.addr.toNat / 64 = vline).map fun e => e.addr).getD line
  | none, some w, _ => w.val
  | none, none, some n =>
    match decodeSlot n.line (slotOf (s.pcOf a).toNat) with
    | .ok (.amo _ _ _ o) | .ok (.cas _ _ o) => State.syncAddr { s with cur := a } o
    | _ => line
  | none, none, none => line

/-- The agents that wait in a queue of a line, or on a word, at some locations, each with the address that it names. -/
def State.waitersOn (s : State) (f : Nat → Bool) : List (AgentId × Word) :=
  ((s.res.filter fun e => f (64 * e.1)).flatMap fun e => e.2.queue.map fun w => (w.1, s.requestAddr w.1 e.2.vline)) ++
  (s.sliceQ.flatMap fun e => (e.2.filter fun r => f (64 * r.line)).map fun r => (r.who, s.requestAddr r.who r.vline)) ++
  (s.tagQ.filter fun e => f e.1).flatMap (fun e => (e.2.fullQ ++ e.2.emptyQ).map fun w => (w.who, BitVec.ofNat 64 w.va)) ++
  (s.monitors.filter fun m => f m.loc).map fun m => (m.who, BitVec.ofNat 64 m.va)

/-- The first entry of each agent. -/
def firstOf : List (AgentId × Word) → List AgentId → List (AgentId × Word)
  | [], _ => []
  | w :: ws, seen => if seen.contains w.1 then firstOf ws seen else w :: firstOf ws (w.1 :: seen)

/-- A parked request names one of some locations: it waits for its region (R382), or on the in-transit leaf of a page whose old frame lies
there (R348). -/
def State.parkedOn (s : State) (f : Nat → Bool) (k : Park) : Bool :=
  if isPool (64 * k.line) then f (64 * k.line)
  else match s.transitOf k.who k.va with
    | .ok (some (e, level)) =>
      let m := nbits e 51 6 * 64
      let n := leafSize level (tst (s.rdN m 8) 3)
      s.imageHbm m && f (frameOf (s.rdN m 8) n + va56 k.va % n)
    | .ok none | .error _ => false

/-- An inbound request is made by an agent's name. -/
def State.isPort (s : State) (a : AgentId) : Bool := s.inbound.any fun x => s.agentFor x == a

/-- The parked request is one of the oldest tile commands of its core. -/
def State.parkedTile (s : State) (k : Park) : Bool :=
  k.who.who == .thread && (s.core k.who.core).til.queue.any fun t => t.held == some (.waiting (some k.line))

/-- A parked request of a tile command ends in a condition, which its command holds until it retires (R211). -/
def State.endTilePark (s : State) (code : Nat) (k : Park) : State :=
  let ended (t : TileCmd) : TileCmd :=
    if t.held = some (.waiting (some k.line)) then { t with held := some (.trap code 0 k.va) } else t
  s.modCore k.who.core fun c => { c with til := { c.til with queue := c.til.queue.map ended } }

/-- The requests of agents that wait at some locations leave, with those `parked` and the releases `ends`, and end in a condition at their
instructions, each agent's once (R375, R383). -/
def State.failWaiting (s : State) (f : Nat → Bool) (code : Nat) (parked : List Park) (ends : List (AgentId × Word)) : State :=
  let own := parked.filter fun k => !s.parkedTile k
  let ws := ((s.waitersOn f).filter fun w => !s.isPort w.1) ++ own.map (fun k => (k.who, k.va)) ++ ends
  let s := (parked.filter fun k => s.parkedTile k).foldl (fun s k => s.endTilePark code k) (s.dropWhere f)
  (firstOf ws []).foldl (fun s w => s.condAt w.1 code 0 w.2) s

/-- The inbound requests that wait for some locations, each with the first address of it there. -/
def State.inboundOn (s : State) (f : Nat → Bool) : List (Inbound × Word) :=
  s.inbound.filterMap fun x => match x.req.range with
    | none => none
    | some (va, n) => ((linePieces va.toNat (n / 64 + 2) n).find? fun p =>
        match s.translate (s.agentFor x) (BitVec.ofNat 64 p.1) with
        | .ok y => f y.loc
        | .error _ => false).map fun p => (x, BitVec.ofNat 64 p.1)

/-- They fail (R377, R383). -/
def State.failInbound (s : State) (xs : List (Inbound × Word)) (code : Nat) : State :=
  xs.foldl (fun s x => State.leaveFor (failReq s x.1 code x.2).1 x.1) s

/-! ### Kerran Link -/

/-- A source raised on the lowest-numbered running core of the package. -/
def State.raiseFirst (s : State) (src : Nat) : State :=
  match s.firstRunning with
  | some q => s.raiseExternal q src
  | none => s

/-- Packages become unreachable (R375): dirty lines homed there are lost, requests at their homes take MEMERR. -/
def State.losePackages (s : State) (ps : List Nat) : State :=
  let ps := ps.filter fun p => s.present.contains p && p != s.pkg && !s.unreachable.contains p
  let hit (l : Nat) : Bool := isHbm l && ps.contains (pkgOfLoc l)
  let q := s.firstRunning.getD 0
  let s := (s.behind.filter fun e => hit (64 * e.1)).foldl (fun s e =>
    (s.discardLine e.1).deliverMCheck q none 1 (lineBase (BitVec.ofNat 64 e.2.va))) s
  State.failWaiting { s with unreachable := s.unreachable ++ ps } hit cMEMERR [] []

/-- KERRAN_LINK_CHANGE: a link fails, and accesses wait until traffic has moved, or regains its link (R373, R375). -/
def execKerranLinkChange (port : Nat) (up : Bool) (unreachable : List Nat) (s : State) : Out :=
  let m := BitVec.ofNat 12 (2 ^ port)
  let s := { s with kerranUp := if up then s.kerranUp ||| m else s.kerranUp &&& ~~~m, rerouting := s.rerouting || !up }
  .next ((if up then s else s.losePackages unreachable).raiseFirst (0x1300 + port))

/-- KERRAN_REROUTE_DONE (R375). -/
def execKerranRerouteDone (s : State) : Out := .next { s with rerouting := false }

/-! ### Entry into LOST (R383) -/

/-- A location lies in a region. -/
def Region.holds (g : Region) (l : Nat) : Bool :=
  bits g.w0 51 28 * 2 ^ 28 ≤ l && l < (bits g.w0 51 28 + bits g.w1 15 0) * 2 ^ 28

/-- Stranded lines that a die holds, over all regions. -/
def State.strandedOn (s : State) (die : Nat) : Nat :=
  sumNat (s.pool.map fun e => (e.2.stranded.filter fun x => x.2.2.1 = die).length)

/-- One dirty line at the loss: stranded if its die has room, else discarded and counted, with its address to those discarded. -/
def State.strand (s : State) (r : Nat) (x : List Nat × State) (e : Nat × Behind) : List Nat × State :=
  let t := x.2
  let die := Config.freeDie t.fresh % 4
  let t := { t with fresh := t.fresh + 1 }
  let data := BitVec.ofNat 512 (s.rdN (64 * e.1) 64)
  if t.strandedOn die < 2048 then
    (x.1, (t.discardLine e.1).modRegion r fun g => { g with stranded := Store.ins g.stranded e.1 (data, die, false) })
  else
    let t := (t.discardLine e.1).modRegion r fun g => g.countLost (poolOff e.1 e.2.va)
    (e.2.va :: x.1, if x.1 ≠ [] then t else t.deliverMCheck (bits (t.region r).w0 15 8) none 5 (BitVec.ofNat 64 r))

/-- The lowest address among the counted writes that a release waits for: those sent to the device, and, before it has sent the dirty lines,
those discarded for want of room (R383). -/
def PoolWait.counted (f : PoolWait) (sent : List Flight) (gone : List Nat) : Option Nat :=
  (((sent.filter fun w => f.waits.contains w.id).map fun w => w.was.va) ++ if f.sent then [] else gone).foldl
    (fun m a => some (min (m.getD a) a)) f.lost

/-- The releases of copy commands of a partition that wait for counted writes (R383). -/
def State.loseReleases (s : State) (p : Nat) (sent : List Flight) (gone : List Nat) : State :=
  { s with
    cores := Store.mapV (fun q c => if s.partOf q ≠ p then c else { c with cpy := { c.cpy with
      cmds := c.cpy.cmds.map fun m => { m with release := m.release.map fun w => { w with lost := w.counted sent gone } } } }) s.cores }

/-- The agents of a partition whose release waits for a counted write, with the lowest address, or whose clean of a line does, with its own
(R383). -/
def State.fencesHit (s : State) (p : Nat) (sent : List Flight) (gone : List Nat) : List (AgentId × Word) :=
  (s.poolFences.filter fun f => s.partOf f.who.core = p).filterMap fun f =>
    (f.wait.counted sent gone).map fun a => (f.who, f.line.getD (BitVec.ofNat 64 a))

/-- A write sent to the device and not completed is counted, and memory holds again what the device held before it (R383). -/
def State.loseFlight (s : State) (r : Nat) (w : Flight) : State :=
  (s.restoreLine w.line w.was).modRegion r fun g => g.countLost (poolOff w.line w.was.va)

/-- A region enters LOST, in one step (R383). -/
def State.loseRegion (s : State) (r : Nat) : State :=
  let g := s.region r
  let p := bits g.w0 17 16
  let hit (l : Nat) : Bool := isPool l && g.holds l
  let parked := s.parks.filter fun k => s.parkedOn hit k
  let dirty := s.behind.filter fun e => g.holds (64 * e.1)
  let d := dirty.foldl (State.strand s r) ([], s)
  let ends := d.2.fencesHit p g.inFlight d.1
  let s := g.inFlight.reverse.foldl (State.loseFlight · r) d.2
  let s := s.modRegion r fun g => { g with st := .lost, inFlight := [] }
  let xs := s.inboundOn hit
  (((s.loseReleases p g.inFlight d.1).failWaiting hit cPOOL parked ends).failInbound xs cPOOL).regionEvent r

/-! ### Links and regions (R382) -/

/-- The link of a region is lost: failover when an alternate is up, else LOST (Table 7 of chapter 18). -/
def State.loseLink (s : State) (r : Nat) : State :=
  let g := s.region r
  if !g.valid then s
  else match g.st with
    | .online =>
      if bit g.w0 5 && !g.onAlt && s.linkUp (bits g.w0 4 3) then
        (s.modRegion r fun g => { g with st := .failover }).regionEvent r
      else s.loseRegion r
    | .failover => s.loseRegion r
    | .lost => s

/-- The link that a region needs now: the serving one, or the alternate during failover. -/
def Region.needs (g : Region) : Nat :=
  match g.st with
  | .online | .lost => g.serving
  | .failover => bits g.w0 4 3

/-- A region whose link is reported down loses it. -/
def State.checkLink (s : State) (r : Nat) : State := if s.linkUp (s.region r).needs then s else s.loseLink r

/-- POOL_LINK_LOST: the port of the region's link reports link down (R382). -/
def execPoolLinkLost (region : Nat) (s : State) : Out := .next (s.checkLink region)

/-- POOL_COMPLETION_TIMEOUT: a request without completion for 10 us counts as loss of the link (R382). -/
def execPoolCompletionTimeout (region : Nat) (s : State) : Out := .next (s.loseLink region)

/-- FAILOVER_COMPLETE (R382): the accesses that waited for the region go on. -/
def execFailoverComplete (region : Nat) (s : State) : Out :=
  .next <|
    let g := s.region region
    if g.valid && g.st == .failover then
      (State.modRegion { s with parks := s.parks.filter fun k => !(isPool (64 * k.line) && g.holds (64 * k.line)) } region fun g =>
        { g with st := .online, onAlt := true }).regionEvent region
    else s

/-- A port's link state, as it reports it. In CXL mode a link that does not train in 256-byte flits stays down (R379). -/
def State.setLinkState (s : State) (j : Nat) (up flit : Bool) : State :=
  let up := up && (flit || !bit (s.port j).ctl 1)
  (s.modPort j fun p => { p with link := (if up then 1 else 0) + (if up && flit then 2 else 0) }).raiseExternal
    (s.port j).evcore (0x1000 + j)

/-- HOST_LINK_CHANGE: the link state, its event, and the regions that lose their link (R373, R376, R382). A port that reports the link
state it has reports a dynamic-capacity event (R373, R379). -/
def execHostLinkChange (port : Nat) (up flit256 : Bool) (s : State) : Out :=
  let s := s.setLinkState port up flit256
  .next ((s.pool.map fun e => e.1).foldl (fun s r =>
    if (s.region r).valid && (s.region r).needs == port then s.checkLink r else s) s)

/-- POOL_LINK_RESTORED: the link of a region comes back; a LOST region is unchanged (R382). -/
def execPoolLinkRestored (region : Nat) (s : State) : Out := .next (s.setLinkState (s.region region).serving true true)

/-- POOL_WRITE_COMPLETION: the device completes the oldest write of a line in flight to it (R283). -/
def execPoolWriteCompletion (region line : Nat) (s : State) : Out :=
  .next (s.modRegion region fun g => { g with inFlight := g.inFlight.eraseP fun w => w.line = line })

/-- BACK_INVALIDATE: a snoop takes a pool line out of the caches; a dirty copy goes to the device (R254). -/
def execBackInvalidate (line : Nat) (s : State) : Out := .next (if isPool (64 * line) then s.writeBack line else s)

/-- HPCTL_WRITE (R376, R379). -/
def execHpctlWrite (port : Nat) (v : Word) (s : State) : Out := .next (s.writeHpctl port v)

/-- DOORBELL: a 4-byte inbound write to a core's doorbell (R373). -/
def execDoorbell (core : Nat) (data : BitVec 32) (s : State) : Out := .next (s.raiseExternal core (data.toNat % 4096))

end Sys2Proof.Machine
end

