-- ==== Sys2Proof/Machine/Firmware.lean ====
section
/-! DEFINITION. `svc` (R139) and the firmware calls (R310, R392). A call enters firmware, performs the service and returns in one step
(log 17). -/

namespace Sys2Proof.Machine

/-- `svc` as a trap: it retires first (R139, R316). -/
def svcTrap (i : Instr) (code : BitVec 16) (s : State) : Out :=
  let n := s.nextPc s.cur
  .next ((s.retire s.cur i).trapEntry s.cur.core cSVC 0 false n (code.setWidth 64))

/-- A firmware call is made: by a thread at kernel privilege with NEST = 0 (R310); otherwise `svc` traps. -/
def firmwareCall (i : Instr) (code : BitVec 16) (s : State) (k : Out) : Out :=
  onlyThread i s <|
    let p := s.priv s.cur.core
    if p.status.pl = .kernel ∧ !p.status.nest then k else svcTrap i code s

/-- A service returns with g1. -/
def fwReturn (i : Instr) (s : State) (g1 : Word) : Out := finishG i 1 g1 s

/-- The result of a bad argument (R392). -/
def badArgument : Word := 2

/-- VERSION: g2 the version of the active slot, g3 and g4 the accepted feature word (R392). -/
def fwVersion (i : Instr) (s : State) : Out :=
  let a := s.cur
  let f := s.caltik.feature
  let v := Config.freeVersion (s.caltik.slot s.caltik.active).version
  fwReturn i (((s.setG a 2 v).setG a 3 (f.setWidth 64)).setG a 4 ((f >>> 64).setWidth 64)) 0

/-- Bytes in memory can be read with the thread's rights: none says that an access must wait. -/
def State.canRead (s : State) (va : Word) : Nat → Option Bool
  | 0 => some true
  | n + 1 =>
    if !canonical va then some false
    else match s.loadValue s.cur va 1 false with
      | .ok _ => State.canRead s (va + 1) n
      | .error (.trap _ _) => some false
      | .error _ => none

/-- Store bytes one by one: a failing address gives none, an access that must wait the original state. -/
def State.storeBytes (s : State) (va : Word) : List Byte → Except AccErr State
  | [] => .ok s
  | b :: bs =>
    if !canonical va then .error (.trap cXLATE 0)
    else match s.storeValue s.cur va [b] with
      | .ok s => State.storeBytes s (va + 1) bs
      | .error e => .error e

/-- A service that writes bytes that Caltik forms at an address (log 16); `t` is the state from which it stores them. -/
def fwOutput (i : Instr) (va : Word) (bs : List Byte) (t s : State) : Out :=
  match t.storeBytes va bs with
  | .ok t => fwReturn i t 0
  | .error (.trap _ _) => fwReturn i s badArgument
  | .error _ => stall s

/-- SIGN: a 48-byte digest at g2, 96 bytes out at g3 (R392). -/
def fwSign (i : Instr) (s : State) : Out :=
  match s.canRead (s.rg 2) 48 with
  | none => stall s
  | some false => fwReturn i s badArgument
  | some true =>
    fwOutput i (s.rg 3) ((List.range 96).map fun k => Config.freeCaltik s.fresh k) { s with fresh := s.fresh + 1 } s

/-- SET_LIMIT: g2 watts (R392). -/
def fwSetLimit (i : Instr) (s : State) : Out :=
  let w := (s.rg 2).toNat
  if limitOk w then fwReturn i (s.setBudget w) 0 else fwReturn i s badArgument

/-- SET_RESTART: g2 a canonical head address (R392). -/
def fwSetRestart (i : Instr) (s : State) : Out :=
  let e := s.rg 2
  if canonical e && isHeadAddr e.toNat then
    fwReturn i (s.modPart (s.partOf s.cur.core) fun t => { t with restart := some e }) 0
  else fwReturn i s badArgument

/-- LOG_READ: g2 an index, 64 bytes out at g3 (R392). -/
def fwLogRead (i : Instr) (s : State) : Out :=
  match s.caltik.log[(s.rg 2).toNat]? with
  | none => fwReturn i s badArgument
  | some e => fwOutput i (s.rg 3) (logBytes e) s s

def execFwCallVersion (s : State) : Out := firmwareCall .fwCallVersion 0xFF00 s (fwVersion .fwCallVersion s)

def execSign (s : State) : Out := firmwareCall .sign 0xFF01 s (fwSign .sign s)

def execFwCallSetLimit (s : State) : Out := firmwareCall .fwCallSetLimit 0xFF02 s (fwSetLimit .fwCallSetLimit s)

def execSetRestart (s : State) : Out := firmwareCall .setRestart 0xFF03 s (fwSetRestart .setRestart s)

def execFwCallLogRead (s : State) : Out := firmwareCall .fwCallLogRead 0xFF04 s (fwLogRead .fwCallLogRead s)

/-- `svc` (R139, R310): a trap to the kernel, or at kernel privilege with a code from 0xFF00 a firmware call; a code that names no
service returns all ones. -/
def execSvc (code : BitVec 16) (s : State) : Out :=
  let i : Instr := .svc code
  if code.toNat < 0xFF00 then onlyThread i s (svcTrap i code s)
  else firmwareCall i code s <|
    if code = 0xFF00 then fwVersion i s
    else if code = 0xFF01 then fwSign i s
    else if code = 0xFF02 then fwSetLimit i s
    else if code = 0xFF03 then fwSetRestart i s
    else if code = 0xFF04 then fwLogRead i s
    else fwReturn i s 0xFFFFFFFFFFFFFFFF

end Sys2Proof.Machine
end

