-- ==== Sys2Proof/Machine/Migrate.lean ====
section
/-! DEFINITION. `migrate`, the arrival of a context, and the replies redirected (R41 to R43, R150, R332, R333). -/

namespace Sys2Proof.Machine

/-- A core accepts an arriving context now (R332): `idle` at kernel privilege, ACC set, bound to a press. -/
def State.accepts (s : State) (t : Nat) : Bool :=
  (match (s.thr t).run with
    | .idle _ => true
    | .off | .running | .halted | .lost => false) &&
  (s.priv t).status.pl == .kernel && (s.priv t).status.acc && s.binding t != 3

/-- Every sprig of a core is IDLE or FAULTED. -/
def State.sprigsQuiet (s : State) (q : Nat) : Bool :=
  (List.range (s.core q).arr.n).all fun i => (s.sprig q i).st = .idle || (s.sprig q i).st = .faulted

/-- What the old core sends (R333), with SELF replaced by the target's logical number. -/
def State.travel (s : State) (q : Nat) (self : Word) : Travel :=
  let c := s.core q
  let t := c.thr
  { g := t.g.filter fun e => e.1 < 32
    pc := t.pc, rm := t.rm, fpstat := t.fpstat, waitlim := t.waitlim, ltbase := t.ltbase, cycle := t.cycle, retired := t.retired
    energy := t.energy, sat := t.sat, domain := c.priv.domain, barcfg := c.priv.barcfg
    coretab := field (bits c.priv.coretab 51 9) 9 + field (bits self 7 0) 0
    sprigtrap := c.priv.status.sprigtrap, n := c.arr.n, r := c.arr.r, z := c.til.z, c := c.til.c }

/-- The old core after the departure, but for its trap (R333). Its unreported set is empty: the model's choice (log 37). -/
def State.depart (s : State) (q : Nat) : State :=
  let k := Config.freeReplies s.fresh
  let s := { s with fresh := s.fresh + 1 }
  (s.modCore q fun c => { c with
    thr := { c.thr with g := c.thr.g.filter fun e => 32 ≤ e.1 }
    priv := { c.priv with ctximg := c.priv.ctximg &&& ~~~1#64 }
    resident := false, unrep := 0
    forward := if k = 0 then none else some k }).setBarcfg q 0

/-- The claim: ACC falls, and the message is on its way (R332, R333). -/
def State.claim (s : State) (t : Nat) (m : Travel) : State :=
  (s.modStatus t fun st => { st with acc := false }).modCore t fun c => { c with arrival := some m, claimed := true }

/-- Move the thread to another core (R41, R333). The thread's own logical core is any number whose entry gives the core that executes
(log 42). A source pending at the old core stays pending there (log 46). -/
def execMigrate (b : BitVec 5) (s : State) : Out :=
  let i : Instr := .migrate b
  onlyThread i s <|
    let v := s.rg b
    namedCore s v fun s t =>
      let q := s.cur.core
      if t = q then finish i s
      else if !s.sprigsQuiet q || !s.accepts t then raise s cMIGRATE 0 v
      else
        let s := (s.mergeCore q).retire s.cur i
        let s := (s.claim t (s.travel q v)).depart q
        .next (s.trapEntry q cMIGRATE 0 false (s.pcOf s.cur) (v ||| 0x8000000000000000))

/-- The target loads the message (R42, R333). -/
def State.load (s : State) (q : Nat) (m : Travel) : State :=
  let s := s.modCore q fun c => { c with
    thr := { c.thr with
      g := m.g ++ c.thr.g.filter fun e => 32 ≤ e.1
      pc := m.pc, rm := m.rm, fpstat := m.fpstat, waitlim := m.waitlim, ltbase := m.ltbase, cycle := m.cycle
      retired := m.retired, energy := m.energy, sat := m.sat, run := .running
      ag := { c.thr.ag with snap := none, ahead := [], late := [], wait := none } }
    priv := { c.priv with
      domain := m.domain, coretab := m.coretab, ctximg := c.priv.ctximg &&& ~~~1#64
      status := { c.priv.status with pl := .user, ie := true, nest := false, arr := true, sprigtrap := m.sprigtrap } }
    til := { c.til with z := m.z, c := m.c }
    resident := true, arrival := none, claimed := false }
  (s.configure q m.n m.r).setBarcfg q m.barcfg

/-- MIGRATE_ARRIVAL (R333). The target's array is set as by `sconf` (R42), so the arrival waits, and changes nothing, until no sprig of it
is ready, running or waiting (R18; log 24). The core runs from here on, so that its vat's clock does (R367, log 24). -/
def execMigrateArrival (core : Nat) (s : State) : Out :=
  .next <| match (s.core core).arrival with
    | some m => if s.sprigsDone core then (s.restartClock (vatOf core)).load core m else s
    | none => s

/-- REPLY_REDIRECT: a reply for the departed context is redirected; the forwarding entry goes with the last (R43, R333). -/
def execReplyRedirect (core : Nat) (s : State) : Out :=
  .next <| s.modCore core fun c => { c with forward := match c.forward with
    | some (n + 2) => some (n + 1)
    | some _ | none => none }

/-- PARKED_REQUEST_RESUME: a parked request walks again (R348); if it meets the in-transit leaf it parks anew. -/
def execParkedRequestResume (a : AgentId) (s : State) : Out := .next { s with parks := s.parks.filter fun p => p.who ≠ a }

end Sys2Proof.Machine
end

