-- ==== Sys2Proof/Machine/ScalarFloat.lean ====
section
/-! DEFINITION. Scalar floating point (R46, R129 to R134). -/

namespace Sys2Proof.Machine

/-- The format of a precision. -/
def precTy : Prec → Ty
  | .f64 => .f64
  | .f32 => .f32
  | .f16 => .f16
  | .bf16 => .bf16

/-- A source of a precision: only its low bits (R46). -/
def State.rgF (s : State) (p : Prec) (r : BitVec 5) : Nat := (s.rg r).toNat % 2 ^ (precTy p).width

/-- Write a result with its flags and complete; the upper bits of a narrow result are zero (R46, R129). -/
def finishF (i : Instr) (d : BitVec 5) (r : Rounded) (s : State) : Out :=
  finishG i d (BitVec.ofNat 64 r.1) (s.raiseFlags s.cur r.2)

/-- rb + rc (R130). -/
def execFadd (p : Prec) (r : Rnd) (d b c : BitVec 5) (s : State) : Out :=
  finishF (.fadd p r d b c) d (arithF .add (precTy p) (s.mode s.cur r) (s.rgF p b) (s.rgF p c)) s

/-- rb - rc (R130). -/
def execFsub (p : Prec) (r : Rnd) (d b c : BitVec 5) (s : State) : Out :=
  finishF (.fsub p r d b c) d (arithF .sub (precTy p) (s.mode s.cur r) (s.rgF p b) (s.rgF p c)) s

/-- rb x rc (R130). -/
def execFmul (p : Prec) (r : Rnd) (d b c : BitVec 5) (s : State) : Out :=
  finishF (.fmul p r d b c) d (arithF .mul (precTy p) (s.mode s.cur r) (s.rgF p b) (s.rgF p c)) s

/-- rb / rc (R130). -/
def execFdiv (p : Prec) (r : Rnd) (d b c : BitVec 5) (s : State) : Out :=
  finishF (.fdiv p r d b c) d (arithF .div (precTy p) (s.mode s.cur r) (s.rgF p b) (s.rgF p c)) s

/-- Square root of rb (R130). -/
def execFsqrt (p : Prec) (r : Rnd) (d b : BitVec 5) (s : State) : Out :=
  finishF (.fsqrt p r d b) d (sqrtF (precTy p) (s.mode s.cur r) (s.rgF p b)) s

/-- rb x rc + rd, rounded once (R130). -/
def execFma (p : Prec) (r : Rnd) (d b c : BitVec 5) (s : State) : Out :=
  finishF (.fma p r d b c) d (fmaF (precTy p) (s.mode s.cur r) (s.rgF p b) (s.rgF p c) (s.rgF p d)) s

/-- The lesser operand (R131). -/
def execFmin (p : Prec) (d b c : BitVec 5) (s : State) : Out :=
  finishF (.fmin p d b c) d (minMaxF (precTy p) false (s.rgF p b) (s.rgF p c)) s

/-- The greater operand (R131). -/
def execFmax (p : Prec) (d b c : BitVec 5) (s : State) : Out :=
  finishF (.fmax p d b c) d (minMaxF (precTy p) true (s.rgF p b) (s.rgF p c)) s

/-- The comparison of R105 that a condition of `fcmp` names. -/
def fcmpCond : FCmpCond → VCond
  | .eq => .eq
  | .lt => .lt
  | .le => .le
  | .un => .un

/-- 1 if the condition holds, else 0 (R132). -/
def execFcmp (q : FCmpCond) (p : Prec) (d b c : BitVec 5) (s : State) : Out :=
  let r := cmpF (precTy p) (fcmpCond q) (s.rgF p b) (s.rgF p c)
  finishF (.fcmp q p d b c) d (if r.1 then 1 else 0, r.2) s

/-- The result of an `fcvt` (Table 2 of R133). A saturating conversion of an infinity to its own format follows `RoundToFormat`: the model's
choice (log 45). -/
def cvtResult (k : FCvt) (mode : Rnd) (v : Word) : Rounded :=
  match k with
  | .toFloat p sat (.float q) => roundTo (unpackF (precTy q) (v.toNat % 2 ^ (precTy q).width)) (precTy p) mode sat
  | .toFloat p sat .s64 => roundTo (numOfInt v.toInt) (precTy p) mode sat
  | .toFloat p sat .u64 => roundTo (numOfInt v.toNat) (precTy p) mode sat
  | .toInt u _ q => intConvert (unpackF (precTy q) (v.toNat % 2 ^ (precTy q).width)) 64 (!u) mode

/-- Conversion (R133). -/
def execFcvt (k : FCvt) (r : Rnd) (d b : BitVec 5) (s : State) : Out :=
  finishF (.fcvt k r d b) d (cvtResult k (s.mode s.cur r) (s.rg b)) s

/-- The class mask (R134). -/
def execFclass (p : Prec) (d b : BitVec 5) (s : State) : Out :=
  finishG (.fclass p d b) d (BitVec.ofNat 64 (classF (precTy p) (s.rgF p b))) s

end Sys2Proof.Machine
end

