-- ==== Sys2Proof/Machine/ScalarInt.lean ====
section
/-! DEFINITION. Scalar integer instructions (R98, R99, R124 to R128). They compute alike in a thread and a sprig. -/

namespace Sys2Proof.Machine

/-! ### What they compute -/

/-- Shifts by a count modulo 64 (R98). -/
def shlW (x : Word) (n : Nat) : Word := x <<< (n % 64)
def shrW (x : Word) (n : Nat) : Word := x >>> (n % 64)
def sraW (x : Word) (n : Nat) : Word := x.sshiftRight (n % 64)

/-- High half of the exact product (R98). -/
def mulhW (u : Bool) (x y : Word) : Word :=
  if u then BitVec.ofNat 64 (x.toNat * y.toNat / 2 ^ 64) else BitVec.ofInt 64 (x.toInt * y.toInt / 2 ^ 64)

/-- Quotient toward zero; all ones for a zero divisor (R99). -/
def divW (u : Bool) (x y : Word) : Word :=
  if y = 0 then BitVec.allOnes 64
  else if u then BitVec.ofNat 64 (x.toNat / y.toNat)
  else BitVec.ofInt 64 (x.toInt.tdiv y.toInt)

/-- Remainder with the dividend's sign; the dividend for a zero divisor (R99). -/
def remW (u : Bool) (x y : Word) : Word :=
  if y = 0 then x
  else if u then BitVec.ofNat 64 (x.toNat % y.toNat)
  else BitVec.ofInt 64 (x.toInt.tmod y.toInt)

/-- Signed or unsigned less-than. -/
def ltW (u : Bool) (x y : Word) : Bool := if u then x.ult y else x.slt y

/-- Leading zeros; 64 for zero (R125). -/
def clzW (x : Word) : Word := if x = 0 then 64 else BitVec.ofNat 64 (63 - Nat.log2 x.toNat)

/-- Trailing zeros; 64 for zero (R125). -/
def ctzW (x : Word) : Word := BitVec.ofNat 64 (lowN 64 x.toNat)

/-- Number of one bits (R125). -/
def popcW (x : Word) : Word := BitVec.ofNat 64 (popN 64 x.toNat)

/-! ### The instructions -/

/-- rb + rc (R124). -/
def execAdd (d b c : BitVec 5) (s : State) : Out :=
  finishG (.add d b c) d (s.rg b + s.rg c) s

/-- rb - rc (R124). -/
def execSub (d b c : BitVec 5) (s : State) : Out :=
  finishG (.sub d b c) d (s.rg b - s.rg c) s

/-- Bitwise and (R124). -/
def execAnd (d b c : BitVec 5) (s : State) : Out :=
  finishG (.and d b c) d (s.rg b &&& s.rg c) s

/-- Bitwise or (R124). -/
def execOr (d b c : BitVec 5) (s : State) : Out :=
  finishG (.or d b c) d (s.rg b ||| s.rg c) s

/-- Bitwise exclusive or (R124). -/
def execXor (d b c : BitVec 5) (s : State) : Out :=
  finishG (.xor d b c) d (s.rg b ^^^ s.rg c) s

/-- Shift left by rc mod 64 (R124). -/
def execShl (d b c : BitVec 5) (s : State) : Out :=
  finishG (.shl d b c) d (shlW (s.rg b) (s.rg c).toNat) s

/-- Logical shift right (R124). -/
def execShr (d b c : BitVec 5) (s : State) : Out :=
  finishG (.shr d b c) d (shrW (s.rg b) (s.rg c).toNat) s

/-- Arithmetic shift right (R124). -/
def execSra (d b c : BitVec 5) (s : State) : Out :=
  finishG (.sra d b c) d (sraW (s.rg b) (s.rg c).toNat) s

/-- Low half of the product (R124). -/
def execMul (d b c : BitVec 5) (s : State) : Out :=
  finishG (.mul d b c) d (s.rg b * s.rg c) s

/-- High half of the product (R124). -/
def execMulh (u : Bool) (d b c : BitVec 5) (s : State) : Out :=
  finishG (.mulh u d b c) d (mulhW u (s.rg b) (s.rg c)) s

/-- Quotient (R99). -/
def execDiv (u : Bool) (d b c : BitVec 5) (s : State) : Out :=
  finishG (.div u d b c) d (divW u (s.rg b) (s.rg c)) s

/-- Remainder (R99). -/
def execRem (u : Bool) (d b c : BitVec 5) (s : State) : Out :=
  finishG (.rem u d b c) d (remW u (s.rg b) (s.rg c)) s

/-- Lesser (R124). -/
def execMin (u : Bool) (d b c : BitVec 5) (s : State) : Out :=
  finishG (.min u d b c) d (if ltW u (s.rg b) (s.rg c) then s.rg b else s.rg c) s

/-- Greater (R124). -/
def execMax (u : Bool) (d b c : BitVec 5) (s : State) : Out :=
  finishG (.max u d b c) d (if ltW u (s.rg b) (s.rg c) then s.rg c else s.rg b) s

/-- 1 if less, else 0 (R124). -/
def execSlt (u : Bool) (d b c : BitVec 5) (s : State) : Out :=
  finishG (.slt u d b c) d (if ltW u (s.rg b) (s.rg c) then 1 else 0) s

/-- rb if rc is not 0; otherwise nothing is written (R124). -/
def execCmov (d b c : BitVec 5) (s : State) : Out :=
  if s.rg c = 0 then finish (.cmov d b c) s else finishG (.cmov d b c) d (s.rg b) s

/-- Leading zeros (R125). -/
def execClz (d b : BitVec 5) (s : State) : Out :=
  finishG (.clz d b) d (clzW (s.rg b)) s

/-- Trailing zeros (R125). -/
def execCtz (d b : BitVec 5) (s : State) : Out :=
  finishG (.ctz d b) d (ctzW (s.rg b)) s

/-- One bits (R125). -/
def execPopc (d b : BitVec 5) (s : State) : Out :=
  finishG (.popc d b) d (popcW (s.rg b)) s

/-- rb[n:0] sign-extended (R125). -/
def execSext (d b : BitVec 5) (n : BitVec 6) (s : State) : Out :=
  finishG (.sext d b n) d (sextN (s.rg b).toNat (n.toNat + 1)) s

/-- rb[n:0] zero-extended (R125). -/
def execZext (d b : BitVec 5) (n : BitVec 6) (s : State) : Out :=
  finishG (.zext d b n) d (BitVec.ofNat 64 ((s.rg b).toNat % 2 ^ (n.toNat + 1))) s

/-- rb + (rc << n) (R125). -/
def execAddsh (d b c : BitVec 5) (n : BitVec 6) (s : State) : Out :=
  finishG (.addsh d b c n) d (s.rg b + (s.rg c <<< n.toNat)) s

/-- rb + sext(IMM16) (R126). -/
def execAddi (d b : BitVec 5) (imm : BitVec 16) (s : State) : Out :=
  finishG (.addi d b imm) d (s.rg b + sextN imm.toNat 16) s

/-- rb and sext(IMM16) (R126). -/
def execAndi (d b : BitVec 5) (imm : BitVec 16) (s : State) : Out :=
  finishG (.andi d b imm) d (s.rg b &&& sextN imm.toNat 16) s

/-- rb or sext(IMM16) (R126). -/
def execOri (d b : BitVec 5) (imm : BitVec 16) (s : State) : Out :=
  finishG (.ori d b imm) d (s.rg b ||| sextN imm.toNat 16) s

/-- rb xor sext(IMM16) (R126). -/
def execXori (d b : BitVec 5) (imm : BitVec 16) (s : State) : Out :=
  finishG (.xori d b imm) d (s.rg b ^^^ sextN imm.toNat 16) s

/-- Shift by an immediate count (R126). -/
def execShli (d b : BitVec 5) (n : BitVec 6) (s : State) : Out :=
  finishG (.shli d b n) d (shlW (s.rg b) n.toNat) s

/-- Shift by an immediate count (R126). -/
def execShri (d b : BitVec 5) (n : BitVec 6) (s : State) : Out :=
  finishG (.shri d b n) d (shrW (s.rg b) n.toNat) s

/-- Shift by an immediate count (R126). -/
def execSrai (d b : BitVec 5) (n : BitVec 6) (s : State) : Out :=
  finishG (.srai d b n) d (sraW (s.rg b) n.toNat) s

/-- The 2-byte tail, sign-extended (R127). -/
def execLiTail2 (d : BitVec 5) (imm : BitVec 16) (s : State) : Out :=
  finishG (.liTail2 d imm) d (sextN imm.toNat 16) s

/-- The 4-byte tail, sign-extended (R127). -/
def execLiTail4 (d : BitVec 5) (imm : BitVec 32) (s : State) : Out :=
  finishG (.liTail4 d imm) d (sextN imm.toNat 32) s

/-- The 8-byte tail, sign-extended (R127). -/
def execLiTail8 (d : BitVec 5) (imm : BitVec 64) (s : State) : Out :=
  finishG (.liTail8 d imm) d (sextN imm.toNat 64) s

/-- LineBase(pc) plus whole lines (R128). -/
def execAddpcLine (d : BitVec 5) (imm : BitVec 16) (s : State) : Out :=
  finishG (.addpcLine d imm) d (lineBase (s.pcOf s.cur) + sextN imm.toNat 16 * 64) s

/-- LineBase(pc) plus bytes (R128). -/
def execAddpcByte (d : BitVec 5) (imm : BitVec 32) (s : State) : Out :=
  finishG (.addpcByte d imm) d (lineBase (s.pcOf s.cur) + sextN imm.toNat 32) s

end Sys2Proof.Machine
end

