-- ==== Sys2Proof/Machine/Tile.lean ====
section
/-! DEFINITION. The tile instructions at decode (R192 to R209), the events of the presses (R33, R358) and the writes that leave a
store buffer (R145, R202, R269, R275). -/

namespace Sys2Proof.Machine

/-- Load a z tile (R200). -/
def execTld (scaled : Bool) (fmt : Ty) (zd : BitVec 3) (desc : BitVec 16) (b c : BitVec 5) (s : State) : Out :=
  enqueueTile (.tld scaled fmt zd desc b c) b c s

/-- Load an accumulator (R200). -/
def execTldc (fmt : Ty) (cd : BitVec 2) (desc : BitVec 16) (b c : BitVec 5) (s : State) : Out :=
  enqueueTile (.tldc fmt cd desc b c) b c s

/-- Store a z tile (R201). -/
def execTst (fmt : Ty) (za : BitVec 3) (desc : BitVec 16) (b c : BitVec 5) (s : State) : Out :=
  enqueueTile (.tst fmt za desc b c) b c s

/-- Store an accumulator (R201). -/
def execTstc (fmt : Ty) (cd : BitVec 2) (desc : BitVec 16) (b c : BitVec 5) (s : State) : Out :=
  enqueueTile (.tstc fmt cd desc b c) b c s

/-- Zero an accumulator (R203). -/
def execTzero (cd : BitVec 2) (s : State) : Out := enqueueTile (.tzero cd) 0 0 s

/-- Dense multiply (R206). -/
def execTmma (fmt : Ty) (ua ub : Bool) (cd : BitVec 2) (za zb : BitVec 3) (s : State) : Out :=
  enqueueTile (.tmma fmt ua ub cd za zb) 0 0 s

/-- Sparse multiply (R208). -/
def execTmmas (scaled : Bool) (fmt : Ty) (ua ub : Bool) (cd : BitVec 2) (za zb zc : BitVec 3) (s : State) : Out :=
  enqueueTile (.tmmas scaled fmt ua ub cd za zb zc) 0 0 s

/-- Scaled multiply (R207). -/
def execTmmax (fmt : Ty) (cd : BitVec 2) (za zb : BitVec 3) (s : State) : Out := enqueueTile (.tmmax fmt cd za zb) 0 0 s

/-- Convert an accumulator (R204). -/
def execTcvt (fmt : Ty) (r : Rnd) (sat u : Bool) (zd : BitVec 3) (cs : BitVec 2) (s : State) : Out :=
  enqueueTile (.tcvt fmt r sat u zd cs) 0 0 s

/-- Transpose (R205). -/
def execTtrans (fmt : Ty) (zd za : BitVec 3) (s : State) : Out := enqueueTile (.ttrans fmt zd za) 0 0 s

/-- Order the tile stream (R209). -/
def execTsync (s : State) : Out := enqueueTile .tsync 0 0 s

/-- PRESS_PICK: a press starts the next command of a bound core (R358). -/
def execPressPick (vat press : Nat) (s : State) : Out := .next (s.pressTurn vat press)

/-- TILE_COMMAND_COMPLETE: the oldest started command of a core retires (R33). -/
def execTileCommandComplete (core : Nat) (s : State) : Out := .next (s.tileRetire core)

/-- STORE_BUFFER_WRITE: an entry leaves an agent's buffer and is accepted at its homes (R145, R266). -/
def State.bufferWrite (s : State) (a : AgentId) (n : Nat) : State :=
  let es := (s.ag a).sb
  match es.drop n with
  | [] => s
  | e :: rest =>
    let fs := (s.ag a).fwd
    if mayPass (es.take n) fs e && e.lines.all fun w => s.lineFree a w then
      (s.modAg a fun g => { g with sb := es.take n ++ rest, fwd := (fs.take n ++ fs.drop (n + 1)) }).acceptLines e.lines
    else s

def execStoreBufferWrite (a : AgentId) (entry : Nat) (s : State) : Out := .next (s.bufferWrite a entry)

/-- A write is of one line. -/
def LineW.isLine (w : LineW) (line : Nat) : Bool :=
  match w.cells with
  | c :: _ => c.1 / 64 == line
  | [] => false

/-- An uncacheable line goes after those of lower address (R255). -/
def storeLineTurn (ls : List LineW) (w : LineW) : Bool := !w.uc || ls.all fun x => !x.uc || w.vline ≤ x.vline

/-- TILE_STORE_LINE_WRITE: a line of the oldest store, when that is a tile store, is written (R202, R275). -/
def State.tileLineWrite (s : State) (q line : Nat) : State :=
  let a : AgentId := ⟨q, .thread⟩
  match (s.ag a).sb with
  | [] => s
  | e :: rest =>
    match e.lines.find? fun w => w.isLine line with
    | none => s
    | some w =>
      if e.tile && storeLineTurn e.lines w && s.lineFree a w then
        let left := e.lines.filter fun x => !x.isLine line
        (s.modAg a fun g => { g with
          sb := if left = [] then rest else { e with lines := left } :: rest
          fwd := if left = [] then g.fwd.drop 1 else g.fwd }).accept w
      else s

def execTileStoreLineWrite (core line : Nat) (s : State) : Out := .next (s.tileLineWrite core line)

end Sys2Proof.Machine
end

