-- ==== Sys2Proof/Machine/VecOps.lean ====
section
/-! DEFINITION. The common rules of vector instructions: elements (R48), register claims (R47, R174), `VectorWrite` (R175), and
the element operations of R178 to R187. -/

namespace Sys2Proof.Machine

/-! ### Elements -/

/-- Element `e` of width `w` (R48). -/
def elem (v : BitVec 512) (w e : Nat) : Nat := v.toNat / 2 ^ (w * e) % 2 ^ w

/-- Element `e` of a register as a value of type `et`. -/
def elemOf (et : Ty) (v : BitVec 512) (e : Nat) : Nat := inContainer et (elem v et.width e)

/-- A register from its elements of width `w`, element 0 first. -/
def packNat (w : Nat) : List Nat → Nat
  | [] => 0
  | x :: xs => x % 2 ^ w + 2 ^ w * packNat w xs

def packElems (w : Nat) (xs : List Nat) : BitVec 512 := BitVec.ofNat 512 (packNat w xs)

/-- The signed value of a w-bit number. -/
def sval (w v : Nat) : Int := if v % 2 ^ w < 2 ^ (w - 1) then ((v % 2 ^ w : Nat) : Int) else ((v % 2 ^ w : Nat) : Int) - 2 ^ w

/-- A w-bit number as an integer, unsigned or signed. -/
def ival (u : Bool) (w v : Nat) : Int := if u then ((v % 2 ^ w : Nat) : Int) else sval w v

/-- An integer modulo 2^w. -/
def wrapN (w : Nat) (x : Int) : Nat := (x % (2 ^ w : Int)).toNat

/-- Clamp to the range of w bits (R98). -/
def clampN (u : Bool) (w : Nat) (x : Int) : Nat :=
  let lo : Int := if u then 0 else -(2 ^ (w - 1) : Int)
  let hi : Int := if u then 2 ^ w - 1 else 2 ^ (w - 1) - 1
  wrapN w (if x < lo then lo else if hi < x then hi else x)

/-! ### The frame of a vector instruction -/

/-- A vector instruction of a sprig: its context, then the claim of every v register it names (R174 step 1). -/
def vec (i : Instr) (regs : List (BitVec 6)) (s : State) (k : Nat → Out) : Out :=
  onlySprig i s fun n =>
    if regs.any fun r => decide ((s.core s.cur.core).arr.r ≤ r.toNat) then illegal s 12 i else k n

/-- The flags of a list of results. -/
def flagsOf (rs : List Rounded) : BitVec 6 := rs.foldl (fun f r => f ||| r.2) 0

/-- The results of the active elements below `n` (R175); an inactive element keeps its place in `old`, or 0 under ZM. -/
def vecResults (mask : Word) (zm : Bool) (old : BitVec 512) (w n : Nat) (op : Nat → Rounded) : List Rounded :=
  (List.range n).map fun e =>
    if mask.getLsbD e then op e else if zm then (0, 0) else (elem old w e, 0)

/-- `VectorWrite` over `n` elements of width `w` (R175); elements from `n` upward are written 0 (R184). -/
def vectorWrite (i : Instr) (k : BitVec 3) (zm : Bool) (vd : BitVec 6) (w n : Nat) (op : Nat → Rounded) (p : Nat) (s : State) :
    Out :=
  let q := s.cur.core
  let rs := vecResults (s.getK q p k) zm (s.getV q p vd) w n op
  finish i ((s.raiseFlags s.cur (flagsOf rs)).setV q p vd (packElems w (rs.map fun r => r.1)))

/-- An instruction of two vector sources over the elements of its type. -/
def vec2 (i : Instr) (h : VHdr) (vd va vb : BitVec 6) (s : State) (op : Nat → Nat → Rounded) : Out :=
  vec i [vd, va, vb] s fun p =>
    let q := s.cur.core
    let a := s.getV q p va
    let b := s.getV q p vb
    let w := h.et.width
    vectorWrite i h.k h.zm vd w h.et.count (fun e => op (elem a w e) (elem b w e)) p s

/-- An instruction of one vector source. -/
def vec1 (i : Instr) (h : VHdr) (vd va : BitVec 6) (s : State) (op : Nat → Rounded) : Out :=
  vec i [vd, va] s fun p =>
    let a := s.getV s.cur.core p va
    let w := h.et.width
    vectorWrite i h.k h.zm vd w h.et.count (fun e => op (elem a w e)) p s

/-- A result without flags. -/
def exact (n : Nat) : Rounded := (n, 0)

/-! ### Element operations -/

/-- Sum, difference or product of integers modulo 2^w, or one rounded float operation (R178). -/
def arithElem (o : FOp) (et : Ty) (mode : Rnd) (a b : Nat) : Rounded :=
  if et.isInt then
    let w := et.width
    match o with
    | .add => exact ((a + b) % 2 ^ w)
    | .sub => exact ((a + 2 ^ w - b) % 2 ^ w)
    | .mul | .div => exact (a * b % 2 ^ w)
  else arithF o et mode a b

/-- The lesser or greater element (R178). -/
def minMaxElem (maxi u : Bool) (et : Ty) (a b : Nat) : Rounded :=
  if et.isInt then
    let below := decide (ival u et.width a < ival u et.width b)
    exact (if below then (if maxi then b else a) else (if maxi then a else b))
  else minMaxF et maxi a b

/-- Negation and absolute value of a float (R103, R178). -/
def negAbsF (f : Ty) (abs : Bool) (a : Nat) : Rounded :=
  let x := unpackF f a
  if x.isNan then (canonNan f, flIf x.isSig flNV)
  else
    let m := a % 2 ^ (expBits f + fracBits f)
    exact (packF f (!abs && !x.neg) m)

/-- Negation and absolute value (R178). -/
def negAbsElem (abs : Bool) (et : Ty) (a : Nat) : Rounded :=
  if et.isInt then
    let v := sval et.width a
    exact (wrapN et.width (if abs && decide (0 ≤ v) then v else -v))
  else negAbsF et abs a

/-- A shift of R178: 0 left, 1 right, 2 arithmetic. -/
def shiftElem (kind w a n : Nat) : Rounded :=
  let n := n % w
  exact (if kind = 0 then a * 2 ^ n % 2 ^ w else if kind = 1 then a / 2 ^ n else wrapN w (sval w a / 2 ^ n))

/-- Leading zeros of a w-bit number. -/
def clzN (w a : Nat) : Nat := if a = 0 then w else w - 1 - Nat.log2 a

/-- `XorShift32` of R111. -/
def xorShift32 (a : Nat) : Nat :=
  let s := a ^^^ (a * 2 ^ 13 % 2 ^ 32)
  let s := s ^^^ (s / 2 ^ 17)
  s ^^^ (s * 2 ^ 5 % 2 ^ 32)

/-- A condition on two elements (R105, R181). -/
def cmpElem (c : VCond) (u : Bool) (et : Ty) (a b : Nat) : Bool × BitVec 6 :=
  if et.isInt then
    let x := ival u et.width a
    let y := ival u et.width b
    (match c with
      | .eq => x == y
      | .ne => x != y
      | .lt => decide (x < y)
      | .le => decide (x ≤ y)
      | .gt => decide (y < x)
      | .ge => decide (y ≤ x)
      | .un => false, 0)
  else cmpF et c a b

/-- One conversion of Table 6 of R184; `sat` and `u` as A[3] and A[4]. -/
def cvtElem (dst src : Ty) (mode : Rnd) (sat u : Bool) (x : Nat) : Rounded :=
  if src.isInt then
    let v := ival u src.width x
    if dst.isInt then exact (if sat then clampN u dst.width v else wrapN dst.width v)
    else if dst = .e8m0 then toE8m0 (numOfInt v) sat
    else roundTo (numOfInt v) dst mode sat
  else if src = .e8m0 then
    if dst = .e8m0 then exact x
    else if dst.isInt then intConvert (unpackE8m0 x) dst.width (!u) mode
    else roundTo (unpackE8m0 x) dst mode sat
  else if dst = .e8m0 then toE8m0 (unpackF src x) sat
  else if dst.isInt then intConvert (unpackF src x) dst.width (!u) mode
  else roundTo (unpackF src x) dst mode sat

/-- The random value of element `e` of `vcvts` (R110). -/
def stochQ (b : BitVec 512) (e : Nat) : Nat :=
  if e < 16 then elem b 32 e / 2 ^ 16 else elem b 32 (e - 16) % 2 ^ 16

/-! ### Reductions (R113, R187) -/

/-- The identity of Table 8 of chapter 07. -/
def redIdent (op : RedOp) (u : Bool) (et : Ty) : Nat :=
  if et.isInt then
    let w := et.width
    match op with
    | .add | .or | .xor => 0
    | .and => 2 ^ w - 1
    | .min => if u then 2 ^ w - 1 else 2 ^ (w - 1) - 1
    | .max => if u then 0 else 2 ^ (w - 1)
  else
    match op with
    | .min => packF et false (infMag et)
    | .max => packF et true (infMag et)
    | .add | .and | .or | .xor => packF et true 0

/-- One combining step. -/
def redStep (op : RedOp) (u : Bool) (et : Ty) (mode : Rnd) (x y : Nat) : Rounded :=
  match op with
  | .add => arithElem .add et mode x y
  | .min => minMaxElem false u et x y
  | .max => minMaxElem true u et x y
  | .and => exact (x &&& y)
  | .or => exact (x ||| y)
  | .xor => exact (x ^^^ y)

/-- One combining step of the tree or the chain, `none` where only identities of Table 8 entered: such an input leaves a zero
sum as it is, because -0 + x = x for every x (R187). -/
def redJoin (op : RedOp) (u : Bool) (et : Ty) (mode : Rnd) : Option Nat → Option Nat → Option Nat × BitVec 6
  | none, none => (none, 0)
  | none, some y =>
    if op == .add && !et.isInt && (unpackF et y).isZero then (some y, 0)
    else let r := redStep op u et mode (redIdent op u et) y; (some r.1, r.2)
  | some x, none =>
    if op == .add && !et.isInt && (unpackF et x).isZero then (some x, 0)
    else let r := redStep op u et mode x (redIdent op u et); (some r.1, r.2)
  | some x, some y => let r := redStep op u et mode x y; (some r.1, r.2)

/-- One level of the tree: adjacent results combine. -/
def redLevel (f : Option Nat → Option Nat → Option Nat × BitVec 6) : List (Option Nat) → List (Option Nat × BitVec 6)
  | x :: y :: rest => f x y :: redLevel f rest
  | [x] => [(x, 0)]
  | [] => []

/-- The flags of a list of steps. -/
def stepFlags (rs : List (Option Nat × BitVec 6)) : BitVec 6 := rs.foldl (fun f r => f ||| r.2) 0

/-- The levels of the tree: the value and the flags of every step. -/
def redTree (f : Option Nat → Option Nat → Option Nat × BitVec 6) :
    Nat → List (Option Nat) → BitVec 6 → Option Nat × BitVec 6
  | 0, xs, fl => (xs.headD none, fl)
  | n + 1, xs, fl =>
    let rs := redLevel f xs
    redTree f n (rs.map fun r => r.1) (fl ||| stepFlags rs)

/-- The chain of `vscan` after element `x`. -/
def scanFrom (f : Option Nat → Option Nat → Option Nat × BitVec 6) :
    Option Nat → List (Option Nat) → List (Option Nat × BitVec 6)
  | _, [] => []
  | x, y :: ys =>
    let r := f x y
    r :: scanFrom f r.1 ys

/-- The sources of a reduction: an inactive element enters as the identity (R187). -/
def redSources (mask : Word) (a : BitVec 512) (w n : Nat) : List (Option Nat) :=
  (List.range n).map fun e => if mask.getLsbD e then some (elem a w e) else none

/-! ### `vdot` (R180) -/

/-- The exact sum of a float element and its products, or the NaN result with its flags. -/
def dotSum (mode : Rnd) : Num → List (Num × Num) → Num × BitVec 6
  | acc, [] => (acc, 0)
  | acc, (x, y) :: rest =>
    let p := numMul x y
    if p.1.isNan then (.nan false, p.2)
    else
      let t := numAdd mode acc p.1
      if t.1.isNan then (.nan false, t.2) else dotSum mode t.1 rest

/-- 0 x infinity, in either order. -/
def isZeroTimesInf (x y : Num) : Bool := (x.isZero && y.isInf) || (x.isInf && y.isZero)

/-- Infinities of both signs among the products. -/
def oppositeInfs (ps : List Num) : Bool := (ps.any fun p => p.isInf && p.neg) && ps.any fun p => p.isInf && !p.neg

/-- One float element of `vdot`: 0 x infinity among the products raises NV beside a NaN elsewhere too, and so do infinities of opposite
sign in their sum (R180, log 30). -/
def dotF (et : Ty) (mode : Rnd) (d : Nat) (ps : List (Nat × Nat)) : Rounded :=
  let acc := unpackF .f32 d
  let xs := ps.map fun p => (unpackF et p.1, unpackF et p.2)
  if acc.isNan || xs.any fun p => p.1.isNan || p.2.isNan then
    (canonNan .f32, flIf (acc.isSig || oppositeInfs (xs.map fun p => (numMul p.1 p.2).1) ||
      xs.any fun p => p.1.isSig || p.2.isSig || isZeroTimesInf p.1 p.2) flNV)
  else
    let t := dotSum mode acc xs
    let r := roundTo t.1 .f32 mode false
    (r.1, t.2 ||| r.2)

/-- One integer element of `vdot`. -/
def dotI (et : Ty) (u : Bool) (d : Nat) (ps : List (Nat × Nat)) : Rounded :=
  exact (wrapN 32 (ps.foldl (fun t p => t + ival u et.width p.1 * ival u et.width p.2) (d : Int)))

end Sys2Proof.Machine
end

