-- ==== Sys2Proof/Machine/VecMem.lean ====
section
/-! DEFINITION. Vector memory access (R188, R189), accumulator rows (R190) and the lane's pick (R355). -/

namespace Sys2Proof.Machine

/-- The page of an address is uncacheable. -/
def State.ucAt (s : State) (ea : Word) : Bool :=
  match s.translate s.cur ea with
  | .ok x => x.uc
  | .error _ => false

/-- Insert an element by ascending address, after those of its own address. -/
def addrInsert {α : Type} (x : Word × α) : List (Word × α) → List (Word × α)
  | [] => [x]
  | y :: ys => if x.1.toNat < y.1.toNat then x :: y :: ys else y :: addrInsert x ys

/-- Put the elements chosen by `f` in the order of `xs`, in the places of the chosen ones. -/
def placeChosen {α : Type} (f : Word × α → Bool) : List (Word × α) → List (Word × α) → List (Word × α)
  | [], _ => []
  | y :: ys, xs =>
    if f y then match xs with
      | x :: rest => x :: placeChosen f ys rest
      | [] => y :: placeChosen f ys []
    else y :: placeChosen f ys xs

/-- The order in which the element accesses of an instruction are made: that of the elements (R177), and among those to uncacheable
pages ascending address (R255). -/
def State.accessOrder {α : Type} (s : State) (es : List (Word × α)) : List (Word × α) :=
  let uc (e : Word × α) : Bool := s.ucAt e.1
  if es.any uc then placeChosen uc es ((es.filter uc).foldl (fun l e => addrInsert e l) []) else es

/-- Loads of `n` bytes at each address, in order; `k` gets the values with the elements they belong to. -/
def loadEach (n : Nat) (lift : Bool) : List (Word × Nat) → List (Nat × Nat) → State → (State → List (Nat × Nat) → Out) → Out
  | [], acc, s, k => k s acc
  | (ea, e) :: eas, acc, s, k => loadScalar s ea n lift fun s v => loadEach n lift eas ((e, v) :: acc) s k

/-- Stores at each address, in order. -/
def storeEach : List (Word × List Byte) → State → (State → Out) → Out
  | [], s, k => k s
  | (ea, bs) :: rest, s, k => storeScalar s ea bs fun s => storeEach rest s k

/-- Every address can be loaded: each is checked before any is read (R175, R188). -/
def checkLoads (s : State) (n : Nat) (lift : Bool) : List Word → Out → Out
  | [], k => k
  | ea :: eas, k => loadScalar s ea n lift fun _ _ => checkLoads s n lift eas k

/-- Every address can be stored to (R175, R188). -/
def checkStores (s : State) : List (Word × List Byte) → Out → Out
  | [], k => k
  | (ea, bs) :: rest, k => storeScalar s ea bs fun _ => checkStores s rest k

/-- The active elements of a predicate, ascending. -/
def activeElems (mask : Word) (n : Nat) : List Nat := (List.range n).filter fun e => mask.getLsbD e

/-- A vector load from the address of each element (R175, R188, R189); `lift` as for `State.loadValue`. -/
def vecLoad (i : Instr) (h : VHdr) (vd : BitVec 6) (p : Nat) (lift : Bool) (addr : Nat → Word) (s : State) : Out :=
  let w := h.et.width
  let es := activeElems (s.getK s.cur.core p h.k) h.et.count
  checkLoads s (w / 8) lift (es.map addr) <|
    loadEach (w / 8) lift (s.accessOrder (es.map fun e => (addr e, e))) [] s fun s vs =>
      vectorWrite i h.k h.zm vd w h.et.count (fun e => exact (inContainer h.et (((vs.find? fun v => v.1 = e).map fun v => v.2).getD 0))) p s

/-- The stores of a line-aligned `vst` enter the store buffer as one entry (R177). -/
def storeLine (ea : Word) (ws : List (Word × List Byte)) (s : State) (k : State → Out) : Out :=
  match ws with
  | [] => k s
  | (e0, _) :: _ =>
    withAcc s e0 (s.access (s.accOf s.cur) .w e0) fun x =>
      if isDevice x.loc then storeEach ws s k
      else
        let base := x.loc / 64 * 64
        let cells := ws.flatMap fun w => cellsOfBytes (base + w.1.toNat % 64) w.2
        let s := if x.crf = 0 then s else ws.foldl (fun s w => s.mergeWord s.cur.core (base + w.1.toNat % 64)) s
        k (s.push s.cur ⟨[⟨x.tag, x.uc, ea.toNat / 64, cells, x.window && x.owner != s.cur.core⟩], false, s.dieLocal s.cur.core x, false, 0, 1,
          s.checkedAt (s.accOf s.cur) e0⟩)

/-- An address of device space. -/
def State.deviceAt (s : State) (ea : Word) : Bool :=
  match s.translate s.cur ea with
  | .ok x => isDevice x.loc
  | .error _ => false

/-- Checked stores to the address of each element; their entries in the store buffer are those of one store instruction (R73). -/
def storeAll (i : Instr) (es : List (Word × List Byte)) (s : State) : Out :=
  storeEach (s.accessOrder es) s fun t => finish i (t.modAg t.cur fun g => g.oneStore (s.ag s.cur).sb.length)

/-- A vector store to the address of each element: every element is checked before any is written. The reads that a write of device space
waits for are performed before the first (R271). -/
def vecStore (i : Instr) (et : Ty) (k : BitVec 3) (vd : BitVec 6) (p : Nat) (line : Option Word) (addr : Nat → Word) (s : State) :
    Out :=
  let q := s.cur.core
  let w := et.width
  let ws := (activeElems (s.getK q p k) et.count).map fun e => (addr e, leBytes (w / 8) (elemOf et (s.getV q p vd) e))
  checkStores s ws <| match line with
    | some ea => storeLine ea ws s (finish i)
    | none => if ws.any fun e => s.deviceAt e.1 then readsDone s (storeAll i ws) else storeAll i ws s

/-- Address of element `e` of `vld` and `vst` (R188). -/
def State.vldAddr (s : State) (ga : BitVec 5) (imm : BitVec 16) (w e : Nat) : Word :=
  s.rg ga + sextN imm.toNat 16 + BitVec.ofNat 64 (e * (w / 8))

/-- Load a vector (R188). -/
def execVld (h : VHdr) (imm : BitVec 16) (vd : BitVec 6) (ga : BitVec 5) (s : State) : Out :=
  let i : Instr := .vld h imm vd ga
  vec i [vd] s fun p => vecLoad i h vd p true (s.vldAddr ga imm h.et.width) s

/-- Store a vector (R188); to a line's address it is one write (R177). -/
def execVst (et : Ty) (k : BitVec 3) (imm : BitVec 16) (vd : BitVec 6) (ga : BitVec 5) (s : State) : Out :=
  let i : Instr := .vst et k imm vd ga
  vec i [vd] s fun p =>
    let ea := s.vldAddr ga imm et.width 0
    vecStore i et k vd p (if ea.toNat % 64 = 0 then some ea else none) (s.vldAddr ga imm et.width) s

/-- Address of element `e` of a gather or scatter (R189). -/
def State.gathAddr (s : State) (p : Nat) (ga vb : BitVec 6) (sc : BitVec 2) (w e : Nat) : Word :=
  s.rg (ga.setWidth 5) + (sextN (elem (s.getV s.cur.core p vb) w e) w <<< sc.toNat)

/-- Bit 5 of a field that names a g register must be 0 (R174 step 2). -/
def gField (i : Instr) (g : BitVec 6) (s : State) (k : Out) : Out := if g.getLsbD 5 then illegal s 7 i else k

/-- Gather (R189). -/
def execVgath (h : VHdr) (sc : BitVec 2) (vd : BitVec 6) (ga : BitVec 6) (vb : BitVec 6) (s : State) : Out :=
  let i : Instr := .vgath h sc vd ga vb
  vec i [vd, vb] s fun p => gField i ga s <| vecLoad i h vd p false (s.gathAddr p ga vb sc h.et.width) s

/-- Scatter (R189). -/
def execVscat (et : Ty) (k : BitVec 3) (sc : BitVec 2) (vd : BitVec 6) (ga : BitVec 6) (vb : BitVec 6) (s : State) : Out :=
  let i : Instr := .vscat et k sc vd ga vb
  vec i [vd, vb] s fun p => gField i ga s <| vecStore i et k vd p none (s.gathAddr p ga vb sc et.width) s

/-! ### Accumulator rows (R26, R30, R190) -/

/-- Row `row` of an accumulator: 2,048 bits. -/
def rowOf (c : BitVec 65536) (row : Nat) : Nat := c.toNat / 2 ^ (2048 * row) % 2 ^ 2048

/-- Replace a row. -/
def setRow (c : BitVec 65536) (row v : Nat) : BitVec 65536 :=
  BitVec.ofNat 65536 (c.toNat - rowOf c row * 2 ^ (2048 * row) + v % 2 ^ 2048 * 2 ^ (2048 * row))

/-- Accumulator `j` of a core. -/
def State.acc (s : State) (q j : Nat) : BitVec 65536 := Store.get (s.core q).til.c 0 j

/-- Write accumulator `j`: its unit becomes dirty (R327). -/
def State.setAcc (s : State) (q j : Nat) (v : BitVec 65536) : State :=
  s.modCore q fun c => { c with
    til := { c.til with c := Store.put c.til.c 0 j v }
    dirty := { c.dirty with c := c.dirty.c ||| BitVec.ofNat 4 (2 ^ j) } }

/-- The common checks of `crd` and `cwr`; `k` gets the sprig and the row. -/
def accRow (i : Instr) (cj : BitVec 2) (vd : BitVec 6) (ga : BitVec 6) (imm : BitVec 5) (s : State) (k : Nat → Nat → Out) : Out :=
  onlySprig i s fun p =>
    let q := s.cur.core
    let row := s.rg (ga.setWidth 5) + imm.setWidth 64
    if (s.core q).arr.r ≤ vd.toNat + 3 then illegal s 12 i
    else gField i ga s <|
      if !(s.lentSet q cj.toNat).getLsbD p then operand s (cj.setWidth 64)
      else if 32 ≤ row.toNat then operand s row
      else k p row.toNat

/-- Read a row of a lent accumulator into four v registers (R190). -/
def execCrd (et : Ty) (cj : BitVec 2) (vd : BitVec 6) (ga : BitVec 6) (imm : BitVec 5) (s : State) : Out :=
  let i : Instr := .crd et cj vd ga imm
  accRow i cj vd ga imm s fun p row =>
    let q := s.cur.core
    let v := rowOf (s.acc q cj.toNat) row
    finish i ([0, 1, 2, 3].foldl (fun s n => s.setV q p (vd + BitVec.ofNat 6 n) (BitVec.ofNat 512 (v / 2 ^ (512 * n)))) s)

/-- Write a row of a lent accumulator from four v registers (R190). -/
def execCwr (et : Ty) (cj : BitVec 2) (vd : BitVec 6) (ga : BitVec 6) (imm : BitVec 5) (s : State) : Out :=
  let i : Instr := .cwr et cj vd ga imm
  accRow i cj vd ga imm s fun p row =>
    let q := s.cur.core
    let v := sumNat ([0, 1, 2, 3].map fun n => (s.getV q p (vd + BitVec.ofNat 6 n)).toNat * 2 ^ (512 * n))
    finish i (s.setAcc q cj.toNat (setRow (s.acc q cj.toNat) row v))

/-! ### The lane's pick (R355) -/

/-- The sprigs of a lane, ascending. -/
def laneSprigs (n lane : Nat) : List Nat := (List.range n).filter fun i => i % 8 = lane

/-- A sprig is RUNNING and may issue in this cycle: it is not held, its last access is not parked, the core lives and its duty allows the
cycle (R355, R363). -/
def State.sprigReady (s : State) (q i : Nat) : Bool :=
  (s.sprig q i).st == .running && !(s.priv q).status.shold && s.dutyOk q && !s.coreDead q &&
    !s.parks.any fun p => p.who == ⟨q, .sprig i⟩

/-- The first ready sprig of a lane after its pointer, wrapping. -/
def State.lanePickOf (s : State) (q lane : Nat) : Option Nat :=
  let is := laneSprigs (s.core q).arr.n lane
  let ptr := Store.get (s.core q).arr.lanePtr (is.getLastD 0) lane
  ((is.filter fun i => ptr < i) ++ is.filter fun i => i ≤ ptr).find? fun i => s.sprigReady q i

/-- LANE_PICK: in a cycle that the duty allows, the lane's pointer moves to the sprig picked, whose turn comes next (R355, R363). -/
def execLanePick (core lane : Nat) (s : State) : Out :=
  .next <| match s.lanePickOf core lane with
    | none => s
    | some i =>
      let s := s.modCore core fun c => { c with arr := { c.arr with lanePtr := Store.ins c.arr.lanePtr lane i } }
      { s with sched := .agent ⟨core, .sprig i⟩ :: s.sched }

end Sys2Proof.Machine
end

