-- ==== Sys2Proof/Machine/Vector.lean ====
section
/-! DEFINITION. Vector arithmetic, comparison, selection, conversion, permutes and reductions (R174 to R187). -/

namespace Sys2Proof.Machine

/-! ### Element-wise operations (R178) -/

/-- a + b. -/
def execVadd (h : VHdr) (r : Rnd) (vd va vb : BitVec 6) (s : State) : Out :=
  vec2 (.vadd h r vd va vb) h vd va vb s (arithElem .add h.et (s.mode s.cur r))

/-- a - b. -/
def execVsub (h : VHdr) (r : Rnd) (vd va vb : BitVec 6) (s : State) : Out :=
  vec2 (.vsub h r vd va vb) h vd va vb s (arithElem .sub h.et (s.mode s.cur r))

/-- a x b, the low w bits for integers. -/
def execVmul (h : VHdr) (r : Rnd) (vd va vb : BitVec 6) (s : State) : Out :=
  vec2 (.vmul h r vd va vb) h vd va vb s (arithElem .mul h.et (s.mode s.cur r))

/-- a x b + c, rounded once. -/
def execVfma (h : VHdr) (r : Rnd) (vd va vb vc : BitVec 6) (s : State) : Out :=
  let i : Instr := .vfma h r vd va vb vc
  vec i [vd, va, vb, vc] s fun p =>
    let q := s.cur.core
    let w := h.et.width
    let m := s.mode s.cur r
    vectorWrite i h.k h.zm vd w h.et.count
      (fun e => fmaF h.et m (elem (s.getV q p va) w e) (elem (s.getV q p vb) w e) (elem (s.getV q p vc) w e)) p s

/-- a / b. -/
def execVdiv (h : VHdr) (r : Rnd) (vd va vb : BitVec 6) (s : State) : Out :=
  vec2 (.vdiv h r vd va vb) h vd va vb s (arithF .div h.et (s.mode s.cur r))

/-- Square root. -/
def execVsqrt (h : VHdr) (r : Rnd) (vd va : BitVec 6) (s : State) : Out :=
  vec1 (.vsqrt h r vd va) h vd va s (sqrtF h.et (s.mode s.cur r))

/-- The lesser element. -/
def execVmin (h : VHdr) (u : Bool) (vd va vb : BitVec 6) (s : State) : Out :=
  vec2 (.vmin h u vd va vb) h vd va vb s (minMaxElem false u h.et)

/-- The greater element. -/
def execVmax (h : VHdr) (u : Bool) (vd va vb : BitVec 6) (s : State) : Out :=
  vec2 (.vmax h u vd va vb) h vd va vb s (minMaxElem true u h.et)

/-- Bitwise and. -/
def execVand (h : VHdr) (vd va vb : BitVec 6) (s : State) : Out :=
  vec2 (.vand h vd va vb) h vd va vb s fun a b => exact (a &&& b)

/-- Bitwise or. -/
def execVor (h : VHdr) (vd va vb : BitVec 6) (s : State) : Out :=
  vec2 (.vor h vd va vb) h vd va vb s fun a b => exact (a ||| b)

/-- Bitwise exclusive or. -/
def execVxor (h : VHdr) (vd va vb : BitVec 6) (s : State) : Out :=
  vec2 (.vxor h vd va vb) h vd va vb s fun a b => exact (a ^^^ b)

/-- Shift left by elements. -/
def execVshlVec (h : VHdr) (vd va vb : BitVec 6) (s : State) : Out :=
  vec2 (.vshlVec h vd va vb) h vd va vb s (shiftElem 0 h.et.width)

/-- Shift left by an immediate. -/
def execVshlImm (h : VHdr) (n : BitVec 6) (vd va : BitVec 6) (s : State) : Out :=
  vec1 (.vshlImm h n vd va) h vd va s fun a => shiftElem 0 h.et.width a n.toNat

/-- Shift right by elements. -/
def execVshrVec (h : VHdr) (vd va vb : BitVec 6) (s : State) : Out :=
  vec2 (.vshrVec h vd va vb) h vd va vb s (shiftElem 1 h.et.width)

/-- Shift right by an immediate. -/
def execVshrImm (h : VHdr) (n : BitVec 6) (vd va : BitVec 6) (s : State) : Out :=
  vec1 (.vshrImm h n vd va) h vd va s fun a => shiftElem 1 h.et.width a n.toNat

/-- Arithmetic shift right by elements. -/
def execVsraVec (h : VHdr) (vd va vb : BitVec 6) (s : State) : Out :=
  vec2 (.vsraVec h vd va vb) h vd va vb s (shiftElem 2 h.et.width)

/-- Arithmetic shift right by an immediate. -/
def execVsraImm (h : VHdr) (n : BitVec 6) (vd va : BitVec 6) (s : State) : Out :=
  vec1 (.vsraImm h n vd va) h vd va s fun a => shiftElem 2 h.et.width a n.toNat

/-- Negation, or absolute value. -/
def execVneg (h : VHdr) (abs : Bool) (vd va : BitVec 6) (s : State) : Out :=
  vec1 (.vneg h abs vd va) h vd va s (negAbsElem abs h.et)

/-- Saturating sum or difference. -/
def execVaddsat (h : VHdr) (sub u : Bool) (vd va vb : BitVec 6) (s : State) : Out :=
  vec2 (.vaddsat h sub u vd va vb) h vd va vb s fun a b =>
    let w := h.et.width
    exact (clampN u w (if sub then ival u w a - ival u w b else ival u w a + ival u w b))

/-- The high w bits of the exact product. -/
def execVmulhi (h : VHdr) (u : Bool) (vd va vb : BitVec 6) (s : State) : Out :=
  vec2 (.vmulhi h u vd va vb) h vd va vb s fun a b =>
    let w := h.et.width
    exact (wrapN w (ival u w a * ival u w b / 2 ^ w))

/-- Count of ones, or of leading zeros. -/
def execVbitc (h : VHdr) (clz : Bool) (vd va : BitVec 6) (s : State) : Out :=
  vec1 (.vbitc h clz vd va) h vd va s fun a => exact (if clz then clzN h.et.width a else popN h.et.width a)

/-- A step of xorshift32 (R111). -/
def execVrng (h : VHdr) (vd va : BitVec 6) (s : State) : Out :=
  vec1 (.vrng h vd va) h vd va s fun a => exact (xorShift32 a)

/-- The element number modulo 2^w. -/
def execViota (h : VHdr) (vd : BitVec 6) (s : State) : Out :=
  vec (.viota h vd) [vd] s fun p =>
    vectorWrite (.viota h vd) h.k h.zm vd h.et.width h.et.count (fun e => exact (e % 2 ^ h.et.width)) p s

/-! ### Special functions (R112, R179) -/

/-- 1 / x. -/
def execVrcp (h : VHdr) (vd va : BitVec 6) (s : State) : Out := vec1 (.vrcp h vd va) h vd va s (specialF .rcp h.et)

/-- 1 / square root of x. -/
def execVrsq (h : VHdr) (vd va : BitVec 6) (s : State) : Out := vec1 (.vrsq h vd va) h vd va s (specialF .rsq h.et)

/-- 2^x. -/
def execVexp2 (h : VHdr) (vd va : BitVec 6) (s : State) : Out := vec1 (.vexp2 h vd va) h vd va s (specialF .exp2 h.et)

/-- log2 x. -/
def execVlog2 (h : VHdr) (vd va : BitVec 6) (s : State) : Out := vec1 (.vlog2 h vd va) h vd va s (specialF .log2 h.et)

/-! ### Products of pairs (R180) -/

/-- Accumulate products of adjacent elements into 32-bit elements. -/
def execVdot (h : VHdr) (u : Bool) (vd va vb : BitVec 6) (s : State) : Out :=
  let i : Instr := .vdot h u vd va vb
  vec i [vd, va, vb] s fun p =>
    let q := s.cur.core
    let w := h.et.width
    let n := 32 / w
    let pairs (e : Nat) : List (Nat × Nat) :=
      (List.range n).map fun k => (elem (s.getV q p va) w (n * e + k), elem (s.getV q p vb) w (n * e + k))
    let d (e : Nat) : Nat := elem (s.getV q p vd) 32 e
    vectorWrite i h.k h.zm vd 32 16 (fun e =>
      if h.et.isInt then dotI h.et u (d e) (pairs e) else dotF h.et (modeOfRm (s.rmOf s.cur)) (d e) (pairs e)) p s

/-! ### Comparisons, selection and predicates (R181 to R183) -/

/-- Compare into a predicate (R181). -/
def execVcmp (h : VHdr) (c : VCond) (u : Bool) (kd : BitVec 3) (va vb : BitVec 6) (s : State) : Out :=
  let i : Instr := .vcmp h c u kd va vb
  vec i [va, vb] s fun p =>
    let q := s.cur.core
    let w := h.et.width
    let m := s.getK q p h.k
    let old := s.getK q p kd
    let rs := (List.range h.et.count).map fun e =>
      if m.getLsbD e then
        let r := cmpElem c u h.et (elem (s.getV q p va) w e) (elem (s.getV q p vb) w e)
        ((if r.1 then 2 ^ e else 0, r.2) : Rounded)
      else exact (if !h.zm && old.getLsbD e then 2 ^ e else 0)
    finish i ((s.raiseFlags s.cur (flagsOf rs)).setK q p kd (BitVec.ofNat 64 (sumNat (rs.map fun r => r.1))))

/-- Select by a predicate (R182). -/
def execVsel (et : Ty) (k : BitVec 3) (vd va vb : BitVec 6) (s : State) : Out :=
  let i : Instr := .vsel et k vd va vb
  vec i [vd, va, vb] s fun p =>
    let q := s.cur.core
    let w := et.width
    let m := s.getK q p k
    finish i (s.setV q p vd (packElems w ((List.range et.count).map fun e =>
      if m.getLsbD e then elemOf et (s.getV q p va) e else elemOf et (s.getV q p vb) e)))

/-- An operation of `kop` (R183). -/
def kopVal (op : KOp) (a b : Word) : Word :=
  match op with
  | .and => a &&& b
  | .or => a ||| b
  | .xor => a ^^^ b
  | .andn => a &&& ~~~b
  | .not => ~~~a

/-- Combine predicates (R183). -/
def execKop (op : KOp) (kd ka kb : BitVec 3) (s : State) : Out :=
  onlySprig (.kop op kd ka kb) s fun p =>
    let q := s.cur.core
    finish (.kop op kd ka kb) (s.setK q p kd (kopVal op (s.getK q p ka) (s.getK q p kb)))

/-- Move between a predicate and a scalar register (R183). -/
def execKmov (toG : Bool) (k : BitVec 3) (g : BitVec 5) (s : State) : Out :=
  onlySprig (.kmov toG k g) s fun p =>
    let q := s.cur.core
    if toG then finishG (.kmov toG k g) g (s.getK q p k) s else finish (.kmov toG k g) (s.setK q p k (s.rg g))

/-- Test a predicate (R183). -/
def execKtest (op : KTest) (g : BitVec 5) (k : BitVec 3) (s : State) : Out :=
  onlySprig (.ktest op g k) s fun p =>
    let v := s.getK s.cur.core p k
    finishG (.ktest op g k) g (match op with
      | .any => if v = 0 then 0 else 1
      | .all => if v = 0xFFFFFFFFFFFFFFFF then 1 else 0
      | .count => BitVec.ofNat 64 (popN 64 v.toNat)) s

/-! ### Conversions (R184, R185) -/

/-- Convert (R184). -/
def execVcvt (h : VHdr) (src : Ty) (r : Rnd) (sat u : Bool) (vd va : BitVec 6) (s : State) : Out :=
  let i : Instr := .vcvt h src r sat u vd va
  vec i [vd, va] s fun p =>
    let m := s.mode s.cur r
    vectorWrite i h.k h.zm vd h.et.width (512 / max h.et.width src.width)
      (fun e => cvtElem h.et src m sat u (elem (s.getV s.cur.core p va) src.width e)) p s

/-- Convert with stochastic rounding (R110, R185). -/
def execVcvts (h : VHdr) (src : Ty) (sat : Bool) (vd va vb : BitVec 6) (s : State) : Out :=
  let i : Instr := .vcvts h src sat vd va vb
  vec i [vd, va, vb] s fun p =>
    let q := s.cur.core
    vectorWrite i h.k h.zm vd h.et.width (512 / src.width)
      (fun e => stochastic (unpackF src (elem (s.getV q p va) src.width e)) h.et (stochQ (s.getV q p vb) e) sat) p s

/-! ### Permutes and moves (R186) -/

/-- Permute elements, or look bytes up by nibble. -/
def execVperm (h : VHdr) (m : PermMode) (vd va vb : BitVec 6) (s : State) : Out :=
  let i : Instr := .vperm h m vd va vb
  vec i [vd, va, vb] s fun p =>
    let q := s.cur.core
    let w := h.et.width
    vectorWrite i h.k h.zm vd w h.et.count (fun e =>
      let b := elem (s.getV q p vb) w e
      exact (elem (s.getV q p va) w (match m with
        | .index => b % h.et.count
        | .lo => b % 16
        | .hi => b / 16))) p s

/-- Bytes of VA then VB, from byte `n`. -/
def execValign (h : VHdr) (n : BitVec 6) (vd va vb : BitVec 6) (s : State) : Out :=
  let i : Instr := .valign h n vd va vb
  vec i [vd, va, vb] s fun p =>
    let q := s.cur.core
    vectorWrite i h.k h.zm vd 8 64 (fun e =>
      let j := e + n.toNat
      exact (if j < 64 then elem (s.getV q p va) 8 j else elem (s.getV q p vb) 8 (j - 64))) p s

/-- Broadcast a scalar register, or element 0. -/
def execVbcast (h : VHdr) (fromV : Bool) (vd va : BitVec 6) (s : State) : Out :=
  let i : Instr := .vbcast h fromV vd va
  vec i (if fromV then [vd, va] else [vd]) s fun p =>
    let w := h.et.width
    let v := if fromV then elemOf h.et (s.getV s.cur.core p va) 0 else inContainer h.et ((s.rg (va.setWidth 5)).toNat % 2 ^ w)
    vectorWrite i h.k h.zm vd w h.et.count (fun _ => exact v) p s

/-- Read one element. -/
def execVextr (et : Ty) (idx : BitVec 16) (gd : BitVec 5) (va : BitVec 6) (s : State) : Out :=
  let i : Instr := .vextr et idx gd va
  vec i [va] s fun p => finishG i gd (BitVec.ofNat 64 (elemOf et (s.getV s.cur.core p va) idx.toNat)) s

/-- Write one element. -/
def execVins (et : Ty) (idx : BitVec 16) (vd : BitVec 6) (ga : BitVec 5) (s : State) : Out :=
  let i : Instr := .vins et idx vd ga
  vec i [vd] s fun p =>
    let q := s.cur.core
    let w := et.width
    finish i (s.setV q p vd (packElems w ((List.range et.count).map fun e =>
      if e = idx.toNat then inContainer et ((s.rg ga).toNat % 2 ^ w) else elem (s.getV q p vd) w e)))

/-! ### Reductions and scans (R187) -/

/-- Combine every element by the fixed tree. -/
def execVred (et : Ty) (k : BitVec 3) (op : RedOp) (u : Bool) (vd va : BitVec 6) (s : State) : Out :=
  let i : Instr := .vred et k op u vd va
  vec i [vd, va] s fun p =>
    let q := s.cur.core
    let r := redTree (redJoin op u et (modeOfRm (s.rmOf s.cur))) (Nat.log2 et.count)
      (redSources (s.getK q p k) (s.getV q p va) et.width et.count) 0
    finish i ((s.raiseFlags s.cur r.2).setV q p vd (packElems et.width [r.1.getD (redIdent op u et)]))

/-- Combine every element with those before it. Element 0 of the result is source element 0 as it stands (R113), a NaN with its
bits (log 30). -/
def execVscan (h : VHdr) (op : RedOp) (u : Bool) (vd va : BitVec 6) (s : State) : Out :=
  let i : Instr := .vscan h op u vd va
  vec i [vd, va] s fun p =>
    let q := s.cur.core
    let xs := redSources (s.getK q p h.k) (s.getV q p va) h.et.width h.et.count
    let rs := (xs.headD none, 0) :: scanFrom (redJoin op u h.et (modeOfRm (s.rmOf s.cur))) (xs.headD none) (xs.drop 1)
    vectorWrite i h.k h.zm vd h.et.width h.et.count (fun e => exact ((rs.getD e (none, 0)).1.getD (redIdent op u h.et))) p
      (s.raiseFlags s.cur (stepFlags rs))

end Sys2Proof.Machine
end

