-- ==== Sys2Proof/Machine/Dispatch.lean ====
section
/-! DEFINITION. One arm per constructor of `Instr`: a direct call of its meaning, or a refusal by name. -/

namespace Sys2Proof.Machine

/-- Execute a decoded instruction, or perform an event, at a state. -/
def exec (i : Instr) (s : State) : Host.Outcome State Fault Refusal :=
  match i with
  | .add d b c => Sys2Proof.Machine.execAdd d b c s
  | .sub d b c => Sys2Proof.Machine.execSub d b c s
  | .and d b c => Sys2Proof.Machine.execAnd d b c s
  | .or d b c => Sys2Proof.Machine.execOr d b c s
  | .xor d b c => Sys2Proof.Machine.execXor d b c s
  | .shl d b c => Sys2Proof.Machine.execShl d b c s
  | .shr d b c => Sys2Proof.Machine.execShr d b c s
  | .sra d b c => Sys2Proof.Machine.execSra d b c s
  | .mul d b c => Sys2Proof.Machine.execMul d b c s
  | .mulh u d b c => Sys2Proof.Machine.execMulh u d b c s
  | .div u d b c => Sys2Proof.Machine.execDiv u d b c s
  | .rem u d b c => Sys2Proof.Machine.execRem u d b c s
  | .min u d b c => Sys2Proof.Machine.execMin u d b c s
  | .max u d b c => Sys2Proof.Machine.execMax u d b c s
  | .slt u d b c => Sys2Proof.Machine.execSlt u d b c s
  | .cmov d b c => Sys2Proof.Machine.execCmov d b c s
  | .clz d b => Sys2Proof.Machine.execClz d b s
  | .ctz d b => Sys2Proof.Machine.execCtz d b s
  | .popc d b => Sys2Proof.Machine.execPopc d b s
  | .sext d b n => Sys2Proof.Machine.execSext d b n s
  | .zext d b n => Sys2Proof.Machine.execZext d b n s
  | .addsh d b c n => Sys2Proof.Machine.execAddsh d b c n s
  | .addi d b imm => Sys2Proof.Machine.execAddi d b imm s
  | .andi d b imm => Sys2Proof.Machine.execAndi d b imm s
  | .ori d b imm => Sys2Proof.Machine.execOri d b imm s
  | .xori d b imm => Sys2Proof.Machine.execXori d b imm s
  | .shli d b n => Sys2Proof.Machine.execShli d b n s
  | .shri d b n => Sys2Proof.Machine.execShri d b n s
  | .srai d b n => Sys2Proof.Machine.execSrai d b n s
  | .liTail2 d imm => Sys2Proof.Machine.execLiTail2 d imm s
  | .liTail4 d imm => Sys2Proof.Machine.execLiTail4 d imm s
  | .liTail8 d imm => Sys2Proof.Machine.execLiTail8 d imm s
  | .addpcLine d imm => Sys2Proof.Machine.execAddpcLine d imm s
  | .addpcByte d imm => Sys2Proof.Machine.execAddpcByte d imm s
  | .fadd p r d b c => Sys2Proof.Machine.execFadd p r d b c s
  | .fsub p r d b c => Sys2Proof.Machine.execFsub p r d b c s
  | .fmul p r d b c => Sys2Proof.Machine.execFmul p r d b c s
  | .fdiv p r d b c => Sys2Proof.Machine.execFdiv p r d b c s
  | .fsqrt p r d b => Sys2Proof.Machine.execFsqrt p r d b s
  | .fma p r d b c => Sys2Proof.Machine.execFma p r d b c s
  | .fmin p d b c => Sys2Proof.Machine.execFmin p d b c s
  | .fmax p d b c => Sys2Proof.Machine.execFmax p d b c s
  | .fcmp q p d b c => Sys2Proof.Machine.execFcmp q p d b c s
  | .fcvt k r d b => Sys2Proof.Machine.execFcvt k r d b s
  | .fclass p d b => Sys2Proof.Machine.execFclass p d b s
  | .jmp loff slot => Sys2Proof.Machine.execJmp loff slot s
  | .call d loff slot => Sys2Proof.Machine.execCall d loff slot s
  | .jmpr b => Sys2Proof.Machine.execJmpr b s
  | .callr d b => Sys2Proof.Machine.execCallr d b s
  | .br q loff hint slot b c => Sys2Proof.Machine.execBr q loff hint slot b c s
  | .brz q loff hint slot b => Sys2Proof.Machine.execBrz q loff hint slot b s
  | .callx d idx => Sys2Proof.Machine.execCallx d idx s
  | .svc code => Sys2Proof.Machine.execSvc code s
  | .brk code => Sys2Proof.Machine.execBrk code s
  | .time d => Sys2Proof.Machine.execTime d s
  | .ld w d m => Sys2Proof.Machine.execLd w d m s
  | .st w d m => Sys2Proof.Machine.execSt w d m s
  | .pref wr m => Sys2Proof.Machine.execPref wr m s
  | .cache op m => Sys2Proof.Machine.execCache op m s
  | .fence kind scope => Sys2Proof.Machine.execFence kind scope s
  | .rdsr d n => Sys2Proof.Machine.execRdsr d n s
  | .wrsr a n => Sys2Proof.Machine.execWrsr a n s
  | .migrate b => Sys2Proof.Machine.execMigrate b s
  | .lrw d o => Sys2Proof.Machine.execLrw d o s
  | .sch d c o => Sys2Proof.Machine.execSch d c o s
  | .relq o => Sys2Proof.Machine.execRelq o s
  | .amo op d c o => Sys2Proof.Machine.execAmo op d c o s
  | .cas d c o => Sys2Proof.Machine.execCas d c o s
  | .mcas d imm scope b => Sys2Proof.Machine.execMcas d imm scope b s
  | .takew d o => Sys2Proof.Machine.execTakew d o s
  | .peekw d o => Sys2Proof.Machine.execPeekw d o s
  | .putw c o => Sys2Proof.Machine.execPutw c o s
  | .fillw c o => Sys2Proof.Machine.execFillw c o s
  | .emptyw o => Sys2Proof.Machine.execEmptyw o s
  | .waitne d c o => Sys2Proof.Machine.execWaitne d c o s
  | .cred op c o => Sys2Proof.Machine.execCred op c o s
  | .semp o scope c sem => Sys2Proof.Machine.execSemp o scope c sem s
  | .semv o scope c sem => Sys2Proof.Machine.execSemv o scope c sem s
  | .semrd o scope d sem => Sys2Proof.Machine.execSemrd o scope d sem s
  | .bar o scope d c level => Sys2Proof.Machine.execBar o scope d c level s
  | .holdLimit a => Sys2Proof.Machine.execHoldLimit a s
  | .waitWithdrawal a => Sys2Proof.Machine.execWaitWithdrawal a s
  | .idleEnd core => Sys2Proof.Machine.execIdleEnd core s
  | .sconf b c => Sys2Proof.Machine.execSconf b c s
  | .sbcast b c lend => Sys2Proof.Machine.execSbcast b c lend s
  | .swait d c => Sys2Proof.Machine.execSwait d c s
  | .sget d b sel => Sys2Proof.Machine.execSget d b sel s
  | .sput b c sel => Sys2Proof.Machine.execSput b c sel s
  | .skill c => Sys2Proof.Machine.execSkill c s
  | .skillSprigStop core sprig => Sys2Proof.Machine.execSkillSprigStop core sprig s
  | .bfetch b => Sys2Proof.Machine.execBfetch b s
  | .lsend et va delta => Sys2Proof.Machine.execLsend et va delta s
  | .lrecv et vd delta => Sys2Proof.Machine.execLrecv et vd delta s
  | .sid d => Sys2Proof.Machine.execSid d s
  | .vadd h r vd va vb => Sys2Proof.Machine.execVadd h r vd va vb s
  | .vsub h r vd va vb => Sys2Proof.Machine.execVsub h r vd va vb s
  | .vmul h r vd va vb => Sys2Proof.Machine.execVmul h r vd va vb s
  | .vfma h r vd va vb vc => Sys2Proof.Machine.execVfma h r vd va vb vc s
  | .vdiv h r vd va vb => Sys2Proof.Machine.execVdiv h r vd va vb s
  | .vmin h u vd va vb => Sys2Proof.Machine.execVmin h u vd va vb s
  | .vmax h u vd va vb => Sys2Proof.Machine.execVmax h u vd va vb s
  | .vand h vd va vb => Sys2Proof.Machine.execVand h vd va vb s
  | .vor h vd va vb => Sys2Proof.Machine.execVor h vd va vb s
  | .vxor h vd va vb => Sys2Proof.Machine.execVxor h vd va vb s
  | .vshlVec h vd va vb => Sys2Proof.Machine.execVshlVec h vd va vb s
  | .vshlImm h n vd va => Sys2Proof.Machine.execVshlImm h n vd va s
  | .vshrVec h vd va vb => Sys2Proof.Machine.execVshrVec h vd va vb s
  | .vshrImm h n vd va => Sys2Proof.Machine.execVshrImm h n vd va s
  | .vsraVec h vd va vb => Sys2Proof.Machine.execVsraVec h vd va vb s
  | .vsraImm h n vd va => Sys2Proof.Machine.execVsraImm h n vd va s
  | .vcmp h q u kd va vb => Sys2Proof.Machine.execVcmp h q u kd va vb s
  | .vsel et k vd va vb => Sys2Proof.Machine.execVsel et k vd va vb s
  | .vneg h abs vd va => Sys2Proof.Machine.execVneg h abs vd va s
  | .vsqrt h r vd va => Sys2Proof.Machine.execVsqrt h r vd va s
  | .vrcp h vd va => Sys2Proof.Machine.execVrcp h vd va s
  | .vrsq h vd va => Sys2Proof.Machine.execVrsq h vd va s
  | .vexp2 h vd va => Sys2Proof.Machine.execVexp2 h vd va s
  | .vlog2 h vd va => Sys2Proof.Machine.execVlog2 h vd va s
  | .vcvt h src r sat u vd va => Sys2Proof.Machine.execVcvt h src r sat u vd va s
  | .vcvts h src sat vd va vb => Sys2Proof.Machine.execVcvts h src sat vd va vb s
  | .vrng h vd va => Sys2Proof.Machine.execVrng h vd va s
  | .vperm h m vd va vb => Sys2Proof.Machine.execVperm h m vd va vb s
  | .valign h n vd va vb => Sys2Proof.Machine.execValign h n vd va vb s
  | .vbcast h fromV vd va => Sys2Proof.Machine.execVbcast h fromV vd va s
  | .vextr et idx gd va => Sys2Proof.Machine.execVextr et idx gd va s
  | .vins et idx vd ga => Sys2Proof.Machine.execVins et idx vd ga s
  | .vred et k op u vd va => Sys2Proof.Machine.execVred et k op u vd va s
  | .vscan h op u vd va => Sys2Proof.Machine.execVscan h op u vd va s
  | .vld h imm vd ga => Sys2Proof.Machine.execVld h imm vd ga s
  | .vst et k imm vd ga => Sys2Proof.Machine.execVst et k imm vd ga s
  | .vgath h sc vd ga vb => Sys2Proof.Machine.execVgath h sc vd ga vb s
  | .vscat et k sc vd ga vb => Sys2Proof.Machine.execVscat et k sc vd ga vb s
  | .vaddsat h sub u vd va vb => Sys2Proof.Machine.execVaddsat h sub u vd va vb s
  | .vmulhi h u vd va vb => Sys2Proof.Machine.execVmulhi h u vd va vb s
  | .vbitc h clz vd va => Sys2Proof.Machine.execVbitc h clz vd va s
  | .vdot h u vd va vb => Sys2Proof.Machine.execVdot h u vd va vb s
  | .viota h vd => Sys2Proof.Machine.execViota h vd s
  | .kop op kd ka kb => Sys2Proof.Machine.execKop op kd ka kb s
  | .kmov toG k g => Sys2Proof.Machine.execKmov toG k g s
  | .ktest op g k => Sys2Proof.Machine.execKtest op g k s
  | .crd et cj vd ga imm => Sys2Proof.Machine.execCrd et cj vd ga imm s
  | .cwr et cj vd ga imm => Sys2Proof.Machine.execCwr et cj vd ga imm s
  | .lanePick core lane => Sys2Proof.Machine.execLanePick core lane s
  | .tld scaled fmt zd desc b c => Sys2Proof.Machine.execTld scaled fmt zd desc b c s
  | .tldc fmt cd desc b c => Sys2Proof.Machine.execTldc fmt cd desc b c s
  | .tst fmt za desc b c => Sys2Proof.Machine.execTst fmt za desc b c s
  | .tstc fmt cd desc b c => Sys2Proof.Machine.execTstc fmt cd desc b c s
  | .tzero cd => Sys2Proof.Machine.execTzero cd s
  | .tmma fmt ua ub cd za zb => Sys2Proof.Machine.execTmma fmt ua ub cd za zb s
  | .tmmas scaled fmt ua ub cd za zb zc => Sys2Proof.Machine.execTmmas scaled fmt ua ub cd za zb zc s
  | .tmmax fmt cd za zb => Sys2Proof.Machine.execTmmax fmt cd za zb s
  | .tcvt fmt r sat u zd cs => Sys2Proof.Machine.execTcvt fmt r sat u zd cs s
  | .ttrans fmt zd za => Sys2Proof.Machine.execTtrans fmt zd za s
  | .pressPick vat press => Sys2Proof.Machine.execPressPick vat press s
  | .tileCommandComplete core => Sys2Proof.Machine.execTileCommandComplete core s
  | .tileStoreLineWrite core line => Sys2Proof.Machine.execTileStoreLineWrite core line s
  | .storeBufferWrite a entry => Sys2Proof.Machine.execStoreBufferWrite a entry s
  | .bcopy o => Sys2Proof.Machine.execBcopy o s
  | .bcopyt out desc o => Sys2Proof.Machine.execBcopyt out desc o s
  | .bfill o => Sys2Proof.Machine.execBfill o s
  | .bloadb o => Sys2Proof.Machine.execBloadb o s
  | .bcopyc lines o => Sys2Proof.Machine.execBcopyc lines o s
  | .copyStart core => Sys2Proof.Machine.execCopyStart core s
  | .copyLineMove core cmd line => Sys2Proof.Machine.execCopyLineMove core cmd line s
  | .copyComplete core cmd => Sys2Proof.Machine.execCopyComplete core cmd s
  | .copyWaitLimit core cmd => Sys2Proof.Machine.execCopyWaitLimit core cmd s
  | .rdpr d n => Sys2Proof.Machine.execRdpr d n s
  | .wrpr a n => Sys2Proof.Machine.execWrpr a n s
  | .plbinvOne b c => Sys2Proof.Machine.execPlbinvOne b c s
  | .plbinvDom c => Sys2Proof.Machine.execPlbinvDom c s
  | .xlinvPage b => Sys2Proof.Machine.execXlinvPage b s
  | .ctxsave b => Sys2Proof.Machine.execCtxsave b s
  | .ctxload b => Sys2Proof.Machine.execCtxload b s
  | .descw b c => Sys2Proof.Machine.execDescw b c s
  | .ipi b c => Sys2Proof.Machine.execIpi b c s
  | .trapEntry core => Sys2Proof.Machine.execTrapEntry core s
  | .timer core => Sys2Proof.Machine.execTimer core s
  | .sholdSet a => Sys2Proof.Machine.execSholdSet a s
  | .sholdRelease a => Sys2Proof.Machine.execSholdRelease a s
  | .domainWrite a => Sys2Proof.Machine.execDomainWrite a s
  | .spwinWrite a k => Sys2Proof.Machine.execSpwinWrite a k s
  | .windowLineWriteback core seg line => Sys2Proof.Machine.execWindowLineWriteback core seg line s
  | .pressbindWrite a => Sys2Proof.Machine.execPressbindWrite a s
  | .ipipendWrite a => Sys2Proof.Machine.execIpipendWrite a s
  | .timecmpWrite a => Sys2Proof.Machine.execTimecmpWrite a s
  | .barcfgWrite a => Sys2Proof.Machine.execBarcfgWrite a s
  | .ptrootWrite a => Sys2Proof.Machine.execPtrootWrite a s
  | .protrootWrite a => Sys2Proof.Machine.execProtrootWrite a s
  | .descbaseWrite a => Sys2Proof.Machine.execDescbaseWrite a s
  | .wshareWrite a => Sys2Proof.Machine.execWshareWrite a s
  | .fdutyWrite a => Sys2Proof.Machine.execFdutyWrite a s
  | .recover a => Sys2Proof.Machine.execRecover a s
  | .migrateArrival core => Sys2Proof.Machine.execMigrateArrival core s
  | .replyRedirect core => Sys2Proof.Machine.execReplyRedirect core s
  | .parkedRequestResume a => Sys2Proof.Machine.execParkedRequestResume a s
  | .powerEpoch m => Sys2Proof.Machine.execPowerEpoch m s
  | .operatingPointChange vat => Sys2Proof.Machine.execOperatingPointChange vat s
  | .vatClockStop vat => Sys2Proof.Machine.execVatClockStop vat s
  | .vatClockRestart vat => Sys2Proof.Machine.execVatClockRestart vat s
  | .retentionExit vat parityOk => Sys2Proof.Machine.execRetentionExit vat parityOk s
  | .dirtyUe core va line => Sys2Proof.Machine.execDirtyUe core va line s
  | .tileUe core zmask cmask => Sys2Proof.Machine.execTileUe core zmask cmask s
  | .doorbell core data => Sys2Proof.Machine.execDoorbell core data s
  | .hostLinkChange port up flit256 => Sys2Proof.Machine.execHostLinkChange port up flit256 s
  | .hpctlWrite port v => Sys2Proof.Machine.execHpctlWrite port v s
  | .inboundRead port rid va len => Sys2Proof.Machine.execInboundRead port rid va len s
  | .inboundWrite port rid va bytes => Sys2Proof.Machine.execInboundWrite port rid va bytes s
  | .fetchadd port rid va size v => Sys2Proof.Machine.execFetchadd port rid va size v s
  | .swap port rid va size v => Sys2Proof.Machine.execSwap port rid va size v s
  | .inboundCas port rid va size expected new => Sys2Proof.Machine.execInboundCas port rid va size expected new s
  | .atsTranslationRequest port rid va => Sys2Proof.Machine.execAtsTranslationRequest port rid va s
  | .pageRequest port rid va => Sys2Proof.Machine.execPageRequest port rid va s
  | .kerranLinkChange port up unreachable => Sys2Proof.Machine.execKerranLinkChange port up unreachable s
  | .poolLinkLost region => Sys2Proof.Machine.execPoolLinkLost region s
  | .poolCompletionTimeout region => Sys2Proof.Machine.execPoolCompletionTimeout region s
  | .failoverComplete region => Sys2Proof.Machine.execFailoverComplete region s
  | .poolLinkRestored region => Sys2Proof.Machine.execPoolLinkRestored region s
  | .poolWriteCompletion region line => Sys2Proof.Machine.execPoolWriteCompletion region line s
  | .backInvalidate line => Sys2Proof.Machine.execBackInvalidate line s
  | .negotiate tag want => Sys2Proof.Machine.execNegotiate tag want s
  | .summary tag => Sys2Proof.Machine.execSummary tag s
  | .setLimit tag watts => Sys2Proof.Machine.execSetLimit tag watts s
  | .partition tag map => Sys2Proof.Machine.execPartition tag map s
  | .fwStage tag offset chunk valid version secVersion => Sys2Proof.Machine.execFwStage tag offset chunk valid version secVersion s
  | .fwActivate tag watchdog boot => Sys2Proof.Machine.execFwActivate tag watchdog boot s
  | .fwConfirm tag => Sys2Proof.Machine.execFwConfirm tag s
  | .fwWatchdogExpiry boot => Sys2Proof.Machine.execFwWatchdogExpiry boot s
  | .spdm tag msg => Sys2Proof.Machine.execSpdm tag msg s
  | .getVersion tag => Sys2Proof.Machine.execGetVersion tag s
  | .getCapabilities tag => Sys2Proof.Machine.execGetCapabilities tag s
  | .negotiateAlgorithms tag msg => Sys2Proof.Machine.execNegotiateAlgorithms tag msg s
  | .getDigests tag => Sys2Proof.Machine.execGetDigests tag s
  | .getCertificate tag offset len => Sys2Proof.Machine.execGetCertificate tag offset len s
  | .challenge tag nonce => Sys2Proof.Machine.execChallenge tag nonce s
  | .getMeasurements tag index => Sys2Proof.Machine.execGetMeasurements tag index s
  | .keyExchange tag msg => Sys2Proof.Machine.execKeyExchange tag msg s
  | .finish tag msg => Sys2Proof.Machine.execFinish tag msg s
  | .logRead tag index => Sys2Proof.Machine.execLogRead tag index s
  | .packageReset boot => Sys2Proof.Machine.execPackageReset boot s
  | .coreRestart core => Sys2Proof.Machine.execCoreRestart core s
  | .unassignedOpcode head => Sys2Proof.Machine.execUnassignedOpcode head s
  | .uncorrectableError t => Sys2Proof.Machine.execUncorrectableError t s
  | .deviceInvalidationAck port => Sys2Proof.Machine.execDeviceInvalidationAck port s
  | .nop => Sys2Proof.Machine.execNop s
  | .idle => Sys2Proof.Machine.execIdle s
  | .stop => Sys2Proof.Machine.execStop s
  | .tsync => Sys2Proof.Machine.execTsync s
  | .tret => Sys2Proof.Machine.execTret s
  | .plbinvAll => Sys2Proof.Machine.execPlbinvAll s
  | .xlinvAll => Sys2Proof.Machine.execXlinvAll s
  | .staticCharge => Sys2Proof.Machine.execStaticCharge s
  | .kerranRerouteDone => Sys2Proof.Machine.execKerranRerouteDone s
  | .mailboxResponseReady => Sys2Proof.Machine.execMailboxResponseReady s
  | .fwCallVersion => Sys2Proof.Machine.execFwCallVersion s
  | .sign => Sys2Proof.Machine.execSign s
  | .fwCallSetLimit => Sys2Proof.Machine.execFwCallSetLimit s
  | .setRestart => Sys2Proof.Machine.execSetRestart s
  | .fwCallLogRead => Sys2Proof.Machine.execFwCallLogRead s

end Sys2Proof.Machine
end

