-- ==== Sys2Proof/Machine/Turn.lean ====
section
/-! DEFINITION. The turn of a thread up to its instruction: what is pending at its boundary, then the fetch. -/

namespace Sys2Proof.Machine

/-- Whether an instruction goes to the press. -/
def isTileInstr : Instr → Bool
  | .tld _ _ _ _ _ _ | .tldc _ _ _ _ _ | .tst _ _ _ _ _ | .tstc _ _ _ _ _ | .tzero _ | .tmma _ _ _ _ _ _
  | .tmmas _ _ _ _ _ _ _ _ | .tmmax _ _ _ _ | .tcvt _ _ _ _ _ _ | .ttrans _ _ _ | .tsync => true
  | _ => false

/-- An instruction that stands between a load and its late read lets the read be late; any other comes after it. -/
def Agent.orderLate (g : Agent) (i : Instr) : Agent := { g with late := g.late.filter fun r => keepsLate r.d i }

/-- An instruction orders accesses as a `fence.full.die` and acquires nothing (R217, R274): with the word that it names, if it names one. -/
def dieOrder : Instr → Option (Option SyncOp)
  | .fence .full .die => some none
  | .lrw _ o | .sch _ _ o | .relq o | .amo _ _ _ o | .cas _ _ o | .takew _ o | .peekw _ o | .putw _ o | .fillw _ o | .emptyw o
  | .waitne _ _ o | .cred _ _ o => if o.ord = .none ∨ o.ord = .rel then some (some o) else none
  | .semp o _ _ _ | .semv o _ _ _ | .semrd o _ _ _ | .bar o _ _ _ _ => if o = .none ∨ o = .rel then some none else none
  | _ => none

/-- An early read stays before an instruction that orders at die scope only: it is not die-local (R270), and not of the instruction's own
word (R265). -/
def State.staysAhead (s : State) (a : AgentId) (o : Option SyncOp) (r : EarlyRead) : Bool :=
  !r.dieLocal && match o with
    | none => true
    | some o => match s.translate a (State.syncAddr { s with cur := a } o) with
      | .ok x => r.loc + r.n ≤ x.loc || x.loc + 8 ≤ r.loc
      | .error _ => false

/-- Before an instruction that orders the thread's reads, none of the later ones that it orders has been made early, and the earlier ones
are performed (log 7). -/
def State.orderReads (s : State) (a : AgentId) (i : Instr) : State :=
  match dieOrder i with
  | some o => if (s.ag a).readsInPlace then s else s.modAg a fun g => { g with ahead := g.ahead.filter (s.staysAhead a o), late := [] }
  | none =>
    if !keepsReads i then s.dropAhead a
    else if (s.ag a).late = [] then s
    else s.modAg a fun g => g.orderLate i

/-- A branch: it takes a checkpoint of the tile mapping (R32). Which transfers are branches there is the model's choice: those whose way or
target a register decides (log 22). -/
def isBranch : Instr → Bool
  | .br _ _ _ _ _ _ | .brz _ _ _ _ _ | .jmpr _ | .callr _ _ => true
  | _ => false

/-- The most branch checkpoints of a core (R32). -/
def checkpointMax : Nat := 16

/-- A branch behind tile commands records the tile mapping at its place in a checkpoint, once (R32); it gives the checkpoint back when its
turn comes, and a squash at it would bring that mapping back (R34). -/
def State.checkpoint (s : State) (q : Nat) (i : Instr) : State :=
  let cs := (s.core q).til.checkpoints
  if isBranch i && cs.length < checkpointMax && !cs.contains (s.tileMap q) then
    s.modCore q fun c => { c with til := { c.til with checkpoints := cs ++ [s.tileMap q] } }
  else s

/-- The thread's own request is parked, not one of its tile commands' (R348, R382). -/
def State.threadParked (s : State) (q : Nat) : Bool :=
  s.parks.any fun p => p.who == ⟨q, .thread⟩ && !(s.core q).til.queue.any fun t => t.held == some (.waiting (some p.line))

/-- The thread's fetch, once nothing is taken at the boundary. Whatever is no tile instruction waits for the tile commands before
it, which move on meanwhile (log 22). -/
def State.threadFetch (s : State) (q : Nat) : Fetched :=
  if !s.dutyOk q then .error s
  else if s.threadParked q then .error (s.tileProgress q)
  else match s.fetchThread q, (s.core q).til.queue with
    | .ok (i, t), [] => .ok (i, t.orderReads ⟨q, .thread⟩ i)
    | .error t, [] => .error t
    | .ok (i, t), _ :: _ => if isTileInstr i then .ok (i, t.dropAhead ⟨q, .thread⟩) else .error ((t.checkpoint q i).tileProgress q)
    | .error t, _ :: _ => .error (if t.parks = s.parks then s.tileProgress q else t)

/-- One step of a thread up to its instruction. -/
def State.threadTurn (s : State) (q : Nat) : Fetched :=
  match (s.thr q).run with
  | .off | .halted | .lost => .error s
  | .idle since =>
    let lim := (s.thr q).waitlim.toNat
    if s.anyPending q ∨ (lim ≠ 0 ∧ since + lim ≤ s.time) then .error ((s.restartClock (vatOf q)).wakeIdle q) else .error s
  | .running =>
    match s.pendingEvent q with
    | some e => if (s.core q).til.queue.any fun t => t.started then .error (s.tileRetire q) else .error (s.takeEvent q e)
    | none => s.threadFetch q

end Sys2Proof.Machine
end

