-- ==== Sys2Proof/Machine/Step.lean ====
section
/-! DEFINITION. One step of the package: the next entry of the schedule moves (log 1). -/

namespace Sys2Proof.Machine

/-- Execute what a turn ended in. -/
def runFetched (r : Fetched) : Host.Outcome State Fault Refusal :=
  match r with
  | .ok (i, s) => exec i s
  | .error s => .next s

/-- One step. An empty schedule lets the thread of core 0 move. -/
def step (s : State) : Host.Outcome State Fault Refusal :=
  match s.sched with
  | [] => runFetched (State.threadTurn { s with cur := ⟨0, .thread⟩ } 0)
  | .agent a :: rest =>
    if agentOk a then
      match a.who with
      | .thread => runFetched (State.threadTurn { s with sched := rest, cur := a } a.core)
      | .sprig i => runFetched (State.sprigTurn { s with sched := rest, cur := a } a.core i)
    else .fault .badSlot
  | .event i :: rest => if i.isEvent && i.wellFormed then exec i { s with sched := rest } else .fault .badSlot
  | .pass n :: rest => .next (State.pass { s with sched := rest } n)
  | .evict l :: rest => .next (State.writeBack { s with sched := rest } l)
  | .mergeCred q :: rest => .next (State.mergeOldest { s with sched := rest } q)
  | .plbFill q d va :: rest => .next (State.fillPlb { s with sched := rest } q d va)
  | .tcFill d p va :: rest => .next (State.fillTc { s with sched := rest } d p va)
  | .readAhead q w m :: rest => .next (State.readAhead { s with sched := rest } q w m)
  | .readLate q d :: rest => .next (State.readLate { s with sched := rest } q d)
  | .present id :: rest => .next (State.presentAgain { s with sched := rest } id)

/-- The same instruction placed where `step` fetches its next one (log 2). -/
def State.withFetchWord (s : State) (nbits w : Nat) : State := s.placeWord nbits w

end Sys2Proof.Machine
end

