-- ==== Sys2Proof/Safety.lean ====
section
/-! DEFINITION. The vocabulary of the claims: what it means that an instruction completes and leaves everything else as it was, which
accesses are ready, the exact values of encodings and what they round to, and the invariants of the package. -/

namespace Sys2Proof.Machine

/-! ### Invariants -/

/-- Memory stands in its canonical form. -/
def State.memWf (s : State) : Prop := Memory.wf s.mem = true

/-! ### Where an agent stands -/

/-- The PC of an agent after it is set to `v`: 64 bits of a thread, 17 of a sprig (R23). -/
def landing (a : AgentId) (v : Word) : Word :=
  match a.who with
  | .thread => v
  | .sprig _ => (v.setWidth 17).setWidth 64

/-- `FPSTAT` of an agent. -/
def State.fpstatOf (s : State) (a : AgentId) : BitVec 6 :=
  match a.who with
  | .thread => (s.thr a.core).fpstat
  | .sprig i => (s.sprig a.core i).fpstat

/-! ### Frames -/

/-- A thread outside what an instruction of its own may change: its `g` registers, PC, count, energy, flags and what it waits for.
`RM`, `WAITLIM`, `LTBASE`, `CYCLE` and its run state stand. -/
def ThreadRest (x y : Thread) : Prop :=
  { y with g := x.g, pc := x.pc, fpstat := x.fpstat, retired := x.retired, energy := x.energy, sat := x.sat, ag := x.ag } = x

/-- A sprig outside what an instruction of its own may change: its `g` registers, PC, flags, wait and the WAITING state. Its `k`
registers, queue, fault record, `RM`, span and links stand. -/
def SprigRest (x y : Sprig) : Prop :=
  { y with g := x.g, pc := x.pc, fpstat := x.fpstat, st := x.st, ag := x.ag } = x

/-- What an instruction that writes at most one scalar register does to the registers of its agent `a`: `d` gets `v` (nothing, when
`d` is g0), the flags `fl` accumulate, the PC moves to `pc`, the store buffer becomes `sb`. Every other scalar register, bank, special
register, privileged register, vector, tile and link register of the core is as before, and so is every other core. -/
structure AgentDone (s t : State) (a : AgentId) (d : BitVec 5) (v : Word) (fl : BitVec 6) (pc : Word) (sb : List SbEntry) :
    Prop where
  reg : ∀ r, t.getG a r = if r = d ∧ d ≠ 0 then v else s.getG a r
  pcAt : t.pcOf a = landing a pc
  flags : t.fpstatOf a = s.fpstatOf a ||| fl
  buffer : (t.ag a).sb = sb
  /-- The thread, when it is the agent: the registers of every bank but the one written, the rest, and the count. -/
  banks : a.who = .thread → ∀ k, (d = 0 ∨ k ≠ gKey (s.priv a.core).status.pl d.toNat) →
    Store.get (t.thr a.core).g 0 k = Store.get (s.thr a.core).g 0 k
  thread : a.who = .thread → ThreadRest (s.thr a.core) (t.thr a.core)
  count : a.who = .thread → (t.thr a.core).retired = (s.thr a.core).retired + 1
  /-- A sprig, when it is the agent; then of the thread only the energy charged changes. -/
  sprig : ∀ i, a.who = .sprig i → SprigRest (s.sprig a.core i) (t.sprig a.core i)
  charged : a.who ≠ .thread →
    { t.thr a.core with energy := (s.thr a.core).energy, sat := (s.thr a.core).sat } = s.thr a.core
  otherSprigs : ∀ i, a.who ≠ .sprig i → t.sprig a.core i = s.sprig a.core i
  /-- The rest of the core. -/
  array : { (t.core a.core).arr with sprigs := (s.core a.core).arr.sprigs } = (s.core a.core).arr
  core : { t.core a.core with thr := (s.core a.core).thr, arr := (s.core a.core).arr, dirty := (s.core a.core).dirty } =
    s.core a.core
  dirty : { (t.core a.core).dirty with sprig := (s.core a.core).dirty.sprig, scr := (s.core a.core).dirty.scr } =
    (s.core a.core).dirty
  otherCores : ∀ p, p ≠ a.core →
    { t.core p with dirty := { (t.core p).dirty with scr := (s.core p).dirty.scr } } = s.core p

/-- Nothing outside the cores changes, and no byte of memory, no full bit and no scratchpad chunk. -/
structure PackageKept (s t : State) : Prop where
  rest : { t with cores := s.cores } = s
  bytes : ∀ l, t.rd1 l = s.rd1 l
  fulls : ∀ l, t.fullAt l = s.fullAt l
  chunks : ∀ p, (t.core p).dirty.scr = (s.core p).dirty.scr

/-- Beside the cores only memory, with what stands in the caches and at the homes for it, may change: semaphores, table roots,
barriers, ports, Caltik and the rest of the package are as before. -/
def OnlyMemory (s t : State) : Prop :=
  { t with
    cores := s.cores, mem := s.mem, fullBits := s.fullBits, ue := s.ue, behind := s.behind
    exact := s.exact, records := s.records, tc := s.tc
    res := s.res, sliceQ := s.sliceQ, tagQ := s.tagQ, parks := s.parks, pool := s.pool, flights := s.flights } = s

/-- Memory changes in the `n` bytes from `lo` at most, and beside it nothing of the package. -/
structure OnlyBytes (s t : State) (lo n : Nat) : Prop where
  bytes : ∀ l, (l < lo ∨ lo + n ≤ l) → t.rd1 l = s.rd1 l
  rest : OnlyMemory s t

/-- The instruction of the present step completes: one scalar register at most is written, memory is not, and the agent goes on
at `pc`. -/
def Completes (s : State) (i : Instr) (d : BitVec 5) (v : Word) (fl : BitVec 6) (pc : Word) : Prop :=
  ∃ t, exec i s = .next t ∧ AgentDone s t s.cur d v fl pc (s.ag s.cur).sb ∧ PackageKept s t

/-- It completes without a flag and goes on at NextPC (R67). -/
def Computes (s : State) (i : Instr) (d : BitVec 5) (v : Word) : Prop := Completes s i d v 0 (s.nextPc s.cur)

/-- It completes with the state otherwise as `u`, which says the other changes it makes. -/
def CompletesAs (s u : State) (i : Instr) : Prop :=
  ∃ t, exec i s = .next t ∧ AgentDone u t s.cur 0 0 0 (s.nextPc s.cur) (s.ag s.cur).sb ∧ PackageKept u t

/-- It completes and writes no register. -/
def Passes (s : State) (i : Instr) : Prop := Computes s i 0 0

/-! ### Traps, interrupts and faults -/

/-- What taking a trap, an interrupt or a machine check does (R318): the saved registers, the status, the PC at the handler. Every `g`
register of every bank, the flags and the other registers of the thread, the other privileged registers, the tiles and the copy
engine, and every byte of memory are as before. -/
structure TrapTaken (s t : State) (q code detail : Nat) (int : Bool) (pc val : Word) : Prop where
  cause : (t.priv q).trapcause = BitVec.ofNat 64 ((if int then 65536 else 0) + detail * 256 + code)
  savedPc : (t.priv q).trappc = pc
  value : (t.priv q).trapval = val
  status : (t.priv q).status = { (s.priv q).status with
    pplKernel := (s.priv q).status.pl != .user
    pie := (s.priv q).status.ie
    pl := .kernel, ie := false, nest := true
    shold := (s.priv q).status.shold || (int && code != 0x0D && code != 0x30) }
  handler : (t.thr q).pc = lineBase (s.priv q).trapvec + (if (s.priv q).status.pl = .user then 2 else 66)
  running : (t.thr q).run = .running
  privRest : { t.priv q with
    trapcause := (s.priv q).trapcause, trappc := (s.priv q).trappc, trapval := (s.priv q).trapval
    status := (s.priv q).status } = s.priv q
  registers : { t.thr q with
    pc := (s.thr q).pc, run := (s.thr q).run, retired := (s.thr q).retired, energy := (s.thr q).energy, sat := (s.thr q).sat
    ag := (s.thr q).ag } = s.thr q
  buffer : (t.thr q).ag.sb = (s.thr q).ag.sb
  tiles : (t.core q).til = (s.core q).til
  bytes : ∀ l, t.rd1 l = s.rd1 l
  fulls : ∀ l, t.fullAt l = s.fullAt l

/-- The instruction of the present step, in a thread, takes a precise trap at its own PC. -/
def Traps (s : State) (i : Instr) (code detail : Nat) (val : Word) : Prop :=
  ∃ t, exec i s = .next t ∧ TrapTaken s t s.cur.core code detail false (s.pcOf s.cur) val

/-- What a sprig's fault leaves (R25, R51): the record, an empty queue, span state 0. Its `g` and `k` registers, flags and links stand,
and every byte of memory. -/
structure SprigFaulted (s t : State) (q i code : Nat) (val : Word) : Prop where
  state : (t.sprig q i).st = .faulted
  queue : (t.sprig q i).queue = []
  cause : (t.sprig q i).fcause = BitVec.ofNat 8 code
  pc : (t.sprig q i).fpc = (s.sprig q i).pc.setWidth 16
  value : (t.sprig q i).fval = val
  span : (t.sprig q i).bstart = 0 ∧ (t.sprig q i).free = false
  registers : (t.sprig q i).g = (s.sprig q i).g ∧ (t.sprig q i).k = (s.sprig q i).k ∧
    (t.sprig q i).fpstat = (s.sprig q i).fpstat ∧ (t.sprig q i).rm = (s.sprig q i).rm ∧
    (t.sprig q i).links = (s.sprig q i).links ∧ (t.sprig q i).full = (s.sprig q i).full
  reported : i < 64 → (t.core q).unrep.getLsbD i = true
  bytes : ∀ l, t.rd1 l = s.rd1 l

/-- The instruction of the present step, in a sprig, faults. -/
def Faults (s : State) (i : Instr) (sprig code : Nat) (val : Word) : Prop :=
  ∃ t, exec i s = .next t ∧ SprigFaulted s t s.cur.core sprig code val

/-- The instruction raises a condition where it stands: a thread that is not in a handler traps with the detail, a sprig whose stores
are performed faults. -/
def Raises (s : State) (i : Instr) (code detail : Nat) (val : Word) : Prop :=
  (s.cur.who = .thread → (s.priv s.cur.core).status.nest = false → Traps s i code detail val) ∧
    ∀ k, s.cur.who = .sprig k → (s.ag s.cur).sb = [] → Faults s i k code val

/-- The instruction of the present step begins to wait for something (R37), for which it makes no access: only the wait, and a
sprig's WAITING state, are new. -/
def BeginsWait (s : State) (i : Instr) (val : Word) (what : WaitFor) : Prop :=
  ∃ t, exec i s = .next t ∧ (t.ag s.cur).wait = some ⟨s.time, (s.thr s.cur.core).waitlim.toNat, val, what, []⟩ ∧
    t.pcOf s.cur = s.pcOf s.cur ∧ (∀ a r, t.getG a r = s.getG a r) ∧
    (∀ k, s.cur.who = .sprig k → (t.sprig s.cur.core k).st = .waiting) ∧ PackageKept s t

/-- Nothing waits or is held at a home: no reservation, no queue of a semaphore. -/
structure NoQueues (s : State) : Prop where
  res : s.res = []
  slices : s.sliceQ = []
  sems : ∀ v, (s.vat v).sems = []

/-- No agent has a buffered store. -/
def NoStores (s : State) : Prop := ∀ a, (s.ag a).sb = []

/-! ### Accesses that are ready -/

/-- A load or store of an agent at `ea` may be made now: the rights, the translation and no party that holds the line (R144), on a page
that is neither commutative nor device space, in a region that is not LOST. -/
structure Ready (s : State) (a : AgentId) (rt : Right) (ea : Word) (x : Xl) : Prop where
  canon : canonical ea = true
  access : s.access (s.accOf a) rt ea = .ok x
  plain : x.crf = 0
  online : s.poolLost x.loc = false
  memory : isDevice x.loc = false

/-- And it may be read: no uncorrectable error in what it takes from memory, no other agent's reservation on the line, no uncacheable write of the agent to go before
it, no read of the agent made ahead of it, and no copy of it in another agent's cache to recall where it is a line of the core's own window. -/
structure Readable (s : State) (a : AgentId) (ea : Word) (n : Nat) (x : Xl) : Prop where
  ready : Ready s a .r ea x
  aligned : ea.toNat % n = 0
  sound : s.ueSeen a x n = false
  free : s.blocked a (x.loc / 64) = false
  inOrder : s.ucBehind a x = false
  early : (s.ag a).ahead = []
  recalled : x.window = true → x.owner = a.core → Store.find? s.behind (x.loc / 64) = none

/-- A synchronisation instruction on the word of `n` bytes at `ea` passes the checks of R215. -/
structure SyncReady (s : State) (ea : Word) (n : Nat) (r w : Bool) (need : PageNeed) (pool : Bool) (x : Xl) : Prop where
  canon : canonical ea = true
  aligned : ea.toNat % n = 0
  rights : ∃ hr hw, s.allowed (s.accOf s.cur) .r ea = .ok hr ∧ s.allowed (s.accOf s.cur) .w ea = .ok hw ∧
    (r = true → hr = true) ∧ (w = true → hw = true)
  access : s.access (s.accOf s.cur) (if r then .r else .w) ea = .ok x
  page : match need with
    | .plain => x.crf = 0
    | .tagged => x.tag = true
    | .range => x.crf ≠ 0
  inPool : pool = true ∨ isPool x.loc = false
  online : s.poolLost x.loc = false
  sound : s.ueAt x.loc n = false
  memory : isDevice x.loc = false

/-- The agent's earlier writes and deposits are performed, those to the pool tier by its devices too. -/
structure Performed (s : State) : Prop where
  buffer : (s.ag s.cur).sb = []
  partials : (s.core s.cur.core).partials = []
  noFence : ∀ f ∈ s.poolFences, f.who ≠ s.cur
  poolClean : ∀ e ∈ s.behind, isPool (64 * e.1) = false
  poolDone : s.poolFlights (s.partOf s.cur.core) = []

/-- The agent holds no reservation that it took by `lrw`. -/
def HoldsNone (s : State) : Prop := s.heldLines s.cur true = []

/-- The line has no reservation state and its slice has a slot free for it (R218). -/
structure LineFree (s : State) (x : Xl) : Prop where
  unheld : Store.find? s.res (x.loc / 64) = none
  notQueued : s.queuedFor s.cur (x.loc / 64) = false
  slot : s.slotsUsed x.slice < 128
  quiet : Store.get s.sliceQ [] x.slice = []

/-- No monitor stands on a word that the 8 bytes at `l` touch. -/
def Unwatched (s : State) (l : Nat) : Prop := ∀ m ∈ s.monitors, ∀ k < 8, m.loc ≠ (l + k) / 8 * 8

/-- The `n` bytes at `lo` hold `v`, little-endian, and every other byte is as in `s`. -/
def Stored (s t : State) (lo n v : Nat) : Prop :=
  ∀ l, t.rd1 l = if lo ≤ l ∧ l < lo + n then BitVec.ofNat 8 (v / 256 ^ (l - lo)) else s.rd1 l

/-- The reservation of a line has passed to the first of its queue, or is gone (R218, R220). -/
def PassedOn (s t : State) (line : Nat) (e : ResLine) : Prop :=
  match e.queue with
  | [] => Store.find? t.res line = none
  | (b, l) :: rest => Store.find? t.res line = some { e with holder := some b, byLrw := l, granted := s.time, queue := rest }

/-! ### Exact values of encodings (R100, R101) and what they round to (R107, R108) -/

/-- The sign, exponent and fraction of an encoding, without the 13 low bits that e8m10 ignores. -/
def ownBits (f : Ty) (v : Nat) : Nat := if f = .e8m10 then v / 2 ^ 13 else v

def signF (f : Ty) (v : Nat) : Bool := (ownBits f v).testBit (expBits f + fracBits f)

def expF (f : Ty) (v : Nat) : Nat := ownBits f v / 2 ^ fracBits f % 2 ^ expBits f

def fracF (f : Ty) (v : Nat) : Nat := ownBits f v % 2 ^ fracBits f

/-- The encoding is a NaN. -/
def nanF (f : Ty) (v : Nat) : Bool :=
  if f = .e4m3 then decide (ownBits f v % 128 = 127)
  else hasInf f && decide (expF f v = 2 ^ expBits f - 1 ∧ fracF f v ≠ 0)

/-- The encoding is an infinity. -/
def infF (f : Ty) (v : Nat) : Bool := hasInf f && decide (expF f v = 2 ^ expBits f - 1 ∧ fracF f v = 0)

/-- The encoding is a number. -/
def finiteF (f : Ty) (v : Nat) : Prop := nanF f v = false ∧ infF f v = false

/-- The encoding is a signalling NaN. -/
def sigF (f : Ty) (v : Nat) : Bool :=
  nanF f v && decide (f ≠ .e4m3 ∧ f ≠ .e5m2) && !(fracF f v).testBit (fracBits f - 1)

/-- The value of an encoding by the formula of R101. It puts an infinity above, or below, every number of the format, so that it gives
the order of all encodings that are no NaN. -/
def valueF (f : Ty) (v : Nat) : ℚ :=
  (if signF f v then -1 else 1) *
    if expF f v = 0 then 2 ^ emin f * ((fracF f v : ℚ) / 2 ^ fracBits f)
    else 2 ^ ((expF f v : ℤ) - bias f) * (1 + (fracF f v : ℚ) / 2 ^ fracBits f)

/-- The largest finite encoding of Table 1 of R100. -/
def topF : Ty → Nat
  | .f64 => 0x7FEFFFFFFFFFFFFF | .f32 => 0x7F7FFFFF | .f16 => 0x7BFF | .bf16 => 0x7F7F | .e8m10 => 0x7F7FE000 | .e4m3 => 0x7E
  | .e5m2 => 0x7B | .e3m2 => 0x1F | .e2m3 => 0x1F | .e2m1 => 7 | .b8 | .b16 | .b32 | .b64 | .e8m0 => 0

/-- The positive infinity of Table 1; 0 where there is none. -/
def infinityF : Ty → Nat
  | .f64 => 0x7FF0000000000000 | .f32 | .e8m10 => 0x7F800000 | .f16 => 0x7C00 | .bf16 => 0x7F80 | .e5m2 => 0x7C
  | .e4m3 | .e3m2 | .e2m3 | .e2m1 | .b8 | .b16 | .b32 | .b64 | .e8m0 => 0

/-- The canonical NaN of Table 1; 0 where there is none. -/
def nanOf : Ty → Nat
  | .f64 => 0x7FF8000000000000 | .f32 | .e8m10 => 0x7FC00000 | .f16 => 0x7E00 | .bf16 => 0x7FC0 | .e4m3 => 0x7F | .e5m2 => 0x7E
  | .e3m2 | .e2m3 | .e2m1 | .b8 | .b16 | .b32 | .b64 | .e8m0 => 0

/-- The sign bit of a format's container. -/
def negBit (f : Ty) : Nat := if f = .e8m10 then 2 ^ 31 else 2 ^ (expBits f + fracBits f)

/-- A positive encoding with a sign. -/
def withSign (f : Ty) (neg : Bool) (mag : Nat) : Nat := (if neg then negBit f else 0) + mag

/-- `RoundInt`: the magnitude `t` of a value, negative as `neg` says, rounds to `n`. -/
def RoundsInt (mode : Rnd) (neg : Bool) (t : ℝ) (n : ℤ) : Prop :=
  match mode with
  | .rtz => n = ⌊t⌋
  | .rdn => n = if neg then ⌈t⌉ else ⌊t⌋
  | .rup => n = if neg then ⌊t⌋ else ⌈t⌉
  | .rna => |t - n| ≤ 1 / 2 ∧ (|t - n| = 1 / 2 → t < n)
  | .rne | .dyn => |t - n| ≤ 1 / 2 ∧ (|t - n| = 1 / 2 → Even n)

/-- One unit in the last place of `x` in a format. -/
noncomputable def ulp (f : Ty) (x : ℝ) : ℝ := 2 ^ (max (Int.log 2 |x|) (emin f) - fracBits f)

/-- The magnitude `y`, with a sign, stands for the real `x` in the encoding and flags `z`: NX when they differ, UF too when `x` is tiny. -/
def Delivers (f : Ty) (neg : Bool) (y x : ℝ) (z : Rounded) : Prop :=
  z.1 < 2 * negBit f ∧ (f = .e8m10 → z.1 % 2 ^ 13 = 0) ∧ signF f z.1 = neg ∧ |(valueF f z.1 : ℝ)| = y ∧
  (y = |x| → z.2 = 0) ∧ (y ≠ |x| → |x| < 2 ^ emin f → z.2 = 0x03) ∧ (y ≠ |x| → 2 ^ emin f ≤ |x| → z.2 = 0x01)

/-- `RoundToFormat`: the real `x` rounds to the encoding and flags `z`; `zero` is the sign of a zero `x`. -/
def RoundsTo (f : Ty) (mode : Rnd) (sat zero : Bool) (x : ℝ) (z : Rounded) : Prop :=
  (x = 0 → z = (withSign f zero 0, 0)) ∧
  ∀ neg : Bool, x ≠ 0 → (neg = true ↔ x < 0) → ∃ n : ℤ,
    let clipped : Bool := sat || decide (f ∈ [Ty.e3m2, .e2m3, .e2m1]) || mode == .rtz || (mode == .rdn && !neg) || (mode == .rup && neg)
    RoundsInt mode neg (|x| / ulp f x) n ∧
    (valueF f (topF f) < n * ulp f x →
      z = (if clipped then withSign f neg (topF f) else if f = .e4m3 then 0x7F else withSign f neg (infinityF f), 0x05)) ∧
    (n * ulp f x ≤ valueF f (topF f) → Delivers f neg (n * ulp f x) x z)

/-- `StochasticRound` of a real that is not zero, with the 16-bit random value `q` (R110). -/
def RoundsRandomly (f : Ty) (q : Nat) (x : ℝ) (z : Rounded) : Prop :=
  ∀ neg : Bool, (neg = true ↔ x < 0) →
    let y : ℝ := ⌊|x| / ulp f x + q / 2 ^ 16⌋ * ulp f x
    (valueF f (topF f) < y → z = (withSign f neg (topF f), 0x05)) ∧ (y ≤ valueF f (topF f) → Delivers f neg y x z)

/-- `IntConvert`: the real `x` becomes the `w`-bit integer and flags `z`. -/
def IntRounds (w : Nat) (signed : Bool) (mode : Rnd) (x : ℝ) (z : Rounded) : Prop :=
  let lo : ℤ := if signed then -(2 ^ (w - 1)) else 0
  let hi : ℤ := if signed then 2 ^ (w - 1) - 1 else 2 ^ w - 1
  let bits (v : ℤ) : Nat := (v % 2 ^ w).toNat
  ∀ neg : Bool, (neg = true ↔ x < 0) → ∃ n : ℤ, RoundsInt mode neg |x| n ∧
    let v := if neg then -n else n
    (v < lo → z = (bits lo, 0x10)) ∧ (hi < v → z = (bits hi, 0x10)) ∧
    (lo ≤ v → v ≤ hi → z.1 = bits v ∧ ((v : ℝ) = x → z.2 = 0) ∧ ((v : ℝ) ≠ x → z.2 = 0x01))

/-! ### Special functions (R112) -/

/-- `y` is the exact result of a special function on `x`, which is no special operand. -/
def IsSpecial (o : SFn) (x y : ℝ) : Prop :=
  match o with
  | .rcp => x ≠ 0 ∧ y = 1 / x
  | .rsq => 0 < x ∧ y = 1 / √x
  | .exp2 => y = 2 ^ x
  | .log2 => 0 < x ∧ y = Real.logb 2 x

/-- No tie of the format lies within 2^-100 of `y`, in parts of `y`. -/
def ClearOfTies (f : Ty) (y : ℝ) : Prop := ∀ k : ℤ, (2 : ℝ) ^ (-100 : ℤ) * (|y| / ulp f y) < |(|y| / ulp f y) - (k + 1 / 2)|

/-! ### The products of the tensor instructions (R114 to R117) -/

/-- A product, exactly: a NaN, an infinity, or a number with its sign. -/
inductive Term where
  | nan
  | inf (neg : Bool)
  | fin (neg : Bool) (v : ℚ)

/-- The number of a term, if it is one. -/
def Term.num? : Term → Option (Bool × ℚ)
  | .fin n v => some (n, v)
  | .nan | .inf _ => none

/-- `Product` of R114, and of R116 when there are scales, with its flags. -/
def product (f : Ty) (a b : Nat) (scales : Option (Nat × Nat)) : Term × BitVec 6 :=
  let sign := signF f a ^^ signF f b
  let shift : ℤ := match scales with
    | some s => s.1 + s.2 - 254
    | none => 0
  if ∃ s ∈ scales, s.1 = 255 ∨ s.2 = 255 then (.nan, 0)
  else if nanF f a || nanF f b then (.nan, if sigF f a || sigF f b then 0x10 else 0)
  else if infF f a || infF f b then if valueF f a = 0 ∨ valueF f b = 0 then (.nan, 0x10) else (.inf sign, 0)
  else (.fin sign (valueF f a * valueF f b * 2 ^ shift), 0)

/-- The finite products of a group, each truncated to units of 2^(E - 62), where groups have more than one (R114). -/
def truncated (g : Nat) (ps : List ℚ) : List ℚ :=
  let es := (ps.filter fun p => p ≠ 0).map fun p => Int.log 2 |p|
  let u : ℚ := 2 ^ (es.foldl max (es.headD 0) - 62)
  if 1 < g ∧ es ≠ [] then ps.map fun p => (if p < 0 then -1 else 1) * ⌊|p| / u⌋ * u else ps

/-- One group of products is added to a binary64 accumulator (R114): encodings with the flags raised so far. -/
def GroupAdds (g : Nat) (acc : Rounded) (ts : List (Term × BitVec 6)) (z : Rounded) : Prop :=
  let a := acc.1
  let fl := ts.foldl (fun f t => f ||| t.2) acc.2
  let nums := ts.filterMap fun t => t.1.num?
  let cut := truncated g (nums.map fun p => p.2)
  let neg : Bool := cut.sum < 0 ∨ ∀ p ∈ nums, p.1 = true ∧ p.2 = 0
  let fl' := if cut = nums.map fun p => p.2 then fl else fl ||| 0x01
  let has (t : Term) : Prop := ∃ p ∈ ts, p.1 = t
  let quiet (fl : BitVec 6) : Rounded := (nanOf .f64, if sigF .f64 a then fl ||| 0x10 else fl)
  (has .nan → z = quiet fl) ∧
  (¬has .nan → has (.inf true) → has (.inf false) → z = (nanOf .f64, fl ||| 0x10)) ∧
  (∀ n, ¬has .nan → has (.inf n) → ¬has (.inf !n) →
    z = if nanF .f64 a then quiet fl else if infF .f64 a ∧ signF .f64 a ≠ n then (nanOf .f64, fl ||| 0x10)
      else (withSign .f64 n (infinityF .f64), fl)) ∧
  (¬has .nan → (∀ n, ¬has (.inf n)) →
    (nanF .f64 a = true → z = quiet fl') ∧ (infF .f64 a = true → z = (withSign .f64 (signF .f64 a) (infinityF .f64), fl')) ∧
    (finiteF .f64 a → ∃ r, RoundsTo .f64 .rne false (signF .f64 a && neg) (valueF .f64 a + cut.sum : ℚ) r ∧ z = (r.1, fl' ||| r.2)))

/-- `TileAccumulate` over the products of one element, in groups of `g`. -/
def Accumulates (g acc : Nat) (ts : List (Term × BitVec 6)) (z : Rounded) : Prop :=
  ∃ c : Nat → Rounded, c 0 = (acc, 0) ∧ (∀ k, k * g < ts.length → GroupAdds g (c k) ((ts.drop (k * g)).take g) (c (k + 1))) ∧
    z = c ((ts.length + g - 1) / g)

/-! ### Vector instructions -/

/-- The v registers that a sprig of the core claims (R47). -/
def Claimed (s : State) (regs : List (BitVec 6)) : Prop := ∀ r ∈ regs, r.toNat < (s.core s.cur.core).arr.r

/-- The flags of the active elements below `n`. -/
def activeFlags (mask : Word) (n : Nat) (op : Nat → Rounded) : BitVec 6 :=
  (List.range n).foldl (fun f e => if mask.getLsbD e then f ||| (op e).2 else f) 0

/-- A vector instruction of sprig `p` completes and writes `vd` by `VectorWrite` (R175): an active element below `n` gets its result, an
inactive one keeps its value or gets 0 under ZM, elements from `n` on get 0. The flags `fl` accumulate; nothing else changes. -/
def Vectors (s : State) (i : Instr) (p : Nat) (k : BitVec 3) (zm : Bool) (vd : BitVec 6) (w n : Nat) (op : Nat → Nat)
    (fl : BitVec 6) : Prop :=
  let q := s.cur.core
  ∃ t v, exec i s = .next t ∧
    (∀ e, w * (e + 1) ≤ 512 → elem v w e =
      if e < n then if (s.getK q p k).getLsbD e then op e % 2 ^ w else if zm then 0 else elem (s.getV q p vd) w e else 0) ∧
    AgentDone (s.setV q p vd v) t s.cur 0 0 fl (s.nextPc s.cur) (s.ag s.cur).sb ∧ PackageKept s t

/-- The same for an operation with flags on each element. -/
def Elements (s : State) (i : Instr) (p : Nat) (h : VHdr) (vd : BitVec 6) (op : Nat → Rounded) : Prop :=
  Vectors s i p h.k h.zm vd h.et.width h.et.count (fun e => (op e).1) (activeFlags (s.getK s.cur.core p h.k) h.et.count op)

/-- An instruction of sprig `p` completes and gives predicate `kd` the value `v`; nothing else changes. -/
def Predicates (s : State) (i : Instr) (p : Nat) (kd : BitVec 3) (v : Word) (fl : BitVec 6) : Prop :=
  ∃ t, exec i s = .next t ∧ AgentDone (s.setK s.cur.core p kd v) t s.cur 0 0 fl (s.nextPc s.cur) (s.ag s.cur).sb ∧
    PackageKept s t

end Sys2Proof.Machine
end

