-- ==== Sys2Proof/Certificates/Slice0/Obligations.lean ====
section
/-! DEFINITION. The statements for the provers, from the numbered rules of the spec. `Computes`, `Completes`, `Passes`, `Traps`, `Faults`
and the frames they stand for are those of Sys2Proof/Safety.lean. -/

open Sys2Proof Sys2Proof.Machine

/-! ### Scalar integer instructions -/

/-- R124, R98, R99: the register-register integer instructions complete with these results, in a thread and in a sprig, and change
nothing else. A zero divisor gives all ones and the dividend; the quotient of the most negative number by -1 wraps. -/
def Obligations.IntegerRegisterResults : Prop :=
  ∀ (s : State) (d b c : BitVec 5),
    let x := s.rg b
    let y := s.rg c
    Computes s (.add d b c) d (x + y) ∧ Computes s (.sub d b c) d (x - y) ∧ Computes s (.mul d b c) d (x * y) ∧
    Computes s (.and d b c) d (x &&& y) ∧ Computes s (.or d b c) d (x ||| y) ∧ Computes s (.xor d b c) d (x ^^^ y) ∧
    Computes s (.shl d b c) d (x <<< (y.toNat % 64)) ∧ Computes s (.shr d b c) d (x >>> (y.toNat % 64)) ∧
    Computes s (.sra d b c) d (x.sshiftRight (y.toNat % 64)) ∧
    Computes s (.mulh true d b c) d (BitVec.ofNat 64 (x.toNat * y.toNat / 2 ^ 64)) ∧
    Computes s (.mulh false d b c) d (BitVec.ofInt 64 (x.toInt * y.toInt / 2 ^ 64)) ∧
    Computes s (.div true d b c) d (if y = 0 then BitVec.allOnes 64 else x / y) ∧
    Computes s (.div false d b c) d (if y = 0 then BitVec.allOnes 64 else x.sdiv y) ∧
    Computes s (.rem true d b c) d (if y = 0 then x else x % y) ∧
    Computes s (.rem false d b c) d (if y = 0 then x else x.srem y) ∧
    Computes s (.min true d b c) d (if x.toNat < y.toNat then x else y) ∧
    Computes s (.min false d b c) d (if x.toInt < y.toInt then x else y) ∧
    Computes s (.max true d b c) d (if x.toNat < y.toNat then y else x) ∧
    Computes s (.max false d b c) d (if x.toInt < y.toInt then y else x) ∧
    Computes s (.slt true d b c) d (if x.toNat < y.toNat then 1 else 0) ∧
    Computes s (.slt false d b c) d (if x.toInt < y.toInt then 1 else 0) ∧
    (y ≠ 0 → Computes s (.cmov d b c) d x) ∧ (y = 0 → Passes s (.cmov d b c))

/-- R125: the counts, the extensions bit by bit, and the shifted sum. -/
def Obligations.BitAndExtendResults : Prop :=
  ∀ (s : State) (d b c : BitVec 5) (n : BitVec 6),
    let x := s.rg b
    (∃ k, k ≤ 64 ∧ x.toNat < 2 ^ (64 - k) ∧ (k < 64 → 2 ^ (63 - k) ≤ x.toNat) ∧ Computes s (.clz d b) d (BitVec.ofNat 64 k)) ∧
    (∃ k, k ≤ 64 ∧ (∀ j < k, x.getLsbD j = false) ∧ (k < 64 → x.getLsbD k = true) ∧
      Computes s (.ctz d b) d (BitVec.ofNat 64 k)) ∧
    Computes s (.popc d b) d (BitVec.ofNat 64 ((List.range 64).countP fun j => x.getLsbD j)) ∧
    (∃ v : Word, (∀ j < 64, v.getLsbD j = x.getLsbD (min j n.toNat)) ∧ Computes s (.sext d b n) d v) ∧
    (∃ v : Word, (∀ j < 64, v.getLsbD j = (decide (j ≤ n.toNat) && x.getLsbD j)) ∧ Computes s (.zext d b n) d v) ∧
    Computes s (.addsh d b c n) d (x + (s.rg c <<< n.toNat))

/-- R126 to R128, R142: the immediate forms, `li` with each tail, `addpc` from the line of the instruction (its
8-byte tail is refused), and `time`. -/
def Obligations.ImmediateResults : Prop :=
  ∀ (s : State) (d b : BitVec 5) (i16 : BitVec 16) (i32 : BitVec 32) (i64 : BitVec 64) (n : BitVec 6),
    let x := s.rg b
    let line := s.pcOf s.cur &&& ~~~63#64
    Computes s (.addi d b i16) d (x + i16.signExtend 64) ∧ Computes s (.andi d b i16) d (x &&& i16.signExtend 64) ∧
    Computes s (.ori d b i16) d (x ||| i16.signExtend 64) ∧ Computes s (.xori d b i16) d (x ^^^ i16.signExtend 64) ∧
    Computes s (.shli d b n) d (x <<< n.toNat) ∧ Computes s (.shri d b n) d (x >>> n.toNat) ∧
    Computes s (.srai d b n) d (x.sshiftRight n.toNat) ∧
    Computes s (.liTail2 d i16) d (i16.signExtend 64) ∧ Computes s (.liTail4 d i32) d (i32.signExtend 64) ∧
    Computes s (.liTail8 d i64) d i64 ∧
    Computes s (.addpcLine d i16) d (line + i16.signExtend 64 * 64) ∧
    Computes s (.addpcByte d i32) d (line + i32.signExtend 64) ∧
    (∀ (a : BitVec 5) (t : Nat), decode (0x1F80 + a.setWidth 16) t = .error .badTail) ∧
    Computes s (.time d) d (BitVec.ofNat 64 s.time)

/-! ### Scalar floating point -/

/-- R130 to R134, R46: each completes with the result of its number-format function on the low bits of its sources, zero above a
narrow result, and `FPSTAT` accumulates the flags; the rounding field 000 takes the agent's `FPCTL.RM` (R129). R105: comparisons,
minimum and maximum follow the order of the exact values, -0 below +0 in the latter only, and treat a NaN as R105 says. R134: the class
is that of the exact value. -/
def Obligations.FloatResultsAndFlags : Prop :=
  ∀ (s : State) (p : Prec) (r : Rnd) (d b c : BitVec 5) (q : FCmpCond) (k : FCvt) (x y : Nat),
    let f := precTy p
    let lo (g : BitVec 5) : Nat := (s.rg g).toNat % 2 ^ f.width
    let mode : Rnd := match r with
      | .dyn => modeOfRm (s.rmOf s.cur)
      | m => m
    let gives (i : Instr) (z : Rounded) : Prop := Completes s i d (BitVec.ofNat 64 z.1) z.2 (s.nextPc s.cur)
    gives (.fadd p r d b c) (arithF .add f mode (lo b) (lo c)) ∧ gives (.fsub p r d b c) (arithF .sub f mode (lo b) (lo c)) ∧
    gives (.fmul p r d b c) (arithF .mul f mode (lo b) (lo c)) ∧ gives (.fdiv p r d b c) (arithF .div f mode (lo b) (lo c)) ∧
    gives (.fsqrt p r d b) (sqrtF f mode (lo b)) ∧ gives (.fma p r d b c) (fmaF f mode (lo b) (lo c) (lo d)) ∧
    gives (.fmin p d b c) (minMaxF f false (lo b) (lo c)) ∧ gives (.fmax p d b c) (minMaxF f true (lo b) (lo c)) ∧
    gives (.fcmp q p d b c) (if (cmpF f (fcmpCond q) (lo b) (lo c)).1 then 1 else 0, (cmpF f (fcmpCond q) (lo b) (lo c)).2) ∧
    gives (.fcvt k r d b) (cvtResult k mode (s.rg b)) ∧
    Computes s (.fclass p d b) d (BitVec.ofNat 64 (classF f (lo b))) ∧
    (let vx := valueF f x
     let vy := valueF f y
     let loud : BitVec 6 := 0x10
     let quiet : BitVec 6 := if sigF f x ∨ sigF f y then 0x10 else 0
     let below := vx < vy ∨ vx = vy ∧ signF f x ∧ ¬signF f y
     (nanF f x = false → nanF f y = false →
       cmpF f .eq x y = (decide (vx = vy), 0) ∧ cmpF f .ne x y = (decide (vx ≠ vy), 0) ∧ cmpF f .un x y = (false, 0) ∧
       cmpF f .lt x y = (decide (vx < vy), 0) ∧ cmpF f .le x y = (decide (vx ≤ vy), 0) ∧
       cmpF f .gt x y = (decide (vy < vx), 0) ∧ cmpF f .ge x y = (decide (vy ≤ vx), 0) ∧
       minMaxF f false x y = (if below then x else y, 0) ∧ minMaxF f true x y = (if below then y else x, 0)) ∧
     (nanF f x = true ∨ nanF f y = true →
       cmpF f .eq x y = (false, quiet) ∧ cmpF f .ne x y = (true, quiet) ∧ cmpF f .un x y = (true, quiet) ∧
       cmpF f .lt x y = (false, loud) ∧ cmpF f .le x y = (false, loud) ∧ cmpF f .gt x y = (false, loud) ∧
       cmpF f .ge x y = (false, loud) ∧
       ∀ maxi, minMaxF f maxi x y = (if nanF f x then if nanF f y then nanOf f else y else x, quiet)) ∧
     classF f x = (if nanF f x then if sigF f x then 0x100 else 0x200
       else if infF f x then if signF f x then 0x001 else 0x080
       else if vx = 0 then if signF f x then 0x008 else 0x010
       else if |vx| < 2 ^ emin f then if signF f x then 0x004 else 0x020
       else if signF f x then 0x002 else 0x040))

/-- R103, R130: an operand of the arithmetic, of `fma` or of `fsqrt` that is a NaN gives the canonical NaN of the format, and NV exactly
when some operand signals. R104, R106: an infinite operand gives an infinity, or a zero quotient, of the sign that the operands give; an
invalid operation gives the canonical NaN and NV, and a division of a nonzero number by zero an infinity and DZ. -/
def Obligations.NanOperandGivesCanonicalNan : Prop :=
  ∀ (s : State) (p : Prec) (r : Rnd) (d b c : BitVec 5) (mode : Rnd) (i j k : Nat),
    let f := precTy p
    let x := unpackF f (s.rgF p b)
    let y := unpackF f (s.rgF p c)
    let w := unpackF f (s.rgF p d)
    (x.isNan ∨ y.isNan →
      let fl : BitVec 6 := if x.isSig ∨ y.isSig then 0x10 else 0
      let nan := BitVec.ofNat 64 (canonNan f)
      Completes s (.fadd p r d b c) d nan fl (s.nextPc s.cur) ∧ Completes s (.fsub p r d b c) d nan fl (s.nextPc s.cur) ∧
      Completes s (.fmul p r d b c) d nan fl (s.nextPc s.cur) ∧ Completes s (.fdiv p r d b c) d nan fl (s.nextPc s.cur)) ∧
    (x.isNan → Completes s (.fsqrt p r d b) d (BitVec.ofNat 64 (canonNan f)) (if x.isSig then 0x10 else 0) (s.nextPc s.cur)) ∧
    (x.isNan ∨ y.isNan ∨ w.isNan →
      Completes s (.fma p r d b c) d (BitVec.ofNat 64 (canonNan f)) (if x.isSig ∨ y.isSig ∨ w.isSig then 0x10 else 0)
        (s.nextPc s.cur)) ∧
    (canonNan .f64 = 0x7FF8000000000000 ∧ canonNan .f32 = 0x7FC00000 ∧ canonNan .f16 = 0x7E00 ∧ canonNan .bf16 = 0x7FC0) ∧
    (nanF f i = false → nanF f j = false → nanF f k = false →
      let invalid : Rounded := (nanOf f, 0x10)
      let infinite (neg : Bool) : Rounded := (withSign f neg (infinityF f), 0)
      let both := signF f i ^^ signF f j
      (∀ o ∈ [FOp.add, .sub],
        let sj := signF f j ^^ decide (o = .sub)
        (infF f i = true → infF f j = true → arithF o f mode i j = if signF f i = sj then infinite sj else invalid) ∧
        (infF f i = true → infF f j = false → arithF o f mode i j = infinite (signF f i)) ∧
        (infF f i = false → infF f j = true → arithF o f mode i j = infinite sj)) ∧
      (infF f i = true ∨ infF f j = true →
        arithF .mul f mode i j = (if valueF f i = 0 ∨ valueF f j = 0 then invalid else infinite both) ∧
        fmaF f mode i j k = if valueF f i = 0 ∨ valueF f j = 0 ∨ infF f k = true ∧ signF f k ≠ both then invalid else infinite both) ∧
      (infF f i = false → infF f j = false → infF f k = true → fmaF f mode i j k = infinite (signF f k)) ∧
      (infF f i = true → arithF .div f mode i j = if infF f j then invalid else infinite both) ∧
      (infF f i = false → infF f j = true → arithF .div f mode i j = (withSign f both 0, 0)) ∧
      (infF f i = false → valueF f j = 0 →
        arithF .div f mode i j = if valueF f i = 0 then invalid else ((infinite both).1, 0x08)) ∧
      (valueF f i < 0 → sqrtF f mode i = invalid) ∧ (infF f i = true → signF f i = false → sqrtF f mode i = infinite false))

/-- R107: `RoundInt` of m x 2^e to units of 2^u, for e below u, in each mode: a neighbour of the exact value, the nearer one in the
nearest modes, the even one of two equally near, and inexact exactly when some remainder is lost. R130, R106, R178: a sum, difference,
product, quotient, square root or fused multiply-add of finite operands is `RoundToFormat` of the exact value, an exact zero of the sign
R106 gives. R180: an element of `vdot` with finite operands is `RoundToFormat` of the exact sum. R107 to R109, R133, R184: a conversion
rounds the exact value of its source, to a float by `RoundToFormat`, to an integer by `IntConvert`, to e8m0 by its binade; one of a NaN
or an infinity to an integer gives 0 or the nearer bound with NV, to e8m0 its NaN, and the NaN of e8m0 converts as a quiet NaN. That
`fcvt.sat` of an infinity from f16 to f16, or from bf16 to bf16, gives the greatest finite number with NV is the model's choice (log 45). -/
def Obligations.FloatResultsAreRoundedExactValues : Prop :=
  (∀ (f : Ty) (mode : Rnd) (a b d : Nat), f ∈ [Ty.f64, .f32, .f16, .bf16] → finiteF f a → finiteF f b → finiteF f d →
    let x : ℝ := valueF f a
    let y : ℝ := valueF f b
    let z : ℝ := valueF f d
    let both := signF f a ^^ signF f b
    let sumSign (m n : Bool) : Bool := if m = n then m else mode == .rdn
    RoundsTo f mode false (sumSign (signF f a) (signF f b)) (x + y) (arithF .add f mode a b) ∧
    RoundsTo f mode false (sumSign (signF f a) (!signF f b)) (x - y) (arithF .sub f mode a b) ∧
    RoundsTo f mode false both (x * y) (arithF .mul f mode a b) ∧
    (y ≠ 0 → RoundsTo f mode false both (x / y) (arithF .div f mode a b)) ∧
    (0 ≤ x → RoundsTo f mode false (signF f a) (√x) (sqrtF f mode a)) ∧
    RoundsTo f mode false (sumSign both (signF f d)) (x * y + z) (fmaF f mode a b d)) ∧
  (∀ (et : Ty) (mode : Rnd) (d : Nat) (ps : List (Nat × Nat)), et.isFloat = true → finiteF .f32 d →
    (∀ p ∈ ps, finiteF et p.1 ∧ finiteF et p.2) →
    ∃ zero, RoundsTo .f32 mode false zero (valueF .f32 d + (ps.map fun p => valueF et p.1 * valueF et p.2).sum : ℚ) (dotF et mode d ps)) ∧
  (∀ (dst src : Ty) (mode : Rnd) (sat u : Bool) (v : Nat),
    let floats := [Ty.f64, .f32, .f16, .bf16, .e8m10, .e4m3, .e5m2, .e3m2, .e2m3, .e2m1]
    let z := cvtElem dst src mode sat u v
    let rounds (zero : Bool) (x : ℝ) : Prop :=
      (dst ∈ floats → RoundsTo dst mode sat zero x z) ∧ (dst.isInt = true → IntRounds dst.width (!u) mode x z) ∧
      (dst = .e8m0 →
        (|x| < 2 ^ (-127 : ℤ) → z = (0, 0x03)) ∧ ((2 : ℝ) ^ 128 ≤ |x| → z = (if sat then 0xFE else 0xFF, 0x05)) ∧
        ((2 : ℝ) ^ (-127 : ℤ) ≤ |x| → |x| < 2 ^ 128 → (z.1 : ℤ) = Int.log 2 |x| + 127 ∧
          (|x| = 2 ^ Int.log 2 |x| → z.2 = 0) ∧ (|x| ≠ 2 ^ Int.log 2 |x| → z.2 = 0x01)))
    let clamp (lo hi x : Int) : Int := max lo (min hi x)
    let int : Int := if u then (v % 2 ^ src.width : Nat) else (BitVec.ofNat src.width v).toInt
    (src ∈ floats → finiteF src v → rounds (signF src v) (valueF src v)) ∧
    (src = .e8m0 → dst ≠ .e8m0 → v < 255 → rounds false (2 ^ ((v : ℤ) - 127))) ∧
    (src.isInt = true → dst.isInt = false → rounds false int) ∧
    (src.isInt = true → dst.isInt = true →
      (z.1 : Int) = (if sat then if u then clamp 0 (2 ^ dst.width - 1) int else clamp (-(2 ^ (dst.width - 1))) (2 ^ (dst.width - 1) - 1) int
        else int) % 2 ^ dst.width ∧ z.2 = 0) ∧
    (src ∈ floats → dst ∈ floats → nanF src v = true →
      z = (nanOf dst, if dst ∈ [Ty.e3m2, .e2m3, .e2m1] ∨ sigF src v then 0x10 else 0)) ∧
    (src ∈ floats → dst ∈ floats → infF src v = true → z =
      if sat = false ∧ infinityF dst ≠ 0 then (withSign dst (signF src v) (infinityF dst), 0)
      else if sat = false ∧ dst = .e4m3 then (0x7F, 0x10) else (withSign dst (signF src v) (topF dst), 0x10)) ∧
    (src ∈ floats → dst.isInt = true →
      let w := dst.width
      (nanF src v = true → z = (0, 0x10)) ∧
      (infF src v = true → z = (if signF src v then if u then 0 else 2 ^ (w - 1) else if u then 2 ^ w - 1 else 2 ^ (w - 1) - 1, 0x10))) ∧
    (src ∈ floats → dst = .e8m0 →
      (nanF src v = true → z = (0xFF, if sigF src v then 0x10 else 0)) ∧ (infF src v = true → z = (0xFF, 0x10))) ∧
    (src = .e8m0 → v = 0xFF →
      (dst ∈ floats → z = (nanOf dst, if dst ∈ [Ty.e3m2, .e2m3, .e2m1] then 0x10 else 0)) ∧ (dst.isInt = true → z = (0, 0x10)) ∧
      (dst = .e8m0 → z = (0xFF, 0))) ∧
    (src = .e8m0 → dst = .e8m0 → z = (v, 0))) ∧
  (∀ (p q : Prec) (sat u : Bool) (mode : Rnd) (v : Word),
    let narrow := v.toNat % 2 ^ (precTy q).width
    cvtResult (.toFloat p sat (.float q)) mode v = cvtElem (precTy p) (precTy q) mode sat false narrow ∧
    cvtResult (.toFloat p sat .s64) mode v = cvtElem (precTy p) .b64 mode sat false v.toNat ∧
    cvtResult (.toFloat p sat .u64) mode v = cvtElem (precTy p) .b64 mode sat true v.toNat ∧
    cvtResult (.toInt u sat q) mode v = cvtElem .b64 (precTy q) mode false u narrow) ∧
  ∀ (m : Nat) (e u : Int) (neg : Bool), e < u →
    let k := (u - e).toNat
    let at_ (mode : Rnd) : Nat := (roundUnits m e false u mode neg).1
    (∀ mode, m < (at_ mode + 1) * 2 ^ k ∧ at_ mode * 2 ^ k < m + 2 ^ k) ∧
    (at_ .rtz * 2 ^ k ≤ m) ∧ (neg = true → m ≤ at_ .rdn * 2 ^ k ∧ at_ .rup * 2 ^ k ≤ m) ∧
    (neg = false → at_ .rdn * 2 ^ k ≤ m ∧ m ≤ at_ .rup * 2 ^ k) ∧
    (∀ mode ∈ [Rnd.rne, .rna], 2 * m ≤ (2 * at_ mode + 1) * 2 ^ k ∧ 2 * (at_ mode * 2 ^ k) ≤ 2 * m + 2 ^ k) ∧
    (2 * (m % 2 ^ k) = 2 ^ k → at_ .rne % 2 = 0 ∧ at_ .rna = m / 2 ^ k + 1) ∧
    (∀ mode, (roundUnits m e false u mode neg).2 = decide (m % 2 ^ k ≠ 0))

/-! ### Control transfer -/

/-- R135, R68 to R70, R136, R137: a taken transfer to a target the agent may reach writes the link and goes on at the target; an
untaken branch and `nop` go on at NextPC. -/
def Obligations.TransfersReachTheirTargets : Prop :=
  ∀ (s : State) (d b c slot : BitVec 5) (l27 : BitVec 27) (l32 : BitVec 32) (l21 : BitVec 21) (hint : Bool) (q : BrCond)
    (z : BrzCond),
    let reach (target : Word) : Prop := match s.cur.who with
      | .thread => canonical target = true
      | .sprig _ => target.toNat ≤ 0xFFFF
    let rel (lines : Word) : Word := (s.pcOf s.cur &&& ~~~63#64) + lines * 64 + 2 + 2 * slot.setWidth 64
    let x := s.rg b
    let y := s.rg c
    let holds : Prop := match q with
      | .eq => x = y | .ne => x ≠ y | .lt => x.toInt < y.toInt | .ge => y.toInt ≤ x.toInt
      | .ltu => x.toNat < y.toNat | .geu => y.toNat ≤ x.toNat
    let holdsZ : Prop := match z with
      | .eqz => x = 0 | .nez => x ≠ 0 | .ltz => x.toInt < 0 | .gez => 0 ≤ x.toInt | .gtz => 0 < x.toInt | .lez => x.toInt ≤ 0
    let next := s.nextPc s.cur
    Passes s .nop ∧
    (reach (rel (l27.signExtend 64)) →
      Completes s (.jmp l27 slot) 0 0 0 (rel (l27.signExtend 64)) ∧
      Completes s (.call d l27 slot) d next 0 (rel (l27.signExtend 64))) ∧
    (reach x → isHeadAddr x.toNat = true → Completes s (.jmpr b) 0 0 0 x ∧ Completes s (.callr d b) d next 0 x) ∧
    (holds → reach (rel (l32.signExtend 64)) → Completes s (.br q l32 hint slot b c) 0 0 0 (rel (l32.signExtend 64))) ∧
    (¬holds → Passes s (.br q l32 hint slot b c)) ∧
    (holdsZ → reach (rel (l21.signExtend 64)) → Completes s (.brz z l21 hint slot b) 0 0 0 (rel (l21.signExtend 64))) ∧
    (¬holdsZ → Passes s (.brz z l21 hint slot b))

/-- R69, R70, R136: a thread's taken transfer to a target that is not canonical takes XLATE with the target in `TRAPVAL`; a register
target that is no head address takes ALIGN; a sprig's taken target above 0xFFFF is ILLEGAL detail 11; `br` and `brz` check the target of
a branch that is taken. R81, R138: `callx` reads entry IDX of the linkage table: 0 or an odd entry takes UNBOUND with IDX, a bound one is
checked as a register target is, and called, with the link in g[A]. It belongs to threads: in a sprig it is ILLEGAL detail 9. -/
def Obligations.TargetsAndLinkageAreChecked : Prop :=
  (∀ (s : State) (d b c slot : BitVec 5) (l27 : BitVec 27) (l32 : BitVec 32) (l21 : BitVec 21) (hint : Bool) (k : BrCond) (z : BrzCond),
     let far (lines : Word) : Word := (s.pcOf s.cur &&& ~~~63#64) + lines * 64 + 2 + 2 * slot.setWidth 64
     let target := far (l32.signExtend 64)
     let targetZ := far (l21.signExtend 64)
     let br : Instr := .br k l32 hint slot b c
     let brz : Instr := .brz z l21 hint slot b
     let rel : Word := (s.pcOf s.cur &&& ~~~63#64) + l27.signExtend 64 * 64 + 2 + 2 * slot.setWidth 64
     let x := s.rg b
     let il (i : Instr) : Word := BitVec.ofNat 64 (11 * 65536 + (headOf i).toNat)
     (s.cur.who = .thread → canonical rel = false →
       Raises s (.jmp l27 slot) 0x05 0 rel ∧ Raises s (.call d l27 slot) 0x05 0 rel) ∧
     (s.cur.who = .thread → canonical x = false → Raises s (.jmpr b) 0x05 0 x ∧ Raises s (.callr d b) 0x05 0 x) ∧
     (s.cur.who = .thread → canonical x = true → isHeadAddr x.toNat = false →
       Raises s (.jmpr b) 0x03 0 x ∧ Raises s (.callr d b) 0x03 0 x) ∧
     (s.cur.who ≠ .thread → 0xFFFF < x.toNat →
       Raises s (.jmpr b) 0x01 11 (il (.jmpr b)) ∧ Raises s (.callr d b) 0x01 11 (il (.callr d b))) ∧
     (s.cur.who ≠ .thread → x.toNat ≤ 0xFFFF → isHeadAddr x.toNat = false →
       Raises s (.jmpr b) 0x03 0 x ∧ Raises s (.callr d b) 0x03 0 x) ∧
     (s.cur.who ≠ .thread → 0xFFFF < rel.toNat →
       Raises s (.jmp l27 slot) 0x01 11 (il (.jmp l27 slot)) ∧ Raises s (.call d l27 slot) 0x01 11 (il (.call d l27 slot))) ∧
     (brHolds k x (s.rg c) = true →
       (s.cur.who = .thread → canonical target = false → Raises s br 0x05 0 target) ∧
       (s.cur.who ≠ .thread → 0xFFFF < target.toNat → Raises s br 0x01 11 (il br))) ∧
     (brzHolds z x = true →
       (s.cur.who = .thread → canonical targetZ = false → Raises s brz 0x05 0 targetZ) ∧
       (s.cur.who ≠ .thread → 0xFFFF < targetZ.toNat → Raises s brz 0x01 11 (il brz)))) ∧
  ∀ (s : State) (d : BitVec 5) (idx : BitVec 16) (x : Xl),
    let ea := (s.thr s.cur.core).ltbase + 8 * idx.setWidth 64
    let e := BitVec.ofNat 64 (leNat (s.seenBytes s.cur x.loc 8))
    let own := (s.ag s.cur).fwd.any id = false ∧ ∀ w ∈ (s.ag s.cur).sb, w.touches x.loc 8 = false
    (s.cur.who = .thread → Readable s s.cur ea 8 x → own → e ≠ 0 → e.toNat % 2 = 0 →
      (canonical e = true → isHeadAddr e.toNat = true → Completes s (.callx d idx) d (s.nextPc s.cur) 0 e) ∧
      (canonical e = false → Raises s (.callx d idx) 0x05 0 e) ∧
      (canonical e = true → isHeadAddr e.toNat = false → Raises s (.callx d idx) 0x03 0 e)) ∧
    (s.cur.who = .thread → Readable s s.cur ea 8 x → (e = 0 ∨ e.toNat % 2 = 1) → Raises s (.callx d idx) 0x0A 0 (idx.setWidth 64)) ∧
    (s.cur.who ≠ .thread →
      Raises s (.callx d idx) 0x01 9 (BitVec.ofNat 64 (9 * 65536 + (headOf (.callx d idx)).toNat)))

/-! ### Traps and returns -/

/-- R318: taking a trap, an interrupt or a machine check, as the one entry operation does it for every cause: outside a handler, or for
an interrupt. R35, R220, R318: an interrupt other than SPRIG stops every running and waiting sprig between instructions, none of which
has a turn until the return. The thread's reservation ends at every entry, a sprig's where the entry stops it and at no other. R321: a
trap at an instruction while NEST is set halts the core at that instruction, its sprigs with it: its privileged registers, its registers
and memory stand, Caltik logs the cause and the PC, then the machine check, of detail 3 with the core's number, which waits at the
lowest-numbered running core of the partition, when there is one with room. -/
def Obligations.TrapEntryAndDoubleTrap : Prop :=
  (∀ (s : State) (q code detail : Nat) (int : Bool) (pc val : Word),
     ((s.priv q).status.nest = false ∨ int = true) →
       TrapTaken s (s.trapEntry q code detail int pc val) q code detail int pc val) ∧
  (∀ (s : State) (q code detail line k : Nat) (int : Bool) (pc val : Word) (e : ResLine), ((s.priv q).status.nest = false ∨ int = true) →
     let t := s.trapEntry q code detail int pc val
     let p := s.sprig q k
     let stops := int = true ∧ code ≠ 0x0D ∧ code ≠ 0x30
     (stops → t.sprigTurn q k = .error t ∧
       (k < (s.core q).arr.n → p.st = .running ∨ p.st = .waiting ∧ p.ag.wait.isSome = true →
         (t.sprig q k).st = .running ∧ (t.sprig q k).ag.wait = none ∧ (t.sprig q k).ag.mcas = none)) ∧
     (s.res = [(line, e)] → s.sliceQ = [] → e.queue = [] →
       (e.holder = some ⟨q, .thread⟩ → t.res = []) ∧
       (e.holder = some ⟨q, .sprig k⟩ → k < (s.core q).arr.n →
         (stops → p.st = .running ∨ p.st = .waiting → t.res = []) ∧ (¬stops → t.res = s.res)))) ∧
  ∀ (s : State) (q code detail : Nat) (pc val : Word), (s.priv q).status.nest = true →
    let t := s.trapEntry q code detail false pc val
    (∀ k, t.sprigTurn q k = .error t) ∧
    t.caltik.log = s.caltik.log ++ [BitVec.ofNat 64 code, pc, BitVec.ofNat 64 q + BitVec.ofNat 64 (3 * 2 ^ 56)] ∧
    (t.thr q).run = .halted ∧ (t.thr q).pc = pc ∧ t.priv q = s.priv q ∧ (t.thr q).g = (s.thr q).g ∧ (∀ l, t.rd1 l = s.rd1 l) ∧
    (∀ b, b < 256 → b ≠ q → (∀ p < b, p ≠ q → (s.thr p).run = .off) → (s.thr b).run = .running → s.partOf b = s.partOf q →
      (Store.find? s.cores b).isSome → (s.core b).mchecks.length < 16 →
      (t.core b).mchecks = (s.core b).mchecks ++ [⟨3, BitVec.ofNat 64 q, true⟩])

/-- R140, R84: `brk` takes BRK with its code, and an unassigned OP takes ILLEGAL detail 5 with the head, in a thread (outside a handler)
and in a sprig. R139: `svc` below 0xFF00 retires, then traps with NextPC in `TRAPPC` and the code in `TRAPVAL`; so does one from 0xFF00
up at user privilege. At kernel privilege a code above 0xFF04 returns all ones in g1 (R392). -/
def Obligations.SoftwareTrapsAreTaken : Prop :=
  (∀ (s : State) (code head : BitVec 16),
     Raises s (.brk code) 0x08 0 (code.setWidth 64) ∧
     Raises s (.unassignedOpcode head) 0x01 5 (BitVec.ofNat 64 (5 * 65536 + head.toNat))) ∧
  ∀ (s : State) (code : BitVec 16), s.cur.who = .thread → (s.priv s.cur.core).status.nest = false →
    let q := s.cur.core
    ((code.toNat < 0xFF00 ∨ (s.priv q).status.pl = .user) →
      ∃ t, exec (.svc code) s = .next t ∧ TrapTaken s t q 0x09 0 false (s.nextPc s.cur) (code.setWidth 64) ∧
        ∀ d : BitVec 5, d.toNat < 24 → t.getG s.cur d = s.getG s.cur d) ∧
    (0xFF04 < code.toNat → (s.priv q).status.pl = .kernel → Computes s (.svc code) 1 0xFFFFFFFFFFFFFFFF)

/-- R320: `tret` at kernel privilege goes on at `TRAPPC`, with PL from PPL, IE from PIE and NEST clear; a return to user privilege
releases the held sprigs. Nothing else of the status changes, no register and no byte of memory. A bad `TRAPPC` traps. -/
def Obligations.ReturnRestoresTheSavedState : Prop :=
  ∀ (s : State), s.cur.who = .thread → (s.priv s.cur.core).status.pl = .kernel →
    let q := s.cur.core
    let p := s.priv q
    (canonical p.trappc = true → isHeadAddr p.trappc.toNat = true →
      ∃ t, exec .tret s = .next t ∧ t.pcOf s.cur = p.trappc ∧
        (t.priv q).status = { p.status with
          pl := if p.status.pplKernel then .kernel else .user
          ie := p.status.pie, nest := false
          shold := p.status.shold && p.status.pplKernel } ∧
        { t.priv q with status := p.status } = p ∧ (t.thr q).g = (s.thr q).g ∧ (t.thr q).fpstat = (s.thr q).fpstat ∧
        (t.thr q).rm = (s.thr q).rm ∧ (t.core q).til = (s.core q).til ∧ ∀ l, t.rd1 l = s.rd1 l) ∧
    (canonical p.trappc = false → p.status.nest = false → Traps s .tret 0x05 0 p.trappc) ∧
    (canonical p.trappc = true → isHeadAddr p.trappc.toNat = false → p.status.nest = false → Traps s .tret 0x03 0 p.trappc)

/-- R85, R315, R147: a kernel instruction, the privileged `cache` operations among them, at user privilege takes PRIV and has none of its
effect, and in a sprig it is ILLEGAL detail 9. The
detail and the value of the PRIV trap, which are those of the ILLEGAL, are the model's choice (log 20). -/
def Obligations.KernelInstructionsTrapAtUserPrivilege : Prop :=
  ∀ (s : State) (d b c : BitVec 5) (n : BitVec 12) (k : BitVec 3) (m : MemOp),
    let v (i : Instr) : Word := BitVec.ofNat 64 (9 * 65536 + (headOf i).toNat)
    ∀ i ∈ [Instr.tret, .rdpr d n, .wrpr d n, .plbinvOne b c, .plbinvDom c, .plbinvAll, .xlinvPage b, .xlinvAll, .ctxsave b,
        .ctxload b, .descw b c, .ipi b c, .sholdSet d, .sholdRelease d, .domainWrite d, .spwinWrite d k, .pressbindWrite d,
        .ipipendWrite d, .timecmpWrite d, .barcfgWrite d, .ptrootWrite d, .protrootWrite d, .descbaseWrite d, .wshareWrite d,
        .fdutyWrite d, .recover d, .cache .inval m, .cache .lift m, .cache .drop m],
      (s.cur.who = .thread → (s.priv s.cur.core).status.pl = .user → Raises s i 0x02 9 (v i)) ∧
      (s.cur.who ≠ .thread → Raises s i 0x01 9 (v i))

/-! ### Idle -/

/-- R141, R367: with nothing pending an `idle` stops the thread at its PC; with something pending, or when an end comes later, it
completes, and a stopped clock of its vat runs again. The core of a mover's claim keeps its idle (the model's choice, log 24). -/
def Obligations.IdleStopsAndEnds : Prop :=
  ∀ (s : State),
    (s.cur.who = .thread → s.anyPending s.cur.core = false →
      ∃ t, exec .idle s = .next t ∧ t.thr s.cur.core = { s.thr s.cur.core with run := .idle s.time } ∧
        (∀ p, p ≠ s.cur.core → t.core p = s.core p) ∧ { t with cores := s.cores } = s) ∧
    (s.cur.who = .thread → s.anyPending s.cur.core = true → (s.core s.cur.core).claimed = false →
      ∃ t, exec .idle s = .next t ∧ (t.thr s.cur.core).run = .running ∧ t.pcOf s.cur = s.nextPc s.cur ∧
        (t.thr s.cur.core).g = (s.thr s.cur.core).g ∧ PackageKept s t) ∧
    (∀ q since, (s.thr q).run = .idle since → (s.core q).claimed = false →
      (s.anyPending q = true ∨ ((s.thr q).waitlim ≠ 0 ∧ since + (s.thr q).waitlim.toNat ≤ s.time)) →
      ∃ t, exec (.idleEnd q) s = .next t ∧ (t.thr q).run = .running ∧ (t.thr q).pc = s.nextPc ⟨q, .thread⟩ ∧
        (t.thr q).retired = (s.thr q).retired + 1 ∧ (t.thr q).g = (s.thr q).g ∧ (t.vat (vatOf q)).stopped = false ∧
        PackageKept (s.restartClock (vatOf q)) t) ∧
    (∀ q, s.anyPending q = false → (s.thr q).waitlim = 0 → exec (.idleEnd q) s = .next s)

/-! ### Loads and stores -/

/-- R143 to R145: a load that may be made completes with the bytes the agent sees, its own buffered writes first, zero- or
sign-extended, and one whose bytes all stand in its own buffered writes completes with them whatever errors memory holds (R252, R266); a
prefetch completes without effect (R146). R120, R231: one of a word of a commutative range returns the fold of the word
and the deposits held for it, in a core or at its home, and makes that fold the new base: for int64 their sum, or their signed minimum or
maximum with the base; for a float format the exact sum rounded once. R255, R372, R376: one of device space returns what the device
answers, the port's register at its 8 bytes and 0 for a narrower access of a register. R256: one of a line of the core's own window that
another agent holds dirty recalls that copy first. That a word of a range for which no deposit is held reads as its bits stand, -0 and a
NaN among them, where the fold of R120 would change those, is the model's choice (log 15). -/
def Obligations.LoadsReturnTheBytesTheAgentSees : Prop :=
  ∀ (s : State) (w : MemW) (d : BitVec 5) (m : MemOp) (x : Xl) (wr : Bool) (p j o : Nat) (e : Exact),
    let ea := s.rg m.b + m.disp.signExtend 64 + (if m.x = 0 then 0 else s.rg m.x <<< m.sc.toNat)
    let n := memWBytes w
    let v := leNat ((List.range n).map fun k => s.seen s.cur (x.loc + k))
    let extended (v : Nat) : Word := match w with
      | .u8 | .u16 | .u32 | .u64 => BitVec.ofNat 64 v
      | .s8 => (BitVec.ofNat 8 v).signExtend 64
      | .s16 => (BitVec.ofNat 16 v).signExtend 64
      | .s32 => (BitVec.ofNat 32 v).signExtend 64
    let reached := canonical ea = true ∧ ea.toNat % n = 0 ∧ s.access (s.accOf s.cur) .r ea = .ok x ∧ s.poolLost x.loc = false ∧
      s.ueSeen s.cur x n = false ∧ (s.ag s.cur).ahead = []
    let base := s.rdN x.loc n
    let int (v : Nat) : Int := (BitVec.ofNat 64 v).toInt
    let none_ := ∀ k, k ≠ p → (s.core k).partials = []
    let folded := e.fold base % 2 ^ (8 * n)
    let folds (u : State) : Prop := ∃ t, exec (.ld w d m) s = .next t ∧
      AgentDone u t s.cur d (extended folded) 0 (s.nextPc s.cur) [] ∧ Stored s t x.loc n folded ∧ OnlyBytes s t x.loc n ∧
      Store.find? t.exact x.loc = none
    let mine := x.window = true ∧ x.owner = s.cur.core
    Passes s (.pref wr m) ∧ (Readable s s.cur ea n x → Computes s (.ld w d m) d (extended v)) ∧
    (Ready s s.cur .r ea x → ea.toNat % n = 0 → x.uc = false → (∀ k < n, (sbByte (s.ag s.cur).sb (x.loc + k)).isSome = true) →
      s.blocked s.cur (x.loc / 64) = false → (s.ag s.cur).ahead = [] → (mine → Store.find? s.behind (x.loc / 64) = none) →
      Computes s (.ld w d m) d (extended v)) ∧
    (Ready s s.cur .r ea x → reached → s.blocked s.cur (x.loc / 64) = false → s.ucBehind s.cur x = false → mine →
      ∃ t, exec (.ld w d m) s = .next t ∧ AgentDone s t s.cur d (extended v) 0 (s.nextPc s.cur) (s.ag s.cur).sb ∧ OnlyBytes s t x.loc 0 ∧
        Store.find? t.behind (x.loc / 64) = none) ∧
    (reached → isDevice x.loc = false → s.blocked s.cur (x.loc / 64) = false → s.ucBehind s.cur x = false →
      x.crf ≠ 0 → n = (if x.crf = 1 then 8 else if x.crf = 2 then 4 else 2) → (s.ag s.cur).sb = [] → none_ →
      (Store.find? s.exact x.loc = none → (s.core p).partials = [] → Computes s (.ld w d m) d (extended base)) ∧
      (e.crf = x.crf → s.monitors = [] → s.cutOff x.loc = false →
        (Store.find? s.exact x.loc = some e → (s.core p).partials = [] → folds s) ∧
        (Store.find? s.exact x.loc = none → (s.core p).partials = [(x.loc, e)] →
          folds (s.modCore p fun k => { k with partials := [] })))) ∧
    (reached → isDevice x.loc = true → x.crf = 0 →
      (∃ t, exec (.ld w d m) s = .next t ∧ AgentDone (s.devRead x.loc n).1 t s.cur d (extended (s.devRead x.loc n).2) 0 (s.nextPc s.cur)
        (s.ag s.cur).sb ∧ PackageKept (s.devRead x.loc n).1 t) ∧
      (w = .u64 → j < 4 → o < 4 → x.loc = 2 ^ 51 + s.pkg * 2 ^ 44 + 0x10000 + 0x1000 * j + 8 * o →
        Computes s (.ld w d m) d (match o with
          | 0 => (s.port j).ctl | 1 => (s.port j).link.setWidth 64 | 2 => (s.port j).fault | _ => (s.port j).fsrc)) ∧
      (n < 8 → 0x1000 ≤ o → o < 2 ^ 40 → x.loc = 2 ^ 51 + s.pkg * 2 ^ 44 + o → Computes s (.ld w d m) d 0)) ∧
    (e.crf = 1 → base < 2 ^ 64 →
      (e.op = .add → e.fold base = (base + e.acc.toNat) % 2 ^ 64) ∧
      ∀ y, e.ext = some y → (e.op = .min → int (e.fold base) = min (int base) y.toInt) ∧
        (e.op = .max → int (e.fold base) = max (int base) y.toInt)) ∧
    (e.crf ≠ 1 → e.op = .add → e.nan = false → e.pinf = false → e.ninf = false → ∀ neg mag ex,
      let sum : Int := e.acc.toInt + (if neg then -1 else 1) * ((mag * 2 ^ (ex + 149).toNat : Nat) : Int)
      unpackF (crfTy e.crf) base = .fin neg mag ex false → -149 ≤ ex →
      -(2 ^ 319 : Int) ≤ sum → sum < 2 ^ 319 →
      e.fold base = (roundTo (.fin (decide (sum < 0)) sum.natAbs (-149) false) (crfTy e.crf) .rne false).1)

/-- R145, R266: a store that may be made enters the agent's store buffer and completes: the agent reads its bytes at once, memory and
every other register are as before, and the line of the entry is accepted later. R120, R265: one of a word of a commutative range does so
after the deposits that its core holds for the word are merged at the home, so that it replaces them. R255, R271, R372: one of device
space reaches its device in its own step, once every read of the agent that its buffer forwarded can be performed, and waits until then;
a port's or region's register takes it whole, a narrower write of one changes nothing, and one of the mailbox page notes the core that
asked (R373). -/
def Obligations.StoresEnterTheStoreBuffer : Prop :=
  ∀ (s : State) (w : StW) (d : BitVec 5) (m : MemOp) (x : Xl) (p e₀ : Exact) (o r : Nat),
    let ea := s.rg m.b + m.disp.signExtend 64 + (if m.x = 0 then 0 else s.rg m.x <<< m.sc.toNat)
    let n := stWBytes w
    let q := s.cur.core
    let v := (s.rg d).toNat % 2 ^ (8 * n)
    let enters (u : State) (P : State → Prop) : Prop := ∃ t e, exec (.st w d m) s = .next t ∧
      AgentDone u t s.cur 0 0 0 (s.nextPc s.cur) ((s.ag s.cur).sb ++ [e]) ∧ P t ∧
        ∀ l, t.seen s.cur l = if x.loc ≤ l ∧ l < x.loc + n then BitVec.ofNat 8 (v / 256 ^ (l - x.loc)) else s.seen s.cur l
    let reached := canonical ea = true ∧ ea.toNat % n = 0 ∧ s.access (s.accOf s.cur) .w ea = .ok x ∧ s.poolLost x.loc = false
    let merged (f : Exact) : Prop := enters (s.modCore q fun k => { k with partials := [] }) fun t =>
      (∀ l, t.rd1 l = s.rd1 l) ∧ Store.find? t.exact x.loc = some f ∧
        { t with cores := s.cores, exact := s.exact, records := s.records } = s
    let u := (s.performReads s.cur).devEffect q x.loc n v
    (Ready s s.cur .w ea x → ea.toNat % n = 0 → enters s (PackageKept s)) ∧
    (reached → isDevice x.loc = false → x.crf ≠ 0 → n = (if x.crf = 1 then 8 else if x.crf = 2 then 4 else 2) →
      ((∀ y ∈ (s.core q).partials, y.1 ≠ x.loc) → enters s (PackageKept s)) ∧
      ((s.core q).partials = [(x.loc, p)] → (Store.find? s.exact x.loc = none → merged p) ∧
        (Store.find? s.exact x.loc = some e₀ → e₀.op = p.op → merged (e₀.merge p)))) ∧
    (reached → isDevice x.loc = true → x.crf = 0 →
      (s.canPerform s.cur = true → s.monitors = [] → ∃ t, exec (.st w d m) s = .next t ∧
        AgentDone u t s.cur 0 0 0 (s.nextPc s.cur) (u.ag s.cur).sb ∧ PackageKept u t) ∧
      (s.canPerform s.cur = false → exec (.st w d m) s = .next s) ∧
      ((s.ag s.cur).fwd.any id = false → s.canPerform s.cur = true ∧
        (x.loc = 2 ^ 51 + s.pkg * 2 ^ 44 + o → o < 2 ^ 44 →
          (o < 0x1000 → u = { s with caltik := { s.caltik with requester := q } }) ∧
          (n < 8 → 0x1000 ≤ o → u = s) ∧
          (n = 8 → r < 4 → o = 0x10000 + 0x1000 * r + 24 →
            u = if (s.rg d).getLsbD 63 then s.modPort r fun y => { y with fsrc := y.fsrc &&& ~~~(1#64 <<< 63) } else s) ∧
          (n = 8 → r < 1024 → o = 0x1000000 + 16 * r + 8 → u = s.modRegion r fun y => { y with w1 := s.rg d &&& 0xFFFF#64 }))))

/-- R144: the checks of a load or store in order. An address that is not canonical takes XLATE detail 0, a misaligned one ALIGN, one
the rights or the translation refuse the cause and detail of that check, and one of a commutative range at another size than its word's
OPERAND, each with the address in `TRAPVAL`; an uncorrectable error in a byte that a load takes from memory takes MEMERR. R336: with protection on, an agent at user
privilege, and every sprig, reaches memory below the system window only by a region of its domain that grants the right and is not the
kernel's; without such a region the access takes PROT. That a sprig's access has user privilege whatever its thread's follows R336, where
R10 says otherwise (log 10). -/
def Obligations.RefusedAccessesTrap : Prop :=
  (∀ (s : State) (w : MemW) (z : StW) (d : BitVec 5) (m : MemOp) (x : Xl) (code detail : Nat),
     let ea := s.effAddr m
     (canonical ea = false → Raises s (.ld w d m) 0x05 0 ea ∧ Raises s (.st z d m) 0x05 0 ea) ∧
     (canonical ea = true → ea.toNat % memWBytes w ≠ 0 → Raises s (.ld w d m) 0x03 0 ea) ∧
     (canonical ea = true → ea.toNat % stWBytes z ≠ 0 → Raises s (.st z d m) 0x03 0 ea) ∧
     (canonical ea = true → ea.toNat % memWBytes w = 0 → s.access (s.accOf s.cur) .r ea = .error (.trap code detail) →
       Raises s (.ld w d m) code detail ea) ∧
     (canonical ea = true → ea.toNat % stWBytes z = 0 → s.access (s.accOf s.cur) .w ea = .error (.trap code detail) →
       Raises s (.st z d m) code detail ea) ∧
     (let size := if x.crf = 1 then 8 else if x.crf = 2 then 4 else 2
      canonical ea = true → x.crf ≠ 0 →
        (ea.toNat % memWBytes w = 0 → s.access (s.accOf s.cur) .r ea = .ok x → memWBytes w ≠ size → Raises s (.ld w d m) 0x0E 0 ea) ∧
        (ea.toNat % stWBytes z = 0 → s.access (s.accOf s.cur) .w ea = .ok x → stWBytes z ≠ size → Raises s (.st z d m) 0x0E 0 ea)) ∧
     (Ready s s.cur .r ea x → ea.toNat % memWBytes w = 0 → (∃ k < memWBytes w, s.granuleBad ((x.loc + k) / 32) = true ∧
         sbByte (s.ag s.cur).sb (x.loc + k) = none) → s.ucBehind s.cur x = false → Raises s (.ld w d m) 0x07 0 ea)) ∧
  ∀ (s : State) (a : AgentId) (rt : Right) (va : Word),
    (a.who ≠ .thread ∨ (s.priv a.core).status.pl = .user) → inSysWindow va = false →
    bit (s.part (s.partOf a.core)).protroot 0 = true →
    (∀ x, s.access (s.accOf a) rt va = .ok x →
      ∃ e, s.regionRights a (s.priv a.core).domain va = .ok (some e) ∧ hasRight e.xwr.toNat rt = true ∧ e.k = false) ∧
    (s.regionRights a (s.priv a.core).domain va = .ok none → s.access (s.accOf a) rt va = .error (.trap 0x04 0))

/-- R148, R272, R283, R386: a fence of an agent whose writes and deposits are performed, at pool scope by the devices of its partition
too, completes; a `.full` fence at die scope over a buffer that the homes can take completes once memory holds every buffered byte, in
its own step (the model's choice, log 8). R231: such a fence, and a `.rel` one, merges the core's partial sums before it completes. R283:
one at pool scope waits for the writes in flight to its partition's devices, sends the partition's dirty pool lines to them and waits for
those; that it does so in these two steps is the model's (log 27). -/
def Obligations.FencesCompleteWhenWritesArePerformed : Prop :=
  ∀ (s : State) (k : FenceKind) (sc : Scope),
    let q := s.cur.core
    let p := s.partOf q
    let waits (t : State) (w : PoolWait) : Prop := t.poolFences = [⟨s.cur, w, none⟩] ∧ t.pcOf s.cur = s.pcOf s.cur ∧
      (∀ r, t.getG s.cur r = s.getG s.cur r) ∧ ∀ l, t.rd1 l = s.rd1 l
    let sends (t : State) : Prop := (∀ e ∈ t.behind, s.poolOf p e.1 = false) ∧ (∀ l, t.rd1 l = s.rd1 l) ∧
      (t.poolFlights p ≠ [] → waits t ⟨t.poolFlights p, none, true⟩) ∧
      (t.poolFlights p = [] → t.poolFences = [] ∧ t.pcOf s.cur = landing s.cur (s.nextPc s.cur))
    let done (k : FenceKind) (P : State → Prop) : Prop := ∃ t, exec (.fence k .die) s = .next t ∧ P t ∧
      t.pcOf s.cur = landing s.cur (s.nextPc s.cur) ∧ ∀ r, t.getG s.cur r = s.getG s.cur r
    ((s.ag s.cur).sb = [] → (s.core q).partials = [] → (∀ f ∈ s.poolFences, f.who ≠ s.cur) →
      (sc = .pool → (∀ e ∈ s.behind, s.poolOf (s.partOf q) e.1 = false) ∧ s.poolFlights (s.partOf q) = []) → Passes s (.fence k sc)) ∧
    ((s.ag s.cur).sb = [] → (s.core q).partials = [] → ∀ k ∈ [FenceKind.full, .rel],
      let i : Instr := .fence k .pool
      (s.poolFences = [] → (s.poolFlights p ≠ [] → ∃ t, exec i s = .next t ∧ waits t ⟨s.poolFlights p, none, false⟩) ∧
        (s.poolFlights p = [] → ∃ t, exec i s = .next t ∧ sends t)) ∧
      ∀ w : PoolWait, s.poolFences = [⟨s.cur, w, none⟩] →
        ((∃ n ∈ w.waits, n ∈ s.poolFlights p) → exec i s = .next s) ∧
        ((∀ n ∈ w.waits, n ∉ s.poolFlights p) →
          (w.sent = true → CompletesAs s { s with poolFences := [] } i) ∧ (w.sent = false → ∃ t, exec i s = .next t ∧ sends t))) ∧
    (s.canDrain s.cur = true → s.monitors = [] → (s.core q).partials = [] → s.unreachable = [] → (∀ r, (s.region r).st ≠ .lost) →
      done .full fun t => (t.ag s.cur).sb = [] ∧ ∀ l, t.rd1 l = s.seen s.cur l) ∧
    ∀ (l : Nat) (x : Exact), (s.ag s.cur).sb = [] → (s.core q).partials = [(l, x)] → Store.find? s.exact l = none →
      ∀ k ∈ [FenceKind.full, .rel], done k fun t => (t.core q).partials = [] ∧ Store.find? t.exact l = some x ∧ ∀ l, t.rd1 l = s.rd1 l

/-- R147, R384: `cache` on a line that may be reached, that no reservation holds, by an agent whose writes are performed.
`.clean` and `.flush` leave no dirty copy and change no byte; of a pool line they send a dirty copy to the device and complete once it has
completed every write of the line; `.inval` (kernel) gives a dirty line the bytes memory itself holds;
`.lift` and `.drop` (kernel) make a stranded line of a LOST region readable, and remove it. -/
def Obligations.CacheOperationsActOnTheirLine : Prop :=
  ∀ (s : State) (m : MemOp) (x : Xl),
    let ea := s.effAddr m
    let line := x.loc / 64
    let kernel := s.cur.who = .thread ∧ (s.priv s.cur.core).status.pl ≠ .user
    let done (op : CacheOp) (P : State → Prop) : Prop := ∃ t, exec (.cache op m) s = .next t ∧
      AgentDone s t s.cur 0 0 0 (s.nextPc s.cur) (s.ag s.cur).sb ∧ P t
    canonical ea = true → isDevice x.loc = false → (s.ag s.cur).sb = [] → s.blocked s.cur line = false →
    (∀ op ∈ [CacheOp.clean, .flush], s.access (s.accOf s.cur) .r ea = .ok x → isPool x.loc = false →
      (∀ f ∈ s.poolFences, f.who ≠ s.cur) → (∀ e ∈ s.pool, ∀ f ∈ e.2.inFlight, f.line ≠ line) →
      done op fun t => Store.find? t.behind line = none ∧ (∀ l, t.rd1 l = s.rd1 l) ∧
        ∀ j, j ≠ line → Store.find? t.behind j = Store.find? s.behind j) ∧
    (∀ op ∈ [CacheOp.clean, .flush], s.access (s.accOf s.cur) .r ea = .ok x → isPool x.loc = true → s.poolLost x.loc = false →
      (s.poolFences = [] → ∃ t, exec (.cache op m) s = .next t ∧ Store.find? t.behind line = none ∧ (∀ l, t.rd1 l = s.rd1 l) ∧
        (∀ r b, s.regionOf (64 * line) = some r → Store.find? s.behind line = some b →
          (t.region r).inFlight = (s.region r).inFlight ++ [⟨s.flights, line, b⟩]) ∧
        (t.lineFlights line ≠ [] → t.pcOf s.cur = s.pcOf s.cur ∧ t.poolFences = [⟨s.cur, ⟨t.lineFlights line, none, true⟩, some ea⟩]) ∧
        (t.lineFlights line = [] → t.pcOf s.cur = landing s.cur (s.nextPc s.cur) ∧ t.poolFences = [])) ∧
      ∀ w, s.poolFences = [⟨s.cur, w, some ea⟩] →
        ((∃ n ∈ w.waits, n ∈ s.poolFlights (s.partOf s.cur.core)) → exec (.cache op m) s = .next s) ∧
        ((∀ n ∈ w.waits, n ∉ s.poolFlights (s.partOf s.cur.core)) → CompletesAs s { s with poolFences := [] } (.cache op m))) ∧
    (kernel → s.access (s.accOf s.cur) .w ea = .ok x → s.poolLost x.loc = false → x.window = false → s.monitors = [] →
      (∀ b, Store.find? s.behind line = some b →
        done .inval fun t => Store.find? t.behind line = none ∧
          ∀ l, t.rd1 l = if l / 64 = line then BitVec.ofNat 8 (b.data.toNat / 256 ^ (l % 64)) else s.rd1 l) ∧
      (Store.find? s.behind line = none → Passes s (.cache .inval m))) ∧
    (∀ r data die up, kernel → s.regionOf x.loc = some r → (s.region r).st = .lost →
      Store.find? (s.region r).stranded line = some (data, die, up) →
      (s.access (s.accOf s.cur) .r ea = .ok x →
        done .lift fun t => Store.find? (t.region r).stranded line = some (data, die, true) ∧ ∀ l, t.rd1 l = s.rd1 l) ∧
      (s.access (s.accOf s.cur) .w ea = .ok x →
        done .drop fun t => Store.find? (t.region r).stranded line = none ∧ ∀ l, t.rd1 l = s.rd1 l))

/-- R55 to R58, R149, R314: `rdsr` reads and `wrsr` writes the special registers of the agent: those of Table 3 by their fields, with
`SELFID`, `SPRIGCFG`, `ENERGY`, `BARGRP` and `WSHAREV` in a sprig as the thread reads them. A write of RM with a forbidden code, or by a
thread of an `LTBASE` that is not canonical, takes OPERAND; read-only registers, and in a sprig the thread's, ignore writes. -/
def Obligations.SpecialRegistersReadAndWrite : Prop :=
  ∀ (s : State) (d a : BitVec 5) (n : BitVec 12),
    let q := s.cur.core
    let v := s.rg a
    let x := s.thr q
    let bad : Prop := n = 0 ∧ (v.setWidth 3 = 0#3 ∨ v.setWidth 3 = 6#3 ∨ v.setWidth 3 = 7#3) ∨
      n = 3 ∧ s.cur.who = .thread ∧ canonical v = false
    Computes s (.rdsr d n) d (s.readSr s.cur n) ∧
    (s.cur.who = .thread → s.readSr s.cur 0 = x.rm.setWidth 64 ∧ s.readSr s.cur 1 = x.fpstat.setWidth 64) ∧
    (∀ k, s.cur.who = .sprig k →
      s.readSr s.cur 0 = (s.sprig q k).rm.setWidth 64 ∧ s.readSr s.cur 1 = (s.sprig q k).fpstat.setWidth 64) ∧
    (s.readSr s.cur 2 = x.waitlim.setWidth 64 ∧ s.readSr s.cur 3 = x.ltbase ∧ s.readSr s.cur 7 = x.cycle ∧
      s.readSr s.cur 8 = x.retired) ∧
    (let fields (v : Nat) : Word := BitVec.ofNat 64 v
      let en (p : Nat) : BitVec 64 := (s.priv p).barcfg
      let mates := (List.range 256).countP fun p => s.partOf p = s.partOf q ∧ (en p).getLsbD 3 = true ∧ bits (en p) 15 8 = bits (en q) 15 8
      s.readSr s.cur 4 = fields (q % 4 * 256 + bits (s.priv q).coretab 7 0) ∧
      s.readSr s.cur 5 = fields ((s.core q).arr.r * 256 + (s.core q).arr.n) ∧
      s.readSr s.cur 6 = fields ((if x.sat then 2 ^ 63 else 0) + x.energy.toNat / 65536) ∧
      ((s.cores.map fun e => e.1).Nodup → (∀ e ∈ s.cores, e.1 < 256) →
        s.readSr s.cur 9 = fields ((if (en q).getLsbD 3 then mates else 0) * 256 + bits (en q) 3 0)) ∧
      s.readSr s.cur 10 = fields ((s.vat (q / 4)).pressbind.toNat / 4 ^ (q % 4) % 4 * 65536 + (s.vat (q / 4)).wshare.toNat)) ∧
    ((bad → Raises s (.wrsr a n) 0x0E 0 v) ∧
      (¬bad → s.cur.who = .thread →
        let w : Thread := if n = 0 then { x with rm := v.setWidth 3 } else if n = 1 then { x with fpstat := v.setWidth 6 }
          else if n = 2 then { x with waitlim := v.setWidth 48 } else if n = 3 then { x with ltbase := v &&& ~~~7#64 }
          else if n = 7 then { x with cycle := v } else x
        ∃ t, exec (.wrsr a n) s = .next t ∧ (t.thr q).pc = s.nextPc s.cur ∧
          (t.thr q).retired = (if n = 8 then v else x.retired + 1) ∧
          { t.thr q with pc := x.pc, retired := x.retired, energy := x.energy, sat := x.sat, ag := x.ag } = w ∧ t.priv q = s.priv q ∧
          (∀ k, t.sprig q k = s.sprig q k) ∧ PackageKept s t) ∧
      (∀ k, ¬bad → s.cur.who = .sprig k →
        let y := s.sprig q k
        let w : Sprig := if n = 0 then { y with rm := v.setWidth 3 } else if n = 1 then { y with fpstat := v.setWidth 6 } else y
        ∃ t, exec (.wrsr a n) s = .next t ∧ (t.sprig q k).pc = (s.nextPc s.cur).setWidth 17 ∧
          { t.sprig q k with pc := y.pc, st := y.st, ag := y.ag } = w ∧
          { t.thr q with energy := x.energy, sat := x.sat } = x ∧ t.priv q = s.priv q ∧
          (∀ j, j ≠ k → t.sprig q j = s.sprig q j) ∧ PackageKept s t))

/-! ### Synchronisation -/

/-- R218 to R222: `lrw` on a free line reads the word and takes the reservation; `sch` by the holder stores, reports 0 and hands the line
on, by anyone else it reports 1 and stores nothing; `relq` by the holder hands the line on. -/
def Obligations.ReservationsAreTakenAndHandedOn : Prop :=
  ∀ (s : State) (d c : BitVec 5) (o : SyncOp) (x : Xl) (e : ResLine),
    let ea := s.rg o.b + o.imm.signExtend 64
    let line := x.loc / 64
    let done (i : Instr) (d : BitVec 5) (v : Word) (P : State → Prop) : Prop :=
      ∃ t, exec i s = .next t ∧ AgentDone s t s.cur d v 0 (s.nextPc s.cur) [] ∧ P t
    Performed s →
    (SyncReady s ea 8 true false .plain true x → HoldsNone s → LineFree s x →
      done (.lrw d o) d (BitVec.ofNat 64 (s.rdN x.loc 8)) fun t =>
        Store.find? t.res line = some ⟨x.slice, ea.toNat / 64, some s.cur, true, s.time, []⟩ ∧ OnlyBytes s t x.loc 0) ∧
    (SyncReady s ea 8 false true .plain true x → Store.find? s.res line = some e → e.holder = some s.cur → e.byLrw = true →
      Store.get s.sliceQ [] e.home = [] →
      Unwatched s x.loc → done (.sch d c o) d 0 fun t =>
        Stored s t x.loc 8 (s.rg c).toNat ∧ OnlyBytes s t x.loc 8 ∧ PassedOn s t line e) ∧
    (SyncReady s ea 8 true false .plain true x → Store.find? s.res line = some e → e.holder = some s.cur → e.byLrw = true →
      Store.get s.sliceQ [] e.home = [] →
      done (.relq o) 0 0 fun t => OnlyBytes s t x.loc 0 ∧ PassedOn s t line e) ∧
    (s.holdsLrw s.cur line = false →
      (SyncReady s ea 8 false true .plain true x → Computes s (.sch d c o) d 1) ∧
      (SyncReady s ea 8 true false .plain true x → Passes s (.relq o)))

/-- R223, R224: `amo` writes the new word its operation gives and returns the old one; `cas` writes g[C] when the word equals g[A], and
returns the old word either way. The line is free again after. -/
def Obligations.AtomicsReadAndWriteOnce : Prop :=
  ∀ (s : State) (op : AmoOp) (d c : BitVec 5) (o : SyncOp) (x : Xl),
    let ea := s.rg o.b + o.imm.signExtend 64
    let old := BitVec.ofNat 64 (s.rdN x.loc 8)
    let v := s.rg c
    let new := match op with
      | .add => old + v | .and => old &&& v | .or => old ||| v | .swap => v
      | .min => if v.toInt < old.toInt then v else old
      | .max => if old.toInt < v.toInt then v else old
      | .minU => if v.toNat < old.toNat then v else old
      | .maxU => if old.toNat < v.toNat then v else old
    let done (i : Instr) (w : Word) : Prop := ∃ t, exec i s = .next t ∧ AgentDone s t s.cur d old 0 (s.nextPc s.cur) [] ∧
      Stored s t x.loc 8 w.toNat ∧ OnlyBytes s t x.loc 8 ∧ Store.find? t.res (x.loc / 64) = none
    Performed s → SyncReady s ea 8 true true .plain true x → HoldsNone s → LineFree s x → Unwatched s x.loc →
      done (.amo op d c o) new ∧ done (.cas d c o) (if old = s.rg d then v else old)

/-- R225 to R227, the parameter block, with one to eight entries of different addresses: when every word equals its expected value, each is given its new one
and g[A] gets 0; otherwise memory keeps them all, g[A] gets one more than the number of the entry of lowest address whose word differs,
and without NOWB the observed values are stored over the expected ones. A header that the block may not have takes OPERAND with its
address, and two entries of one address take it with that address, the lowest such. That the words of the block pass the checks of an
8-byte word of plain memory, those of a pool page too, and that W is checked only without NOWB, is the model's choice (log 39); the order
of the checks of header, fields and entries is its reading (log 35). -/
def Obligations.MultiWordCompareAndSwapIsAllOrNothing : Prop :=
  ∀ (s : State) (d b : BitVec 5) (imm : BitVec 14) (sc : Scope) (n : Nat) (xb xe : Nat → Xl),
    let i : Instr := .mcas d imm sc b
    let p := s.rg b + imm.signExtend 64
    let word (k : Nat) : Word := BitVec.ofNat 64 (s.rdN (xb k).loc 8)
    let nowb := (word 0).getLsbD 16
    let addr (k : Nat) : Word := word (1 + 3 * k)
    let expected (k : Nat) : Word := word (2 + 3 * k)
    let seen (k : Nat) : Word := BitVec.ofNat 64 (s.rdN (xe k).loc 8)
    let header : Prop := bits (word 0) 63 17 = 0 ∧ bits (word 0) 15 10 = 0 ∧ bits (word 0) 9 8 = sc.code.toNat ∧
      bits (word 0) 7 0 = n ∧ 1 ≤ n ∧ n ≤ 8
    let apart (x y : Xl) : Prop := x.loc + 8 ≤ y.loc ∨ y.loc + 8 ≤ x.loc
    let within (x : Xl) (l : Nat) : Prop := x.loc ≤ l ∧ l < x.loc + 8
    let byteOf (v : Word) (x : Xl) (l : Nat) : Byte := BitVec.ofNat 8 (v.toNat / 256 ^ (l - x.loc))
    let done (g : Word) (P : State → Prop) : Prop := ∃ t, exec i s = .next t ∧
      AgentDone s t s.cur d g 0 (s.nextPc s.cur) (t.ag s.cur).sb ∧ OnlyMemory s t ∧
      (∀ k < n, Store.find? t.res ((xe k).loc / 64) = none) ∧ P t
    Performed s → HoldsNone s → s.monitors = [] → (s.ag s.cur).mcas = none →
    (∀ k < 1 + 3 * n, SyncReady s (p + BitVec.ofNat 64 (8 * k)) 8 true (!nowb) .plain true (xb k) ∧
      s.blocked s.cur ((xb k).loc / 64) = false) →
    (header → (∀ k < n, SyncReady s (addr k) 8 true true .plain false (xe k) ∧ LineFree s (xe k) ∧
        s.slotsUsed (xe k).slice + n ≤ 128) →
      (∀ j k, j < k → k < n → addr j ≠ addr k ∧ apart (xe j) (xe k) ∧ apart (xb (2 + 3 * j)) (xb (2 + 3 * k))) →
      ((∀ k < n, seen k = expected k) → done 0 fun t => (t.ag s.cur).sb = [] ∧
        (∀ k < n, ∀ l, within (xe k) l → t.rd1 l = byteOf (word (3 + 3 * k)) (xe k) l) ∧
        ∀ l, (∀ k < n, ¬within (xe k) l) → t.rd1 l = s.rd1 l) ∧
      (∀ k < n, seen k ≠ expected k → (∀ j < n, (addr j).toNat < (addr k).toNat → seen j = expected j) →
        (nowb = true → done (BitVec.ofNat 64 (1 + k)) fun t => (t.ag s.cur).sb = [] ∧ ∀ l, t.rd1 l = s.rd1 l) ∧
        (nowb = false → (∀ j < n, s.access (s.accOf s.cur) .w (p + BitVec.ofNat 64 (16 + 24 * j)) = .ok (xb (2 + 3 * j))) →
          done (BitVec.ofNat 64 (1 + k)) fun t => (∀ l, t.rd1 l = s.rd1 l) ∧
            (∀ j < n, ∀ l, within (xb (2 + 3 * j)) l → t.seen s.cur l = byteOf (seen j) (xb (2 + 3 * j)) l) ∧
            ∀ l, (∀ j < n, ¬within (xb (2 + 3 * j)) l) → t.seen s.cur l = s.seen s.cur l))) ∧
    (header → ∀ j k, j < k → k < n → addr j = addr k →
      (∀ j' k', j' < k' → k' < n → addr j' = addr k' → (addr j).toNat ≤ (addr j').toNat) → Raises s i 0x0E 0 (addr j)) ∧
    (bits (word 0) 63 17 ≠ 0 ∨ bits (word 0) 15 10 ≠ 0 ∨ bits (word 0) 7 4 ≠ 0 ∨ bits (word 0) 3 0 = 0 ∨
      8 < bits (word 0) 3 0 ∨ bits (word 0) 9 8 ≠ sc.code.toNat → Raises s i 0x0E 0 p)

/-- R228, R229: the tagged-word instructions on a word without waiters. `takew` empties a full word and returns it, `peekw` returns it,
`putw` fills an empty one, `fillw` and `emptyw` act on any; on the wrong state `takew` and `peekw` wait for a full word and `putw` for
an empty one, changing neither word nor registers. A waiting `takew` or `peekw` of another core completes with the value as soon as
`fillw` or `putw` fills the word, and a waiting `putw` fills it as soon as `emptyw` or `takew` empties it. -/
def Obligations.TaggedWordsFillAndEmpty : Prop :=
  ∀ (s : State) (d c : BitVec 5) (o : SyncOp) (x : Xl) (y : TagWaiter),
    let ea := s.rg o.b + o.imm.signExtend 64
    let v := s.rg c
    let w := BitVec.ofNat 64 (s.rdN x.loc 8)
    let fullIs (t : State) (b : Bool) : Prop := ∀ l, t.fullAt l = if l / 8 = x.loc / 8 then b else s.fullAt l
    let done (i : Instr) (d : BitVec 5) (v : Word) (P : State → Prop) : Prop :=
      ∃ t, exec i s = .next t ∧ AgentDone s t s.cur d v 0 (s.nextPc s.cur) [] ∧ P t
    let waits (i : Instr) : Prop := ∃ t, exec i s = .next t ∧ (t.ag s.cur).wait.isSome = true ∧ t.pcOf s.cur = s.pcOf s.cur ∧
      (∀ r, t.getG s.cur r = s.getG s.cur r) ∧ (∀ l, t.rd1 l = s.rd1 l) ∧ (∀ l, t.fullAt l = s.fullAt l)
    let serves (i : Instr) (d : BitVec 5) (v : Word) (P : State → Prop) : Prop := ∃ t, exec i s = .next t ∧
      t.getG s.cur d = (if d = 0 then 0 else v) ∧ t.pcOf s.cur = landing s.cur (s.nextPc s.cur) ∧
      t.pcOf y.who = landing y.who (s.nextPc y.who) ∧ (t.ag y.who).wait = none ∧ t.tagAt x.loc = ⟨[], []⟩ ∧ P t
    let gets (v : Word) (t : State) : Prop := t.getG y.who y.dest = (if y.dest = 0 then 0 else v) ∧ fullIs t (!y.take) ∧
      Stored s t x.loc 8 v.toNat
    let puts (t : State) : Prop := fullIs t true ∧ Stored s t x.loc 8 y.value.toNat ∧ ∀ r, t.getG y.who r = s.getG y.who r
    Performed s → HoldsNone s → Unwatched s x.loc → s.blocked s.cur (x.loc / 64) = false → s.arrived s.cur = false →
    SyncReady s ea 8 true true .tagged false x → s.allowed (s.accOf s.cur) .w ea = .ok true →
    s.access (s.accOf s.cur) .w ea = .ok x →
    (y.who.core ≠ s.cur.core →
      (s.tagAt x.loc = ⟨[y], []⟩ → serves (.fillw c o) 0 0 (gets v) ∧ (s.fullAt x.loc = false → serves (.putw c o) 0 0 (gets v))) ∧
      (s.tagAt x.loc = ⟨[], [y]⟩ → serves (.emptyw o) 0 0 puts ∧ (s.fullAt x.loc = true → serves (.takew d o) d w puts))) ∧
    (s.tagAt x.loc = ⟨[], []⟩ → (s.fullAt x.loc = true →
      done (.takew d o) d w (fun t => fullIs t false ∧ ∀ l, t.rd1 l = s.rd1 l) ∧ Computes s (.peekw d o) d w ∧
      waits (.putw c o)) ∧
    (s.fullAt x.loc = false →
      done (.putw c o) 0 0 (fun t => fullIs t true ∧ Stored s t x.loc 8 v.toNat) ∧ waits (.takew d o) ∧ waits (.peekw d o)) ∧
    done (.fillw c o) 0 0 (fun t => fullIs t true ∧ Stored s t x.loc 8 v.toNat) ∧
    done (.emptyw o) 0 0 (fun t => fullIs t false ∧ ∀ l, t.rd1 l = s.rd1 l))

/-- R230, R231: `waitne` returns a word that differs from g[C] at once, and otherwise arms a monitor and waits; a write performed on the
word, by an atomic or from a store buffer, that makes it differ completes the waiting `waitne` with the new value and removes the monitor,
and one that leaves it equal keeps both. `cred` on a word of a
commutative range deposits and changes no byte. That every deposit enters the core's partial sums, where the rule says that it may be
held, is the model's choice (log 15). -/
def Obligations.MonitorsAndDeposits : Prop :=
  ∀ (s : State) (op : CredOp) (d c : BitVec 5) (o : SyncOp) (x : Xl) (m : Monitor) (b : AgentId) (e : SbEntry) (line : LineW) (v : Word),
    let ea := s.rg o.b + o.imm.signExtend 64
    let q := s.cur.core
    let w := BitVec.ofNat 64 (s.rdN x.loc 8)
    let deposit := Exact.ofDeposit ea.toNat (s.partOf q) x.slice (s.shadowOf ea x) x.crf op (s.rg c)
    let wakes (i : Instr) (v : Word) : Prop := ∃ t, exec i s = .next t ∧ Stored s t m.loc 8 v.toNat ∧
      (v ≠ m.cmp → t.monitors = [] ∧ t.getG m.who m.dest = (if m.dest = 0 then 0 else v) ∧ (t.ag m.who).wait = none ∧
        t.pcOf m.who = landing m.who (s.nextPc m.who)) ∧
      (v = m.cmp → t.monitors = [m] ∧ t.ag m.who = s.ag m.who ∧ t.pcOf m.who = s.pcOf m.who ∧ ∀ r, t.getG m.who r = s.getG m.who r)
    (s.monitors = [m] → m.who.core ≠ b.core → m.loc % 8 = 0 → s.ueAt m.loc 8 = false → (s.ag b).sb = [e] → e.lines = [line] →
      line.cells = (List.range 8).map (fun k => (m.loc + k, BitVec.ofNat 8 (v.toNat / 256 ^ k))) → s.lineFree b line = true →
      s.cutOff m.loc = false → s.poolLost m.loc = false → wakes (.storeBufferWrite b 0) v) ∧
    (s.monitors = [m] → m.who.core ≠ q → m.loc = x.loc → x.loc % 8 = 0 → Performed s → HoldsNone s →
      SyncReady s ea 8 true true .plain true x → LineFree s x → wakes (.amo .swap d c o) (s.rg c)) ∧
    (Performed s → HoldsNone s → s.blocked s.cur (x.loc / 64) = false →
    (SyncReady s ea 8 true false .plain true x → s.arrived s.cur = false →
      (w ≠ s.rg c → ∃ t, exec (.waitne d c o) s = .next t ∧ AgentDone s t s.cur d w 0 (s.nextPc s.cur) [] ∧ OnlyBytes s t x.loc 0) ∧
      (w = s.rg c → ∃ t, exec (.waitne d c o) s = .next t ∧ t.monitors = s.monitors ++ [⟨s.cur, ea.toNat, x.loc, s.rg c, d⟩] ∧
        (t.ag s.cur).wait.isSome = true ∧ t.pcOf s.cur = s.pcOf s.cur ∧ (∀ r, t.getG s.cur r = s.getG s.cur r) ∧
        ∀ l, t.rd1 l = s.rd1 l)) ∧
    (SyncReady s ea (crfSize x.crf) false true .range false x → s.translate s.cur ea = .ok x →
      s.credMustFold q x.loc op = false →
      ∃ t, exec (.cred op c o) s = .next t ∧
        AgentDone (s.modCore q fun k => { k with partials := [(x.loc, deposit)] }) t s.cur 0 0 0 (s.nextPc s.cur) [] ∧
        OnlyBytes s t x.loc 0))

/-- R232: `semp` takes its count from a semaphore that no one waits for and that holds it, `semv` adds, saturating at 2^32 - 1 with OVF,
and serves the first waiter that the count then allows, `semrd` reads count and OVF. A count above 2^32 - 1 takes OPERAND. -/
def Obligations.SemaphoresCount : Prop :=
  ∀ (s : State) (o : Ordr) (sc : Scope) (d c : BitVec 5) (n : BitVec 8),
    let v := vatOf s.cur.core
    let m := s.sem v n.toNat
    let k := s.rg c
    let becomes (t : State) (y : Sem) : Prop := t.sem v n.toNat = y ∧ (∀ j, j ≠ n.toNat → t.sem v j = s.sem v j) ∧
      { t with cores := s.cores, vats := s.vats } = s ∧ (∀ w, w ≠ v → t.vat w = s.vat w) ∧ ∀ l, t.rd1 l = s.rd1 l
    let sum := m.count.toNat + k.toNat
    let after : Sem := { m with count := BitVec.ofNat 32 (min sum 0xFFFFFFFF), ovf := m.ovf || decide (0xFFFFFFFF < sum) }
    (0xFFFFFFFF < k.toNat → Raises s (.semp o sc c n) 0x0E 0 k ∧ Raises s (.semv o sc c n) 0x0E 0 k) ∧
    (Performed s → HoldsNone s →
      Computes s (.semrd o sc d n) d ((if m.ovf then BitVec.ofNat 64 (2 ^ 32) else 0) + m.count.setWidth 64) ∧
      (k.toNat ≤ 0xFFFFFFFF → m.queue = [] →
        (k.toNat ≤ m.count.toNat → ∃ t, exec (.semp o sc c n) s = .next t ∧
          AgentDone s t s.cur 0 0 0 (s.nextPc s.cur) [] ∧ becomes t { m with count := m.count - k.setWidth 32, ovf := false }) ∧
        (m.count.toNat < k.toNat → ∃ t, exec (.semp o sc c n) s = .next t ∧ (t.ag s.cur).wait.isSome = true ∧
          t.pcOf s.cur = s.pcOf s.cur ∧ becomes t { m with queue := [(.agent s.cur, k.setWidth 32)] }) ∧
        ∃ t, exec (.semv o sc c n) s = .next t ∧ AgentDone s t s.cur 0 0 0 (s.nextPc s.cur) [] ∧ becomes t after) ∧
      ∀ (b : AgentId) (need : BitVec 32), k.toNat ≤ 0xFFFFFFFF → m.queue = [(.agent b, need)] → b.core ≠ s.cur.core →
        need.toNat ≤ after.count.toNat →
        ∃ t, exec (.semv o sc c n) s = .next t ∧ t.pcOf b = landing b (s.nextPc b) ∧ (t.ag b).wait = none ∧
          t.pcOf s.cur = landing s.cur (s.nextPc s.cur) ∧
          t.sem v n.toNat = { after with count := after.count - need, ovf := false, queue := [] })

/-- R14, R233: the arrival of the last member of a group completes the barrier for every member at once: each destination gets the AND of
the votes in bit 0 and their OR in bit 1, and the arrivals go. An earlier arrival waits. A core outside the group takes OPERAND. The group
of a core at levels 0 to 2 is the members of its vat, its die or its package, at level 3 those of its L3ID, of its partition each time
(R314). -/
def Obligations.BarriersCompleteTogether : Prop :=
  ∀ (s : State) (o : Ordr) (sc : Scope) (d c : BitVec 5) (lv : BitVec 2),
    let q := s.cur.core
    let i : Instr := .bar o sc d c lv
    let all := s.arrivals ++ [⟨q, lv.toNat, (s.rg c).getLsbD 0, d⟩]
    let members := s.groupOf q lv.toNat
    let mine := all.filter fun r => r.level = lv.toNat && members.contains r.core
    let votes : Word := (if mine.all fun r => r.vote then 1 else 0) + (if mine.any fun r => r.vote then 2 else 0)
    s.cur.who = .thread →
    ((s.cores.map fun e => e.1).Nodup → ∀ p, p ∈ members ↔ (s.priv p).barcfg.getLsbD lv.toNat = true ∧ s.partOf p = s.partOf q ∧
      match lv.toNat with
      | 0 => p / 4 = q / 4
      | 1 => p / 64 = q / 64
      | 2 => True
      | _ => bits (s.priv p).barcfg 15 8 = bits (s.priv q).barcfg 15 8) ∧
    ((s.priv q).barcfg.getLsbD lv.toNat = false → Raises s i 0x0E 0 (lv.setWidth 64)) ∧
    ((s.priv q).barcfg.getLsbD lv.toNat = true → (∀ r ∈ s.arrivals, r.core ≠ q) → Performed s → HoldsNone s → q ∈ members →
      ((∀ m ∈ members, ∃ r ∈ mine, r.core = m) → (mine.map fun r => r.core).Nodup →
        ∃ t, exec i s = .next t ∧ t.arrivals = all.filter (fun r => !(r.level = lv.toNat && members.contains r.core)) ∧
          (∀ r ∈ mine, t.getG ⟨r.core, .thread⟩ r.dest = (if r.dest = 0 then 0 else votes) ∧
            (t.thr r.core).pc = s.nextPc ⟨r.core, .thread⟩) ∧
          (∀ p, (∀ r ∈ mine, r.core ≠ p) → t.thr p = s.thr p) ∧ ∀ l, t.rd1 l = s.rd1 l) ∧
      ((∃ m ∈ members, ∀ r ∈ all, r.level = lv.toNat → r.core ≠ m) →
        ∃ t, exec i s = .next t ∧ t.arrivals = all ∧ (t.ag s.cur).wait.isSome = true ∧ t.pcOf s.cur = s.pcOf s.cur ∧
          (∀ p, (t.thr p).g = (s.thr p).g) ∧ ∀ l, t.rd1 l = s.rd1 l))

/-- R38 to R40, R220: a wait at its limit is withdrawn, by WAITLIM at the waiting instruction, and one before its limit, or whose grant
came first, stands; a hold by `lrw` that has lasted 4,096 ns ends, and a younger one stands. -/
def Obligations.LimitsEndWaitsAndHolds : Prop :=
  ∀ (s : State) (q k : Nat) (w : Wait),
    let a : AgentId := ⟨q, .thread⟩
    let b : AgentId := ⟨q, .sprig k⟩
    ((s.ag a).wait = some w → w.limit ≠ 0 → w.since + w.limit ≤ s.time → w.what ≠ .withdrawn → s.granted a w = false →
      (s.core q).til.queue = [] → (s.priv q).status.nest = false →
      ∃ t, exec (.waitWithdrawal a) s = .next t ∧ TrapTaken s t q 0x0B 0 false (s.pcOf a) w.val ∧ (t.ag a).wait = none) ∧
    ((s.ag b).wait = some w → w.limit ≠ 0 → w.since + w.limit ≤ s.time → w.what ≠ .withdrawn → s.granted b w = false →
      (s.ag b).sb = [] →
      ∃ t, exec (.waitWithdrawal b) s = .next t ∧ SprigFaulted s t q k 0x0B w.val) ∧
    (∀ a, (s.ag a).wait = some w → (w.limit = 0 ∨ s.time < w.since + w.limit ∨ s.granted a w = true) →
      exec (.waitWithdrawal a) s = .next s) ∧
    (∀ line e, s.res = [(line, e)] → s.sliceQ = [] → e.holder = some a → e.byLrw = true → e.queue = [] →
      ∃ t, exec (.holdLimit a) s = .next t ∧
        (e.granted + 4096 ≤ s.time → t.res = [] ∧ { t with res := s.res } = s) ∧ (s.time < e.granted + 4096 → t = s))

/-! ### Vector instructions -/

/-- R174, R175, R178: the element-wise instructions on integer types, each element modulo its width; counts of shifts are taken modulo the
width, `vaddsat` clamps, `vmulhi` keeps the high half of the exact product. -/
def Obligations.IntegerVectorElements : Prop :=
  ∀ (s : State) (p : Nat) (h : VHdr) (u sub : Bool) (n vd va vb : BitVec 6),
    let w := h.et.width
    let a (e : Nat) : Nat := elem (s.getV s.cur.core p va) w e
    let b (e : Nat) : Nat := elem (s.getV s.cur.core p vb) w e
    let sg (v : Nat) : Int := if v < 2 ^ (w - 1) then v else (v : Int) - 2 ^ w
    let iv (v : Nat) : Int := if u then v else sg v
    let lo : Int := if u then 0 else -(2 ^ (w - 1) : Int)
    let hi : Int := if u then 2 ^ w - 1 else 2 ^ (w - 1) - 1
    let gives (i : Instr) (op : Nat → Int) : Prop := Elements s i p h vd fun e => ((op e % 2 ^ w).toNat, 0)
    s.cur.who = .sprig p → Claimed s [vd, va, vb] → h.et.isInt = true →
    gives (.vadd h .dyn vd va vb) (fun e => a e + b e) ∧ gives (.vsub h .dyn vd va vb) (fun e => (a e : Int) - b e) ∧
    gives (.vmul h .dyn vd va vb) (fun e => a e * b e) ∧
    gives (.vmin h u vd va vb) (fun e => if iv (a e) < iv (b e) then a e else b e) ∧
    gives (.vmax h u vd va vb) (fun e => if iv (a e) < iv (b e) then b e else a e) ∧
    gives (.vand h vd va vb) (fun e => (a e &&& b e : Nat)) ∧ gives (.vor h vd va vb) (fun e => (a e ||| b e : Nat)) ∧
    gives (.vxor h vd va vb) (fun e => (a e ^^^ b e : Nat)) ∧
    gives (.vshlVec h vd va vb) (fun e => a e * 2 ^ (b e % w)) ∧ gives (.vshlImm h n vd va) (fun e => a e * 2 ^ (n.toNat % w)) ∧
    gives (.vshrVec h vd va vb) (fun e => (a e / 2 ^ (b e % w) : Nat)) ∧
    gives (.vshrImm h n vd va) (fun e => (a e / 2 ^ (n.toNat % w) : Nat)) ∧
    gives (.vsraVec h vd va vb) (fun e => sg (a e) / 2 ^ (b e % w)) ∧
    gives (.vsraImm h n vd va) (fun e => sg (a e) / 2 ^ (n.toNat % w)) ∧
    gives (.vneg h false vd va) (fun e => -sg (a e)) ∧ gives (.vneg h true vd va) (fun e => |sg (a e)|) ∧
    gives (.vaddsat h sub u vd va vb)
      (fun e => max lo (min hi (if sub then iv (a e) - iv (b e) else iv (a e) + iv (b e)))) ∧
    gives (.vmulhi h u vd va vb) (fun e => iv (a e) * iv (b e) / 2 ^ w) ∧
    gives (.vbitc h false vd va) (fun e => ((List.range w).countP fun j => (a e).testBit j : Nat)) ∧
    gives (.vbitc h true vd va) (fun e => ((List.range w).countP fun j => a e < 2 ^ j : Nat)) ∧
    gives (.viota h vd) (fun e => e)

/-- R178 to R180, R112, R111, R184, R185: the element-wise instructions on floats, the special functions, `vrng`, `vdot` and the
conversions complete with the results and flags of their element operations. R112: a special function delivers the exact value rounded
once in rne to binary32, and for binary16 and bf16 that result rounded again, with flags against the exact value; its special operands
are those of Table 3. Where 2^x or the logarithm is irrational this is said of values no nearer to a tie than 2^-100 of themselves. R110:
`StochasticRound`. R111: xorshift32. R180: the sums of `vdot`; the flag beside a NaN operand that does not signal is left to log 30.
The flags and the result of `vexp2` at an integer whose power the format does not hold are the model's choice (log 11). -/
def Obligations.FloatVectorElements : Prop :=
  (∀ (o : SFn) (f : Ty) (v : Nat) (y : ℝ), f ∈ [Ty.f32, .f16, .bf16] →
    let z := specialF o f v
    let nan := nanOf f
    let inf := infinityF f
    let neg := signF f v
    let zero := valueF f v = 0
    (nanF f v = true → z = (nan, if sigF f v then 0x10 else 0)) ∧
    (nanF f v = false → match o with
      | .rcp => (zero → z = (withSign f neg inf, 0x08)) ∧ (infF f v = true → z = (withSign f neg 0, 0))
      | .rsq => (zero → z = (withSign f neg inf, 0x08)) ∧ (valueF f v < 0 → z = (nan, 0x10)) ∧
        (infF f v = true → neg = false → z = (0, 0))
      | .exp2 => infF f v = true → z = (if neg then 0 else inf, 0)
      | .log2 => (zero → z = (withSign f true inf, 0x08)) ∧ (valueF f v < 0 → z = (nan, 0x10)) ∧
        (infF f v = true → neg = false → z = (inf, 0))) ∧
    (let x : ℝ := valueF f v
      let same := finiteF f z.1 ∧ (valueF f z.1 : ℝ) = y
      finiteF f v → IsSpecial o x y →
      (o = .exp2 → (∃ n : ℤ, x = n) ∨ ClearOfTies .f32 y ∧ ClearOfTies f y) →
      (o = .log2 → (∃ n : ℤ, y = n) ∨ ClearOfTies .f32 y ∧ ClearOfTies f y) →
      (∃ r, RoundsTo .f32 .rne false false y r ∧ (f = .f32 → z = r) ∧ (f ≠ .f32 → z.1 = (cvtElem f .f32 .rne false false r.1).1)) ∧
      z.2.toNat < 8 ∧ (z.2.getLsbD 0 = true ↔ ¬same) ∧ (z.2.getLsbD 1 = true ↔ ¬same ∧ y ≠ 0 ∧ |y| < 2 ^ emin f) ∧
      ∀ d, RoundsTo f .rne false false y d → z.2.getLsbD 2 = d.2.getLsbD 2)) ∧
  (∀ (src dst : Ty) (v q : Nat) (sat : Bool),
    let floats := [Ty.f64, .f32, .f16, .bf16, .e8m10, .e4m3, .e5m2, .e3m2, .e2m3, .e2m1]
    let z := stochastic (unpackF src v) dst q sat
    src ∈ floats → dst ∈ floats → q < 2 ^ 16 →
    (finiteF src v → valueF src v ≠ 0 → RoundsRandomly dst q (valueF src v) z ∧
      ((∃ w, finiteF dst w ∧ valueF dst w = valueF src v) → z.2 = 0 ∧ valueF dst z.1 = valueF src v)) ∧
    (valueF src v = 0 ∨ nanF src v = true ∨ infF src v = true → z = cvtElem dst src .rtz sat false v)) ∧
  (∀ a : BitVec 32,
    let s1 := a ^^^ (a <<< 13)
    let s2 := s1 ^^^ (s1 >>> 17)
    xorShift32 a.toNat = (s2 ^^^ (s2 <<< 5)).toNat) ∧
  (∀ (et : Ty) (u : Bool) (d : Nat) (ps : List (Nat × Nat)), et.isInt = true →
    let int (v : Nat) : Int := if u then (v % 2 ^ et.width : Nat) else (BitVec.ofNat et.width v).toInt
    dotI et u d ps = (((d + (ps.map fun p : Nat × Nat => int p.1 * int p.2).sum) % 2 ^ 32).toNat, 0)) ∧
  (∀ (et : Ty) (mode : Rnd) (d : Nat) (ps : List (Nat × Nat)), et ∈ [Ty.f16, .bf16] →
    let z := dotF et mode d ps
    let loud (p : Nat × Nat) : Prop := infF et p.1 = true ∧ valueF et p.2 = 0 ∨ valueF et p.1 = 0 ∧ infF et p.2 = true
    let infinite (n : Bool) : Prop := infF .f32 d = true ∧ signF .f32 d = n ∨
      ∃ p ∈ ps, (infF et p.1 = true ∨ infF et p.2 = true) ∧ ¬loud p ∧ (signF et p.1 ^^ signF et p.2) = n
    let someNan := nanF .f32 d = true ∨ ∃ p ∈ ps, nanF et p.1 = true ∨ nanF et p.2 = true
    let someSig := sigF .f32 d = true ∨ ∃ p ∈ ps, sigF et p.1 = true ∨ sigF et p.2 = true
    (someNan → z.1 = nanOf .f32 ∧ (someSig → z.2 = 0x10) ∧
      (¬someSig → (∀ p ∈ ps, finiteF et p.1 ∨ nanF et p.1 = true) → (∀ p ∈ ps, finiteF et p.2 ∨ nanF et p.2 = true) → z.2 = 0)) ∧
    (¬someNan → (∃ p ∈ ps, loud p) ∨ infinite true ∧ infinite false → z = (nanOf .f32, 0x10)) ∧
    (∀ n, ¬someNan → (∀ p ∈ ps, ¬loud p) → infinite n → ¬infinite (!n) → z = (withSign .f32 n (infinityF .f32), 0))) ∧
  ∀ (s : State) (p : Nat) (h : VHdr) (src : Ty) (r : Rnd) (u sat : Bool) (vd va vb vc : BitVec 6),
    let f := h.et
    let w := f.width
    let q := s.cur.core
    let a (e : Nat) : Nat := elem (s.getV q p va) w e
    let b (e : Nat) : Nat := elem (s.getV q p vb) w e
    let m := s.mode s.cur r
    let k := s.getK q p h.k
    s.cur.who = .sprig p → Claimed s [vd, va, vb, vc] →
    (f.isFloat = true →
      Elements s (.vadd h r vd va vb) p h vd (fun e => arithF .add f m (a e) (b e)) ∧
      Elements s (.vsub h r vd va vb) p h vd (fun e => arithF .sub f m (a e) (b e)) ∧
      Elements s (.vmul h r vd va vb) p h vd (fun e => arithF .mul f m (a e) (b e)) ∧
      Elements s (.vdiv h r vd va vb) p h vd (fun e => arithF .div f m (a e) (b e)) ∧
      Elements s (.vfma h r vd va vb vc) p h vd (fun e => fmaF f m (a e) (b e) (elem (s.getV q p vc) w e)) ∧
      Elements s (.vsqrt h r vd va) p h vd (fun e => sqrtF f m (a e)) ∧
      Elements s (.vmin h false vd va vb) p h vd (fun e => minMaxF f false (a e) (b e)) ∧
      Elements s (.vmax h false vd va vb) p h vd (fun e => minMaxF f true (a e) (b e)) ∧
      Elements s (.vneg h u vd va) p h vd (fun e => negAbsF f u (a e))) ∧
    (Elements s (.vrcp h vd va) p h vd (fun e => specialF .rcp f (a e)) ∧
      Elements s (.vrsq h vd va) p h vd (fun e => specialF .rsq f (a e)) ∧
      Elements s (.vexp2 h vd va) p h vd (fun e => specialF .exp2 f (a e)) ∧
      Elements s (.vlog2 h vd va) p h vd (fun e => specialF .log2 f (a e)) ∧
      Elements s (.vrng h vd va) p h vd (fun e => (xorShift32 (a e), 0))) ∧
    (let n := 512 / max w src.width
      let op (e : Nat) : Rounded := cvtElem f src m sat u (elem (s.getV q p va) src.width e)
      Vectors s (.vcvt h src r sat u vd va) p h.k h.zm vd w n (fun e => (op e).1) (activeFlags k n op)) ∧
    (let n := 512 / src.width
      let op (e : Nat) : Rounded := stochastic (unpackF src (elem (s.getV q p va) src.width e)) f (stochQ (s.getV q p vb) e) sat
      Vectors s (.vcvts h src sat vd va vb) p h.k h.zm vd w n (fun e => (op e).1) (activeFlags k n op)) ∧
    (let pairs (e : Nat) : List (Nat × Nat) := (List.range (32 / w)).map fun j => (a (32 / w * e + j), b (32 / w * e + j))
      let op (e : Nat) : Rounded := if f.isInt then dotI f u (elem (s.getV q p vd) 32 e) (pairs e)
        else dotF f (modeOfRm (s.rmOf s.cur)) (elem (s.getV q p vd) 32 e) (pairs e)
      Vectors s (.vdot h u vd va vb) p h.k h.zm vd 32 16 (fun e => (op e).1) (activeFlags k 16 op))

/-- R186, R48, R101: permutes, byte alignment, broadcasts, and the moves of one element, whose unused container bits are 0. -/
def Obligations.VectorMovesPlaceElements : Prop :=
  ∀ (s : State) (p : Nat) (h : VHdr) (md : PermMode) (n vd va vb : BitVec 6) (idx : BitVec 16) (g : BitVec 5),
    let w := h.et.width
    let q := s.cur.core
    let a (e : Nat) : Nat := elem (s.getV q p va) w e
    let byte (v : BitVec 6) (j : Nat) : Nat := elem (s.getV q p v) 8 j
    let own (v : Nat) : Nat := match h.et with
      | .e3m2 | .e2m3 => v % 64 | .e2m1 => v % 16 | .e8m10 => v - v % 2 ^ 13 | _ => v
    s.cur.who = .sprig p → Claimed s [vd, va, vb] →
    Elements s (.vperm h md vd va vb) p h vd (fun e =>
      let b := elem (s.getV q p vb) w e
      (a (match md with
        | .index => b % h.et.count | .lo => b % 16 | .hi => b / 16), 0)) ∧
    Vectors s (.valign h n vd va vb) p h.k h.zm vd 8 64
      (fun e => if e + n.toNat < 64 then byte va (e + n.toNat) else byte vb (e + n.toNat - 64)) 0 ∧
    Elements s (.vbcast h true vd va) p h vd (fun _ => (own (a 0), 0)) ∧
    Elements s (.vbcast h false vd (g.setWidth 6)) p h vd (fun _ => (own (s.rg g).toNat, 0)) ∧
    Computes s (.vextr h.et idx g va) g (BitVec.ofNat 64 (own (a idx.toNat))) ∧
    Vectors s (.vins h.et idx vd g) p 0 false vd w h.et.count
      (fun e => if e = idx.toNat then own (s.rg g).toNat else elem (s.getV q p vd) w e) 0 ∧
    Vectors s (.vsel h.et h.k vd va vb) p 0 false vd w h.et.count
      (fun e => own (if (s.getK q p h.k).getLsbD e then a e else elem (s.getV q p vb) w e)) 0

/-- R181, R183: `vcmp` writes a bit for each element and 0 above them, on integers by their order, signed or not, on floats as
R105 compares them; `kop`, `kmov` and `ktest` act on whole predicates; k0 reads as all
ones and ignores writes (R49). -/
def Obligations.PredicateResults : Prop :=
  ∀ (s : State) (p : Nat) (h : VHdr) (c : VCond) (u : Bool) (kd ka kb : BitVec 3) (va vb : BitVec 6) (g : BitVec 5),
    let w := h.et.width
    let q := s.cur.core
    let k (j : BitVec 3) : Word := if j = 0 then BitVec.allOnes 64 else Store.get (s.sprig q p).k 0 j.toNat
    let op (e : Nat) : Bool × BitVec 6 := cmpElem c u h.et (elem (s.getV q p va) w e) (elem (s.getV q p vb) w e)
    s.cur.who = .sprig p →
    (Claimed s [va, vb] → ∃ v : Word,
      (∀ e < 64, v.getLsbD e = (decide (e < h.et.count) &&
        if (k h.k).getLsbD e then (op e).1 else (!h.zm && (k kd).getLsbD e))) ∧
      Predicates s (.vcmp h c u kd va vb) p kd v (activeFlags (k h.k) h.et.count fun e => (0, (op e).2))) ∧
    Predicates s (.kop .and kd ka kb) p kd (k ka &&& k kb) 0 ∧ Predicates s (.kop .or kd ka kb) p kd (k ka ||| k kb) 0 ∧
    Predicates s (.kop .xor kd ka kb) p kd (k ka ^^^ k kb) 0 ∧ Predicates s (.kop .andn kd ka kb) p kd (k ka &&& ~~~k kb) 0 ∧
    Predicates s (.kop .not kd ka 0) p kd (~~~k ka) 0 ∧
    Computes s (.kmov true ka g) g (k ka) ∧ Predicates s (.kmov false kd g) p kd (s.rg g) 0 ∧
    Computes s (.ktest .any g ka) g (if k ka = 0 then 0 else 1) ∧
    Computes s (.ktest .all g ka) g (if k ka = BitVec.allOnes 64 then 1 else 0) ∧
    Computes s (.ktest .count g ka) g (BitVec.ofNat 64 ((List.range 64).countP fun j => (k ka).getLsbD j)) ∧
    (∀ j v, (s.setK q p j v).getK q p j = if j = 0 then BitVec.allOnes 64 else v) ∧
    (∀ (et : Ty) (x y : Nat), et.isInt = true →
      let int (v : Nat) : Int := if u then (v % 2 ^ et.width : Nat) else (BitVec.ofNat et.width v).toInt
      cmpElem c u et x y = (match c with
        | .eq => decide (int x = int y) | .ne => decide (int x ≠ int y) | .lt => decide (int x < int y) | .le => decide (int x ≤ int y)
        | .gt => decide (int y < int x) | .ge => decide (int y ≤ int x) | .un => false, 0)) ∧
    ∀ (et : Ty) (x y : Nat), et.isInt = false → cmpElem c u et x y = cmpF et c x y

/-- R187, R113: an inactive element enters as the identity, which leaves any other element as it is (in every mode a zero sum too; a NaN
as R103 and R105 give); `vred` leaves the value of the fixed tree, whose levels combine the pairs (2i, 2i + 1), in element 0 and 0 in the
others, `vscan` the value of the chain in each; a step on two elements is the integer or the float operation. On
integers `.add` is the sum modulo 2^w of the active elements, and of the active elements up to each. -/
def Obligations.ReductionsCombineActiveElements : Prop :=
  ∀ (s : State) (p : Nat) (h : VHdr) (op : RedOp) (u : Bool) (vd va : BitVec 6),
    let w := h.et.width
    let q := s.cur.core
    let n := h.et.count
    let k := s.getK q p h.k
    let a (e : Nat) : Nat := if k.getLsbD e then elem (s.getV q p va) w e else 0
    let xs := (List.range n).map fun e => if k.getLsbD e then some (elem (s.getV q p va) w e) else none
    let f := redJoin op u h.et (modeOfRm (s.rmOf s.cur))
    let r := redTree f (Nat.log2 n) xs 0
    let rs := (xs.headD none, 0) :: scanFrom f (xs.headD none) (xs.drop 1)
    let val (x : Option Nat) : Nat := x.getD (redIdent op u h.et)
    s.cur.who = .sprig p → Claimed s [vd, va] →
    Vectors s (.vred h.et h.k op u vd va) p 0 false vd w 1 (fun _ => val r.1) r.2 ∧
    Vectors s (.vscan h op u vd va) p h.k h.zm vd w n (fun e => val (rs.getD e (none, 0)).1) (stepFlags rs) ∧
    (∀ (m : Nat) (ys : List (Option Nat)) (fl : BitVec 6), ys.length = 2 ^ (m + 1) →
      let level := (List.range (2 ^ m)).map fun j => f (ys.getD (2 * j) none) (ys.getD (2 * j + 1) none)
      redTree f (m + 1) ys fl = redTree f m (level.map fun r => r.1) (level.foldl (fun x r => x ||| r.2) fl)) ∧
    (∀ y fl, redTree f 0 [y] fl = (y, fl)) ∧
    (∀ y ys, scanFrom f y [] = [] ∧ ∀ z, scanFrom f y (z :: ys) = f y z :: scanFrom f (f y z).1 ys) ∧
    (∀ y z, y < 2 ^ w → z < 2 ^ w →
      let int (v : Nat) : Int := if u then v else (BitVec.ofNat w v).toInt
      let mode := modeOfRm (s.rmOf s.cur)
      let ident := if op = .min then infinityF h.et else withSign h.et true (infinityF h.et)
      (h.et.isInt = true →
        f (some y) (some z) = (some (match op with
          | .add => (y + z) % 2 ^ w
          | .min => if int y < int z then y else z
          | .max => if int y < int z then z else y
          | .and => y &&& z
          | .or => y ||| z
          | .xor => y ^^^ z), 0) ∧
        f none (some y) = (some y, 0) ∧ f (some y) none = (some y, 0)) ∧
      (h.et ∈ [Ty.f64, .f32, .f16, .bf16] → op ∈ [RedOp.add, .min, .max] →
        (let r := match op with
           | .min => minMaxF h.et false y z
           | .max => minMaxF h.et true y z
           | .add | .and | .or | .xor => arithF .add h.et mode y z
         f (some y) (some z) = (some r.1, r.2)) ∧
        (nanF h.et y = false → f none (some y) = (some y, 0) ∧ f (some y) none = (some y, 0)) ∧
        (nanF h.et y = true →
          let r : Option Nat × BitVec 6 := (some (if op = .add then nanOf h.et else ident), if sigF h.et y then 0x10 else 0)
          f none (some y) = r ∧ f (some y) none = r))) ∧
    (f none none = (none, 0) ∧ (h.et.isInt = true → val none % 2 ^ w = match op with
      | .add | .or | .xor => 0
      | .and => 2 ^ w - 1
      | .min => if u then 2 ^ w - 1 else 2 ^ (w - 1) - 1
      | .max => if u then 0 else 2 ^ (w - 1))) ∧
    (h.et ∈ [Ty.f64, .f32, .f16, .bf16] →
      (op = .add → val none = withSign h.et true 0) ∧ (op = .min → val none = infinityF h.et) ∧
      (op = .max → val none = withSign h.et true (infinityF h.et))) ∧
    (∀ neg : Bool, !h.et.isInt → op = .add → f none (some (packF h.et neg 0)) = (some (packF h.et neg 0), 0) ∧
      f (some (packF h.et neg 0)) none = (some (packF h.et neg 0), 0)) ∧
    (h.et.isInt = true → op = .add →
      val r.1 % 2 ^ w = ((List.range n).map a).sum % 2 ^ w ∧
      ∀ e < n, val (rs.getD e (none, 0)).1 % 2 ^ w = ((List.range (e + 1)).map a).sum % 2 ^ w)

/-- R175, R188, R189: a vector load whose active elements may all be read writes their values; a vector store whose active elements may
all be stored, at places apart from each other, makes each visible to the sprig at its own place and no other byte. A line-aligned
`vst` lies in one line of memory. -/
def Obligations.VectorLoadsAndStoresReachEachElement : Prop :=
  ∀ (s : State) (p : Nat) (h : VHdr) (imm : BitVec 16) (sc : BitVec 2) (vd vb : BitVec 6) (ga : BitVec 5) (x : Nat → Xl),
    let w := h.et.width
    let q := s.cur.core
    let n := w / 8
    let active (e : Nat) : Prop := e < h.et.count ∧ (s.getK q p h.k).getLsbD e = true
    let near (e : Nat) : Word := s.rg ga + imm.signExtend 64 + BitVec.ofNat 64 (e * n)
    let far (e : Nat) : Word := s.rg ga + (sextN (elem (s.getV q p vb) w e) w <<< sc.toNat)
    let own (v : Nat) : Nat := match h.et with
      | .e3m2 | .e2m3 => v % 64 | .e2m1 => v % 16 | .e8m10 => v - v % 2 ^ 13 | _ => v
    let value (e : Nat) : Nat := own (leNat ((List.range n).map fun j => s.seen s.cur ((x e).loc + j)))
    let loads (addr : Nat → Word) : Prop := ∀ e, active e → Readable s s.cur (addr e) n (x e)
    let stores (addr : Nat → Word) : Prop := (∀ e, active e → Ready s s.cur .w (addr e) (x e) ∧ (addr e).toNat % n = 0) ∧
      ∀ e e', active e → active e' → e ≠ e' → (x e).loc + n ≤ (x e').loc ∨ (x e').loc + n ≤ (x e).loc
    let stored (i : Instr) : Prop := ∃ t, exec i s = .next t ∧ AgentDone s t s.cur 0 0 0 (s.nextPc s.cur) (t.ag s.cur).sb ∧
      PackageKept s t ∧
      (∀ e j, active e → j < n →
        t.seen s.cur ((x e).loc + j) = BitVec.ofNat 8 (own (elem (s.getV q p vd) w e) / 256 ^ j)) ∧
      ∀ l, (∀ e, active e → l < (x e).loc ∨ (x e).loc + n ≤ l) → t.seen s.cur l = s.seen s.cur l
    s.cur.who = .sprig p → Claimed s [vd, vb] →
    (loads near → Elements s (.vld h imm vd ga) p h vd fun e => (value e, 0)) ∧
    (loads far → Elements s (.vgath h sc vd (ga.setWidth 6) vb) p h vd fun e => (value e, 0)) ∧
    (stores near → ((near 0).toNat % 64 = 0 → ∃ base, base % 64 = 0 ∧ ∀ e, active e → (x e).loc = base + e * n) →
      stored (.vst h.et h.k imm vd ga)) ∧
    (stores far → stored (.vscat h.et h.k sc vd (ga.setWidth 6) vb))

/-- R26, R190: a sprig that an accumulator is lent to reads a row of it into four v registers and writes one from them, and a row beyond
31 takes OPERAND with it; to any other sprig it takes OPERAND with the accumulator's number. R47, R85, R174: a vector instruction or a
link transfer that names a register beyond the claim is ILLEGAL detail 12; an instruction of sprigs alone in a thread, and one of
threads alone in a sprig, is ILLEGAL detail 9; and under a legal configuration no two claimed registers of a core are one. -/
def Obligations.LentRowsAndClaimedRegisters : Prop :=
  (∀ (s : State) (p : Nat) (et : Ty) (j : BitVec 2) (vd : BitVec 6) (ga imm : BitVec 5),
     let q := s.cur.core
     let row := s.rg ga + imm.setWidth 64
     let c := s.acc q j.toNat
     let reg (n : Nat) : BitVec 6 := vd + BitVec.ofNat 6 n
     s.cur.who = .sprig p → vd.toNat % 4 = 0 → vd.toNat + 3 < (s.core q).arr.r →
     ((s.lentSet q j.toNat).getLsbD p = true → row.toNat < 32 →
       (∃ t, exec (.crd et j vd (ga.setWidth 6) imm) s = .next t ∧ t.pcOf s.cur = landing s.cur (s.nextPc s.cur) ∧
         (∀ n < 4, t.getV q p (reg n) = BitVec.ofNat 512 (rowOf c row.toNat / 2 ^ (512 * n))) ∧
         (∀ r : BitVec 6, r.toNat / 4 ≠ vd.toNat / 4 → r.toNat < (s.core q).arr.r → t.getV q p r = s.getV q p r) ∧
         (∀ r, t.getG s.cur r = s.getG s.cur r) ∧ (t.core q).til = (s.core q).til ∧ PackageKept s t) ∧
       ∃ t v, exec (.cwr et j vd (ga.setWidth 6) imm) s = .next t ∧
         AgentDone (s.setAcc q j.toNat v) t s.cur 0 0 0 (s.nextPc s.cur) (s.ag s.cur).sb ∧ PackageKept s t ∧
         (∀ n < 4, rowOf v row.toNat / 2 ^ (512 * n) % 2 ^ 512 = (s.getV q p (reg n)).toNat) ∧
         ∀ r < 32, r ≠ row.toNat → rowOf v r = rowOf c r) ∧
     ((s.lentSet q j.toNat).getLsbD p = true → 31 < row.toNat →
       Raises s (.crd et j vd (ga.setWidth 6) imm) 0x0E 0 row ∧ Raises s (.cwr et j vd (ga.setWidth 6) imm) 0x0E 0 row) ∧
     ((s.lentSet q j.toNat).getLsbD p = false →
       Raises s (.crd et j vd (ga.setWidth 6) imm) 0x0E 0 (j.setWidth 64) ∧
       Raises s (.cwr et j vd (ga.setWidth 6) imm) 0x0E 0 (j.setWidth 64))) ∧
  (∀ (s : State) (h : VHdr) (et : Ty) (r : Rnd) (u sat : Bool) (n vd va vb vc delta : BitVec 6) (k : BitVec 3) (c : VCond) (md : PermMode)
      (op : RedOp) (kop : KOp) (kt : KTest) (imm desc : BitVec 16) (sc cd : BitVec 2) (row a b g : BitVec 5) (zd za zb zc : BitVec 3)
      (lend : BitVec 4) (lv : BitVec 2) (o : Ordr) (scope : Scope),
    let il (i : Instr) (detail : Nat) : Word := BitVec.ofNat 64 (detail * 65536 + (headOf i).toNat)
    let of3 := [vd, va, vb]
    let of2 := [vd, va]
    let vector : List (Instr × List (BitVec 6)) := [
      (.vadd h r vd va vb, of3), (.vsub h r vd va vb, of3), (.vmul h r vd va vb, of3), (.vfma h r vd va vb vc, [vd, va, vb, vc]),
      (.vdiv h r vd va vb, of3), (.vmin h u vd va vb, of3), (.vmax h u vd va vb, of3), (.vand h vd va vb, of3),
      (.vor h vd va vb, of3), (.vxor h vd va vb, of3), (.vshlVec h vd va vb, of3), (.vshlImm h n vd va, of2),
      (.vshrVec h vd va vb, of3), (.vshrImm h n vd va, of2), (.vsraVec h vd va vb, of3), (.vsraImm h n vd va, of2),
      (.vcmp h c u k va vb, [va, vb]), (.vsel et k vd va vb, of3), (.vneg h u vd va, of2), (.vsqrt h r vd va, of2),
      (.vrcp h vd va, of2), (.vrsq h vd va, of2), (.vexp2 h vd va, of2), (.vlog2 h vd va, of2),
      (.vcvt h et r sat u vd va, of2), (.vcvts h et sat vd va vb, of3), (.vrng h vd va, of2), (.vperm h md vd va vb, of3),
      (.valign h n vd va vb, of3), (.vbcast h true vd va, of2), (.vbcast h false vd va, [vd]), (.vextr et imm g va, [va]),
      (.vins et imm vd g, [vd]), (.vred et k op u vd va, of2), (.vscan h op u vd va, of2), (.vld h imm vd g, [vd]),
      (.vst et k imm vd g, [vd]), (.vgath h sc vd va vb, [vd, vb]), (.vscat et k sc vd va vb, [vd, vb]),
      (.vaddsat h sat u vd va vb, of3), (.vmulhi h u vd va vb, of3), (.vbitc h u vd va, of2), (.vdot h u vd va vb, of3),
      (.viota h vd, [vd]), (.lsend et va delta, [va]), (.lrecv et vd delta, [vd])]
    let rows : List Instr := [.crd et cd vd va row, .cwr et cd vd va row]
    let scalar : List Instr := [.kop kop k zd za, .kmov u k g, .ktest kt g k, .sid g, .bfetch g, .stop]
    let threads : List Instr := [.svc imm, .idle, .migrate b, .callx g imm, .bar o scope a b lv, .sconf a b, .sbcast a b lend, .swait a b,
      .sget a b n, .sput a b g, .skill b, .tld u et zd desc a b, .tldc et cd desc a b, .tst et za desc a b, .tstc et cd desc a b,
      .tzero cd, .tmma et u sat cd za zb, .tmmas u et sat u cd za zb zc, .tmmax et cd za zb, .tcvt et r sat u zd cd, .ttrans et zd za,
      .tsync]
    (s.cur.who = .thread → ∀ i ∈ vector.map Prod.fst ++ rows ++ scalar, Raises s i 0x01 9 (il i 9)) ∧
    (s.cur.who ≠ .thread →
      (∀ i ∈ threads, Raises s i 0x01 9 (il i 9)) ∧ (∀ e ∈ vector, ¬Claimed s e.2 → Raises s e.1 0x01 12 (il e.1 12)) ∧
      ∀ i ∈ rows, (s.core s.cur.core).arr.r ≤ vd.toNat + 3 → Raises s i 0x01 12 (il i 12))) ∧
  ∀ n r i i' j j' : Nat, n ≤ 64 → (n + 7) / 8 * r ≤ 256 → i < n → i' < n → j < r → j' < r →
    poolKey i r j = poolKey i' r j' → i = i' ∧ j = j'

/-! ### Sprigs -/

/-- R162, R167, R168: `sconf` with counts in range, once every sprig is done, leaves n idle sprigs of zero registers with r vector registers
each, empty queues and slots, and no lent accumulator; `sget` reads a sprig's register, fault record or status; `sput` writes a register
of one that does not run. Counts and numbers out of range take OPERAND. -/
def Obligations.SprigsAreConfiguredReadAndWritten : Prop :=
  ∀ (s : State) (d b c sel : BitVec 5) (k : BitVec 6), s.cur.who = .thread →
    let q := s.cur.core
    let n := (s.rg b).toNat
    let r := (s.rg c).toNat
    let p := s.sprig q n
    let size := (s.core q).arr.n
    let legal := 1 ≤ n ∧ n ≤ 64 ∧ 8 ≤ r ∧ r ≤ 64 ∧ r % 8 = 0 ∧ (n + 7) / 8 * r ≤ 256
    (legal → (∀ i < size, s.sprigDone q i = true) →
      ∃ t, exec (.sconf b c) s = .next t ∧ t.pcOf s.cur = s.nextPc s.cur ∧ (t.core q).arr.n = n ∧ (t.core q).arr.r = r ∧
        (∀ i < 64, (t.sprig q i).st = .idle ∧ (t.sprig q i).queue = [] ∧ (t.sprig q i).full = 0 ∧ (t.sprig q i).fcause = 0 ∧
          (t.sprig q i).fpstat = 0 ∧ (t.sprig q i).rm = (s.thr q).rm ∧
          (i < n → (∀ g, t.getG ⟨q, .sprig i⟩ g = 0) ∧ (∀ j, t.getK q i j = if j = 0 then BitVec.allOnes 64 else 0) ∧
            ∀ j : BitVec 6, j.toNat < r → t.getV q i j = 0)) ∧
        (∀ j, t.lentSet q j = 0) ∧ (∀ g, t.getG s.cur g = s.getG s.cur g) ∧ PackageKept s t) ∧
    ((n < 1 ∨ 64 < n) → (s.priv q).status.nest = false → Traps s (.sconf b c) 0x0E 0 (s.rg b)) ∧
    (1 ≤ n → n ≤ 64 → ¬legal → (s.priv q).status.nest = false → Traps s (.sconf b c) 0x0E 0 (s.rg c)) ∧
    (legal → (∃ i < size, s.sprigDone q i = false) → (s.ag s.cur).wait = none →
      BeginsWait s (.sconf b c) 0 (.sprigs (BitVec.ofNat 64 (2 ^ size - 1)))) ∧
    (n < size →
      (∀ g : BitVec 5, Computes s (.sget d b (g.setWidth 6)) d (s.getG ⟨q, .sprig n⟩ g)) ∧
      Computes s (.sget d b 32) d (BitVec.ofNat 64 (p.fpc.toNat * 65536 + p.fcause.toNat)) ∧ Computes s (.sget d b 33) d p.fval ∧
      (p.queue.length ≤ 4 → ∃ v, Computes s (.sget d b 34) d v ∧ bits v 31 16 = p.pc.toNat % 65536 ∧
        bits v 4 2 = p.queue.length ∧ (∀ j < 4, v.getLsbD (8 + j) = (s.lentSet q j).getLsbD n) ∧
        bits v 1 0 = match p.st with
          | .idle => 0 | .running => 1 | .waiting => 2 | .faulted => 3) ∧
      (p.st = .idle ∨ p.st = .faulted → CompletesAs s (s.setG ⟨q, .sprig n⟩ sel (s.rg c)) (.sput b c sel)) ∧
      (p.st = .running ∨ p.st = .waiting → (s.priv q).status.nest = false → Traps s (.sput b c sel) 0x0E 0 (s.rg b))) ∧
    (size ≤ n → (s.priv q).status.nest = false →
      Traps s (.sget d b k) 0x0E 0 (s.rg b) ∧ Traps s (.sput b c sel) 0x0E 0 (s.rg b))

/-- R163 to R166, R169 to R171, R355: `sbcast`, which merges the core's partial sums as a `fence.full.die` does (R164, R231), queues a block
on each sprig of the mask, and an idle one starts it; `swait` returns the
faulted ones once all are done; `skill` and its stop leave a sprig idle with its registers; in a sprig `sid` gives its number, `bfetch`
moves and lifts the span rule, `stop` ends the block, and an `lrw` reservation with it (R220), and takes the next; a lane picks a running
sprig of its own in a cycle that the duty allows, and none in another. That the turn of the sprig picked comes next in the schedule is the
model's choice (log 1). -/
def Obligations.BlocksRunFromStartToStop : Prop :=
  ∀ (s : State) (d b c : BitVec 5) (lend : BitVec 4) (i lane : Nat),
    let q := s.cur.core
    let n := (s.core q).arr.n
    let m := s.rg c &&& BitVec.ofNat 64 (2 ^ n - 1)
    let p := s.sprig q i
    let a := s.rg b
    let starts (x : Sprig) (e : Block) (rest : List Block) : Prop :=
      x.st = .running ∧ x.queue = rest ∧ x.pc = e.addr.setWidth 17 + 2 ∧ x.bstart = e.addr ∧ x.free = false
    let kept (x y : Sprig) : Prop := x.g = y.g ∧ x.k = y.k ∧ x.links = y.links ∧ x.full = y.full ∧ x.rm = y.rm ∧ x.fpstat = y.fpstat
    let held := (s.priv q).status.shold
    let e : Block := ⟨a.setWidth 16, lend⟩
    (s.cur.who = .thread → a.toNat ≤ 0xFFFF → a.toNat % 64 = 0 → (lend = 0 ∨ s.binding q ≠ 3) → (s.ag s.cur).sb = [] →
      (∀ j < n, m.getLsbD j = true → (s.sprig q j).queue.length ≠ 4) →
      ∃ t, exec (.sbcast b c lend) s = .next t ∧ t.pcOf s.cur = s.nextPc s.cur ∧ (∀ g, t.getG s.cur g = s.getG s.cur g) ∧
        ((s.core q).partials = [] → PackageKept s t) ∧ (m ≠ 0 → (t.core q).partials = [] ∧
          ∀ l x, (s.core q).partials = [(l, x)] → Store.find? s.exact l = none → Store.find? t.exact l = some x ∧ ∀ l, t.rd1 l = s.rd1 l) ∧
        (∀ j < 4, t.lentSet q j = s.lentSet q j ||| (if lend.getLsbD j then m else 0)) ∧
        (m.getLsbD i = false → t.sprig q i = p) ∧
        (m.getLsbD i = true → kept (t.sprig q i) p ∧
          (p.st = .running ∨ p.st = .waiting → (t.sprig q i).st = p.st ∧ (t.sprig q i).queue = p.queue ++ [e]) ∧
          (p.st = .faulted ∨ p.st = .idle ∧ p.queue = [] → held = false → s.blockOwned q (a.toNat / 64) = false →
            starts (t.sprig q i) e []) ∧
          (p.st = .idle → held = true → (t.sprig q i).st = .idle ∧ (t.sprig q i).queue = p.queue ++ [e]))) ∧
    (s.cur.who = .thread →
      ((∀ j < n, m.getLsbD j = true → s.sprigDone q j = true) → ∃ v t, exec (.swait d c) s = .next t ∧
        (∀ j < 64, v.getLsbD j = (m.getLsbD j && decide ((s.sprig q j).st = .faulted))) ∧
        (∀ j < 4, t.lentSet q j = s.lentSet q j &&& ~~~m) ∧
        AgentDone (s.unlend q m) t s.cur d v 0 (s.nextPc s.cur) (s.ag s.cur).sb ∧ PackageKept s t) ∧
      ((∃ j < n, m.getLsbD j = true ∧ s.sprigDone q j = false) → (s.ag s.cur).wait = none → BeginsWait s (.swait d c) 0 (.sprigs m))) ∧
    (NoQueues s → NoStores s →
      (s.cur.who = .thread → ∃ t, exec (.skill c) s = .next t ∧ t.pcOf s.cur = s.nextPc s.cur ∧
        (∀ g, t.getG s.cur g = s.getG s.cur g) ∧ (∀ j < 4, t.lentSet q j = s.lentSet q j &&& ~~~m) ∧ (∀ l, t.rd1 l = s.rd1 l) ∧
        (m.getLsbD i = false ∨ p.st = .faulted → t.sprig q i = p) ∧
        (m.getLsbD i = true → p.st ≠ .faulted →
          kept (t.sprig q i) p ∧ (t.sprig q i).st = .idle ∧ (t.sprig q i).queue = [] ∧ (t.sprig q i).pc = p.pc)) ∧
      ∃ t, exec (.skillSprigStop q i) s = .next t ∧ ((s.skillAt q).getLsbD i = false → t = s) ∧
        ((s.skillAt q).getLsbD i = true → p.st ≠ .faulted →
          kept (t.sprig q i) p ∧ (t.sprig q i).st = .idle ∧ (t.sprig q i).queue = [])) ∧
    (s.cur.who = .sprig i →
      Computes s (.sid d) d (BitVec.ofNat 64 i) ∧
      (a.toNat ≤ 0xFFFF → isHeadAddr a.toNat = true → ∃ t, exec (.bfetch b) s = .next t ∧
        AgentDone (s.modSprig q i fun x => { x with free := true }) t s.cur 0 0 0 a (s.ag s.cur).sb ∧ PackageKept s t) ∧
      (0xFFFF < a.toNat → Raises s (.bfetch b) 0x01 11 (BitVec.ofNat 64 (11 * 65536 + (headOf (.bfetch b)).toNat))) ∧
      (a.toNat ≤ 0xFFFF → isHeadAddr a.toNat = false → Raises s (.bfetch b) 0x03 0 a) ∧
      ((s.ag s.cur).sb = [] → ∃ t, exec .stop s = .next t ∧ kept (t.sprig q i) p ∧ (∀ j, j ≠ i → t.sprig q j = s.sprig q j) ∧
        PackageKept (s.releaseHeld s.cur true) t ∧
        (p.queue = [] ∨ held = true → (t.sprig q i).st = .idle ∧ (t.sprig q i).queue = p.queue ∧ (t.sprig q i).bstart = 0 ∧
          (t.sprig q i).free = false) ∧
        (∀ x rest, p.queue = x :: rest → held = false → s.blockOwned q (x.addr.toNat / 64) = false → starts (t.sprig q i) x rest) ∧
        ∀ since, (s.thr q).run = .idle since → (s.core q).claimed = false → (t.thr q).run = .running)) ∧
    (∃ t, exec (.lanePick q lane) s = .next t ∧ (∀ a, t.ag a = s.ag a) ∧ (∀ j, t.sprig q j = s.sprig q j) ∧ t.thr q = s.thr q ∧
      (t = s ∨ ∃ j, j % 8 = lane ∧ j < n ∧ (s.sprig q j).st = .running ∧ t.sched = .agent ⟨q, .sprig j⟩ :: s.sched) ∧
      (∀ j < n, j % 8 = lane → (s.sprig q j).st = .running → held = false → s.dutyOk q = true → s.coreDead q = false →
        (∀ x ∈ s.parks, x.who ≠ ⟨q, .sprig j⟩) → t ≠ s) ∧
      (held = true ∨ s.dutyOk q = false ∨ s.coreDead q = true → t = s))

/-- R50, R172, R173: `lsend` fills the empty slot of the neighbour at its offset with the register, over a full slot it takes OPERAND, and
towards no sprig it does nothing; `lrecv` takes the register from a full slot of its own and empties it, waits at an empty one, and from
no sprig takes OPERAND. -/
def Obligations.LinksCarryVectorRegisters : Prop :=
  ∀ (s : State) (et : Ty) (v : BitVec 6) (delta : BitVec 6) (i j : Nat),
    let q := s.cur.core
    let off (x : BitVec 6) : Nat := if x.toInt < 0 then (x.toInt + 7).toNat else (x.toInt + 6).toNat
    let there := off (-delta)
    let here := off delta
    let x := Store.get (s.sprig q i).links 0 here
    s.cur.who = .sprig i → v.toNat < (s.core q).arr.r → delta ≠ 0 → -7 ≤ delta.toInt → delta.toInt ≤ 7 →
    ((j : Int) = i + delta.toInt → j < (s.core q).arr.n →
      ((s.sprig q j).full.getLsbD there = false → (s.ag s.cur).sb = [] →
        CompletesAs s (s.setLink q j there (some (s.getV q i v))) (.lsend et v delta) ∧
        let u := (s.setLink q j there (some (s.getV q i v))).sprig q j
        u.full.getLsbD there = true ∧ Store.get u.links 0 there = s.getV q i v ∧
          (∀ k < 14, k ≠ there → u.full.getLsbD k = (s.sprig q j).full.getLsbD k)) ∧
      ((s.sprig q j).full.getLsbD there = true → Raises s (.lsend et v delta) 0x0E 0 (delta.signExtend 64)) ∧
      ((s.sprig q i).full.getLsbD here = true →
        CompletesAs s ((s.setV q i v x).setLink q i here none) (.lrecv et v delta) ∧
        let u := (s.setV q i v x).setLink q i here none
        u.getV q i v = x ∧ (u.sprig q i).full.getLsbD here = false ∧
          ∀ k < 14, k ≠ here → (u.sprig q i).full.getLsbD k = (s.sprig q i).full.getLsbD k) ∧
      ((s.sprig q i).full.getLsbD here = false → (s.ag s.cur).wait = none →
        BeginsWait s (.lrecv et v delta) (delta.signExtend 64) (.link here))) ∧
    ((i : Int) + delta.toInt < 0 ∨ ((s.core q).arr.n : Int) ≤ i + delta.toInt →
      Passes s (.lsend et v delta) ∧ Raises s (.lrecv et v delta) 0x0E 0 (delta.signExtend 64))

/-! ### Tiles -/

/-- R31 to R33, R192 to R194, R203 to R210, R114 to R117: a tile instruction of a core bound to a press with room takes a fresh tile of
the press's pool for the register it writes, which maps to it, and enters the core's tile queue with the values it captures; it waits
while the pool is empty, and takes OPERAND at a core bound to none. A command holds from its start in `s` on what its sources then gave, and, the oldest, retires in `u` with
it: `tzero` zero, the multiplies the accumulation of their products on each element (for b8 the integer sum): R114's groups, truncation
and roundings over the products of R114 and R116, for `tmmas` of the kept values and the logical elements that R117 pairs, META for a mask
of more than 32 bits; `tcvt` the converted elements of R204; `ttrans` the transposed blocks, each under the side-band and flags of the rules; the tile its register had before returns to
the pool, the lending of the accumulators it names has ended (R28), and nothing else of the core changes. That a command reads its
sources when it starts is the model's reading (log 22). -/
def Obligations.TileCommandsQueueAndRetire : Prop :=
  ∀ (s u : State) (q : Nat) (cmd : TileCmd) (rest : List TileCmd) (f : Ty) (sc ua ub sat us : Bool) (r : Rnd) (zd za zb zc : BitVec 3)
    (cd : BitVec 2) (desc : BitVec 16) (b c : BitVec 5) (ren : Option Rename) (v : State) (n : Nat) (more : List Nat) (oldest : Bool),
    let made := s.tileOutcome q cmd oldest
    let ms : List (Instr × Word × Word) := [(.tzero cd, 0, 0), (.tmma f ua ub cd za zb, 0, 0), (.tmmas sc f ua ub cd za zb zc, 0, 0),
      (.tmmax f cd za zb, 0, 0), (.tcvt f r sat us zd cd, 0, 0), (.ttrans f zd za, 0, 0), (.tsync, 0, 0),
      (.tld sc f zd desc b c, s.rg b, s.rg c), (.tldc f cd desc b c, s.rg b, s.rg c), (.tst f za desc b c, s.rg b, s.rg c),
      (.tstc f cd desc b c, s.rg b, s.rg c)]
    let old := s.creg q cd
    let k := rowK f
    let wide := min k 32
    let z := s.zreg q zd
    let own (y : State) : Press := y.press (vatOf q) (y.binding q)
    let mine := s.cur.core
    let press (y : State) : Press := y.press (vatOf mine) (s.binding mine)
    let retires (P : State → BitVec 6 → Prop) : Prop := ∃ t fl, exec (.tileCommandComplete q) u = .next t ∧ P t fl ∧
      (t.core q).til.queue = rest ∧ (∀ j, t.lentSet q j = if j ∈ tileCNames cmd.instr then 0 else u.lentSet q j) ∧
      (t.thr q).fpstat = (u.thr q).fpstat ||| fl ∧
      (t.thr q).retired = (u.thr q).retired + 1 ∧
      { t.thr q with fpstat := (u.thr q).fpstat, retired := (u.thr q).retired, energy := (u.thr q).energy, sat := (u.thr q).sat
                     ag := (u.thr q).ag } = u.thr q ∧
      (∀ p, p ≠ q → t.core p = u.core p) ∧ own t = (match cmd.ren with
        | some x => (own u).free x.isZ x.old
        | none => own u) ∧
      { t with cores := u.cores, vats := u.vats, cur := u.cur } = u
    let toC (op : Nat → Nat → Rounded) (extra : BitVec 6) : Prop := retires fun t fl =>
      (∀ i < 32, ∀ j < 32, cElem (t.creg q cd) i j = (op i j).1 % 2 ^ 64) ∧
      fl = (List.range 1024).foldl (fun x e => x ||| (op (e / 32) (e % 32)).2) extra ∧
      (∀ j, j ≠ cd → t.creg q j = u.creg q j) ∧ ∀ j, t.zreg q j = u.zreg q j
    let zOnly (t : State) : Prop := zSide (t.zreg q zd) = zSide z ∧ (∀ j, j ≠ zd → t.zreg q j = u.zreg q j) ∧
      ∀ j, t.creg q j = u.creg q j
    (s.cur.who = .thread → s.binding mine ≠ 3 → (s.core mine).til.queue.length < 16 →
      (∀ x ∈ ms, s.renameFor mine x.1 = some (ren, v) → ∃ t, exec x.1 s = .next t ∧ t.pcOf s.cur = s.nextPc s.cur ∧
        (∀ a g, t.getG a g = s.getG a g) ∧ PackageKept v t ∧
        (t.core mine).til = { (s.core mine).til with
          queue := (s.core mine).til.queue ++ [⟨s.pcOf s.cur, x.1, x.2.1, x.2.2, (s.thr mine).rm, ren, none, [], []⟩] }) ∧
      (∀ x ∈ ms, s.renameFor mine x.1 = none → (∀ o ∈ (s.core mine).til.queue, o.held = none) → ∃ t, exec x.1 s = .next t ∧
        t.pcOf s.cur = s.pcOf s.cur ∧ (∀ a g, t.getG a g = s.getG a g) ∧
        (t.core mine).til.queue.length = (s.core mine).til.queue.length) ∧
      (∀ x ∈ [Instr.tst f za desc b c, .tstc f cd desc b c, .tsync], s.renameFor mine x = some (none, s)) ∧
      (((press s).zfree = [] → ∀ x ∈ [Instr.tld sc f zd desc b c, .tcvt f r sat us zd cd, .ttrans f zd za], s.renameFor mine x = none) ∧
        ((press s).zfree = n :: more → ∀ x ∈ [Instr.tld sc f zd desc b c, .tcvt f r sat us zd cd, .ttrans f zd za], ∃ y old,
          s.renameFor mine x = some (some ⟨true, zd.toNat, n, old⟩, y) ∧ (press y).zfree = more ∧
          (s.tileMap mine)[zd.toNat]? = some old ∧ y.tileMap mine = (s.tileMap mine).set zd.toNat n ∧ { y with vats := s.vats } = s)) ∧
      (((press s).cfree = [] → ∀ x ∈ [Instr.tldc f cd desc b c, .tzero cd, .tmma f ua ub cd za zb, .tmmax f cd za zb,
          .tmmas sc f ua ub cd za zb zc], s.renameFor mine x = none) ∧
        ((press s).cfree = n :: more → ∀ x ∈ [Instr.tldc f cd desc b c, .tzero cd, .tmma f ua ub cd za zb, .tmmax f cd za zb,
          .tmmas sc f ua ub cd za zb zc], ∃ y old,
          s.renameFor mine x = some (some ⟨false, cd.toNat, n, old⟩, y) ∧ (press y).cfree = more ∧
          (s.tileMap mine)[8 + cd.toNat]? = some old ∧ y.tileMap mine = (s.tileMap mine).set (8 + cd.toNat) n ∧
          { y with vats := s.vats } = s))) ∧
    (s.cur.who = .thread → s.binding s.cur.core = 3 → (s.core s.cur.core).til.queue = [] →
      (s.priv s.cur.core).status.nest = false → ∀ x ∈ ms, Traps s x.1 0x0E 0 0) ∧
    ((u.core q).til.queue = { cmd with held := some made.2.1, reads := made.2.2 } :: rest →
      (cmd.instr = .tzero cd → toC (fun _ _ => (0, 0)) 0) ∧
      (cmd.instr = .tmma f ua ub cd za zb → toC (fun i j =>
        accElem f (groupSize f) ua ub (cElem old i j) (denseFactors f false (s.zreg q za) (s.zreg q zb) i j)) 0) ∧
      (cmd.instr = .tmma .b8 ua ub cd za zb → toC (fun i j =>
        let at_ (w : Bool) (x : BitVec 34816) (row k : Nat) : Int := if w then zElem x .b8 row k
          else (BitVec.ofNat 8 (zElem x .b8 row k)).toInt
        let sum := ((List.range 128).map fun k => at_ ua (s.zreg q za) i k * at_ ub (s.zreg q zb) j k).sum
        ((((cElem old i j : Int) + sum) % 2 ^ 64).toNat, 0)) 0) ∧
      (cmd.instr = .tmmax f cd za zb → toC (fun i j =>
        accElem f (groupSize f) false false (cElem old i j) (denseFactors f true (s.zreg q za) (s.zreg q zb) i j)) 0) ∧
      (cmd.instr = .tmmas sc f ua ub cd za zb zc → toC (fun i j =>
        accElem f (2 * groupSize f) ua ub (cElem old i j)
          (sparseFactors f sc (s.zreg q za) (s.zreg q zb) (s.zreg q (zb + 1)) (s.zreg q zc) i j))
        (if metaRaised f (s.zreg q zc) then 0x20 else 0)) ∧
      (cmd.instr = .tcvt f r sat us zd cd →
        let op (i j : Nat) : Rounded := tcvtElem f (if r = .dyn then modeOfRm cmd.rm else r) sat us (cElem old i j)
        retires fun t fl => zOnly t ∧
          (∀ i < 32, (∀ j < wide, zElem (t.zreg q zd) f i j = (op i j).1 % 2 ^ memBits f) ∧
            ∀ j, wide ≤ j → j < k → zElem (t.zreg q zd) f i j = zElem z f i j) ∧
          fl = (List.range 32).foldl (fun x i => (List.range wide).foldl (fun x j => x ||| (op i j).2) x) 0) ∧
      (cmd.instr = .ttrans f zd za → retires fun t fl => fl = 0 ∧ zOnly t ∧ ∀ i < 32, ∀ j < k,
        zElem (t.zreg q zd) f i j = zElem (s.zreg q za) f (i / wide * wide + j % wide) (j / wide * wide + i % wide)) ∧
      (cmd.instr = .tsync → (u.thr q).ag.sb = [] → retires fun t fl => fl = 0 ∧ (∀ j, t.zreg q j = u.zreg q j) ∧
        ∀ j, t.creg q j = u.creg q j)) ∧
    (∀ (i j acc : Nat) (za zb zb' zc : BitVec 34816) (mx : Bool) (mode : Rnd), i < 32 → j < 32 → acc < 2 ^ 64 →
      let dense := [Ty.f64, .e8m10, .f16, .bf16, .e4m3, .e5m2, .e3m2, .e2m3, .e2m1]
      let g := if f = .f64 then 1 else if f = .e8m10 then 4 else if f = .f16 ∨ f = .bf16 then 16 else 32
      let scales (z z' : BitVec 34816) (m n : Nat) : Option (Nat × Nat) := if mx then some (zScale z i m, zScale z' j n) else none
      let bit (h n : Nat) : Bool := (zRow zc i).testBit (64 * h + n)
      let rank (h n : Nat) : Nat := (List.range n).countP fun x => bit h x
      let kept (l : Nat) : Option Nat := let h := l / 64
        if bit h (l % 64) = true ∧ rank h (l % 64) < 32 then some (32 * h + rank h (l % 64)) else none
      let zbOf (l : Nat) : BitVec 34816 := if l < k then zb else zb'
      let terms := (List.range k).map fun l => product f (zElem za f i l) (zElem zb f j l) (scales za zb (l / 32) (l / 32))
      let sparse := (List.range (2 * k)).map fun l => match kept l with
        | some n => product f (zElem za f i n) (zElem (zbOf l) f j (l % k)) (scales za (zbOf l) (l / 64) (l % k / 32))
        | none => (.fin false 0, 0)
      let int (unsigned : Bool) (x : Nat) : Int := if unsigned then x else (BitVec.ofNat 8 x).toInt
      let sum := ((List.range (2 * k)).map fun l => match kept l with
        | some n => int ua (zElem za f i n) * int ub (zElem (zbOf l) f j (l % k))
        | none => 0).sum
      let cvt := tcvtElem f mode sat us acc
      let v : Int := (BitVec.ofNat 64 acc).toInt
      (f ∈ dense → Accumulates g acc terms (accElem f (groupSize f) ua ub acc (denseFactors f mx za zb i j))) ∧
      (f ∈ dense → f ≠ .f64 → Accumulates (2 * g) acc sparse (accElem f (2 * groupSize f) ua ub acc (sparseFactors f mx za zb zb' zc i j))) ∧
      (f = .b8 → accElem f (2 * groupSize f) ua ub acc (sparseFactors f mx za zb zb' zc i j) = (((acc + sum) % 2 ^ 64).toNat, 0)) ∧
      (metaRaised f zc = true ↔ ∃ i < 32, ∃ h < k / 32, 32 < (List.range 64).countP fun n => (zRow zc i).testBit (64 * h + n)) ∧
      (f ∈ dense → cvt = cvtElem f .f64 mode sat false acc) ∧ (f = .b64 → cvt = (acc, 0)) ∧
      (f = .b8 → cvt = (((if sat then if us then max 0 (min 255 v) else max (-128) (min 127 v) else v) % 256).toNat, 0)))

/-- R195 to R202, R210: a tile load that made its accesses in `s` and is the oldest retires in `u`, where no line that it read has changed,
with the elements of the box in memory, as the thread saw them then (R101: bits [12:0] of e8m10 as zeros), where they lie in bounds, and
zeros elsewhere, under its side-band,
which a scaled load fills with the scale bytes and 0x7F; where a line has changed it is performed again. One on an uncacheable or pool
page waits until it is the oldest. A tile store puts every element in bounds into the store buffer and changes no byte of memory. A
descriptor that fails a check of R196 takes DESC with its index, and an access that fails a check of R199, the first in the order of the
rule, that check's cause with the lowest failing address, at the command's own PC, and the younger commands are squashed. That memory is
read when the command starts, where the rules let it be read at any time before it retires, is the model's reading (log 22). -/
def Obligations.TileLoadsAndStoresThroughDescriptors : Prop :=
  ∀ (s u : State) (q : Nat) (cmd : TileCmd) (rest : List TileCmd) (f : Ty) (sc : Bool) (zd : BitVec 3) (cd : BitVec 2)
    (desc : BitVec 16) (b c : BitVec 5) (d : BitVec 512) (x : Word → Xl) (oldest wr tile : Bool) (before after : List (Word × Nat))
    (at_ : Word) (n j : Nat),
    let a : AgentId := ⟨q, .thread⟩
    let made := s.tileOutcome q cmd oldest
    let entry : TileCmd := { cmd with held := some made.2.1, reads := made.2.2 }
    let same (y : State) : Prop := ∀ r ∈ made.2.2, BitVec.ofNat 512 (y.rdN (64 * r.line) 64) = r.data
    let o : Corner := ⟨bits cmd.rb 31 0, bits cmd.rb 63 32, bits cmd.rc 31 0, bits cmd.rc 63 32⟩
    let row (i : Nat) : Nat := (descBase d + (o.x1 + i) * descStr d 1 + o.x2 * descStr d 2 + o.x3 * descStr d 3) % 2 ^ 64
    let within (i k : Nat) : Bool := o.x0 + k < descExt d 0 && o.x1 + i < descExt d 1 && o.x2 < descExt d 2 && o.x3 < descExt d 3
    let readAt (p : Word × Nat × Nat) (w : Nat) : Nat :=
      leNat ((List.range p.2.1).map fun j => s.seen a (x (p.1 + BitVec.ofNat 64 j)).loc) / 2 ^ p.2.2 % 2 ^ w
    let own (v : Nat) : Nat := if f = .e8m10 then v - v % 2 ^ 13 else v
    let element (sc : Bool) (i k : Nat) : Nat :=
      if within i k then own (readAt (elemPlace f sc (row i) (o.x0 + k)) (memBits f)) else 0
    let reach (rt : Right) (es : List (Word × Nat)) : Prop := s.checkAll (s.accOf a) rt es = .ok () ∧
      ∀ e ∈ es, ∀ j < e.2, s.access (s.accOf a) rt (e.1 + BitVec.ofNat 64 j) = .ok (x (e.1 + BitVec.ofNat 64 j)) ∧
        isDevice (x (e.1 + BitVec.ofNat 64 j)).loc = false
    let held (es : List (Word × Nat)) : Prop := ∃ e ∈ es, (x e.1).uc = true ∨ isPool (x e.1).loc = true
    let ready (es : List (Word × Nat)) : Prop := reach .r es ∧ ∀ e ∈ es, ∀ j < e.2, let y := x (e.1 + BitVec.ofNat 64 j)
      s.ucBehind a y = false ∧ (oldest = true ∨ y.uc = false ∧ isPool y.loc = false)
    let notes (es : List (Word × Nat)) : Prop := ∀ e ∈ es, ∀ j < e.2, let l := (x (e.1 + BitVec.ofNat 64 j)).loc / 64
      (∀ e ∈ es, ∀ j < e.2, let y := x (e.1 + BitVec.ofNat 64 j); y.uc = false ∧ isPool y.loc = false) →
        ∃ r ∈ made.2.2, r.line = l ∧ r.data = BitVec.ofNat 512 (s.rdN (64 * l) 64)
    let again := let r := ({ u with cur := a } : State).tileOutcome q entry true
      ∃ t, exec (.tileCommandComplete q) u = .next t ∧ (t.core q).til.queue = entry.begin r.2.1 r.2.2 (r.1.tileChecked q r.2.1 r.2.2) :: rest
    let traps (code : Nat) (val : Word) : Prop := (u.priv q).status.nest = false → ∃ t, exec (.tileCommandComplete q) u = .next t ∧
      TrapTaken (u.modCore q fun k => { k with til := { k.til with queue := [], checkpoints := [] } }) t q code 0 false cmd.pc val
    let retires (P : State → Prop) : Prop := ∃ t, exec (.tileCommandComplete q) u = .next t ∧ P t ∧ (t.core q).til.queue = rest ∧
      (t.thr q).retired = (u.thr q).retired + 1 ∧ (∀ g, t.getG a g = u.getG a g) ∧
      { t with cores := u.cores, vats := u.vats, cur := u.cur } = u
    let loads (es : List (Word × Nat)) (P : State → Prop) : Prop :=
      (ready es → notes es ∧ (same u → retires P) ∧ (¬same u → again)) ∧
      (reach .r es → held es → oldest = false → made = (s, .waiting none, []))
    let stores (n : Nat) (el : Nat → Nat → Nat) : Prop :=
      let ws := tileStores d o f n el
      let locs := ws.flatMap fun w => (List.range w.2.length).map fun j => (x (w.1 + BitVec.ofNat 64 j)).loc
      reach .w (tileAccesses d o f false n) →
      (∀ w ∈ ws, ∀ j < w.2.length, s.access (s.accOf a) .w (w.1 + BitVec.ofNat 64 j) = .ok (x (w.1 + BitVec.ofNat 64 j)) ∧
        isDevice (x (w.1 + BitVec.ofNat 64 j)).loc = false) → locs.Nodup →
      retires fun t => (∀ w ∈ ws, ∀ j < w.2.length, t.seen a (x (w.1 + BitVec.ofNat 64 j)).loc = w.2.getD j 0) ∧
        (∀ l ∉ locs, t.seen a l = u.seen a l) ∧ (∀ j, t.zreg q j = u.zreg q j) ∧ ∀ j, t.creg q j = u.creg q j
    (u.core q).til.queue = entry :: rest →
    (cmd.instr = .tld sc f zd desc b c → s.tileDesc q desc.toNat true false sc f o.x0 = .ok d →
      loads (tileAccesses d o f sc (rowK f)) (fun t => (∀ i < 32, ∀ k < rowK f, zElem (t.zreg q zd) f i k = element sc i k) ∧
        (sc = false → zSide (t.zreg q zd) = zSide (s.zreg q zd)) ∧
        (sc = true → ∀ i < 32, ∀ m < rowK f / 32, zScale (t.zreg q zd) i m =
          if within i (32 * m) then readAt (scalePlace f (row i) (o.x0 / 32 + m), 1, 0) 8 else 0x7F) ∧
        (∀ j, j ≠ zd → t.zreg q j = u.zreg q j) ∧ ∀ j, t.creg q j = u.creg q j)) ∧
    (cmd.instr = .tldc f cd desc b c → s.tileDesc q desc.toNat false false false f o.x0 = .ok d →
      loads (tileAccesses d o f false 32) (fun t => (∀ i < 32, ∀ j < 32, cElem (t.creg q cd) i j = element false i j) ∧
        (∀ j, j ≠ cd → t.creg q j = u.creg q j) ∧ ∀ j, t.zreg q j = u.zreg q j)) ∧
    (cmd.instr = .tst f zd desc b c → s.tileDesc q desc.toNat true true false f o.x0 = .ok d →
      stores (rowK f) (zElem (s.zreg q zd) f)) ∧
    (cmd.instr = .tstc f cd desc b c → s.tileDesc q desc.toNat false true false f o.x0 = .ok d → stores 32 (cElem (s.creg q cd))) ∧
    (let form := [(Instr.tld sc f zd desc b c, true, false), (.tldc f cd desc b c, false, false), (.tst f zd desc b c, true, true),
        (.tstc f cd desc b c, false, true)]
      let scaled := sc && tile && !wr
      let unit := if scaled then 32 else if f = .e3m2 ∨ f = .e2m3 then 4 else if f = .e2m1 then 2 else 1
      let accepts (e : Nat) : Prop := if !tile then e = 3 ∨ e = 7 else if f = .b8 then e = 0 ∨ e = 8 ∨ e = 9 ∨ e = 14
        else if f = .b64 then e = 3 ∨ e = 7 else e = f.code.toNat
      let n_ := if tile then rowK f else 32
      let rt : Right := if wr then .w else .r
      let byte := at_ + BitVec.ofNat 64 j
      let first (P : Word → Prop) : Prop := P byte ∧ ∀ k < n, P (at_ + BitVec.ofNat 64 k) → byte.toNat ≤ (at_ + BitVec.ofNat 64 k).toNat
      let each (P : Word → Prop) : Prop := ∀ k < n, P (at_ + BitVec.ofNat 64 k)
      let finds (P : Xl → Prop) (w : Word) : Prop := P (x w)
      let right (w : Word) : Prop := s.allowed (s.accOf a) rt w = .ok true
      let found (w : Word) : Prop := s.access (s.accOf a) rt w = .ok (x w)
      (cmd.instr, tile, wr) ∈ form →
      ((bit (s.part (s.partOf q)).descbase 0 = false → traps 0x0C (desc.setWidth 64)) ∧
        (s.descEntry a desc.toNat = .ok d → descDom d ≠ (s.priv q).domain.toNat ∨ (if wr then descWr d else descRd d) = false ∨
          ¬accepts (descEtype d) ∨ descScaled d ≠ scaled ∨ o.x0 % unit ≠ 0 ∨ descExt d 0 % unit ≠ 0 → traps 0x0C (desc.setWidth 64))) ∧
      (s.tileDesc q desc.toNat tile wr scaled f o.x0 = .ok d → tileAccesses d o f scaled n_ = before ++ (at_, n) :: after →
        s.checkAll (s.accOf a) rt before = .ok () → j < n →
        (first (fun w => canonical w = false) → traps 0x05 byte) ∧
        (each (fun w => canonical w = true) →
          ((∀ k < n, ∃ y, s.allowed (s.accOf a) rt (at_ + BitVec.ofNat 64 k) = .ok y) →
            first (fun w => s.allowed (s.accOf a) rt w = .ok false) → traps 0x04 byte) ∧
          (each right → each found →
            (first (finds fun y => y.crf ≠ 0) → traps 0x0E byte) ∧
            (each (finds fun y => y.crf = 0) →
              (first (finds fun y => s.poolLost y.loc = true) → traps 0x06 byte) ∧
              (each (finds fun y => s.poolLost y.loc = false ∧ s.blocked a (y.loc / 64) = false) → wr = false →
                first (finds fun y => s.ueSeen a y 1 = true) → traps 0x07 byte))))))

/-- R357, R358, R145, R202, R269: a press with a command that may start starts one, of a core of positive weight before one of weight 0,
and none when none may start; a line of the oldest tile store, or a buffered write that may pass those before it, reaches memory byte
by byte and leaves its buffer, and one that may not stays. -/
def Obligations.StreamsAndBuffersDrain : Prop :=
  (∀ (bound : List Nat) (ready : Nat → Bool) (w cost : Nat → Nat) (x : Press),
    bound.Pairwise (· < ·) → bound.length ≤ 4 → (∀ c, cost c ≤ 16) →
    ((∃ c ∈ bound, 0 < w c ∧ ready c = true) →
      ∃ c, (pressPick bound ready w cost x).1 = some c ∧ c ∈ bound ∧ 0 < w c ∧ ready c = true) ∧
    ((∀ c ∈ bound, ready c = true → w c = 0) → (∃ c ∈ bound, ready c = true) →
      ∃ c, (pressPick bound ready w cost x).1 = some c ∧ c ∈ bound ∧ ready c = true) ∧
    ((∀ c ∈ bound, ready c = false) → pressPick bound ready w cost x = (none, x))) ∧
  (∀ (s : State) (v p c : Nat) (cmd : TileCmd),
    let q := 4 * v + c
    let oldest := (splitQueue (s.core q).til.queue).1 == []
    s.boundTo v p = [c] →
    (s.eligible q = true → 0 < s.weight v c → (splitQueue (s.core q).til.queue).2 = some cmd →
      tileLoadsMem cmd.instr = false → tileStoresMem cmd.instr = false →
      ∃ t, exec (.pressPick v p) s = .next t ∧
        (t.core q).til.queue = startFirst (s.tileOutcome q cmd oldest).2.1 [] [] (s.core q).til.queue ∧ (∀ j, t.lentSet q j = s.lentSet q j) ∧
        (∀ j, t.zreg q j = s.zreg q j) ∧ (∀ j, t.creg q j = s.creg q j) ∧ (∀ p, p ≠ q → t.core p = s.core p) ∧
        { t with cores := s.cores, vats := s.vats } = s) ∧
    (s.eligible q = true → 0 < s.weight v c → (splitQueue (s.core q).til.queue).2 = some cmd →
      ∃ t, ∃ u : State, exec (.pressPick v p) s = .next t ∧
        (let r := u.tileOutcome q cmd oldest
         (t.core q).til.queue = startFirst r.2.1 r.2.2 (r.1.tileChecked q r.2.1 r.2.2) (r.1.core q).til.queue) ∧
        (u.core q).til.queue = (s.core q).til.queue ∧ u.thr q = s.thr q ∧ u.priv q = s.priv q ∧
        (∀ j, u.zreg q j = s.zreg q j) ∧ (∀ j, u.creg q j = s.creg q j) ∧ (∀ p, p ≠ q → u.core p = s.core p) ∧
        { u with cores := s.cores, vats := s.vats } = s) ∧
    (s.eligible q = false → ∃ t, exec (.pressPick v p) s = .next t ∧ (t.core q).til = (s.core q).til ∧
      { t with cores := s.cores, vats := s.vats } = s)) ∧
  ∀ (s : State) (a : AgentId) (e : SbEntry) (w : LineW) (rest : List SbEntry) (n line : Nat),
    let taken (l : Nat) : Bool := !s.cutOff l && !s.poolLost l
    let writes (i : Instr) (cells : List Host.Cell) (sb : List SbEntry) : Prop := (cells.map fun c => c.1).Nodup →
      ∃ t, exec i s = .next t ∧ (t.ag a).sb = sb ∧ (∀ c ∈ cells, t.rd1 c.1 = c.2) ∧
        ∀ l, (∀ c ∈ cells, c.1 ≠ l) → t.rd1 l = s.rd1 l
    (a.who = .thread → (s.ag a).sb = e :: rest → e.tile = true → e.lines.find? (fun x => x.isLine line) = some w →
      storeLineTurn e.lines w = true → s.lineFree a w = true → (w.cells.all fun c => taken c.1) = true →
      let left := e.lines.filter fun x => !x.isLine line
      writes (.tileStoreLineWrite a.core line) w.cells (if left = [] then rest else { e with lines := left } :: rest)) ∧
    ((s.ag a).sb.drop n = e :: rest →
      (mayPass ((s.ag a).sb.take n) (s.ag a).fwd e = true → (∀ x ∈ e.lines, s.lineFree a x = true ∧ ∀ c ∈ x.cells, taken c.1 = true) →
        writes (.storeBufferWrite a n) (e.lines.flatMap fun x => x.cells) ((s.ag a).sb.take n ++ rest)) ∧
      (mayPass ((s.ag a).sb.take n) (s.ag a).fwd e = false → exec (.storeBufferWrite a n) s = .next s))

/-! ### Copy engine -/

/-- R11, R234 to R236, R239 to R243: a copy instruction of an agent whose stores are performed, with room in the queue, enters a command
with its operands, ready at once, or when its semaphore grants it, or waiting in the semaphore's queue; with a full queue it executes
again. Lengths, alignments, ranges and overlaps that the rules refuse take OPERAND, and a completion word whose address they refuse XLATE
or ALIGN. That the overlap test takes a range that passes 2^64 without the wrap is the model's choice (log 34). -/
def Obligations.CopyCommandsEnterTheQueue : Prop :=
  ∀ (s : State) (o : CopyOp) (out : Bool) (desc lines : BitVec 16) (d : BitVec 512) (x : Xl),
    let q := s.cur.core
    let b := s.rg o.b
    let c := s.rg o.c
    let l := s.rg o.l
    let v := vatOf q
    let y := s.sem v o.wsem.toNat
    let lim := (s.thr q).waitlim.toNat
    let enters (i : Instr) (kind : CopyKind) (dst src : Word) (len : Nat) (cword : Word) : Prop := ∃ m : CopyCmd,
      m.id = (s.core q).cpy.next ∧ m.kind = kind ∧ m.dst = dst ∧ m.src = src ∧ m.len = len ∧ m.cword = cword ∧ m.scope = o.scope ∧
      m.ssem = o.ssem ∧ m.sinc = o.sinc ∧ m.domain = (s.priv q).domain ∧ m.moved = [] ∧ m.since = s.time ∧
      m.bound = (if lim = 0 then 1000000 else lim) ∧
      (s.cur.who = .thread → m.sprig = none ∧ m.level = (s.priv q).status.pl) ∧
      (∀ k, s.cur.who = .sprig k → m.sprig = some k ∧ m.level = .user) ∧
      let add (u : State) : State := u.modCore q fun k => { k with
        cpy := { k.cpy with cmds := k.cpy.cmds ++ [m], next := k.cpy.next + 1 } }
      if o.wthr = 0 then m.stage = .ready ∧ CompletesAs s (add s) i
      else if y.queue = [] ∧ o.wthr.toNat ≤ y.count.toNat then
        m.stage = .ready ∧
          CompletesAs s (add (s.setSem v o.wsem.toNat { y with count := y.count - o.wthr.setWidth 32, ovf := false })) i
      else m.stage = .waiting ∧ CompletesAs s
        (add (s.setSem v o.wsem.toNat { y with queue := y.queue ++ [(.engine q m.id, o.wthr.setWidth 32)] })) i
    let meets (n : Nat) : Prop := b.toNat < c.toNat + n ∧ c.toNat < b.toNat + n ∧ 0 < n
    let rows := bits l 63 32
    let cols := bits l 31 0
    let refused (i : Instr) (w : Word) : Prop := Raises s i 0x0E 0 w
    (∀ i ∈ [Instr.bcopy o, .bcopyt out desc o, .bfill o, .bloadb o, .bcopyc lines o],
      16 ≤ (s.core q).cpy.cmds.length → exec i s = .next s) ∧
    ((s.core q).cpy.cmds.length < 16 → (s.ag s.cur).sb = [] →
      (l.toNat ≤ 2 ^ 40 → ¬meets l.toNat → enters (.bcopy o) .copy b c l.toNat 0) ∧
      (l.toNat ≤ 2 ^ 40 → meets l.toNat → refused (.bcopy o) b) ∧
      (2 ^ 40 < l.toNat → refused (.bcopy o) l ∧ refused (.bfill o) l ∧ refused (.bloadb o) l) ∧
      (l.toNat ≤ 2 ^ 40 → enters (.bfill o) (.fill c) b 0 l.toNat 0) ∧
      (l.toNat ≤ 2 ^ 40 →
        (b.toNat % 64 = 0 → l.toNat % 64 = 0 → b.toNat + l.toNat ≤ 0x10000 → c.toNat % 64 = 0 →
          enters (.bloadb o) .block b c l.toNat 0) ∧
        (b.toNat % 64 ≠ 0 → refused (.bloadb o) b) ∧ (b.toNat % 64 = 0 → l.toNat % 64 ≠ 0 → refused (.bloadb o) l) ∧
        (b.toNat % 64 = 0 → l.toNat % 64 = 0 →
          (0x10000 < b.toNat + l.toNat → refused (.bloadb o) b) ∧
          (b.toNat + l.toNat ≤ 0x10000 → c.toNat % 64 ≠ 0 → refused (.bloadb o) c))) ∧
      (s.copyDesc s.cur desc.toNat out = .ok d → rows * cols * etypeBytes (descEtype d) ≤ 2 ^ 40 →
        enters (.bcopyt out desc o) (.tensor out d (bits c 31 0) (bits c 63 32) rows cols) b b (rows * cols * etypeBytes (descEtype d)) 0) ∧
      (s.copyDesc s.cur desc.toNat out = .ok d → 2 ^ 40 < rows * cols * etypeBytes (descEtype d) → refused (.bcopyt out desc o) l) ∧
      (s.descEntry s.cur desc.toNat = .ok d → descDom d ≠ (s.priv q).domain.toNat →
        Raises s (.bcopyt out desc o) 0x0C 0 (desc.setWidth 64)) ∧
      (b.toNat % 64 = 0 → c.toNat % 64 = 0 → ¬meets (64 * lines.toNat) → canonical l = true → l.toNat % 8 = 0 →
        s.access (s.accOf s.cur) .w l = .ok x → enters (.bcopyc lines o) .lines b c (64 * lines.toNat) l) ∧
      (b.toNat % 64 ≠ 0 → refused (.bcopyc lines o) b) ∧ (b.toNat % 64 = 0 → c.toNat % 64 ≠ 0 → refused (.bcopyc lines o) c) ∧
      (b.toNat % 64 = 0 → c.toNat % 64 = 0 →
        (meets (64 * lines.toNat) → refused (.bcopyc lines o) b) ∧
        (¬meets (64 * lines.toNat) → canonical l = false → Raises s (.bcopyc lines o) 0x05 0 l) ∧
        (¬meets (64 * lines.toNat) → canonical l = true → l.toNat % 8 ≠ 0 → Raises s (.bcopyc lines o) 0x03 0 l)))

/-- R236 to R238, R244, R255, R359: the oldest ready command that no overlap delays starts, with four at most that have started
and are not complete; the started commands take turns
in the order of their starts, one line a turn, among those of which a line can move; a line whose checks pass is moved in its turn, its
destination bytes getting the values of their sources and no other byte changing, and out of turn none moves; a command whose lines are all moved completes, with
its signal and, for `bcopyc`, the completion word, which at pool scope is released before the signal (R283; the model's two steps, log
27); one that fails, with no byte below the least offset F of its failing lines left to
move, is reported with F, the side and the cause, the source side first at one offset; a wait at its bound ends with code 0x8B. -/
def Obligations.CopyEngineMovesAndCompletes : Prop :=
  ∀ (s : State) (q id line : Nat) (m : CopyCmd) (x : Xl) (xs : Word → Xl) (f : CopyFail) (y : Sem) (k : BitVec 32),
    let cpy := (s.core q).cpy
    let v := vatOf q
    let rest := cpy.cmds.filter fun o => o.id ≠ id
    let who : Nat := match m.sprig with
      | some n => 2 ^ 54 + n * 2 ^ 48
      | none => 0
    let bs := m.bytesOf line
    let value (b : CopyByte) : Byte := match b.src with
      | .const w => w
      | .addr a => s.rd1 (xs a).loc
    let moves (t : State) : Prop := exec (.copyLineMove q id line) s = .next t ∧
      t.cmd? q id = some { m with moved := line :: m.moved, release := m.release.filter fun w => w.lost.isSome } ∧
      (t.core q).cpy.last = m.order
    let whole := s.unreachable = [] ∧ s.ue = [] ∧ ∀ r, (s.region r).st ≠ .lost
    let word := 2 ^ 56 + who + m.len % 2 ^ 48
    let writable := (∀ n, m.sprig = some n → n < 64) ∧ whole ∧ s.access (m.acc q) .w m.cword = .ok x ∧ x.crf = 0 ∧
      s.poolLost x.loc = false ∧ s.blocked (engineId q) (x.loc / 64) = false ∧ isDevice x.loc = false
    let signalled := let z := s.sem v m.ssem.toNat
      { z with count := BitVec.ofNat 32 (min (z.count.toNat + m.sinc.toNat) 0xFFFFFFFF)
               ovf := z.ovf || decide (0xFFFFFFFF < z.count.toNat + m.sinc.toNat) }
    let mover (o : CopyCmd) : Prop := o ∈ cpy.cmds ∧ ∃ l ∈ o.unmoved, s.movable q o l = true
    let simple := m.scope ≠ .pool ∧ m.kind ≠ .lines ∧ m.sinc = 0 ∧ ∀ n, m.sprig = some n → n < 64
    let running := cpy.cmds.filter fun o => match o.stage with
      | .started | .signal _ => true
      | .waiting | .ready | .lapsed => false
    (4 ≤ running.length → exec (.copyStart q) s = .next s) ∧
    (running.length < 4 → cpy.cmds.find? (fun o => o.stage = .ready && !s.startDelayed q o) = some m →
      ∃ n, (∀ o ∈ cpy.cmds, o.order < n) ∧ exec (.copyStart q) s = .next (s.modCore q fun c => { c with
        cpy := { c.cpy with cmds := c.cpy.cmds.map fun o => if o.id = m.id then { o with stage := .started, order := n, locs := s.destLocs q m }
          else o } })) ∧
    (∀ n, s.nextMover q = some n → (∃ o, mover o ∧ o.order = n) ∧
      ∀ o, mover o → (cpy.last < o.order → cpy.last < n ∧ n ≤ o.order) ∧ (o.order ≤ cpy.last → n ≤ o.order ∨ cpy.last < n)) ∧
    (s.cmd? q id = some m → s.nextMover q ≠ some m.order ∨ s.movable q m line = false → exec (.copyLineMove q id line) s = .next s) ∧
    (s.cmd? q id = some m → m.stage = .started → line ∈ m.destLines → line ∉ m.moved → s.copyCheck q m line = .ok →
      s.lineTurn q m line = true → s.nextMover q = some m.order → whole →
      (bs.map fun b => b.dst % 64).Nodup →
      (∀ b ∈ bs, ∀ a, b.src = .addr a → s.copyAccess (m.acc q) .r a.toNat 1 = .ok (xs a) ∧ isDevice (xs a).loc = false) →
      (m.kind = .block → ∃ t, moves t ∧ Store.get (t.core q).arr.blk 0 line = BitVec.ofNat 512 (leNat (bs.map value)) ∧
        (∀ j, j ≠ line → Store.get (t.core q).arr.blk 0 j = Store.get (s.core q).arr.blk 0 j) ∧ ∀ l, t.rd1 l = s.rd1 l) ∧
      (m.kind ≠ .block → (∀ b ∈ bs.head?, s.copyAccess (m.acc q) .w (b.dst % 2 ^ 64) 1 = .ok x) → isDevice x.loc = false →
        ∃ t, moves t ∧ (∀ b ∈ bs, t.rd1 (x.loc / 64 * 64 + b.dst % 64) = value b) ∧
          ∀ l, (∀ b ∈ bs, l ≠ x.loc / 64 * 64 + b.dst % 64) → t.rd1 l = s.rd1 l)) ∧
    (s.cmd? q id = some m → m.stage = .started → (∀ l ∈ m.destLines, l ∈ m.moved) → m.scope ≠ .pool →
      (m.kind ≠ .lines →
        (m.sinc = 0 → exec (.copyComplete q id) s = .next (s.modCore q fun c => { c with cpy := { c.cpy with cmds := rest } })) ∧
        (m.sinc ≠ 0 → (s.sem v m.ssem.toNat).queue = [] → ∃ t, exec (.copyComplete q id) s = .next t ∧
          (t.core q).cpy = { cpy with cmds := rest } ∧ (∀ l, t.rd1 l = s.rd1 l) ∧ t.sem v m.ssem.toNat = signalled)) ∧
      (m.kind = .lines → m.sinc = 0 ∨ (s.sem v m.ssem.toNat).queue = [] → writable → ∃ t, exec (.copyComplete q id) s = .next t ∧
        Stored s t x.loc 8 word ∧ (t.core q).cpy = { cpy with cmds := rest } ∧ t.sem v m.ssem.toNat = signalled)) ∧
    (s.cmd? q id = some m → m.scope = .pool →
      let p := s.partOf q
      (∀ off, m.stage = .signal off ∨ m.stage = .started ∧ (∀ l ∈ m.destLines, l ∈ m.moved) →
        (m.release = none → s.poolFlights p ≠ [] → ∃ t, exec (.copyComplete q id) s = .next t ∧
          t.cmd? q id = some { m with release := some ⟨s.poolFlights p, none, false⟩ } ∧ ∀ l, t.rd1 l = s.rd1 l) ∧
        (m.release = none → s.poolFlights p = [] → (s.cleanPool p).poolFlights p ≠ [] → ∃ t, exec (.copyComplete q id) s = .next t ∧
          (∀ e ∈ t.behind, s.poolOf p e.1 = false) ∧
          t.cmd? q id = some { m with release := some ⟨t.poolFlights p, none, true⟩ } ∧ ∀ l, t.rd1 l = s.rd1 l) ∧
        (∀ w, m.release = some w → w.lost = none → (∃ n ∈ w.waits, n ∈ s.poolFlights p) →
          ∃ t, exec (.copyComplete q id) s = .next t ∧ t.cmd? q id = some m ∧ t.sem v = s.sem v ∧ ∀ l, t.rd1 l = s.rd1 l)) ∧
      (∀ ws, m.release = some ⟨ws, none, true⟩ → (∀ n ∈ ws, n ∉ s.poolFlights p) →
        (m.stage = .started → (∀ l ∈ m.destLines, l ∈ m.moved) → m.kind = .lines → m.sinc ≠ 0 → writable →
          ∃ t, exec (.copyComplete q id) s = .next t ∧ Stored s t x.loc 8 word ∧
            t.cmd? q id = some { m with stage := .signal m.len, release := none } ∧ ∀ n, t.sem v n = s.sem v n) ∧
        (∀ off, m.stage = .signal off → m.sinc ≠ 0 → (s.sem v m.ssem.toNat).queue = [] → ∃ t, exec (.copyComplete q id) s = .next t ∧
          (t.core q).cpy = { cpy with cmds := rest } ∧ t.sem v m.ssem.toNat = signalled ∧ ∀ l, t.rd1 l = s.rd1 l))) ∧
    (s.copyFailure q m = some f →
      f ∈ s.copyFails q m ∧ ∀ g ∈ s.copyFails q m, f.off ≤ g.off ∧ (g.off = f.off → g.src = true → f.src = true)) ∧
    (s.cmd? q id = some m → m.stage = .started → simple → m.unmoved ≠ [] → s.copyFailure q m = some f → f.code < 128 →
      (∀ l ∈ m.unmoved, ∀ b ∈ m.bytesOf l, f.off ≤ b.off) →
      ∃ t, exec (.copyComplete q id) s = .next t ∧ (t.core q).cpy.cmds = rest ∧ (∀ l, t.rd1 l = s.rd1 l) ∧
        (cpy.reports.length < 16 → (t.core q).cpy.reports = cpy.reports ++
          [BitVec.ofNat 64 ((0x80 + f.code) * 2 ^ 56 + (if f.src then 2 ^ 55 else 0) + who + f.off % 2 ^ 48)]) ∧
        (16 ≤ cpy.reports.length → (t.core q).cpy.reports = cpy.reports ∧ (t.priv q).status.ceovf = true)) ∧
    (s.cmd? q id = some m → m.stage = .waiting → s.time < m.since + m.bound → exec (.copyWaitLimit q id) s = .next s) ∧
    (s.cmd? q id = some m → m.stage = .waiting → m.since + m.bound ≤ s.time → simple → cpy.reports.length < 16 →
      (s.vat v).sems = [(m.wsem.toNat, y)] → y.queue = [(.engine q id, k)] →
      ∃ t w, exec (.copyWaitLimit q id) s = .next t ∧ (t.core q).cpy = { cpy with cmds := rest, reports := cpy.reports ++ [w] } ∧
        bits w 63 56 = 0x8B ∧ t.sem v m.wsem.toNat = { y with queue := [] } ∧ ∀ l, t.rd1 l = s.rd1 l)

/-! ### Privileged registers -/

/-- R311 to R314, R324, R339, R356, R362, R370, R381: at kernel privilege `rdpr` reads and `wrpr` writes each privileged register, reserved bits
reading as zero; a forbidden value takes OPERAND with it. Each write changes its own register and nothing else; one of `POOLSTAT` that recovers no region
sets only its two selectors. -/
def Obligations.PrivilegedRegistersReadAndWrite : Prop :=
  ∀ (s : State) (d a : BitVec 5) (i : Nat), s.cur.who = .thread → (s.priv s.cur.core).status.pl = .kernel →
    let q := s.cur.core
    let p := s.priv q
    let v := s.rg a
    let t := s.part (s.partOf q)
    let w := vatOf q
    let reads (n : BitVec 12) (x : Word) : Prop := Computes s (.rdpr d n) d x
    let writes (n : BitVec 12) (f : Priv → Priv) : Prop := CompletesAs s (s.modPriv q f) (.wrpr a n)
    let bad (k : Instr) : Prop := p.status.nest = false → Traps s k 0x0E 0 v
    let calm : Prop := ∀ k < (s.core q).arr.n, (s.sprig q k).st ≠ .running ∧ (s.sprig q k).st ≠ .waiting
    (reads 0x101 p.trapvec ∧ reads 0x102 p.trapcause ∧ reads 0x103 p.trappc ∧ reads 0x104 p.trapval ∧ reads 0x105 p.trapscratch ∧
      reads 0x106 (p.domain.setWidth 64) ∧ reads 0x107 t.protroot ∧ reads 0x108 t.ptroot ∧ reads 0x109 t.descbase ∧
      reads 0x10A p.coretab ∧ reads 0x10B p.ctximg ∧ reads 0x10C ((s.vat w).pressbind.setWidth 64) ∧
      reads 0x10D ((s.vat w).wshare.setWidth 64) ∧ reads 0x10E (s.fdutyWord q) ∧ reads 0x10F (p.estatic.setWidth 64) ∧
      reads 0x110 p.timecmp ∧ reads 0x111 p.ipipend ∧ reads 0x112 (s.poolstatWord q) ∧ reads 0x113 p.barcfg ∧
      (i < 8 → reads (BitVec.ofNat 12 (0x118 + i)) (Store.get p.spwin 0 i)) ∧
      (i < 16 → reads (BitVec.ofNat 12 (0x120 + i)) ((Store.get p.eweight 0 i).setWidth 64)) ∧
      (i < 8 → reads (BitVec.ofNat 12 (0x130 + i)) (Store.get (s.thr q).g 0 (24 + i)))) ∧
    (∃ x : Word, reads 0x100 x ∧ bits x 1 0 = 1 ∧ x.getLsbD 2 = p.status.pplKernel ∧ x.getLsbD 4 = p.status.ie ∧
      x.getLsbD 5 = p.status.pie ∧ bits x 12 8 = p.status.ien.toNat ∧ x.getLsbD 13 = p.status.ceovf ∧
      x.getLsbD 19 = p.status.sprigtrap ∧ x.getLsbD 20 = p.status.nest ∧ x.getLsbD 21 = p.status.shold ∧
      x.getLsbD 22 = p.status.acc ∧ x.getLsbD 23 = p.status.arr ∧ x &&& 0xFFFFFFFFFF07C0C8 = 0) ∧
    (canonical v = true → writes 0x101 fun p => { p with trapvec := v &&& ~~~63#64 }) ∧
    (canonical v = false → bad (.wrpr a 0x101)) ∧
    writes 0x102 (fun p => { p with trapcause := v &&& 0x1FFFF }) ∧ writes 0x103 (fun p => { p with trappc := v }) ∧
    writes 0x104 (fun p => { p with trapval := v }) ∧ writes 0x105 (fun p => { p with trapscratch := v }) ∧
    writes 0x10A (fun p => { p with coretab := v &&& 0x000FFFFFFFFFFEFF }) ∧
    writes 0x10B (fun p => { p with ctximg := v &&& 0xFFFFFFFFFFFFF001 }) ∧
    writes 0x10F (fun p => { p with estatic := v.setWidth 16 }) ∧
    (i < 16 → writes (BitVec.ofNat 12 (0x120 + i)) fun p => { p with eweight := Store.put p.eweight 0 i (v.setWidth 16) }) ∧
    (i < 8 → CompletesAs s (s.modThr q fun t => { t with g := Store.put t.g 0 (24 + i) v }) (.wrpr a (BitVec.ofNat 12 (0x130 + i)))) ∧
    (calm → CompletesAs s (s.modPriv q fun p => { p with domain := v.setWidth 14 }) (.domainWrite a)) ∧
    (¬calm → bad (.domainWrite a)) ∧
    CompletesAs s (s.modPriv q fun p => { p with ipi := p.ipi.drop 1, ipiOvf := p.ipiOvf && !v.getLsbD 62 }) (.ipipendWrite a) ∧
    CompletesAs s (s.modPriv q fun p => { p with timecmp := v }) (.timecmpWrite a) ∧
    (s.arrivals = [] → CompletesAs s (s.modPriv q fun p => { p with barcfg := v &&& 0xFF0F }) (.barcfgWrite a)) ∧
    CompletesAs s (s.modPart (s.partOf q) fun t => { t with descbase := v &&& 0x000FFFFFFFC00001 }) (.descbaseWrite a) ∧
    CompletesAs s (s.modVat w fun t => { t with
      wshare := v.setWidth 16, press0 := { t.press0 with d := [] }, press1 := { t.press1 with d := [] } }) (.wshareWrite a) ∧
    (bits v 15 12 ≤ 10 → 1 ≤ bits v 4 0 → bits v 4 0 ≤ 16 →
      CompletesAs s (s.modPriv q fun p => { p with duty := { p.duty with
        evlimit := p.duty.evlimit && !v.getLsbD 31, evwear := p.duty.evwear && !v.getLsbD 30
        evrestore := p.duty.evrestore && !v.getLsbD 29, evthrottle := p.duty.evthrottle && !v.getLsbD 28
        freq := BitVec.ofNat 4 (bits v 15 12), cap := bits v 4 0 } }) (.fdutyWrite a)) ∧
    (10 < bits v 15 12 ∨ bits v 4 0 = 0 ∨ 16 < bits v 4 0 → bad (.fdutyWrite a)) ∧
    (v.getLsbD 48 = false ∨ (s.region (bits v 59 50)).w0.getLsbD 0 = false ∨ (s.region (bits v 59 50)).st ≠ .lost → ∀ n ∈ [Instr.recover a, .wrpr a 0x112],
        CompletesAs s (s.modPriv q fun p => { p with
          poolWord := BitVec.ofNat 2 (bits v 61 60), poolRegion := BitVec.ofNat 10 (bits v 59 50) }) n)

/-- R13, R257 to R259, R312, R313, R323: `PRESSBIND` binds the positions of the vat once the changed cores' queues are empty and the pools
of the presses have tiles for the cores that come; the tiles of a core bound to or from none start at zero, and a legal value is refused
while a changed core lends; `STATUS` with SHOLD holds the sprigs, and without releases those held, an idle one with a block starting it; a
window write unmaps the old range, which one window that still has it serves from then on, and the monitors on the new one move to the
segment; a line of an unmapped window reaches its backing memory once no store to it is buffered and the windows that left that line
before it have written theirs (one whose page has come to lie in device space changes nothing there, and a write-back to a
package cut off or a LOST region is left out: logs 27 and 38). That a change of `PRESSBIND` leaves a press's deficits, turn and pool
pointers as they stand is the model's choice (log 32). -/
def Obligations.BindingsHoldsAndWindows : Prop :=
  ∀ (s : State) (a : BitVec 5) (k : BitVec 3) (c i line : Nat) (x : Mapped) (win : WinPending),
    s.cur.who = .thread → (s.priv s.cur.core).status.pl = .kernel →
    let q := s.cur.core
    let p := s.priv q
    let v := s.rg a
    let w := vatOf q
    let pos (b : Nat) (j : Nat) : Nat := b / 4 ^ j % 4
    let old := pos (s.vat w).pressbind.toNat
    let new := pos (v.toNat % 256)
    let legal := (∀ j < 4, new j ≠ 2) ∧ (∃ j < 4, new j ≠ 0) ∧ ∃ j < 4, new j ≠ 1
    let changed (f : Nat → Nat) (n : Nat) : List Nat := [0, 1, 2, 3].filter fun j => decide (new j ≠ old j ∧ f j = n)
    let bound (n : Nat) : Option Press := (s.press w n).rebind (changed old n) (changed new n)
    let lends := ∃ j < 4, new j ≠ old j ∧ ∃ n < 4, s.lentSet (4 * w + j) n ≠ 0
    let bad (k : Instr) : Prop := p.status.nest = false → Traps s k 0x0E 0 v
    let was := Store.get p.spwin 0 k.toNat
    let now := v &&& 0xFFFFFFFFFFFF0001
    let moves (t : State) : Prop := t.pcOf s.cur = s.nextPc s.cur ∧ (∀ g, t.getG s.cur g = s.getG s.cur g) ∧ ∀ l, t.rd1 l = s.rd1 l
    let hasOld (c j : Nat) : Prop := j < 8 ∧ s.partOf c = s.partOf q ∧ (Store.get (s.priv c).spwin 0 j).getLsbD 0 = true ∧
      bits (Store.get (s.priv c).spwin 0 j) 63 16 = bits was 63 16
    let onSegment (m : Monitor) (c j : Nat) : Monitor := { m with loc := 2 ^ 52 + c * 2 ^ 19 + 65536 * j + m.va % 65536 }
    let status (h : Bool) : Status := { p.status with
      arr := p.status.arr && !v.getLsbD 23, acc := v.getLsbD 22, sprigtrap := v.getLsbD 19
      ceovf := p.status.ceovf && !v.getLsbD 13, ien := v.extractLsb' 8 5, ie := v.getLsbD 4, nest := v.getLsbD 20
      pie := v.getLsbD 5, pplKernel := v.getLsbD 2, shold := h }
    (legal → ¬lends → (∃ j < 4, new j ≠ old j ∧ (s.core (4 * w + j)).til.queue ≠ []) ∨ bound 0 = none ∨ bound 1 = none →
      exec (.pressbindWrite a) s = .next s) ∧
    (legal → ¬lends → (∀ j < 4, new j ≠ old j → (s.core (4 * w + j)).til.queue = []) → (bound 0).isSome → (bound 1).isSome → c < 4 →
      ∃ t, exec (.pressbindWrite a) s = .next t ∧ moves t ∧ (t.vat w).pressbind = v.setWidth 8 ∧
        some (t.press w 0) = bound 0 ∧ some (t.press w 1) = bound 1 ∧
        (new c ≠ old c → new c = 3 ∨ old c = 3 → (∀ j, t.zreg (4 * w + c) j = 0) ∧ ∀ j, t.creg (4 * w + c) j = 0) ∧
        (new c = old c ∨ new c ≠ 3 ∧ old c ≠ 3 →
          (∀ j, t.zreg (4 * w + c) j = s.zreg (4 * w + c) j) ∧ ∀ j, t.creg (4 * w + c) j = s.creg (4 * w + c) j)) ∧
    (¬legal ∨ lends → bad (.pressbindWrite a)) ∧
    (v.getLsbD 3 = false →
      (v.getLsbD 21 = true → NoQueues s → ∀ n ∈ [Instr.sholdSet a, .wrpr a 0x100],
        ∃ t, exec n s = .next t ∧ moves t ∧ (t.priv q).status = status true ∧
          (t.sprig q i).g = (s.sprig q i).g ∧ (t.sprig q i).k = (s.sprig q i).k ∧ (t.sprig q i).pc = (s.sprig q i).pc ∧
          ((s.sprig q i).st = .waiting → (s.sprig q i).ag.wait ≠ none → i < (s.core q).arr.n →
            (t.sprig q i).st = .running ∧ (t.sprig q i).ag.wait = none)) ∧
      (v.getLsbD 21 = false → ∀ n ∈ [Instr.sholdRelease a, .wrpr a 0x100],
        ∃ t, exec n s = .next t ∧ moves t ∧ (t.priv q).status = status false ∧ (t.sprig q i).g = (s.sprig q i).g ∧
          ((s.sprig q i).st ≠ .idle ∨ (s.sprig q i).queue = [] → t.sprig q i = s.sprig q i) ∧
          ∀ b rest, (s.sprig q i).st = .idle → (s.sprig q i).queue = b :: rest → i < (s.core q).arr.n →
            s.blockOwned q (b.addr.toNat / 64) = false →
            (t.sprig q i).st = .running ∧ (t.sprig q i).queue = rest ∧ (t.sprig q i).pc = b.addr.setWidth 17 + 2)) ∧
    (v.getLsbD 3 = true → bad (.sholdSet a) ∧ bad (.sholdRelease a) ∧ bad (.wrpr a 0x100)) ∧
    (canonical v = false → bad (.spwinWrite a k)) ∧
    (canonical v = true → NoStores s → s.tilesBusy (s.partOf q) = false → s.behind = [] →
      ∃ t, exec (.spwinWrite a k) s = .next t ∧ moves t ∧ Store.get (t.priv q).spwin 0 k.toNat = now ∧
      (was.getLsbD 0 = false ∨ (s.cores.map fun e => e.1).Nodup ∧ (∀ c j, hasOld c j → (c, j) = (q, k.toNat)) →
        t.monitors = s.monitors.map fun m =>
          if now.getLsbD 0 = true ∧ s.partOf m.who.core = s.partOf q ∧ m.va / 65536 = bits now 63 16 then onSegment m q k.toNat else m) ∧
      (∀ c j, was.getLsbD 0 = true → now.getLsbD 0 = false → (c, j) ≠ (q, k.toNat) → (s.cores.map fun e => e.1).Nodup →
        (∀ c' j', hasOld c' j' ↔ (c', j') = (q, k.toNat) ∨ (c', j') = (c, j)) → t.monitors = s.monitors.map fun m =>
          if s.partOf m.who.core = s.partOf q ∧ m.va / 65536 = bits was 63 16 then onSegment m c j else m) ∧
      (∀ j, j ≠ k.toNat → Store.get (t.priv q).spwin 0 j = Store.get p.spwin 0 j) ∧
      ∃ n, (∀ c, ∀ w ∈ (s.core c).pendWb, w.num < n) ∧ (t.core q).pendWb = if now ≠ was ∧ was.getLsbD 0 = true
        then (s.core q).pendWb ++ [⟨k.toNat, was.toNat / 65536, BitVec.allOnes 1024, n⟩] else (s.core q).pendWb) ∧
    (let va := BitVec.ofNat 64 (win.vbase * 65536 + 64 * line)
      let dst := bits (BitVec.ofNat 64 x.leaf) 51 12 * 4096 / x.size * x.size + va.toNat % 2 ^ 56 % x.size
      let src := 2 ^ 52 + q * 2 ^ 19 + 65536 * i + 64 * line
      (s.core q).pendWb = [win] → win.seg = i → win.left.getLsbD line = true →
      (s.lineBuffered (src / 64) = true → exec (.windowLineWriteback q i line) s = .next s) ∧
      (win.vbase < 2 ^ 48 → ∀ c, s.partOf c = s.partOf q → (∃ o ∈ (s.core c).pendWb, o.vbase = win.vbase ∧ o.left.getLsbD line = true ∧ o.num < win.num) →
        exec (.windowLineWriteback q i line) s = .next s) ∧
      (s.lineBuffered (src / 64) = false → (∀ o ∈ s.pendingAt (s.partOf q) va, win.num ≤ o.2.num) →
        s.mapping ⟨q, .thread⟩ va = .ok x → x.leaf < 2 ^ 64 → dst % 64 = 0 →
        s.cutOff dst = false → s.poolLost dst = false → ∃ t, exec (.windowLineWriteback q i line) s = .next t ∧
          (∀ l, t.rd1 l = if isDevice dst = false ∧ dst ≤ l ∧ l < dst + 64 then s.rd1 (src + (l - dst)) else s.rd1 l) ∧
          (t.core q).pendWb = if win.left = BitVec.ofNat 1024 (2 ^ line) then [] else
            [{ win with left := win.left &&& ~~~BitVec.ofNat 1024 (2 ^ line) }]))

/-! ### Invalidation, contexts, interrupts -/

/-- R339, R346, R347, R350, R351: once the issuer's stores, the accesses checked against the entries that go, and for `xlinv` those to the
page, or all, are performed, `plbinv` drops the lookaside entries of its form on every core of the partition, waiting for devices that
hold translations; `xlinv` drops the translations of the page or all, and moves a page in transit, its frame copied byte for byte and its
status word 1, or 2 over an uncorrectable frame; the root writes complete as these do. An access of a started tile command, or a buffered
store whose line another party holds, is waited for where it is one of these, and no other is; no interrupt comes before an `xlinv` that
waits completes. Of what waits at a home only the requests for these addresses go, whose instructions execute again. Bad operands trap.
That an access counts as checked against the regions that gave it its rights when it was made, and that the monitors go with these requests,
is the model's (log 29). -/
def Obligations.InvalidationsDropTranslations : Prop :=
  ∀ (s : State) (b c : BitVec 5) (e level : Nat), s.cur.who = .thread → (s.priv s.cur.core).status.pl = .kernel →
    let q := s.cur.core
    let p := s.partOf q
    let va := s.rg b
    let d := (s.rg c).toNat
    let page := va.toNat % 2 ^ 56 / 4096
    let moves (i : Instr) (P : State → Prop) : Prop := ∃ t, exec i s = .next t ∧ P t ∧ t.pcOf s.cur = s.nextPc s.cur ∧
      ∀ g, t.getG s.cur g = s.getG s.cur g
    let stored (hit : SbEntry → Bool) : Prop := ∀ a ∈ s.agentsOf p, a ≠ s.cur → ∀ w ∈ (s.ag a).sb, hit w = false
    let settled (hit : Nat → Bool) : Prop :=
      s.tilesPending p hit = false ∧ stored fun w => w.lines.any fun l => hit (64 * l.vline % 2 ^ 56)
    let checked (hit : List PlbEntry → Bool) : Prop := s.tilesChecked p hit = false ∧ stored fun w => hit w.checked
    let again (goes : AgentId → Nat → Bool) (t : State) : Prop :=
      (t.monitors = s.monitors.filter fun m => !(s.partOf m.who.core == p && goes m.who (m.va % 2 ^ 56))) ∧
      (∀ a, a ≠ s.cur → (t.ag a).sb = (s.ag a).sb) ∧ ∀ l w, s.tagQ = [(l, ⟨[w], []⟩)] →
        t.tagQ = if s.partOf w.who.core = p ∧ goes w.who (w.va % 2 ^ 56) = true then [] else s.tagQ
    let against (hit : List PlbEntry → Bool) (a : AgentId) (_ : Nat) : Bool := (s.ag a).wait.any fun w => hit w.checked
    let drops (f : PlbEntry → Bool) (hit : List PlbEntry → Bool) (t : State) : Prop := (∀ l, t.rd1 l = s.rd1 l) ∧
      again (against hit) t ∧
      ∀ n, (t.core n).plb = if s.partOf n = p then (s.core n).plb.filter (fun x => !f x) else (s.core n).plb
    let clears (f : TcEntry → Bool) (t : State) : Prop := t.tc = s.tc.filter fun x => !(x.part == p && f x)
    let still (t : State) : Prop := ∀ l, t.rd1 l = s.rd1 l
    let mine (j : Nat) : Prop := j < 4 ∧ Store.get s.portPart 0 j = p
    let root (f : Part → Part) (t : State) : Prop := t.part p = f (s.part p) ∧ ∀ n, n ≠ p → t.part n = s.part n
    let code := bits va 1 0
    let n := if code = 0 then 4096 else if code = 1 then 65536 else if code = 2 then 2097152 else 1073741824
    let lo := page * 4096
    let covers (x : TcEntry) : Bool := x.vbase < lo + n && lo < x.vbase + x.size
    let frame (w : Nat) : Nat := w / 4096 % 2 ^ 40 * 4096 / n * n
    let rec_ := nbits e 51 6 * 64
    let old := frame (s.rdN rec_ 8)
    let new := frame (s.rdN (rec_ + 8) 8)
    let holdsUp (i : Instr) (inval : Bool) : Prop :=
      ∃ t, exec i s = .next t ∧ t.pcOf s.cur = s.pcOf s.cur ∧ (inval = true → (t.ag s.cur).inval = true)
    let one (x : PlbEntry) : Bool := x.domain.toNat == d && decide (x.base ≤ page) && decide (page < x.base + x.pages)
    let ofDomain (x : PlbEntry) : Bool := x.domain.toNat == d
    let whole (_ : PlbEntry) : Bool := true
    let some_ (f : PlbEntry → Bool) (cs : List PlbEntry) : Bool := cs.any f
    let inPage (v : Nat) : Bool := lo ≤ v && v < lo + n
    let every (_ : Nat) : Bool := true
    let at_ (hit : Nat → Bool) (_ : AgentId) (v : Nat) : Bool := hit v
    (s.ag s.cur).sb = [] → NoQueues s → (∀ x ∈ s.cores, x.2.partials = []) → s.exact = [] → s.behind = [] →
    (((∀ m, ∀ u ∈ (s.core m).til.queue, u.parked = false) →
        (s.tilesChecked p (some_ whole) = true → holdsUp .plbinvAll false) ∧ (s.tilesBusy p = true → holdsUp .xlinvAll true)) ∧
      ∀ a w l, a ∈ s.agentsOf p → a ≠ s.cur → (∀ b, b ≠ a → (s.ag b).sb = []) → (s.ag a).sb = [w] → l ∈ w.lines → s.lineFree a l = false →
        holdsUp .xlinvAll true ∧ (w.checked ≠ [] → holdsUp .plbinvAll false)) ∧
    ((∀ j, mine j → (s.port j).ats = false ∧ (s.port j).inval = false) →
      (checked (some_ one) → canonical va = true → d ≤ 16383 → moves (.plbinvOne b c) (drops one (some_ one))) ∧
      (checked (some_ ofDomain) → d ≤ 16383 → moves (.plbinvDom c) (drops ofDomain (some_ ofDomain))) ∧
      (checked (some_ whole) → moves .plbinvAll (drops whole (some_ whole))) ∧
      (checked (fun _ => true) → moves (.protrootWrite b) fun t => drops whole (fun _ => true) t ∧
        root (fun x => { x with protroot := va &&& 0x000FFFFFFFFC0001 }) t)) ∧
    (checked (some_ whole) → ∀ j, mine j → (s.port j).ats = true ∨ (s.port j).inval = true → ∃ t, exec .plbinvAll s = .next t ∧
      t.pcOf s.cur = s.pcOf s.cur ∧ (t.port j).inval = true ∧ (t.port j).ats = false) ∧
    (settled every → moves .xlinvAll (fun t => clears (fun _ => true) t ∧ still t ∧ again (at_ every) t) ∧
      moves (.ptrootWrite b) (fun t => clears (fun _ => true) t ∧ still t ∧ again (at_ every) t ∧
        root (fun x => { x with ptroot := va &&& 0x000FFFFFFFFFF001 }) t)) ∧
    (settled inPage → canonical va = true → bits va 11 2 = 0 → lo % n = 0 →
      (s.transitOf s.cur va = .ok none →
        moves (.xlinvPage b) fun t => clears covers t ∧ still t ∧ again (at_ inPage) t) ∧
      (s.transitOf s.cur va = .ok (some (e, level)) → s.imageHbm rec_ = true → s.ownedLoc s.cur rec_ = false → s.ueAt rec_ 64 = false →
        s.moveOk rec_ code level = true → s.memWf → s.monitors = [] → (rec_ + 64 ≤ new ∨ new + n ≤ rec_) → moves (.xlinvPage b) fun t => clears covers t ∧
          (∀ k < n, t.rd1 (new + k) = s.rd1 (old + k)) ∧
          t.rdN (rec_ + 16) 8 = (if old ≠ new ∧ s.frameBad old n = true then 2 else 1) ∧
          ∀ l, (l < new ∨ new + n ≤ l) → (l < rec_ + 16 ∨ rec_ + 24 ≤ l) → t.rd1 l = s.rd1 l)) ∧
    ((s.priv q).status.nest = false →
      (canonical va = false → Traps s (.plbinvOne b c) 0x05 0 va ∧ Traps s (.xlinvPage b) 0x05 0 va) ∧
      (16383 < d → Traps s (.plbinvDom c) 0x0E 0 (s.rg c)) ∧
      (canonical va = true → (bits va 11 2 ≠ 0 ∨ lo % n ≠ 0) → Traps s (.xlinvPage b) 0x0E 0 va))

/-- R41 to R43, R326 to R329, R332, R333, R401: `ctxsave` stores the control area and every unit, or only the dirty ones where `CTXIMG` names
the image, with what it saved as LASTSAVE last, names the image and leaves every unit clean; `ctxload` of an image whose fields pass loads
its control area, sprig records, slots, vector pool, tiles, block store and scratchpad, and holds the sprigs that were running; an address
that is not canonical or aligned traps. `migrate` sends the thread to an accepting core, which loads it on arrival, once no sprig of its
array is ready, running or waiting (R18), and traps at the old core, whose stores and deposits the homes have by then; one that does not accept takes MIGRATE. A redirected reply takes one from the count of replies that the old core's forwarding entry
stands for, which goes with the last; that the entry is such a count is the model's (log 12). That the `ctxload` counts itself in the
`RETIRED` that it loads, and that the tiles of a core bound to no press are loaded as zeros, is the model's reading (log 18), that the
arrival waits as `sconf` does its reading too (log 24), that the unreported set of the old core is empty after the move its choice (log
37), and that a `migrate` to the number of the physical core that executes completes without a move its choice (log 42). -/
def Obligations.ContextsAreSavedLoadedAndMoved : Prop :=
  ∀ (s : State) (b : BitVec 5) (dest : Nat) (m : Travel) (x : Nat → Xl),
    let q := s.cur.core
    let p := s.priv q
    let c := s.core q
    let a := s.rg b
    let at_ (o : Nat) : Word := a + BitVec.ofNat 64 o
    let offset (o : Nat) : Prop := o < 0xD6C00 ∧ o % 8 = 0
    let word (o : Nat) : Word := BitVec.ofNat 64 (s.rdN (x o).loc 8)
    let value (o n : Nat) : Nat := atBytes ((List.range (n / 8)).map fun k => (8 * k, (word (o + 8 * k)).toNat))
    let part (i o n : Nat) : Nat := value (0x10C00 + 0x200 * i) 512 / 256 ^ o % 256 ^ n
    let put (t : State) (o n v : Nat) : Prop :=
      ∀ j < n, t.seen s.cur ((x ((o + j) / 8 * 8)).loc + (o + j) % 8) = BitVec.ofNat 8 (v / 256 ^ j)
    let saved (u : CtxUnit) : Bool := decide (p.ctximg ≠ a ||| 1) || u.dirty c.dirty
    let control : List (Nat × Nat) := [(0, 0x14B564331), (8, p.trappc.toNat), (0x18, if p.status.sprigtrap then 2 ^ 19 else 0),
      (0x20, p.domain.toNat), (0x28, p.coretab.toNat), (0x70, c.thr.rm.toNat), (0x78, c.thr.fpstat.toNat), (0x80, c.thr.waitlim.toNat),
      (0x88, c.thr.ltbase.toNat), (0x90, c.thr.cycle.toNat), (0x98, c.thr.retired.toNat),
      (0xA0, (if c.thr.sat then 2 ^ 63 else 0) + c.thr.energy.toNat / 65536), (0xA8, c.thr.energy.toNat % 65536),
      (0xB0, c.arr.r * 256 + c.arr.n), (0xD8, p.barcfg.toNat), (0xE0, c.unrep.toNat)]
    let moves (t : State) : Prop := t.pcOf s.cur = s.nextPc s.cur
    let kernel := s.cur.who = .thread ∧ p.status.pl = .kernel
    let named (t : State) (resident : Bool) : Prop := (t.priv q).ctximg = a ||| 1 ∧ (t.core q).dirty = ⟨0, 0, 0, 0, 0, 0, 0⟩ ∧
      (t.core q).resident = resident
    (kernel → canonical a = false → p.status.nest = false → Traps s (.ctxsave b) 0x05 0 a ∧ Traps s (.ctxload b) 0x05 0 a) ∧
    (kernel → canonical a = true → a.toNat % 4096 ≠ 0 → p.status.nest = false →
      Traps s (.ctxsave b) 0x03 0 a ∧ Traps s (.ctxload b) 0x03 0 a) ∧
    (kernel → canonical a = true → a.toNat % 4096 = 0 → NoStores s → NoQueues s → c.partials = [] → c.arr.blkUe = [] → s.ue = [] →
      c.arr.n < 128 → c.arr.r < 128 → (∀ i < 64, (s.sprig q i).queue.length ≤ 4) → (∀ o, offset o → s.access (s.accOf s.cur) .w (at_ o) = .ok (x o) ∧ (x o).crf = 0 ∧ s.poolLost (x o).loc = false ∧
        isDevice (x o).loc = false) →
      (∀ o o', offset o → offset o' → o ≠ o' → (x o).loc + 8 ≤ (x o').loc ∨ (x o').loc + 8 ≤ (x o).loc) →
      ∃ t, exec (.ctxsave b) s = .next t ∧ moves t ∧ named t false ∧ (∀ l, t.rd1 l = s.rd1 l) ∧ (t.thr q).g = c.thr.g ∧
        (t.priv q).status = { p.status with shold := true } ∧
        (∀ e ∈ control, put t e.1 8 e.2) ∧ (∀ r < 31, put t (0x100 + 8 * r) 8 (Store.get c.thr.g 0 (r + 1)).toNat) ∧
        (∀ i < 8, put t (0x30 + 8 * i) 8 (Store.get p.spwin 0 i).toNat) ∧ (∀ j < 4, put t (0xB8 + 8 * j) 8 (s.lentSet q j).toNat) ∧
        (∀ u ∈ ctxUnits, saved u = true → put t u.off u.size (s.unitValue q u)) ∧
        put t 0x10 8 (1024 + sumNat ((ctxUnits.filter saved).map CtxUnit.size))) ∧
    (kernel → canonical a = true → a.toNat % 4096 = 0 → NoStores s → s.tilesBusy (s.partOf q) = false → NoQueues s → s.monitors = [] →
      s.arrivals = [] → c.cpy.cmds = [] → c.pendWb = [] → (∀ w ∈ p.spwin, w.2.getLsbD 0 = false) →
      (∀ o, offset o → Readable s s.cur (at_ o) 8 (x o)) →
      imageFault (checkedOffsets.map fun o => (o, (word o).toNat)) 0xD6C00 = none →
      ∃ t, exec (.ctxload b) s = .next t ∧ moves t ∧ named t true ∧ (t.priv q).trappc = word 8 ∧
        (t.priv q).status.pplKernel = false ∧ (t.priv q).status.sprigtrap = (word 0x18).getLsbD 19 ∧
        ((t.priv q).status.shold = true ↔ ∃ i < 64, part i 0x13A 1 = 1) ∧
        (t.priv q).domain = (word 0x20).setWidth 14 ∧ (t.priv q).coretab = word 0x28 ∧ (t.priv q).barcfg = word 0xD8 ∧
        (t.core q).unrep = word 0xE0 ∧ (t.thr q).fpstat = (word 0x78).setWidth 6 ∧ (t.thr q).retired = word 0x98 + 1 ∧
        (t.thr q).energy = word 0xA0 <<< 16 ||| word 0xA8 ∧ (t.thr q).sat = (word 0xA0).getLsbD 63 ∧
        (∀ i < 8, Store.get (t.priv q).spwin 0 i = word (0x30 + 8 * i)) ∧ (∀ j < 4, t.lentSet q j = word (0xB8 + 8 * j)) ∧
        (t.thr q).rm = (word 0x70).setWidth 3 ∧ (t.thr q).waitlim = (word 0x80).setWidth 48 ∧ (t.thr q).ltbase = word 0x88 ∧
        (t.thr q).cycle = word 0x90 ∧ (t.core q).arr.n = bits (word 0xB0) 6 0 ∧ (t.core q).arr.r = bits (word 0xB0) 14 8 ∧
        (∀ r < 31, Store.get (t.thr q).g 0 (r + 1) = word (0x100 + 8 * r)) ∧
        (∀ k, 32 ≤ k → Store.get (t.thr q).g 0 k = Store.get c.thr.g 0 k) ∧
        (∀ i < 64, let y := t.sprig q i
          (∀ r < 31, Store.get y.g 0 (r + 1) = BitVec.ofNat 64 (part i (8 * r) 8)) ∧
          (∀ k < 7, Store.get y.k 0 (k + 1) = BitVec.ofNat 64 (part i (0x100 + 8 * k) 8)) ∧
          y.st = (if part i 0x13A 1 = 1 then .running else if part i 0x13A 1 = 3 then .faulted else .idle) ∧
          y.pc = BitVec.ofNat 17 (part i 0x138 2) ∧ y.queue.length = part i 0x13B 1 / 16 ∧ y.rm = BitVec.ofNat 3 (part i 0x13C 1) ∧
          y.fpstat = BitVec.ofNat 6 (part i 0x13D 1) ∧ y.full = BitVec.ofNat 14 (part i 0x13E 2) ∧
          y.fcause = BitVec.ofNat 8 (part i 0x150 1) ∧ y.fpc = BitVec.ofNat 16 (part i 0x152 2) ∧
          y.bstart = BitVec.ofNat 16 (part i 0x154 2) ∧ y.free = (part i 0x156 1).testBit 0 ∧ y.fval = BitVec.ofNat 64 (part i 0x158 8) ∧
          y.ag = Agent.reset ∧ ∀ k < 14, Store.get y.links 0 k = BitVec.ofNat 512 (value (0x18C00 + 0x40 * (14 * i + k)) 64)) ∧
        (∀ k < 8, t.zreg q (BitVec.ofNat 3 k) = if s.binding q = 3 then 0 else BitVec.ofNat 34816 (value (0x400 + 0x1100 * k) 4352)) ∧
        (∀ k < 4, t.creg q (BitVec.ofNat 2 k) = if s.binding q = 3 then 0 else BitVec.ofNat 65536 (value (0x8C00 + 0x2000 * k) 8192)) ∧
        (∀ k < 2048, Store.get (t.core q).arr.pool 0 k = BitVec.ofNat 512 (value (0x26C00 + 0x40 * k) 64)) ∧
        (∀ k < 1024, Store.get (t.core q).arr.blk 0 k = BitVec.ofNat 512 (value (0x46C00 + 0x40 * k) 64)) ∧
        (∀ k < 0x10000, t.rdN (2 ^ 52 + q * 2 ^ 19 + 8 * k) 8 = (word (0x56C00 + 8 * k)).toNat) ∧
        ∀ l, l < 2 ^ 52 + q * 2 ^ 19 ∨ 2 ^ 52 + (q + 1) * 2 ^ 19 ≤ l → t.rd1 l = s.rd1 l) ∧
    (s.cur.who = .thread → (∀ g, g.core = q → (s.ag g).sb = []) → a.toNat ≤ 255 → s.named s.cur a.toNat a = .core dest →
      (dest = q → Passes s (.migrate b)) ∧
      (dest ≠ q → p.status.nest = false → s.accepts dest = false ∨ s.sprigsQuiet q = false → Traps s (.migrate b) 0x0F 0 a) ∧
      (dest ≠ q → p.status.nest = false → s.accepts dest = true → s.sprigsQuiet q = true → s.arrivals = [] →
        (c.partials = [] ∨ ∃ e, c.partials = [e] ∧ Store.find? s.exact e.1 = none) →
        ∃ t m, exec (.migrate b) s = .next t ∧ (t.core dest).arrival = some m ∧ (t.core dest).claimed = true ∧
          (t.priv dest).status.acc = false ∧ m.pc = s.nextPc s.cur ∧ (∀ r < 32, Store.get m.g 0 r = Store.get c.thr.g 0 r) ∧
          m.rm = c.thr.rm ∧ m.fpstat = c.thr.fpstat ∧ m.waitlim = c.thr.waitlim ∧ m.ltbase = c.thr.ltbase ∧
          m.cycle = c.thr.cycle ∧ m.retired = c.thr.retired + 1 ∧ m.domain = p.domain ∧ m.barcfg = p.barcfg ∧
          bits m.coretab 7 0 = a.toNat ∧ m.n = c.arr.n ∧ m.r = c.arr.r ∧ m.z = c.til.z ∧ m.c = c.til.c ∧
          (t.core q).resident = false ∧ (t.core q).unrep = 0 ∧ (t.priv q).trapcause = 0x0F ∧ (t.priv q).trappc = s.nextPc s.cur ∧
          (t.priv q).trapval = a ||| 0x8000000000000000 ∧ (t.priv q).status.pl = .kernel ∧ (t.priv q).status.nest = true ∧
          (t.priv q).barcfg = 0 ∧ (∀ l, t.rd1 l = s.rd1 l) ∧
          (t.core q).partials = [] ∧ (∀ e ∈ c.partials, Store.find? t.exact e.1 = some e.2) ∧ ∀ k, 32 ≤ k → Store.get (t.thr q).g 0 k = Store.get c.thr.g 0 k)) ∧
    (c.arrival = none → exec (.migrateArrival q) s = .next s) ∧
    (c.arrival = some m → (∃ i < c.arr.n, s.sprigDone q i = false) → exec (.migrateArrival q) s = .next s) ∧
    (c.arrival = some m → (∀ i < c.arr.n, s.sprigDone q i = true) → (∀ e ∈ m.g, e.1 < 32) → s.arrivals = [] →
      ∃ t, exec (.migrateArrival q) s = .next t ∧ (t.core q).arrival = none ∧ (t.core q).claimed = false ∧
        (t.core q).resident = true ∧ (∀ r < 32, Store.get (t.thr q).g 0 r = Store.get m.g 0 r) ∧
        (∀ k, 32 ≤ k → Store.get (t.thr q).g 0 k = Store.get c.thr.g 0 k) ∧ (t.thr q).run = .running ∧ (t.thr q).pc = m.pc ∧
        (t.thr q).rm = m.rm ∧ (t.thr q).waitlim = m.waitlim ∧ (t.thr q).retired = m.retired ∧ (t.priv q).domain = m.domain ∧
        (t.priv q).barcfg = m.barcfg &&& 0xFF0F ∧ (t.core q).arr.n = m.n ∧ (t.core q).arr.r = m.r ∧ (t.core q).til.z = m.z ∧
        (t.core q).til.c = m.c ∧ (t.priv q).status =
          { p.status with pl := .user, ie := true, nest := false, arr := true, sprigtrap := m.sprigtrap } ∧
        (∀ i < 64, (t.sprig q i).st = .idle ∧ (t.sprig q i).ag.sb = (s.sprig q i).ag.sb) ∧ ∀ l, t.rd1 l = s.rd1 l) ∧
    ∃ t, exec (.replyRedirect q) s = .next t ∧ (t.core q).forward = (match c.forward with
        | some (n + 2) => some (n + 1)
        | _ => none) ∧ { t.core q with forward := c.forward } = c ∧ (∀ n, n ≠ q → t.core n = s.core n)

/-- R141, R317, R325, R353, R366, R373: `ipi` puts its source and payload at the end of the named core's queue, or sets OVF; `descw` copies a
well-formed descriptor into its table entry; at a boundary outside a handler the first pending event is taken, in the order machine check,
SPRIG, POWER, TIMER, IPI, EXTERNAL, COPYERR, with what its entry removes, and none inside a handler; TIMER ends an `idle`. -/
def Obligations.InterruptsAndDescriptorsArrive : Prop :=
  ∀ (s : State) (b c : BitVec 5) (dest : Nat) (x : Xl) (m : MCheck) (rest : List MCheck) (src : BitVec 8) (pay : BitVec 48)
    (more : List (BitVec 8 × BitVec 48)) (code detail source : Nat) (report : Word) (reports : List Word),
    let q := s.cur.core
    let p := s.priv q
    let st := p.status
    let v := s.rg b
    let ea := s.rg c
    let bytes := s.rdN x.loc 64
    let dst := bits (s.part (s.partOf q)).descbase 51 22 * 2 ^ 22 + 64 * v.toNat
    let kernel := s.cur.who = .thread ∧ st.pl = .kernel
    let stores := ∀ g, g.core = q → (s.ag g).sb = []
    let clear := (s.thr q).run = .running ∧ st.nest = false ∧ (s.thr q).ag.inval = false ∧ (s.core q).til.queue = []
    let pc := (s.thr q).pc
    let duty := p.duty
    let event := if duty.evthrottle then 0 else if duty.evrestore then 1 else if duty.evwear then 2 else 3
    let quiet := (s.core q).mchecks = [] ∧ (st.sprigtrap = false ∨ st.ie = false ∨ (s.core q).unrep = 0) ∧
      (st.ien.getLsbD 4 = false ∨ p.duty.events = 0)
    let timer := st.ien.getLsbD 0 = true ∧ p.timecmp.toNat ≤ s.time
    let takes (u : State) (code detail : Nat) (pc val : Word) : Prop :=
      ∃ t, exec (.trapEntry q) s = .next t ∧ TrapTaken u t q code detail true pc val
    (kernel → Performed s →
      (v.toNat ≤ 255 → stores → s.named s.cur v.toNat v = .core dest →
        let u := s.modPriv dest fun k => if 16 ≤ k.ipi.length then { k with ipiOvf := true }
          else { k with ipi := k.ipi ++ [(p.coretab.setWidth 8, (s.rg c).setWidth 48)] }
        CompletesAs s u (.ipi b c)) ∧
      (255 < v.toNat ∨ stores ∧ s.named s.cur v.toNat v = .unmapped → st.nest = false → Traps s (.ipi b c) 0x0E 0 v) ∧
      (v.toNat ≤ 255 → stores → s.named s.cur v.toNat v = .trap code detail report → st.nest = false → Traps s (.ipi b c) code detail report) ∧
      (v.toNat ≤ 65535 → bit (s.part (s.partOf q)).descbase 0 = true → Readable s s.cur ea 64 x →
        (descFault (BitVec.ofNat 512 bytes) = none → s.imageHbm dst = true → s.blocked s.cur (dst / 64) = false →
          s.ownedLoc s.cur dst = false → s.cutOff dst = false → s.monitors = [] → ∃ t, exec (.descw b c) s = .next t ∧ AgentDone s t s.cur 0 0 0 (s.nextPc s.cur) [] ∧ Stored s t dst 64 bytes ∧
            OnlyBytes s t dst 64) ∧
        (∀ n, descFault (BitVec.ofNat 512 bytes) = some n → st.nest = false →
          Traps s (.descw b c) 0x0E 0 (ea + BitVec.ofNat 64 n))) ∧
      (65535 < v.toNat → st.nest = false → Traps s (.descw b c) 0x0E 0 v)) ∧
    ((s.thr q).run = .running → st.nest = true → exec (.trapEntry q) s = .next s) ∧
    (clear →
      ((s.core q).mchecks = m :: rest → takes (s.modCore q fun k => { k with mchecks := rest }) 0x30 m.detail.toNat
        (if m.zeroPc then 0 else pc) m.val) ∧
      (st.ie = true → (s.core q).mchecks = [] →
        (st.sprigtrap = true → (s.core q).unrep ≠ 0 → takes (s.modCore q fun k => { k with unrep := 0 }) 0x0D 0 pc (s.core q).unrep) ∧
        (st.sprigtrap = false ∨ (s.core q).unrep = 0 → st.ien.getLsbD 4 = true →
          (duty.evthrottle || duty.evrestore || duty.evwear || duty.evlimit) = true →
          takes (s.modPriv q fun k => { k with duty := { duty with
            evthrottle := false, evrestore := duty.evrestore && decide (event = 0)
            evwear := duty.evwear && decide (event ≤ 1), evlimit := duty.evlimit && decide (event ≤ 2) } })
            0x25 0 pc (BitVec.ofNat 64 (event + 1)))) ∧
      (quiet → st.ie = true → (timer → takes s 0x20 0 pc p.timecmp) ∧
        (¬timer → st.ien.getLsbD 1 = true → p.ipi = (src, pay) :: more → takes s 0x21 0 pc (BitVec.ofNat 64
          (2 ^ 63 + (if p.ipiOvf then 2 ^ 62 else 0) + src.toNat * 2 ^ 48 + pay.toNat))) ∧
        (¬timer → st.ien.getLsbD 1 = false ∨ p.ipi = [] →
          (st.ien.getLsbD 2 = true → (s.core q).ext.getLsbD source = true → (∀ n < source, (s.core q).ext.getLsbD n = false) →
            takes (s.modCore q fun k => { k with ext := k.ext &&& ~~~BitVec.ofNat 8192 (2 ^ source) }) 0x22 0 pc
              (BitVec.ofNat 64 source)) ∧
          (st.ien.getLsbD 2 = false ∨ (s.core q).ext = 0 → st.ien.getLsbD 3 = true → (s.core q).cpy.reports = report :: reports →
            takes (s.modCore q fun k => { k with cpy := { k.cpy with reports := reports } }) 0x24 0 pc report)))) ∧
    (s.time < p.timecmp.toNat → exec (.timer q) s = .next s) ∧
    (p.timecmp.toNat ≤ s.time → ∃ t, exec (.timer q) s = .next t ∧ (t.vat (vatOf q)).stopped = false ∧
      (∀ l, t.rd1 l = s.rd1 l) ∧ ((s.core q).claimed = false → ∀ since, (s.thr q).run = .idle since →
        (t.thr q).run = .running ∧ (t.thr q).pc = s.nextPc ⟨q, .thread⟩))

/-! ### Power, errors, the pool, host ports -/

/-- R331, R361 to R371, R394: a static charge adds each crossing of 125 ns to every resident context, saturating; at an epoch each core's duty
follows its grant, with `DUTY` the lesser of the tree's share and CAP, and only the cycles that it allows pass its gates; a die's grants
share the package's, and each vat's wear, ceiling and next point follow, EVWEAR being set on the four cores when the ceiling falls; a
change of point completes; a quiet vat's clock stops, and restarts when an event is pending at one of its cores or an inbound request needs
one of its slices; a lost vat's cores are LOST and begin again at the restart entry, if one is set. That CEIL changes one epoch after its
count is the model's reading (log 36), and so is, as an inference from R331, R364 and R365, that a lost vat's PRESSBIND, WSHARE and
semaphores are at reset while its point, wear and ceiling stand (log 36). No time passes over an epoch boundary before its reallocation,
nor over the end of a change of point; that the boundary waits for the sensors' figures, an input, is the model's form (log 36). A core
in `idle` counts as running where the lowest-numbered running core is told: the model's choice (log 28). -/
def Obligations.PowerAndClocks : Prop :=
  ∀ (s : State) (m : PowerMeas) (q v : Nat) (entry : Word),
    let x := s.vat v
    let n := s.time / 125 - s.statics
    let th := s.thr q
    let u := n * (s.priv q).estatic.toNat * 8192
    let duty := (s.priv q).duty
    let quiet (p : Nat) : Prop := (s.thr p).run ≠ .running ∧ (∀ i < (s.core p).arr.n, (s.sprig p i).st ≠ .running ∧
      (s.sprig p i).st ≠ .waiting) ∧ (s.core p).til.queue = [] ∧ (s.core p).cpy.cmds = []
    let pends (p : Nat) : Prop := let d := (s.priv p).duty
      (s.core p).mchecks ≠ [] ∨ (d.evthrottle || d.evrestore || d.evwear || d.evlimit) = true ∨ (s.priv p).timecmp.toNat ≤ s.time ∨
        (s.priv p).ipi ≠ [] ∨ (s.core p).ext ≠ 0 ∨ (s.core p).cpy.reports ≠ []
    (∃ t, exec .staticCharge s = .next t ∧ { t with cores := s.cores, statics := s.statics } = s ∧ (0 < n → t.statics = s.time / 125) ∧
      (n = 0 → t = s) ∧ t.core q = { s.core q with thr := { th with
        energy := if (s.core q).resident then BitVec.ofNat 64 (min (2 ^ 64 - 1) (th.energy.toNat + u)) else th.energy
        sat := th.sat || ((s.core q).resident && decide (2 ^ 64 - 1 < th.energy.toNat + u)) } }) ∧
    (s.time < (s.epochs + 1) * 10000 → exec (.powerEpoch m) s = .next s) ∧
    ((s.epochs + 1) * 10000 ≤ s.time → ∃ t, exec (.powerEpoch m) s = .next t ∧ t.epochs = s.epochs + 1 ∧
      { t with cores := s.cores, vats := s.vats, epochs := s.epochs } = s ∧
      (q < 256 →
        let grant := s.coreGrant m q
        let demand := s.coreDemand m q
        let tree := (t.priv q).duty.tree
        tree = (if demand ≤ grant then 16 else max 1 (16 * grant / demand).floor.toNat) ∧ 1 ≤ tree ∧ tree ≤ 16 ∧
          (duty.cap ≤ 31 → bits (t.fdutyWord q) 9 5 = min tree duty.cap) ∧
          (t.priv q).duty.evwear = (duty.evwear || decide ((t.vat (q / 4)).ceilNext < (s.vat (q / 4)).ceilNext)) ∧
          (t.priv q).duty.evthrottle = (duty.evthrottle || decide (tree < 16 ∧ duty.tree = 16)) ∧
          (t.priv q).duty.evrestore = (duty.evrestore || decide (tree = 16 ∧ duty.tree < 16)) ∧
          { t.core q with priv := (s.core q).priv } = s.core q) ∧
      (v < 64 →
        let y := t.vat v
        let point := if s.vatGrant m v < s.vatDemand m v then 0 else min (s.maxFreq v) x.ceilNext
        let base := if x.opnow ≤ 5 then 0 else if x.opnow ≤ 8 then 1 else 2
        y.wear = x.wear + (if m.hotDies.contains (v / 16) then 2 * base else base) ∧ y.ceil = x.ceilNext ∧
          y.ceilNext = min x.ceilNext (10 - min 10 (y.wear / 2 ^ 40)) ∧ y.opnow = x.opnow ∧
          y.next = if point = x.opnow then none else some point)) ∧
    ((List.range 4).map (s.dieGrant m)).foldl (· + ·) 0 = (if (m.pkgOwn : Rat) ≤ s.budget then (s.budget : Rat) - m.pkgOwn else 0) ∧
    ((s.core q).resident = true → (s.dutyOk q = true ↔ th.cycle.toNat % 16 < min duty.tree duty.cap ∧ (s.vat (q / 4)).stopped = false)) ∧
    (∀ n rest, s.sched = .pass n :: rest →
      ((s.epochs + 1) * 10000 ≤ s.time → step s = .next { s with sched := rest }) ∧
      (s.time ≤ (s.epochs + 1) * 10000 → ∃ t, step s = .next t ∧ t.time ≤ (s.epochs + 1) * 10000) ∧
      (s.time < s.epochs * 10000 + 2000 → ∃ t, step s = .next t ∧ t.time ≤ s.epochs * 10000 + 2000 ∧
        (t.time = s.epochs * 10000 + 2000 → v < 64 → (t.vat v).next = none ∧ ∀ p, x.next = some p → (t.vat v).opnow = p))) ∧
    (∀ p, x.next = some p → exec (.operatingPointChange v) s = .next (s.modVat v fun y => { y with opnow := p, next := none })) ∧
    (x.next = none → exec (.operatingPointChange v) s = .next s) ∧
    ((∀ c < 4, quiet (4 * v + c)) → exec (.vatClockStop v) s = .next (s.modVat v fun y => { y with stopped := true })) ∧
    ((∃ c < 4, ¬quiet (4 * v + c)) → exec (.vatClockStop v) s = .next s) ∧
    (x.stopped = true → (∃ c < 4, pends (4 * v + c)) ∨ (∃ y ∈ s.inbound, ∃ h ∈ s.homesOf y, h / 4 = v) →
      exec (.vatClockRestart v) s = .next (s.modVat v fun y => { y with stopped := false })) ∧
    (x.stopped = false ∨ (∀ c < 4, ¬pends (4 * v + c)) ∧ (∀ y ∈ s.inbound, ∀ h ∈ s.homesOf y, h / 4 ≠ v) →
      exec (.vatClockRestart v) s = .next s) ∧
    (x.stopped = false → ∀ ok, exec (.retentionExit v ok) s = .next s) ∧
    (x.stopped = true → exec (.retentionExit v true) s = .next (s.modVat v fun y => { y with stopped := false })) ∧
    (x.stopped = true → ∃ t, exec (.retentionExit v false) s = .next t ∧ (∀ l, t.rd1 l = s.rd1 l) ∧
      (∀ c < 4, (t.thr (4 * v + c)).run = .lost ∧ (t.core (4 * v + c)).resident = false) ∧ (t.vat v).pressbind = 0x50 ∧
      (t.vat v).wshare = 0x1111 ∧ (∀ n, t.sem v n = ⟨0, false, []⟩) ∧ (t.vat v).opnow = x.opnow ∧ (t.vat v).wear = x.wear ∧
      (t.vat v).ceil = x.ceil ∧ (∀ p, p / 4 ≠ v → t.thr p = s.thr p) ∧
      (s.lowestRunning (s.partOf (4 * v)) (some v) none = some q → (s.core q).mchecks.length < 16 →
        (t.core q).mchecks = (s.core q).mchecks ++ [⟨2, BitVec.ofNat 64 v, true⟩])) ∧
    (th.run = .lost → (s.part (s.partOf q)).restart = some entry → ∃ t, exec (.coreRestart q) s = .next t ∧
      (t.thr q).run = .running ∧ (t.thr q).pc = entry ∧ (t.priv q).status.pl = .kernel ∧ (∀ g, t.getG ⟨q, .thread⟩ g = 0) ∧
      (t.priv q).status.nest = false ∧ (t.priv q).coretab = 0 ∧ (∀ p, p ≠ q → t.core p = s.core p) ∧ ∀ l, t.rd1 l = s.rd1 l) ∧
    (th.run ≠ .lost ∨ (s.part (s.partOf q)).restart = none → exec (.coreRestart q) s = .next s)

/-- R191, R252, R330, R348, R373, R374, R375: an error marks its granule or block-store line and changes no byte; one in a dirty line returns the
line to what memory itself holds and is reported, as is a tile that reads as zero from then on; a link change sets the link's bit, holds
traffic to other packages until it has moved, and raises its source (R373); a parked request walks again. A core in `idle` counts as
running where the lowest-numbered running core is told: the model's choice (log 28). -/
def Obligations.ErrorsAreHeldAndReported : Prop :=
  ∀ (s : State) (q g line port : Nat) (va : Word) (z : BitVec 8) (c : BitVec 4) (a : AgentId) (b : Behind),
    let reports (t : State) (detail : BitVec 8) (val : Word) : Prop := (s.thr q).run ≠ .halted → (s.thr q).run ≠ .lost →
      (s.core q).mchecks.length < 16 → (t.core q).mchecks = (s.core q).mchecks ++ [⟨detail, val, false⟩]
    let mask : BitVec 12 := BitVec.ofNat 12 (2 ^ port)
    (∃ t, exec (.uncorrectableError (.granule g)) s = .next t ∧ t.granuleBad g = true ∧ (∀ l, t.rd1 l = s.rd1 l) ∧
      (∀ j, j ≠ g → t.granuleBad j = s.granuleBad j) ∧ t.cores = s.cores) ∧
    (∃ t, exec (.uncorrectableError (.blockLine q line)) s = .next t ∧ (∀ l, l ∈ (t.core q).arr.blkUe ↔ l = line ∨ l ∈ (s.core q).arr.blkUe) ∧
      (t.core q).arr.blk = (s.core q).arr.blk ∧ PackageKept s t) ∧
    (Store.find? s.behind line = some b → ∃ t, exec (.dirtyUe q va line) s = .next t ∧ reports t 1 (va &&& ~~~63#64) ∧
      Store.find? t.behind line = none ∧ t.granuleBad (2 * line + if va.getLsbD 5 then 1 else 0) = true ∧
      ∀ l, t.rd1 l = if l / 64 = line then BitVec.ofNat 8 (b.data.toNat / 256 ^ (l % 64)) else s.rd1 l) ∧
    (Store.find? s.behind line = none → exec (.dirtyUe q va line) s = .next s) ∧
    (∃ t, exec (.tileUe q z c) s = .next t ∧ reports t 4 (BitVec.ofNat 64 (q + z.toNat * 256 + c.toNat * 65536)) ∧
      (∀ j, t.zreg q j = if z.getLsbD j.toNat then 0 else s.zreg q j) ∧
      (∀ j, t.creg q j = if c.getLsbD j.toNat then 0 else s.creg q j) ∧ (t.thr q).g = (s.thr q).g ∧ ∀ l, t.rd1 l = s.rd1 l) ∧
    exec (.parkedRequestResume a) s = .next { s with parks := s.parks.filter fun p => p.who ≠ a } ∧
    (s.firstRunning = some q → port < 12 →
      let up := ({ s with kerranUp := s.kerranUp ||| mask } : State).raiseExternal q (0x1300 + port)
      let down := ({ s with kerranUp := s.kerranUp &&& ~~~mask, rerouting := true } : State).raiseExternal q (0x1300 + port)
      (up.core q).ext.getLsbD (0x1300 + port) = true ∧ exec (.kerranLinkChange port true []) s = .next up ∧
      (s.res = [] → s.sliceQ = [] → s.tagQ = [] → s.monitors = [] → s.parks = [] → s.behind = [] → exec (.kerranLinkChange port false []) s = .next down ∧
        ∃ t, exec (.kerranLinkChange port false [g]) s = .next t ∧ (∀ l, t.rd1 l = s.rd1 l) ∧
          t.unreachable = if s.present.contains g && g != s.pkg && !s.unreachable.contains g then s.unreachable ++ [g]
            else s.unreachable)) ∧
    exec .kerranRerouteDone s = .next { s with rerouting := false }

/-- R254, R283, R380 to R384: a region whose port reports its link down, or a request of which gets no completion, goes to FAILOVER when its
alternate is up and to LOST otherwise, in one step in which a dirty line is stranded with its data, each write in flight is counted,
a fence or release of an agent that waits for it takes POOL_LOST with its address at once, a copy command's has the address to report, and
the reservations, monitors and tagged-word waiters on its lines end, whose instructions take POOL_LOST at once. Loads
and stores of a LOST region take POOL_LOST, but for kernel loads of a lifted line. Completion of a failover, with which the parked accesses to the region go on, a restored link, a completed
write and a back-invalidation change what the rules say; RECOVER returns a LOST region with nothing stranded and some link up to ONLINE,
and one with either unmet takes OPERAND; any other region it leaves as it is. Each change of state raises its source at the region's
EVCORE. That FIRST gives the lowest byte written of a line, and that a region on its alternate port goes to LOST, are the model's
readings (log 27). -/
def Obligations.PoolRegionsFollowTheirLinks : Prop :=
  ∀ (s : State) (r line id : Nat) (a d : BitVec 5) (b : Behind) (w : MemW) (z : StW) (m : MemOp) (x : Xl),
    let g := s.region r
    let ev := bits g.w0 15 8
    let alt := bits g.w0 4 3
    let valid := g.w0.getLsbD 0 = true
    let hasAlt := g.w0.getLsbD 5 = true ∧ g.onAlt = false ∧ (s.port alt).link.getLsbD 0 = true
    let serving := if g.onAlt then alt else bits g.w0 2 1
    let used := if g.st = .failover then alt else serving
    let raised (t : State) : Prop := r < 1024 → (t.core ev).ext.getLsbD (0x1800 + r) = true
    let down := (s.port used).link.getLsbD 0 = false
    let loses (i : Instr) : Prop := i = .poolCompletionTimeout r ∨ i = .poolLinkLost r ∧ down
    let mine (l : Nat) : Bool := isPool l && g.holds l
    let ea := s.effAddr m
    let q := s.cur.core
    let v := s.rg a
    let linked := (s.port (bits g.w0 2 1)).link.getLsbD 0 = true ∨ g.w0.getLsbD 5 = true ∧ (s.port alt).link.getLsbD 0 = true
    let same (t : State) : Prop := ∀ n, n ≠ r → t.region n = s.region n
    ((s.port used).link.getLsbD 0 = true → exec (.poolLinkLost r) s = .next s) ∧
    (valid → ∀ i, loses i →
      (g.st = .online → hasAlt → ∃ t, exec i s = .next t ∧ t.region r = { g with st := .failover } ∧ same t ∧ raised t ∧
        ∀ l, t.rd1 l = s.rd1 l) ∧
      (g.st = .failover ∨ g.st = .online ∧ ¬hasAlt → ∃ t, exec i s = .next t ∧ (t.region r).st = .lost ∧ (t.region r).inFlight = [] ∧
        same t ∧ raised t ∧ (∀ e ∈ t.res, mine (64 * e.1) = false) ∧ (∀ n ∈ t.monitors, mine n.loc = false) ∧
        (∀ e ∈ t.tagQ, mine e.1 = false) ∧
        (s.behind = [] → g.inFlight = [] → (∀ l, t.rd1 l = s.rd1 l) ∧ (t.region r).stranded = g.stranded ∧
          ∀ c n, s.parks = [] → s.poolFences = [] → s.res = [] → s.sliceQ = [] → s.tagQ = [] → s.inbound = [] → s.monitors = [n] → mine n.loc = true →
            n.who = ⟨c, .thread⟩ → (s.priv c).status.nest = false →
            TrapTaken s t c 0x06 0 false (s.thr c).pc (BitVec.ofNat 64 n.va)) ∧
        (s.behind = [] → g.lostcnt + g.inFlight.length < 2 ^ 48 → (t.region r).lostcnt = g.lostcnt + g.inFlight.length) ∧
        (s.behind = [(line, b)] → g.holds (64 * line) = true → g.inFlight = [] → (∀ n, s.strandedOn n < 2048) →
          ∃ die, die < 4 ∧
            Store.find? (t.region r).stranded line = some (BitVec.ofNat 512 (s.rdN (64 * line) 64), die, false) ∧
            ∀ l, t.rd1 l = if l / 64 = line then BitVec.ofNat 8 (b.data.toNat / 256 ^ (l % 64)) else s.rd1 l) ∧
        (s.behind = [] → g.inFlight = [⟨id, line, b⟩] → g.lostcnt = 0 →
          (t.region r).first = 64 * line + b.va % 64 - 2 ^ 50 ∧
            (∀ c f, s.parks = [] → s.res = [] → s.sliceQ = [] → s.tagQ = [] → s.inbound = [] → s.monitors = [] → s.poolFences = [f] →
              f.who = ⟨c, .thread⟩ → s.partOf c = bits g.w0 17 16 → id ∈ f.wait.waits → f.wait.lost = none →
              (s.priv c).status.nest = false → t.poolFences = [] ∧ (t.priv c).trapcause = 0x06 ∧ (t.priv c).trappc = (s.thr c).pc ∧
                (t.priv c).trapval = f.line.getD (BitVec.ofNat 64 b.va) ∧ (t.priv c).status.nest = true) ∧
            (∀ c y k, s.partOf c = bits g.w0 17 16 → k ∈ (s.core c).cpy.cmds → k.release = some y → id ∈ y.waits → y.lost = none →
              { k with release := some { y with lost := some b.va } } ∈ (t.core c).cpy.cmds) ∧
            ∀ l, t.rd1 l = if l / 64 = line then BitVec.ofNat 8 (b.data.toNat / 256 ^ (l % 64)) else s.rd1 l))) ∧
    (valid → g.st = .failover → ∃ t, exec (.failoverComplete r) s = .next t ∧ t.region r = { g with st := .online, onAlt := true } ∧
      same t ∧ raised t ∧ t.parks = (s.parks.filter fun k => !mine (64 * k.line)) ∧ ∀ l, t.rd1 l = s.rd1 l) ∧
    (g.st ≠ .failover → exec (.failoverComplete r) s = .next s) ∧
    (∃ t, exec (.poolLinkRestored r) s = .next t ∧ (t.port serving).link = 3 ∧ t.pool = s.pool ∧
      (∀ j, j ≠ serving → t.port j = s.port j) ∧ ∀ l, t.rd1 l = s.rd1 l) ∧
    (g.st = .lost → valid → s.regionOf x.loc = some r → isPool x.loc = true → canonical ea = true → x.crf = 0 →
      (ea.toNat % memWBytes w = 0 → s.access (s.accOf s.cur) .r ea = .ok x →
        (∀ data die, Store.find? g.stranded (x.loc / 64) ≠ some (data, die, true)) → Raises s (.ld w d m) 0x06 0 ea) ∧
      (ea.toNat % stWBytes z = 0 → s.access (s.accOf s.cur) .w ea = .ok x → Raises s (.st z d m) 0x06 0 ea) ∧
      (s.cur.who = .thread → (s.priv q).status.pl ≠ .user → (s.ag s.cur).ahead = [] → ea.toNat % memWBytes w = 0 →
        s.access (s.accOf s.cur) .r ea = .ok x → ∀ data die, Store.find? g.stranded (x.loc / 64) = some (data, die, true) →
        Computes s (.ld w d m) d (memWExtend w (data.toNat / 256 ^ (x.loc % 64) % 256 ^ memWBytes w)))) ∧
    (∃ t, exec (.poolWriteCompletion r line) s = .next t ∧ (t.region r).inFlight = g.inFlight.eraseP (fun f => f.line = line) ∧ same t ∧
      { t.region r with inFlight := g.inFlight } = g ∧ { t with pool := s.pool } = s) ∧
    (isPool (64 * line) = false → exec (.backInvalidate line) s = .next s) ∧
    (isPool (64 * line) = true → ∃ t, exec (.backInvalidate line) s = .next t ∧ Store.find? t.behind line = none ∧
      (∀ l, t.rd1 l = s.rd1 l) ∧ (s.regionOf (64 * line) = some r → Store.find? s.behind line = some b →
        (t.region r).inFlight = g.inFlight ++ [⟨s.flights, line, b⟩] ∧ t.flights = s.flights + 1)) ∧
    (s.cur.who = .thread → (s.priv q).status.pl = .kernel → v.getLsbD 48 = true → bits v 59 50 = r → ¬valid ∨ g.st ≠ .lost →
      ∃ t, exec (.recover a) s = .next t ∧ t.pcOf s.cur = s.nextPc s.cur ∧ t.pool = s.pool ∧ ∀ n, (t.core n).ext = (s.core n).ext) ∧
    (s.cur.who = .thread → (s.priv q).status.pl = .kernel → v.getLsbD 48 = true → bits v 59 50 = r → valid → g.st = .lost →
      (g.stranded = [] → linked → ∃ t, exec (.recover a) s = .next t ∧ t.pcOf s.cur = s.nextPc s.cur ∧ (t.region r).st = .online ∧
        (t.region r).lostcnt = 0 ∧ (t.region r).first = 0 ∧ same t ∧ raised t ∧ (t.priv q).poolRegion.toNat = r ∧
        (t.priv q).poolWord.toNat = bits v 61 60 ∧ ∀ l, t.rd1 l = s.rd1 l) ∧
      (g.stranded ≠ [] ∨ ¬linked → (s.priv q).status.nest = false → Traps s (.recover a) 0x0E 0 v))

/-- R282, R360, R367, R373, R376 to R379: `HPCTL` and link changes of a port, each report of which raises source 0x1000 + j; with IOTEN clear
its requests are answered Unsupported; a function whose entry serves it reads, writes and updates memory with the rights of its domain, in
a line of memory, and the clock of the slice it needs restarts; a refused request holds the first fault and raises source 0x1100 + j, and a
refused write gets no answer; a request for a line that another party has reserved waits; translations and pages are answered from the
tables, an invalid page raising source 0x1200 + j; a doorbell raises its source. A later request of a requester does not pass its posted
write that waits, and the record of what waits and of the answer are the model's (logs 1 and 26), as are that a request refused while
IOTEN is clear leaves no fault record, and that a write of `HPCTL` that may not change MODE takes its other fields (log 26). -/
def Obligations.HostPortsServeRequests : Prop :=
  ∀ (s : State) (j core size len code detail : Nat) (rid : BitVec 16) (va v w : Word) (data : BitVec 32) (bytes : List Byte) (w0 : Nat)
    (x : Xl) (up flit hr hw : Bool) (m : Mapped) (e : Inbound),
    let p := s.port j
    let me : Inbound := ⟨s.inboundId, j, rid, .page va⟩
    let acc := s.ioAcc me w0
    let ev := bits p.ctl 9 2
    let raises (src : Nat) (t : State) : Prop := j < 4 → (t.core ev).ext.getLsbD (src + j) = true
    let quiet := NoQueues s ∧ s.inbound = [] ∧ s.tagQ = [] ∧ s.monitors = [] ∧ s.parks = [] ∧ s.poolFences = []
    let ticking := ∀ n, (s.vat n).stopped = false
    let answers (i : Instr) (r : Answer) : Prop := exec i s = .next { s with answer := some r }
    let old := s.rdN x.loc size
    let inLine (n : Nat) : Prop := 0 < n ∧ va.toNat % 64 + n ≤ 64
    let finds (rt : Right) (n : Nat) : Prop := canonical va = true ∧ s.access acc rt va = .ok x ∧ x.crf = 0 ∧ s.poolLost x.loc = false ∧
      isDevice x.loc = false ∧ s.cutOff x.loc = false ∧ (rt = .r → s.ueAt x.loc n = false)
    let serves (rt : Right) (n : Nat) : Prop := finds rt n ∧ s.blocked acc.agent (x.loc / 64) = false
    let stores (i : Instr) (n : Nat) (val : Nat) (r : Answer) : Prop := ∃ t, exec i s = .next t ∧ t.answer = some r ∧ Stored s t x.loc n val ∧
      t.res = [] ∧ t.inbound = []
    let fails (i : Instr) (code : Nat) (r : Option Answer) : Prop := ∃ t, exec i s = .next t ∧ t.answer = r ∧ (∀ l, t.rd1 l = s.rd1 l) ∧
      raises 0x1100 t ∧ (p.fsrc.getLsbD 63 = true → t.port j = p) ∧ (p.fsrc.getLsbD 63 = false → code < 256 → (t.port j).fault = va ∧
        (t.port j).fsrc = BitVec.ofNat 64 (2 ^ 63 + code * 65536 + rid.toNat))
    let requests : List (Instr × PortReq) := [(.inboundRead j rid va len, .read va len), (.inboundWrite j rid va bytes, .write va bytes),
      (.fetchadd j rid va size v, .fetchadd va size v), (.swap j rid va size v, .swap va size v),
      (.inboundCas j rid va size v w, .cas va size v w), (.atsTranslationRequest j rid va, .translation va), (.pageRequest j rid va, .page va)]
    let waits (r : Instr × PortReq) : Prop := exec r.1 s = .next { s with inbound := s.inbound ++ [{ me with req := r.2 }] }
    let mode := if p.link.getLsbD 0 then p.ctl.getLsbD 1
      else v.getLsbD 1 && (p.ctl.getLsbD 1 || decide (s.cxlPorts < 2))
    let live := up && (flit || !p.ctl.getLsbD 1)
    (exec (.hpctlWrite j v) s = .next (s.modPort j fun k => { k with
      ctl := (v &&& 0x000FFFFFFFF003FD) ||| (if mode then 2 else 0) })) ∧
    (∃ t, exec (.doorbell core data) s = .next t ∧ (t.core core).ext.getLsbD (data.toNat % 4096) = true ∧
      { t with cores := s.cores } = s ∧ (t.core core).thr = (s.core core).thr) ∧
    (s.pool = [] → ∃ t, exec (.hostLinkChange j up flit) s = .next t ∧ (t.port j).link = (if live then (if flit then 3 else 1) else 0) ∧
      raises 0x1000 t ∧ { t with cores := s.cores, ports := s.ports } = s) ∧
    exec (.deviceInvalidationAck j) s = .next (s.modPort j fun k => { k with inval := false }) ∧
    (e ∈ s.inbound → e.port = j → e.rid = rid → (∃ a bs, e.req = .write a bs) → ∀ r ∈ requests, waits r) ∧
    (quiet → p.ctl.getLsbD 0 = false → ∀ r ∈ requests, answers r.1 .unsupported) ∧
    (quiet → p.ctl.getLsbD 0 = true → s.ioEntry me = .error (.trap code detail) →
      ∀ r ∈ requests, fails r.1 code (if r.2.posted then s.answer else some .unsupported)) ∧
    (quiet → p.ctl.getLsbD 0 = true → s.ioEntry me = .ok w0 →
      (inLine len → serves .r len → (ticking → answers (.inboundRead j rid va len) (.data (s.rdBytes x.loc len))) ∧
        ∃ t, exec (.inboundRead j rid va len) s = .next t ∧ t.answer = some (.data (s.rdBytes x.loc len)) ∧
          (x.homePkg = s.pkg → (t.vat (x.home / 4)).stopped = false)) ∧
      (inLine bytes.length → serves .w bytes.length → stores (.inboundWrite j rid va bytes) bytes.length (leNat bytes) .done) ∧
      (size = 4 ∨ size = 8 → va.toNat % size = 0 → serves .r size → serves .w size →
        stores (.fetchadd j rid va size v) size ((old + v.toNat) % 2 ^ (8 * size)) (.data (leBytes size old)) ∧
        stores (.swap j rid va size v) size (v.toNat % 2 ^ (8 * size)) (.data (leBytes size old)) ∧
        (old = v.toNat % 2 ^ (8 * size) →
          stores (.inboundCas j rid va size v w) size (w.toNat % 2 ^ (8 * size)) (.data (leBytes size old))) ∧
        (old ≠ v.toNat % 2 ^ (8 * size) → ticking → answers (.inboundCas j rid va size v w) (.data (leBytes size old)))) ∧
      (size ≠ 4 ∧ size ≠ 8 ∨ va.toNat % size ≠ 0 →
        ∀ i ∈ [Instr.fetchadd j rid va size v, .swap j rid va size v, .inboundCas j rid va size v w], fails i 0x0E (some .unsupported)) ∧
      (size = 4 ∨ size = 8 → va.toNat % size = 0 → canonical va = true → s.allowed acc .r va = .ok hr → s.allowed acc .w va = .ok hw →
        hr = false ∨ hw = false → ∀ i ∈ [Instr.fetchadd j rid va size v, .swap j rid va size v, .inboundCas j rid va size v w],
          fails i 0x04 (some .unsupported)) ∧
      (inLine len → canonical va = true → s.access acc .r va = .error (.trap code detail) →
        fails (.inboundRead j rid va len) code (some .unsupported)) ∧
      (inLine bytes.length → canonical va = true → s.access acc .w va = .error (.trap code detail) →
        fails (.inboundWrite j rid va bytes) code s.answer) ∧
      (w0.testBit 1 = true → canonical va = true → s.allowed acc .r va = .ok hr → s.allowed acc .w va = .ok hw →
        ∃ t, exec (.atsTranslationRequest j rid va) s = .next t ∧ t.answer = some (.translation va hr hw) ∧ (t.port j).ats = true ∧
          { t with ports := s.ports, vats := s.vats, answer := s.answer } = s) ∧
      (w0.testBit 2 = true →
        (canonical va = true → inSysWindow va = false → s.walkPage acc.agent va = .ok m →
          (ticking → answers (.pageRequest j rid va) (.page true)) ∧ ∃ t, exec (.pageRequest j rid va) s = .next t ∧
            t.answer = some (.page true) ∧ { t with vats := s.vats, answer := s.answer } = s) ∧
        (canonical va = false ∨ inSysWindow va = false ∧ s.walkPage acc.agent va = .error (.trap code detail) →
          ∃ t, exec (.pageRequest j rid va) s = .next t ∧ t.answer = some (.page false) ∧ raises 0x1200 t ∧
            { t with cores := s.cores, vats := s.vats, answer := s.answer } = s))) ∧
    (s.inbound = [] → p.ctl.getLsbD 0 = true → s.ioEntry me = .ok w0 → ticking → inLine len → finds .r len →
      s.blocked acc.agent (x.loc / 64) = true → waits (.inboundRead j rid va len, .read va len))

/-! ### Caltik, firmware, start-up -/

/-- R373, R387 to R391: one request at a time, any other answered BUSY; each command ends in a response with its command, its status, its
payload's length, its tag and its payload, which MAILBOX_RESPONSE_READY puts into the mailbox, raising source 0x1400 on the core that wrote
the request. A command that is not accepted answers UNSUPPORTED and changes nothing, and the others have the effects of Table 8. The
model's choices (log 16): the features it has (the mask 0xFF); UNSUPPORTED of a package held in reset, other than FW_STAGE; a payload over
4,088 bytes, a PARTITION that cannot be set, a LOG_READ past the log and a header watchdog outside 30 to 3,600 s as BADARG, that watchdog's
0 as 300 s, and 63 entries of the log as a payload's most; that FINISH answers OK or AUTHFAIL; the bytes of a measurement, a free value of
what it covers; that no time passes at the end of a watchdog that nothing has confirmed, and that a confirmation which comes then is a
bad argument. A watchdog that expires unconfirmed resets the package into the previous slot, where that verifies, with a rollback
recorded; what outlives that reset (the time, the budget, Caltik's state, other packages' and pool memory) is the model's reading
(log 2). -/
def Obligations.CaltikAnswersItsCommands : Prop :=
  ∀ (s : State) (tag : BitVec 32) (want : BitVec 128) (watts index offset len ver sec wd : Nat) (map : List PartBoot) (boot : Startup)
    (chunk msg : List Byte) (good : Bool) (r : Response),
    let k := s.caltik
    let other := 1 - k.active
    let reply (cmd st : BitVec 8) (y : Payload) : Response := ⟨k.requester, cmd, st, BitVec.ofNat 16 y.toBytes.length, tag, y⟩
    let answers (cmd : BitVec 8) (i : Instr) (st : BitVec 8) (P : Payload → State → Prop) : Prop := ∃ t y,
      exec i s = .next { t with caltik := { t.caltik with busy := some (reply cmd st y) } } ∧ t.caltik.busy = none ∧ P y t
    let plain (u : State) (y : Payload) (t : State) : Prop := y = .bytes [] ∧ t = u
    let accepts (b : Option Nat) : Prop := k.negotiated = true ∧ ∀ n ∈ b, k.feature.getLsbD n = true
    let spdm : List Instr := [.getVersion tag, .getCapabilities tag, .getDigests tag, .getMeasurements tag index,
      .getCertificate tag offset len]
    let messages : List Instr := [.spdm tag msg, .negotiateAlgorithms tag msg, .challenge tag msg, .keyExchange tag msg]
    let gates : List (BitVec 8 × Instr × Option Nat) := [(0x10, .setLimit tag watts, some 3), (0x11, .partition tag map, some 4),
      (0x20, .fwStage tag offset chunk good ver sec, some 1), (0x21, .fwActivate tag wd boot, some 1), (0x22, .fwConfirm tag, some 1),
      (0x40, .logRead tag index, none), (0x30, .finish tag msg, some 2)] ++ (spdm ++ messages).map fun i => (0x30, i, some 2)
    let verifies (x : FwSlot) (m : FwImage) : Prop := x.valid = true ∧ m.signed = true ∧ k.minSec ≤ x.secVersion
    (k.busy = some r → ∀ g ∈ (0x01, Instr.negotiate tag want, none) :: (0x02, Instr.summary tag, none) :: gates, exec g.2.1 s =
      .next (({ s with caltik := { k with response := some (reply g.1 3 (.bytes [])) } } : State).raiseExternal k.requester 0x1400)) ∧
    (k.busy = some r → exec .mailboxResponseReady s = .next (({ s with
      caltik := { k with busy := none, response := some r, lastTag := r.tag } } : State).raiseExternal r.core 0x1400)) ∧
    (k.busy = none → exec .mailboxResponseReady s = .next s ∧
      answers 0x01 (.negotiate tag want) 0 (fun y t => y = .bytes (leBytes 16 (want &&& 0xFF).toNat) ∧
        t = { s with caltik := { k with feature := want &&& 0xFF, negotiated := true } }) ∧
      (k.negotiated = false ∨ k.feature.getLsbD 0 = true →
        answers 0x02 (.summary tag) 0 fun y t => t = s ∧ ∃ x : Summary, y = .summary x ∧ x.feature = k.feature ∧ x.slot0 = k.slot0 ∧
          x.slot1 = k.slot1 ∧ x.active = k.active ∧ x.budget = s.budget ∧ x.vatPart = s.vatPart ∧ x.granPart = s.granPart ∧
          x.portPart = s.portPart ∧ x.rollback = k.rollback ∧ x.logLength = k.log.length ∧ x.lastTag = k.lastTag) ∧
      (k.negotiated = true → k.feature.getLsbD 0 = false → answers 0x02 (.summary tag) 1 (plain s)) ∧
      (∀ g ∈ gates, ¬accepts g.2.2 ∨ s.heldInReset = true ∧ g.1 ≠ 0x20 → answers g.1 g.2.1 1 (plain s)) ∧
      (accepts (some 1) →
        let ok := good && decide (k.minSec ≤ sec)
        (4088 < chunk.length → answers 0x20 (.fwStage tag offset chunk good ver sec) 2 (plain s)) ∧
        (chunk.length ≤ 4088 → answers 0x20 (.fwStage tag offset chunk good ver sec) (if ok then 0 else 4) fun y t => y = .bytes [] ∧
          (∀ j (h : j < chunk.length), Store.find? (t.caltik.image other).bytes (offset + j) = some chunk[j]) ∧
          (t.caltik.image other).signed = good ∧
          t = { s with caltik := { k with
            slot0 := if other = 0 then ⟨ver, sec, ok⟩ else k.slot0, slot1 := if other = 0 then k.slot1 else ⟨ver, sec, ok⟩
            image0 := if other = 0 then t.caltik.image0 else k.image0
            image1 := if other = 0 then k.image1 else t.caltik.image1 } })) ∧
      (s.heldInReset = false →
        (accepts (some 3) → if 1200 ≤ watts ∧ watts ≤ 2400
          then answers 0x10 (.setLimit tag watts) 0 fun y t => y = .bytes [] ∧ t.budget = watts ∧
            (∀ q < 256, (t.priv q).duty.evlimit = true ∧ (t.thr q) = s.thr q ∧
              { t.priv q with duty := (s.priv q).duty } = s.priv q) ∧
            { t with cores := s.cores, budget := s.budget } = s
          else answers 0x10 (.setLimit tag watts) 2 (plain s)) ∧
        (accepts (some 4) → if s.mapOk map && s.mapFree map
          then answers 0x11 (.partition tag map) 0 fun y t => y = .bytes [] ∧
            (∀ p (h : p < map.length), (∀ v ∈ map[p].vats, Store.get t.vatPart 0 v = p) ∧
              (∀ g ∈ map[p].granules, Store.get t.granPart 0 g = p) ∧ (∀ j ∈ map[p].ports, Store.get t.portPart 0 j = p) ∧
              t.part p = Part.reset) ∧
            { t with vatPart := s.vatPart, granPart := s.granPart, portPart := s.portPart, parts := s.parts } = s
          else answers 0x11 (.partition tag map) 2 (plain s)) ∧
        (accepts (some 1) →
          let w := if wd = 0 then 300 else wd
          ((∀ d, k.watchdog = some d → s.time < d) →
            answers 0x22 (.fwConfirm tag) 0 (plain { s with caltik := { k with confirmed := true, watchdog := none } })) ∧
          (∀ d, k.watchdog = some d → d ≤ s.time → answers 0x22 (.fwConfirm tag) 2 (plain s)) ∧
          ((k.slot other).valid = false → answers 0x21 (.fwActivate tag wd boot) 4 (plain s)) ∧
          ((k.slot other).valid = true → (w < 30 ∨ 3600 < w → answers 0x21 (.fwActivate tag wd boot) 2 (plain s)) ∧
            (30 ≤ w → w ≤ 3600 → ∃ t, exec (.packageReset boot) { s with caltik := { k with
                active := other, watchdog := some (s.time + w * 1000000000), confirmed := false, rollback := false } } = .next t ∧
              answers 0x21 (.fwActivate tag wd boot) 0 (plain t)))) ∧
        (accepts none → if index ≤ k.log.length then answers 0x40 (.logRead tag index) 0 fun y t => y = .log ((k.log.drop index).take 63) ∧ t = s
          else answers 0x40 (.logRead tag index) 2 (plain s)) ∧
        (accepts (some 2) →
          (∀ i ∈ spdm ++ (if msg.length ≤ 4088 then messages else []),
            answers 0x30 i 0 fun y t => (∃ l, y = .bytes l) ∧ { t with fresh := s.fresh } = s) ∧
          (4088 < msg.length → ∀ i ∈ .finish tag msg :: messages, answers 0x30 i 2 (plain s)) ∧
          answers 0x30 (.getMeasurements tag index) 0 (fun y t => y = .bytes (Config.freeMeasurement index s.measured) ∧ t = s) ∧
          (msg.length ≤ 4088 → ∃ st, (st = 0 ∨ st = 4) ∧
            answers 0x30 (.finish tag msg) st fun y t => (∃ l, y = .bytes l) ∧ { t with fresh := s.fresh } = s)))) ∧
    (∀ n rest d, s.sched = .pass n :: rest → k.watchdog = some d → k.confirmed = false → s.time ≤ d →
      ∃ t, step s = .next t ∧ t.time ≤ d) ∧
    ((∀ d, k.watchdog = some d → s.time < d ∨ k.confirmed = true) → exec (.fwWatchdogExpiry boot) s = .next s) ∧
    (∀ d, k.watchdog = some d → d ≤ s.time → k.confirmed = false →
      exec (.fwWatchdogExpiry boot) s = exec (.packageReset boot) { s with caltik := { k with
        active := other, watchdog := none, confirmed := true, rollback := true } } ∧
      ∃ t, exec (.fwWatchdogExpiry boot) s = .next t ∧ t.caltik.rollback = true ∧ t.caltik.confirmed = true ∧ t.caltik.watchdog = none ∧
        t.caltik.negotiated = false ∧ t.time = s.time ∧ t.budget = s.budget ∧ t.pkg = boot.pkg ∧ t.present = boot.present ∧
        (verifies (k.slot other) (k.image other) → t.caltik.active = other ∧ t.heldInReset = false) ∧
        (boot.parts = [] → s.behind = [] → (∀ q, t.core q = CoreSt.reset) ∧ ∀ l, t.rd1 l = if s.outlives boot l then s.rd1 l else 0))

/-- R310, R392: a firmware call of a thread at kernel privilege outside a handler performs its service and returns 0 in g1, or 2 for a bad
argument with nothing done; at user privilege it is a supervisor call. What the services write is Caltik's: the bytes of a log entry are
the model's free value of that entry (log 16). That a call is made in one step, and that a SIGN of an address that is not canonical and a
LOG_READ of an index past the last entry are bad arguments, are the model's readings (log 17). -/
def Obligations.FirmwareCallsReturnTheirResults : Prop :=
  ∀ (s : State) (x y : Nat → Xl), s.cur.who = .thread → (s.priv s.cur.core).status.nest = false →
    let q := s.cur.core
    let w := s.rg 2
    let at_ (va : Word) (k : Nat) : Word := va + BitVec.ofNat 64 k
    let outputs (i : Instr) (n : Nat) : Prop := (∀ k < n, Ready s s.cur .w (at_ (s.rg 3) k) (x k)) →
      ∃ t, exec i s = .next t ∧ t.pcOf s.cur = s.nextPc s.cur ∧ (∀ r, t.getG s.cur r = if r = 1 then 0 else s.getG s.cur r) ∧
        (∀ l, t.rd1 l = s.rd1 l) ∧ ∀ l, (∀ k < n, l ≠ (x k).loc) → t.seen s.cur l = s.seen s.cur l
    let bad (i : Instr) : Prop := Computes s i 1 2
    ((s.priv q).status.pl = .user →
      ∀ i ∈ [(Instr.fwCallVersion, 0xFF00#16), (.sign, 0xFF01), (.fwCallSetLimit, 0xFF02), (.setRestart, 0xFF03), (.fwCallLogRead, 0xFF04)],
        ∃ t, exec i.1 s = .next t ∧ TrapTaken s t q 0x09 0 false (s.nextPc s.cur) (i.2.setWidth 64)) ∧
    ((s.priv q).status.pl = .kernel →
      (∀ i ∈ [Instr.fwCallVersion, .svc 0xFF00], ∃ t v, exec i s = .next t ∧
        let u := ((s.setG s.cur 2 v).setG s.cur 3 (s.caltik.feature.setWidth 64)).setG s.cur 4 ((s.caltik.feature >>> 64).setWidth 64)
        AgentDone u t s.cur 1 0 0 (s.nextPc s.cur) (s.ag s.cur).sb ∧ PackageKept u t) ∧
      (∀ i ∈ [Instr.fwCallSetLimit, .svc 0xFF02],
        (1200 ≤ w.toNat → w.toNat ≤ 2400 → ∃ t, exec i s = .next t ∧ t.budget = w.toNat ∧ t.getG s.cur 1 = 0 ∧
          t.pcOf s.cur = s.nextPc s.cur ∧ (∀ c < 256, (t.priv c).duty.evlimit = true) ∧ ∀ l, t.rd1 l = s.rd1 l) ∧
        (w.toNat < 1200 ∨ 2400 < w.toNat → bad i)) ∧
      (∀ i ∈ [Instr.setRestart, .svc 0xFF03],
        (canonical w = true → isHeadAddr w.toNat = true → ∃ t, exec i s = .next t ∧
          let u := s.modPart (s.partOf q) fun p => { p with restart := some w }
          AgentDone u t s.cur 1 0 0 (s.nextPc s.cur) (s.ag s.cur).sb ∧ PackageKept u t) ∧
        (canonical w = false ∨ isHeadAddr w.toNat = false → bad i)) ∧
      (∀ i ∈ [Instr.sign, .svc 0xFF01],
        ((∀ k < 48, Readable s s.cur (at_ w k) 1 (y k)) → outputs i 96) ∧ (canonical w = false → bad i)) ∧
      ∀ i ∈ [Instr.fwCallLogRead, .svc 0xFF04],
        (∀ h : w.toNat < s.caltik.log.length, outputs i 64 ∧ ((∀ k < 64, Ready s s.cur .w (at_ (s.rg 3) k) (x k)) →
          (∀ k < 64, ∀ n < 64, k ≠ n → (x k).loc ≠ (x n).loc) →
          ∃ t, exec i s = .next t ∧ ∀ k < 64, t.seen s.cur (x k).loc = Config.freeLogByte s.caltik.log[w.toNat] k)) ∧
        (s.caltik.log.length ≤ w.toNat → bad i))

/-- R252, R374, R385, R390, R393: a reset with a slot that verifies, signature and security version, leaves every HBM byte of the package
zero but for the boot images and their tables, everything else at reset but what outlives it, with the package's number and its image as
Caltik assigns them, and starts every core of a partition whose image verifies at its entry, at kernel privilege, with `CORETAB.SELF` its
position in the partition; without such a slot the package stays in reset. The model's choices: vats that the map does not name belong to
partition 0 (log 5); the cores of a partition whose image fails to verify, and of a map that the package cannot have, stay off, the image
stands in its 2 MiB frame at the offset of its virtual address, attribute record 0 and the layout of the table are as stated here, and the
time base, the budget and the memory that `outlives` names outlive the reset (log 2). -/
def Obligations.PackageResetStartsThePartitions : Prop :=
  ∀ (s : State) (number : Nat) (image : List Nat) (b : PartBoot) (more : List PartBoot),
    let k := s.caltik
    let none_ : Startup := ⟨number, image, []⟩
    let one : Startup := ⟨number, image, b :: more⟩
    let all := b :: more
    let first (q : Nat) : Bool := !more.any fun x => x.vats.contains (q / 4)
    let home := ((List.range 256).find? first).getD 0
    let verifies (x : FwSlot) (m : FwImage) : Prop := x.valid = true ∧ m.signed = true ∧ k.minSec ≤ x.secVersion
    let valid := verifies k.slot0 k.image0 ∨ verifies k.slot1 k.image1
    let mapOk := (all.flatMap fun x => x.vats).Nodup ∧ (all.flatMap fun x => x.granules).Nodup ∧ (all.flatMap fun x => x.ports).Nodup ∧
      (∀ x ∈ all, (∀ v ∈ x.vats, v < 64) ∧ ∀ j ∈ x.ports, j < 4) ∧ all.length ≤ 4 ∧ (image.length ≤ 1 ∨ more = [])
    let at_ := b.imageAt / 2 ^ 21 * 2 ^ 21 + b.va.toNat % 2 ^ 21
    (valid → s.behind = [] → ∃ t, exec (.packageReset none_) s = .next t ∧ (∀ q, t.core q = CoreSt.reset) ∧ t.heldInReset = false ∧
      (∀ l, t.rd1 l = if s.outlives none_ l then s.rd1 l else 0) ∧ (∀ p, t.part p = Part.reset) ∧ t.time = s.time ∧ t.budget = s.budget ∧
      t.caltik.negotiated = false ∧ (t.caltik.slot t.caltik.active).valid = true ∧ t.pkg = number ∧ t.present = image ∧
      (∀ j, t.port j = Port.reset) ∧ t.inbound = [] ∧ t.res = [] ∧ t.monitors = [] ∧ t.arrivals = [] ∧ t.tc = []) ∧
    (¬valid → ∃ t, exec (.packageReset one) s = .next t ∧ t.heldInReset = true ∧ ∀ q, (t.thr q).run = .off) ∧
    (valid → ¬mapOk ∨ (∀ x ∈ all, Config.freeVerifies x.image = false) →
      ∃ t, exec (.packageReset one) s = .next t ∧ ∀ q, t.core q = CoreSt.reset) ∧
    (valid → mapOk → Config.freeVerifies b.image = true → (∀ x ∈ more, Config.freeVerifies x.image = false) →
      ∃ t, exec (.packageReset one) s = .next t ∧
      (∀ q < 256, t.core q = if first q then { CoreSt.reset with
          thr := { Thread.reset with pc := b.entry, run := .running }
          priv := { CoreSt.reset.priv with coretab := BitVec.ofNat 64 ((List.range q).countP first) } } else CoreSt.reset) ∧
      (∀ p (h : p < all.length), (∀ v ∈ all[p].vats, Store.get t.vatPart 0 v = p) ∧
        (∀ g ∈ all[p].granules, Store.get t.granPart 0 g = p) ∧ ∀ j ∈ all[p].ports, Store.get t.portPart 0 j = p) ∧
      t.caltik.boots = all.map (fun x => x.image) ∧
      bit (t.part 0).ptroot 0 = true ∧ bits (t.part 0).ptroot 51 12 = b.tableAt / 4096 % 2 ^ 40 ∧ bit (t.part 0).protroot 0 = false ∧
      (at_ + b.image.length ≤ b.tableAt ∨ b.tableAt + 0x1000 * (7 + b.image.length / 2 ^ 30) ≤ at_ →
        ∀ j (h : j < b.image.length), t.rd1 (at_ + j) = b.image[j]) ∧
      t.rdN (b.tableAt + 2048) 8 = 1 + 256 * home)

/-- R55, R56, R252, R312, R356, R362, R369 to R371, R339, R376, R385, R393: what reset leaves, for the values the manual gives. That memory lists
nothing, and so stands in its canonical form, is the model's. -/
def Obligations.ResetState : Prop :=
  let s := State.reset
  (∀ l, isHbm l = true → s.rd1 l = 0) ∧
  (∀ q, (s.thr q).rm = 1 ∧ (s.thr q).fpstat = 0 ∧ (s.thr q).waitlim = 0 ∧ (s.priv q).status = Status.reset ∧
    (s.priv q).timecmp = 0xFFFFFFFFFFFFFFFF ∧ (s.priv q).estatic = 2000 ∧ (s.priv q).duty.cap = 16 ∧ (s.priv q).barcfg = 0 ∧
    (List.range 16).map (fun n => (Store.get (s.priv q).eweight 0 n).toNat) =
      [125, 250, 250, 125, 500, 500, 1000, 500, 1000, 2000, 2500, 3000, 4000, 20000, 250, 500] ∧
    (∀ i, Store.get (s.priv q).spwin 0 i = 0) ∧ s.binding q ≠ 3 ∧ (∀ g, s.getG ⟨q, .thread⟩ g = 0)) ∧
  (∀ v, (s.vat v).pressbind = 0x50 ∧ (s.vat v).wshare = 0x1111 ∧ ∀ n, s.sem v n = ⟨0, false, []⟩) ∧
  (∀ p, s.part p = ⟨0, 0, 0, none⟩) ∧ (∀ j, (s.port j).ctl = 0) ∧ s.res = [] ∧ s.memWf

/-! ### Encoding, the step, the invariant -/

/-- R64, R67 and the encoding tables: of every instruction that the opcode table's words encode and whose fields are not forbidden, the
encoded head and tail decode to it, with every operand. -/
def Obligations.DecodeOfEncode : Prop :=
  ∀ i : Instr, i.encodable = true → i.wellFormed = true → decode (encode i).head (encode i).tail = .ok i

/-- R64, R83: an assigned head and a tail of the length it names that decode to a well-formed instruction are its encoding; what is
decoded is always well-formed. -/
def Obligations.EncodeOfDecode : Prop :=
  ∀ (h : BitVec 16) (t : Nat) (i : Instr), decode h t = .ok i → opAssigned (h.toNat / 256) = true → t < 2 ^ (16 * headTl h) →
    i.wellFormed = true ∧ i.encodable = true ∧ (encode i).head = h ∧ (encode i).tail = t

/-- Words that the manual writes out (chapters 03, 06, 07, 09, 11, 13, 15, 16 and 18) decode to the instructions they stand for. -/
def Obligations.DecodesTheSpecsWords : Prop :=
  decode 0x1E23 0x0005 = .ok (.liTail2 3 5) ∧ decode 0x3C42 0x00043001 = .ok (.ld .u64 2 ⟨8, 0, 0, 1⟩) ∧
  decode 0x3D42 0xFFF83CA4 = .ok (.st .b8 2 ⟨-16, 3, 5, 4⟩) ∧ decode 0x3040 0x00000001 = .ok (.jmp 0 1) ∧
  decode 0x30E0 0 = .error .badTail ∧ decode 0x4124 0x0001 = .ok (.rdsr 4 1) ∧
  decode 0x4040 0x00006000 = .ok (.fence .full .die) ∧ decode 0x4040 0x00004C00 = .ok (.fence .rel .pool) ∧
  decode 0x4040 0x00000000 = .error .forbidden ∧ decode 0x3F44 0x00003005 = .ok (.cache .lift ⟨0, 0, 0, 5⟩) ∧
  decode 0x4745 0x004064C7 = .ok (.amo .add 5 6 ⟨16, .ar, .pkg, 7⟩) ∧ decode 0x4943 0x0000040A = .ok (.mcas 3 0 .pkg 10) ∧
  decode 0x5920 0x0CE1 = .ok (.sbcast 1 7 3) ∧ decode 0x9B61 0x0002_01C0_00C8 = .ok (.crd .f64 1 8 3 2) ∧
  decode 0xC000 0 = .ok .tret ∧ decode 0xC121 0x0100 = .ok (.rdpr 1 0x100) ∧ decode 0xC225 0x0101 = .ok (.wrpr 5 0x101) ∧
  decode 0xC320 0x00C5 = .ok (.plbinvOne 5 6) ∧ decode 0xC320 0x0800 = .ok .plbinvAll ∧ decode 0xC420 0x0005 = .ok (.xlinvPage 5) ∧
  decode 0xC520 0x0018 = .ok (.ctxsave 24) ∧ decode 0xC720 0x00A4 = .ok (.descw 4 5) ∧ decode 0xC820 0x0149 = .ok (.ipi 9 10)

/-- R63, R64, R317, R386: a step of a thread with nothing pending runs the instruction that the line at its PC holds at the PC's slot, or
the row that its value or privilege selects; so does a step of a running sprig from its block store, and an event of the schedule
happens as its row says. The line is kept with the agent until its PC leaves it; one that holds a part of a store instruction's bytes is
not read (R73). An instruction of the thread that orders its reads leaves none made early and none to be made late, but that one which orders at
die scope leaves the early ones that it does not order; any other lets be late those whose register it does not name (the model's, log 7). -/
def Obligations.StepRunsTheDecodedInstruction : Prop :=
  ∀ (s : State) (q n : Nat) (rest : List Slot) (i : Instr) (x : Xl) (line : BitVec 512),
    let a : AgentId := ⟨q, .thread⟩
    let b : AgentId := ⟨q, .sprig n⟩
    let at_ (a : AgentId) : State := { s with sched := rest, cur := a }
    let base (a : AgentId) : Word := s.pcOf a &&& ~~~63#64
    let slot (a : AgentId) : Nat := (s.pcOf a).toNat % 64 / 2 - 1
    let keeps (a : AgentId) (u : State) : State := u.modAg a fun g => { g with snap := some ⟨(base a).toNat, line⟩ }
    let reads (u : State) : State := if (u.ag a).late = [] then u else u.modAg a fun g => { g with
      late := g.late.filter fun r => r.loc + r.n ≤ x.loc || x.loc + 64 ≤ r.loc }
    let runs (a : AgentId) (u : State) : Prop :=
      let from_ (i : Instr) : State := if a.who ≠ .thread then u else match dieOrder i with
        | some o => if (u.ag a).readsInPlace then u
          else u.modAg a fun g => { g with ahead := g.ahead.filter (u.staysAhead a o), late := [] }
        | none => if keepsReads i = false then u.dropAhead a else if (u.ag a).late = [] then u
          else u.modAg a fun g => { g with late := g.late.filter fun r => keepsLate r.d i }
      step s = exec (u.specialise a i) (from_ (u.specialise a i)) ∧ (i.isResolved = false → (∀ r n, i ≠ .wrpr r n) →
        (∀ c, i ≠ .svc c) → step s = exec i (from_ i))
    let holds (a : AgentId) : Prop := decodeSlot line (slot a) = .ok i
    (s.sched = .agent a :: rest → q < 256 → (s.thr q).run = .running → s.pendingEvent q = none → s.dutyOk q = true →
      (s.core q).til.queue = [] → (∀ p ∈ s.parks, p.who ≠ a) → holds a →
      ((s.ag a).snap = some ⟨(base a).toNat, line⟩ → runs a (at_ a)) ∧
      ((s.ag a).snap = none → Readable s a (base a) 64 x → line = BitVec.ofNat 512 (s.rdN x.loc 64) →
        s.partStored (x.loc / 64) = false → s.access (s.accOf a) .x (base a) = .ok x → lineCheck line (slot a) = none →
        runs a (keeps a (reads (at_ a))))) ∧
    (s.sched = .agent b :: rest → q < 256 → n < 64 → (s.sprig q n).st = .running → (s.priv q).status.shold = false → s.dutyOk q = true →
      s.coreDead q = false → (∀ w, (s.ag b).wait = some w → w.what ≠ .withdrawn) → (∀ p ∈ s.parks, p.who ≠ b) → holds b →
      ((s.ag b).snap = some ⟨(base b).toNat, line⟩ → runs b (at_ b)) ∧
      ((s.ag b).snap = none → (base b).toNat < 0x10000 → (s.sprig q n).free = true → s.blockOwned q ((base b).toNat / 64) = false →
        (s.core q).arr.blkUe = [] → line = Store.get (s.core q).arr.blk 0 ((base b).toNat / 64) → lineCheck line (slot b) = none →
        runs b (keeps b (at_ b)))) ∧
    (s.sched = .event i :: rest → i.isEvent = true → i.wellFormed = true → step s = exec i { s with sched := rest })

/-- The memory's canonical form (addresses strictly rising, no entry equal to what an unlisted address reads as) is an invariant of the
step, in every state that has it. The form is the model's. -/
def Obligations.StepKeepsMemoryCanonical : Prop :=
  ∀ s t : State, s.memWf → step s = .next t → t.memWf
end

