-- ==== Sys2Proof/Laws/Store.lean ====
section
/-! SUPPORT. Finite maps and memory: reading after a write, and the canonical form every memory operation keeps. -/

namespace Sys2Proof.Machine

variable {α : Type}

@[simp] theorem Store.find?_nil (i : Nat) : Store.find? ([] : Store α) i = none := rfl

theorem Store.find?_rep (m : Store α) (i j : Nat) (v : α) :
    Store.find? (Store.rep m i v) j = if j = i then (Store.find? m i).map (fun _ => v) else Store.find? m j := by
  induction m with
  | nil => simp [Store.rep]
  | cons e m ih =>
    obtain ⟨k, w⟩ := e
    simp only [Store.rep]
    by_cases h : i = k
    · subst h
      by_cases hj : j = i <;> simp [Store.find?, hj]
    · simp only [if_neg h, Store.find?]
      by_cases hj : j = k
      · subst hj
        simp [Ne.symm h]
      · simp [hj, ih]

theorem Store.find?_add (m : Store α) (i j : Nat) (v : α) (h : Store.find? m i = none) :
    Store.find? (Store.add m i v) j = if j = i then some v else Store.find? m j := by
  induction m with
  | nil => simp [Store.add, Store.find?]
  | cons e m ih =>
    obtain ⟨k, w⟩ := e
    simp only [Store.find?] at h
    split at h
    · cases h
    · simp only [Store.add]
      split
      · simp [Store.find?]
      · simp only [Store.find?, ih h]
        by_cases hj : j = k
        · subst hj
          simp [Ne.symm ‹¬i = j›]
        · simp [hj]

@[simp] theorem Store.find?_ins_same (m : Store α) (i : Nat) (v : α) : Store.find? (Store.ins m i v) i = some v := by
  unfold Store.ins
  split
  · rename_i h
    obtain ⟨w, hw⟩ := Option.isSome_iff_exists.mp h
    simp [Store.find?_rep, hw]
  · rename_i h
    simp [Store.find?_add m i i v (by simpa using h)]

theorem Store.find?_ins_ne (m : Store α) {i j : Nat} (h : j ≠ i) (v : α) :
    Store.find? (Store.ins m i v) j = Store.find? m j := by
  unfold Store.ins
  split
  · simp [Store.find?_rep, h]
  · rename_i hn
    simp [Store.find?_add m i j v (by simpa using hn), h]

theorem Store.find?_ins (m : Store α) (i j : Nat) (v : α) :
    Store.find? (Store.ins m i v) j = if j = i then some v else Store.find? m j := by
  by_cases h : j = i
  · simp [h]
  · simp [h, Store.find?_ins_ne m h v]

theorem Store.find?_del (m : Store α) (i j : Nat) :
    Store.find? (Store.del m i) j = if j = i then none else Store.find? m j := by
  induction m with
  | nil => simp [Store.del, Store.find?]
  | cons e m ih =>
    obtain ⟨k, w⟩ := e
    simp only [Store.del, List.filter_cons] at ih ⊢
    by_cases hk : k = i
    · subst hk
      by_cases hj : j = k <;> simp_all [Store.find?]
    · by_cases hj : j = k
      · subst hj
        simp [Store.find?, hk]
      · simp only [hk, ne_eq, not_false_eq_true, decide_true, if_true, Store.find?, hj, if_false]
        exact ih

theorem Store.get_put [DecidableEq α] (m : Store α) (d : α) (i j : Nat) (v : α) :
    Store.get (Store.put m d i v) d j = if j = i then v else Store.get m d j := by
  unfold Store.put
  split
  · by_cases h : j = i <;> simp_all [Store.get, Store.find?_del]
  · by_cases h : j = i <;> simp_all [Store.get, Store.find?_ins]

@[simp] theorem Store.get_put_same [DecidableEq α] (m : Store α) (d : α) (i : Nat) (v : α) :
    Store.get (Store.put m d i v) d i = v := by simp [Store.get_put]

/-! ### The canonical form -/

theorem Store.above_mono (m : Store α) {a b : Nat} (h : a ≤ b) (hb : Store.above m b = true) : Store.above m a = true := by
  cases m with
  | nil => rfl
  | cons e m => simp_all [Store.above]; omega

theorem Store.above_add (m : Store α) {b i : Nat} (v : α) (h : Store.above m b = true) (hi : b < i)
    (hn : Store.find? m i = none) : Store.above (Store.add m i v) b = true := by
  induction m generalizing b with
  | nil => simp [Store.add, Store.above, hi]
  | cons e m ih =>
    obtain ⟨k, w⟩ := e
    simp only [Store.above, Bool.and_eq_true, decide_eq_true_eq] at h
    simp only [Store.find?] at hn
    split at hn
    · cases hn
    · simp only [Store.add]
      split
      · simp_all [Store.above]
      · simp [Store.above, h.1, ih h.2 (by omega) hn]

theorem Store.above_rep (m : Store α) {b i : Nat} (v : α) (h : Store.above m b = true) :
    Store.above (Store.rep m i v) b = true := by
  induction m generalizing b with
  | nil => rfl
  | cons e m ih =>
    obtain ⟨k, w⟩ := e
    simp only [Store.above, Bool.and_eq_true, decide_eq_true_eq] at h
    simp only [Store.rep]
    split
    · simp [Store.above, h]
    · simp [Store.above, h.1, ih h.2]

theorem Store.sorted_of_above {m : Store α} {b : Nat} (h : Store.above m b = true) : Store.sorted m = true := by
  cases m with
  | nil => rfl
  | cons e m => simp_all [Store.above, Store.sorted]

theorem Store.sorted_ins (m : Store α) (i : Nat) (v : α) (h : Store.sorted m = true) :
    Store.sorted (Store.ins m i v) = true := by
  unfold Store.ins
  cases m with
  | nil => rfl
  | cons e m =>
    obtain ⟨k, w⟩ := e
    simp only [Store.sorted] at h
    split
    · simp only [Store.rep]
      split
      · simpa [Store.sorted] using h
      · simpa [Store.sorted] using Store.above_rep m v h
    · rename_i hn
      simp only [Store.find?] at hn
      split at hn
      · simp at hn
      · simp only [Store.add]
        split
        · simp_all [Store.sorted, Store.above]
        · simp only [Store.sorted]
          exact Store.above_add m v h (by omega) (by simpa using hn)

theorem Store.above_filter (m : Store α) (p : Nat × α → Bool) {b : Nat} (h : Store.above m b = true) :
    Store.above (m.filter p) b = true := by
  induction m generalizing b with
  | nil => rfl
  | cons e m ih =>
    simp only [Store.above, Bool.and_eq_true, decide_eq_true_eq] at h
    simp only [List.filter_cons]
    split
    · simp [Store.above, h.1, ih h.2]
    · exact ih (Store.above_mono m (by omega) h.2)

theorem Store.sorted_filter (m : Store α) (p : Nat × α → Bool) (h : Store.sorted m = true) :
    Store.sorted (m.filter p) = true := by
  cases m with
  | nil => rfl
  | cons e m =>
    simp only [Store.sorted] at h
    simp only [List.filter_cons]
    split
    · exact Store.above_filter m p h
    · exact Store.sorted_of_above (Store.above_filter m p h)

theorem Store.mem_ins {m : Store α} {i : Nat} {v : α} {e : Nat × α} (h : e ∈ Store.ins m i v) : e = (i, v) ∨ e ∈ m := by
  have hr : e ∈ Store.rep m i v → e = (i, v) ∨ e ∈ m := by
    clear h
    induction m with
    | nil => intro h; cases h
    | cons x m ih =>
      intro h
      simp only [Store.rep] at h
      split at h
      · rename_i hk
        rcases List.mem_cons.mp h with h | h
        · exact .inl (by rw [h, hk])
        · simp [h]
      · rcases List.mem_cons.mp h with h | h
        · simp [h]
        · rcases ih h with h | h <;> simp [h]
  have ha : e ∈ Store.add m i v → e = (i, v) ∨ e ∈ m := by
    clear h hr
    induction m with
    | nil => intro h; simpa [Store.add] using h
    | cons x m ih =>
      intro h
      simp only [Store.add] at h
      split at h
      · simpa using h
      · rcases List.mem_cons.mp h with h | h
        · simp [h]
        · rcases ih h with h | h <;> simp [h]
  unfold Store.ins at h
  split at h
  · exact hr h
  · exact ha h

theorem Store.wf_filter [DecidableEq α] (m : Store α) (d : α) (p : Nat × α → Bool) (h : Store.wf m d = true) :
    Store.wf (m.filter p) d = true := by
  simp only [Store.wf, Bool.and_eq_true, List.all_eq_true] at h ⊢
  exact ⟨Store.sorted_filter m p h.1, fun e he => h.2 e (List.mem_filter.mp he).1⟩

theorem Store.wf_ins [DecidableEq α] (m : Store α) (d : α) (i : Nat) (v : α) (hv : v ≠ d) (h : Store.wf m d = true) :
    Store.wf (Store.ins m i v) d = true := by
  simp only [Store.wf, Bool.and_eq_true, List.all_eq_true] at h ⊢
  refine ⟨Store.sorted_ins m i v h.1, fun e he => ?_⟩
  rcases Store.mem_ins he with rfl | he
  · simpa using hv
  · exact h.2 e he

/-- A write keeps the canonical form. -/
theorem Store.wf_put [DecidableEq α] (m : Store α) (d : α) (i : Nat) (v : α) (h : Store.wf m d = true) :
    Store.wf (Store.put m d i v) d = true := by
  unfold Store.put
  split
  · exact Store.wf_filter m d _ h
  · exact Store.wf_ins m d i v ‹_› h

/-! ### Memory -/

/-- A read after a write. -/
theorem Memory.read_write (m : List Host.Cell) (l k : Nat) (b : Byte) :
    Memory.read (Memory.write m l b) k = if k = l then b else Memory.read m k := Store.get_put m memDefault l k b

/-- Writing one byte keeps the canonical form. -/
theorem Memory.wf_write (m : List Host.Cell) (l : Nat) (b : Byte) (h : Memory.wf m = true) :
    Memory.wf (Memory.write m l b) = true := Store.wf_put m memDefault l b h

/-- Writing cells keeps the canonical form. -/
theorem Memory.wf_writeCells (m : List Host.Cell) (cs : List Host.Cell) (h : Memory.wf m = true) :
    Memory.wf (Memory.writeCells m cs) = true := by
  unfold Memory.writeCells
  induction cs generalizing m with
  | nil => exact h
  | cons c cs ih => exact ih _ (Memory.wf_write m c.1 c.2 h)

/-- Bytes that no cell names are unchanged by writing cells. -/
theorem Memory.read_writeCells_other (m : List Host.Cell) (cs : List Host.Cell) (l : Nat) (h : ∀ c ∈ cs, c.1 ≠ l) :
    Memory.read (Memory.writeCells m cs) l = Memory.read m l := by
  unfold Memory.writeCells
  induction cs generalizing m with
  | nil => rfl
  | cons c cs ih =>
    rw [List.foldl_cons, ih _ fun x hx => h x (List.mem_cons_of_mem c hx), Memory.read_write]
    simp [(h c List.mem_cons_self).symm]

end Sys2Proof.Machine
end

