-- ==== Sys2Proof/Laws/State.lean ====
section
/-! SUPPORT. State: what every update of a part leaves of the other fields (by rfl), and reading a part back. -/

namespace Sys2Proof.Machine

/-! #### `setCore` -/

@[simp] theorem State.setCore_vats (s : State) (q : Nat) (c : CoreSt) : (s.setCore q c).vats = s.vats := rfl
@[simp] theorem State.setCore_parts (s : State) (q : Nat) (c : CoreSt) : (s.setCore q c).parts = s.parts := rfl
@[simp] theorem State.setCore_mem (s : State) (q : Nat) (c : CoreSt) : (s.setCore q c).mem = s.mem := rfl
@[simp] theorem State.setCore_fullBits (s : State) (q : Nat) (c : CoreSt) : (s.setCore q c).fullBits = s.fullBits := rfl
@[simp] theorem State.setCore_ue (s : State) (q : Nat) (c : CoreSt) : (s.setCore q c).ue = s.ue := rfl
@[simp] theorem State.setCore_behind (s : State) (q : Nat) (c : CoreSt) : (s.setCore q c).behind = s.behind := rfl
@[simp] theorem State.setCore_exact (s : State) (q : Nat) (c : CoreSt) : (s.setCore q c).exact = s.exact := rfl
@[simp] theorem State.setCore_records (s : State) (q : Nat) (c : CoreSt) : (s.setCore q c).records = s.records := rfl
@[simp] theorem State.setCore_res (s : State) (q : Nat) (c : CoreSt) : (s.setCore q c).res = s.res := rfl
@[simp] theorem State.setCore_sliceQ (s : State) (q : Nat) (c : CoreSt) : (s.setCore q c).sliceQ = s.sliceQ := rfl
@[simp] theorem State.setCore_tagQ (s : State) (q : Nat) (c : CoreSt) : (s.setCore q c).tagQ = s.tagQ := rfl
@[simp] theorem State.setCore_monitors (s : State) (q : Nat) (c : CoreSt) : (s.setCore q c).monitors = s.monitors := rfl
@[simp] theorem State.setCore_arrivals (s : State) (q : Nat) (c : CoreSt) : (s.setCore q c).arrivals = s.arrivals := rfl
@[simp] theorem State.setCore_poolFences (s : State) (q : Nat) (c : CoreSt) : (s.setCore q c).poolFences = s.poolFences := rfl
@[simp] theorem State.setCore_flights (s : State) (q : Nat) (c : CoreSt) : (s.setCore q c).flights = s.flights := rfl
@[simp] theorem State.setCore_parks (s : State) (q : Nat) (c : CoreSt) : (s.setCore q c).parks = s.parks := rfl
@[simp] theorem State.setCore_tc (s : State) (q : Nat) (c : CoreSt) : (s.setCore q c).tc = s.tc := rfl
@[simp] theorem State.setCore_time (s : State) (q : Nat) (c : CoreSt) : (s.setCore q c).time = s.time := rfl
@[simp] theorem State.setCore_statics (s : State) (q : Nat) (c : CoreSt) : (s.setCore q c).statics = s.statics := rfl
@[simp] theorem State.setCore_epochs (s : State) (q : Nat) (c : CoreSt) : (s.setCore q c).epochs = s.epochs := rfl
@[simp] theorem State.setCore_pkg (s : State) (q : Nat) (c : CoreSt) : (s.setCore q c).pkg = s.pkg := rfl
@[simp] theorem State.setCore_present (s : State) (q : Nat) (c : CoreSt) : (s.setCore q c).present = s.present := rfl
@[simp] theorem State.setCore_unreachable (s : State) (q : Nat) (c : CoreSt) : (s.setCore q c).unreachable = s.unreachable := rfl
@[simp] theorem State.setCore_kerranUp (s : State) (q : Nat) (c : CoreSt) : (s.setCore q c).kerranUp = s.kerranUp := rfl
@[simp] theorem State.setCore_rerouting (s : State) (q : Nat) (c : CoreSt) : (s.setCore q c).rerouting = s.rerouting := rfl
@[simp] theorem State.setCore_budget (s : State) (q : Nat) (c : CoreSt) : (s.setCore q c).budget = s.budget := rfl
@[simp] theorem State.setCore_vatPart (s : State) (q : Nat) (c : CoreSt) : (s.setCore q c).vatPart = s.vatPart := rfl
@[simp] theorem State.setCore_granPart (s : State) (q : Nat) (c : CoreSt) : (s.setCore q c).granPart = s.granPart := rfl
@[simp] theorem State.setCore_portPart (s : State) (q : Nat) (c : CoreSt) : (s.setCore q c).portPart = s.portPart := rfl
@[simp] theorem State.setCore_ports (s : State) (q : Nat) (c : CoreSt) : (s.setCore q c).ports = s.ports := rfl
@[simp] theorem State.setCore_inbound (s : State) (q : Nat) (c : CoreSt) : (s.setCore q c).inbound = s.inbound := rfl
@[simp] theorem State.setCore_pool (s : State) (q : Nat) (c : CoreSt) : (s.setCore q c).pool = s.pool := rfl
@[simp] theorem State.setCore_caltik (s : State) (q : Nat) (c : CoreSt) : (s.setCore q c).caltik = s.caltik := rfl
@[simp] theorem State.setCore_heldInReset (s : State) (q : Nat) (c : CoreSt) : (s.setCore q c).heldInReset = s.heldInReset := rfl
@[simp] theorem State.setCore_answer (s : State) (q : Nat) (c : CoreSt) : (s.setCore q c).answer = s.answer := rfl
@[simp] theorem State.setCore_sched (s : State) (q : Nat) (c : CoreSt) : (s.setCore q c).sched = s.sched := rfl
@[simp] theorem State.setCore_cur (s : State) (q : Nat) (c : CoreSt) : (s.setCore q c).cur = s.cur := rfl
@[simp] theorem State.setCore_fresh (s : State) (q : Nat) (c : CoreSt) : (s.setCore q c).fresh = s.fresh := rfl

/-! #### `modCore` -/

@[simp] theorem State.modCore_vats (s : State) (q : Nat) (f : CoreSt → CoreSt) : (s.modCore q f).vats = s.vats := rfl
@[simp] theorem State.modCore_parts (s : State) (q : Nat) (f : CoreSt → CoreSt) : (s.modCore q f).parts = s.parts := rfl
@[simp] theorem State.modCore_mem (s : State) (q : Nat) (f : CoreSt → CoreSt) : (s.modCore q f).mem = s.mem := rfl
@[simp] theorem State.modCore_fullBits (s : State) (q : Nat) (f : CoreSt → CoreSt) : (s.modCore q f).fullBits = s.fullBits := rfl
@[simp] theorem State.modCore_ue (s : State) (q : Nat) (f : CoreSt → CoreSt) : (s.modCore q f).ue = s.ue := rfl
@[simp] theorem State.modCore_behind (s : State) (q : Nat) (f : CoreSt → CoreSt) : (s.modCore q f).behind = s.behind := rfl
@[simp] theorem State.modCore_exact (s : State) (q : Nat) (f : CoreSt → CoreSt) : (s.modCore q f).exact = s.exact := rfl
@[simp] theorem State.modCore_records (s : State) (q : Nat) (f : CoreSt → CoreSt) : (s.modCore q f).records = s.records := rfl
@[simp] theorem State.modCore_res (s : State) (q : Nat) (f : CoreSt → CoreSt) : (s.modCore q f).res = s.res := rfl
@[simp] theorem State.modCore_sliceQ (s : State) (q : Nat) (f : CoreSt → CoreSt) : (s.modCore q f).sliceQ = s.sliceQ := rfl
@[simp] theorem State.modCore_tagQ (s : State) (q : Nat) (f : CoreSt → CoreSt) : (s.modCore q f).tagQ = s.tagQ := rfl
@[simp] theorem State.modCore_monitors (s : State) (q : Nat) (f : CoreSt → CoreSt) : (s.modCore q f).monitors = s.monitors := rfl
@[simp] theorem State.modCore_arrivals (s : State) (q : Nat) (f : CoreSt → CoreSt) : (s.modCore q f).arrivals = s.arrivals := rfl
@[simp] theorem State.modCore_poolFences (s : State) (q : Nat) (f : CoreSt → CoreSt) : (s.modCore q f).poolFences = s.poolFences := rfl
@[simp] theorem State.modCore_flights (s : State) (q : Nat) (f : CoreSt → CoreSt) : (s.modCore q f).flights = s.flights := rfl
@[simp] theorem State.modCore_parks (s : State) (q : Nat) (f : CoreSt → CoreSt) : (s.modCore q f).parks = s.parks := rfl
@[simp] theorem State.modCore_tc (s : State) (q : Nat) (f : CoreSt → CoreSt) : (s.modCore q f).tc = s.tc := rfl
@[simp] theorem State.modCore_time (s : State) (q : Nat) (f : CoreSt → CoreSt) : (s.modCore q f).time = s.time := rfl
@[simp] theorem State.modCore_statics (s : State) (q : Nat) (f : CoreSt → CoreSt) : (s.modCore q f).statics = s.statics := rfl
@[simp] theorem State.modCore_epochs (s : State) (q : Nat) (f : CoreSt → CoreSt) : (s.modCore q f).epochs = s.epochs := rfl
@[simp] theorem State.modCore_pkg (s : State) (q : Nat) (f : CoreSt → CoreSt) : (s.modCore q f).pkg = s.pkg := rfl
@[simp] theorem State.modCore_present (s : State) (q : Nat) (f : CoreSt → CoreSt) : (s.modCore q f).present = s.present := rfl
@[simp] theorem State.modCore_unreachable (s : State) (q : Nat) (f : CoreSt → CoreSt) : (s.modCore q f).unreachable = s.unreachable := rfl
@[simp] theorem State.modCore_kerranUp (s : State) (q : Nat) (f : CoreSt → CoreSt) : (s.modCore q f).kerranUp = s.kerranUp := rfl
@[simp] theorem State.modCore_rerouting (s : State) (q : Nat) (f : CoreSt → CoreSt) : (s.modCore q f).rerouting = s.rerouting := rfl
@[simp] theorem State.modCore_budget (s : State) (q : Nat) (f : CoreSt → CoreSt) : (s.modCore q f).budget = s.budget := rfl
@[simp] theorem State.modCore_vatPart (s : State) (q : Nat) (f : CoreSt → CoreSt) : (s.modCore q f).vatPart = s.vatPart := rfl
@[simp] theorem State.modCore_granPart (s : State) (q : Nat) (f : CoreSt → CoreSt) : (s.modCore q f).granPart = s.granPart := rfl
@[simp] theorem State.modCore_portPart (s : State) (q : Nat) (f : CoreSt → CoreSt) : (s.modCore q f).portPart = s.portPart := rfl
@[simp] theorem State.modCore_ports (s : State) (q : Nat) (f : CoreSt → CoreSt) : (s.modCore q f).ports = s.ports := rfl
@[simp] theorem State.modCore_inbound (s : State) (q : Nat) (f : CoreSt → CoreSt) : (s.modCore q f).inbound = s.inbound := rfl
@[simp] theorem State.modCore_pool (s : State) (q : Nat) (f : CoreSt → CoreSt) : (s.modCore q f).pool = s.pool := rfl
@[simp] theorem State.modCore_caltik (s : State) (q : Nat) (f : CoreSt → CoreSt) : (s.modCore q f).caltik = s.caltik := rfl
@[simp] theorem State.modCore_heldInReset (s : State) (q : Nat) (f : CoreSt → CoreSt) : (s.modCore q f).heldInReset = s.heldInReset := rfl
@[simp] theorem State.modCore_answer (s : State) (q : Nat) (f : CoreSt → CoreSt) : (s.modCore q f).answer = s.answer := rfl
@[simp] theorem State.modCore_sched (s : State) (q : Nat) (f : CoreSt → CoreSt) : (s.modCore q f).sched = s.sched := rfl
@[simp] theorem State.modCore_cur (s : State) (q : Nat) (f : CoreSt → CoreSt) : (s.modCore q f).cur = s.cur := rfl
@[simp] theorem State.modCore_fresh (s : State) (q : Nat) (f : CoreSt → CoreSt) : (s.modCore q f).fresh = s.fresh := rfl

/-! #### `modThr` -/

@[simp] theorem State.modThr_vats (s : State) (q : Nat) (f : Thread → Thread) : (s.modThr q f).vats = s.vats := rfl
@[simp] theorem State.modThr_parts (s : State) (q : Nat) (f : Thread → Thread) : (s.modThr q f).parts = s.parts := rfl
@[simp] theorem State.modThr_mem (s : State) (q : Nat) (f : Thread → Thread) : (s.modThr q f).mem = s.mem := rfl
@[simp] theorem State.modThr_fullBits (s : State) (q : Nat) (f : Thread → Thread) : (s.modThr q f).fullBits = s.fullBits := rfl
@[simp] theorem State.modThr_ue (s : State) (q : Nat) (f : Thread → Thread) : (s.modThr q f).ue = s.ue := rfl
@[simp] theorem State.modThr_behind (s : State) (q : Nat) (f : Thread → Thread) : (s.modThr q f).behind = s.behind := rfl
@[simp] theorem State.modThr_exact (s : State) (q : Nat) (f : Thread → Thread) : (s.modThr q f).exact = s.exact := rfl
@[simp] theorem State.modThr_records (s : State) (q : Nat) (f : Thread → Thread) : (s.modThr q f).records = s.records := rfl
@[simp] theorem State.modThr_res (s : State) (q : Nat) (f : Thread → Thread) : (s.modThr q f).res = s.res := rfl
@[simp] theorem State.modThr_sliceQ (s : State) (q : Nat) (f : Thread → Thread) : (s.modThr q f).sliceQ = s.sliceQ := rfl
@[simp] theorem State.modThr_tagQ (s : State) (q : Nat) (f : Thread → Thread) : (s.modThr q f).tagQ = s.tagQ := rfl
@[simp] theorem State.modThr_monitors (s : State) (q : Nat) (f : Thread → Thread) : (s.modThr q f).monitors = s.monitors := rfl
@[simp] theorem State.modThr_arrivals (s : State) (q : Nat) (f : Thread → Thread) : (s.modThr q f).arrivals = s.arrivals := rfl
@[simp] theorem State.modThr_poolFences (s : State) (q : Nat) (f : Thread → Thread) : (s.modThr q f).poolFences = s.poolFences := rfl
@[simp] theorem State.modThr_flights (s : State) (q : Nat) (f : Thread → Thread) : (s.modThr q f).flights = s.flights := rfl
@[simp] theorem State.modThr_parks (s : State) (q : Nat) (f : Thread → Thread) : (s.modThr q f).parks = s.parks := rfl
@[simp] theorem State.modThr_tc (s : State) (q : Nat) (f : Thread → Thread) : (s.modThr q f).tc = s.tc := rfl
@[simp] theorem State.modThr_time (s : State) (q : Nat) (f : Thread → Thread) : (s.modThr q f).time = s.time := rfl
@[simp] theorem State.modThr_statics (s : State) (q : Nat) (f : Thread → Thread) : (s.modThr q f).statics = s.statics := rfl
@[simp] theorem State.modThr_epochs (s : State) (q : Nat) (f : Thread → Thread) : (s.modThr q f).epochs = s.epochs := rfl
@[simp] theorem State.modThr_pkg (s : State) (q : Nat) (f : Thread → Thread) : (s.modThr q f).pkg = s.pkg := rfl
@[simp] theorem State.modThr_present (s : State) (q : Nat) (f : Thread → Thread) : (s.modThr q f).present = s.present := rfl
@[simp] theorem State.modThr_unreachable (s : State) (q : Nat) (f : Thread → Thread) : (s.modThr q f).unreachable = s.unreachable := rfl
@[simp] theorem State.modThr_kerranUp (s : State) (q : Nat) (f : Thread → Thread) : (s.modThr q f).kerranUp = s.kerranUp := rfl
@[simp] theorem State.modThr_rerouting (s : State) (q : Nat) (f : Thread → Thread) : (s.modThr q f).rerouting = s.rerouting := rfl
@[simp] theorem State.modThr_budget (s : State) (q : Nat) (f : Thread → Thread) : (s.modThr q f).budget = s.budget := rfl
@[simp] theorem State.modThr_vatPart (s : State) (q : Nat) (f : Thread → Thread) : (s.modThr q f).vatPart = s.vatPart := rfl
@[simp] theorem State.modThr_granPart (s : State) (q : Nat) (f : Thread → Thread) : (s.modThr q f).granPart = s.granPart := rfl
@[simp] theorem State.modThr_portPart (s : State) (q : Nat) (f : Thread → Thread) : (s.modThr q f).portPart = s.portPart := rfl
@[simp] theorem State.modThr_ports (s : State) (q : Nat) (f : Thread → Thread) : (s.modThr q f).ports = s.ports := rfl
@[simp] theorem State.modThr_inbound (s : State) (q : Nat) (f : Thread → Thread) : (s.modThr q f).inbound = s.inbound := rfl
@[simp] theorem State.modThr_pool (s : State) (q : Nat) (f : Thread → Thread) : (s.modThr q f).pool = s.pool := rfl
@[simp] theorem State.modThr_caltik (s : State) (q : Nat) (f : Thread → Thread) : (s.modThr q f).caltik = s.caltik := rfl
@[simp] theorem State.modThr_heldInReset (s : State) (q : Nat) (f : Thread → Thread) : (s.modThr q f).heldInReset = s.heldInReset := rfl
@[simp] theorem State.modThr_answer (s : State) (q : Nat) (f : Thread → Thread) : (s.modThr q f).answer = s.answer := rfl
@[simp] theorem State.modThr_sched (s : State) (q : Nat) (f : Thread → Thread) : (s.modThr q f).sched = s.sched := rfl
@[simp] theorem State.modThr_cur (s : State) (q : Nat) (f : Thread → Thread) : (s.modThr q f).cur = s.cur := rfl
@[simp] theorem State.modThr_fresh (s : State) (q : Nat) (f : Thread → Thread) : (s.modThr q f).fresh = s.fresh := rfl

/-! #### `modPriv` -/

@[simp] theorem State.modPriv_vats (s : State) (q : Nat) (f : Priv → Priv) : (s.modPriv q f).vats = s.vats := rfl
@[simp] theorem State.modPriv_parts (s : State) (q : Nat) (f : Priv → Priv) : (s.modPriv q f).parts = s.parts := rfl
@[simp] theorem State.modPriv_mem (s : State) (q : Nat) (f : Priv → Priv) : (s.modPriv q f).mem = s.mem := rfl
@[simp] theorem State.modPriv_fullBits (s : State) (q : Nat) (f : Priv → Priv) : (s.modPriv q f).fullBits = s.fullBits := rfl
@[simp] theorem State.modPriv_ue (s : State) (q : Nat) (f : Priv → Priv) : (s.modPriv q f).ue = s.ue := rfl
@[simp] theorem State.modPriv_behind (s : State) (q : Nat) (f : Priv → Priv) : (s.modPriv q f).behind = s.behind := rfl
@[simp] theorem State.modPriv_exact (s : State) (q : Nat) (f : Priv → Priv) : (s.modPriv q f).exact = s.exact := rfl
@[simp] theorem State.modPriv_records (s : State) (q : Nat) (f : Priv → Priv) : (s.modPriv q f).records = s.records := rfl
@[simp] theorem State.modPriv_res (s : State) (q : Nat) (f : Priv → Priv) : (s.modPriv q f).res = s.res := rfl
@[simp] theorem State.modPriv_sliceQ (s : State) (q : Nat) (f : Priv → Priv) : (s.modPriv q f).sliceQ = s.sliceQ := rfl
@[simp] theorem State.modPriv_tagQ (s : State) (q : Nat) (f : Priv → Priv) : (s.modPriv q f).tagQ = s.tagQ := rfl
@[simp] theorem State.modPriv_monitors (s : State) (q : Nat) (f : Priv → Priv) : (s.modPriv q f).monitors = s.monitors := rfl
@[simp] theorem State.modPriv_arrivals (s : State) (q : Nat) (f : Priv → Priv) : (s.modPriv q f).arrivals = s.arrivals := rfl
@[simp] theorem State.modPriv_poolFences (s : State) (q : Nat) (f : Priv → Priv) : (s.modPriv q f).poolFences = s.poolFences := rfl
@[simp] theorem State.modPriv_flights (s : State) (q : Nat) (f : Priv → Priv) : (s.modPriv q f).flights = s.flights := rfl
@[simp] theorem State.modPriv_parks (s : State) (q : Nat) (f : Priv → Priv) : (s.modPriv q f).parks = s.parks := rfl
@[simp] theorem State.modPriv_tc (s : State) (q : Nat) (f : Priv → Priv) : (s.modPriv q f).tc = s.tc := rfl
@[simp] theorem State.modPriv_time (s : State) (q : Nat) (f : Priv → Priv) : (s.modPriv q f).time = s.time := rfl
@[simp] theorem State.modPriv_statics (s : State) (q : Nat) (f : Priv → Priv) : (s.modPriv q f).statics = s.statics := rfl
@[simp] theorem State.modPriv_epochs (s : State) (q : Nat) (f : Priv → Priv) : (s.modPriv q f).epochs = s.epochs := rfl
@[simp] theorem State.modPriv_pkg (s : State) (q : Nat) (f : Priv → Priv) : (s.modPriv q f).pkg = s.pkg := rfl
@[simp] theorem State.modPriv_present (s : State) (q : Nat) (f : Priv → Priv) : (s.modPriv q f).present = s.present := rfl
@[simp] theorem State.modPriv_unreachable (s : State) (q : Nat) (f : Priv → Priv) : (s.modPriv q f).unreachable = s.unreachable := rfl
@[simp] theorem State.modPriv_kerranUp (s : State) (q : Nat) (f : Priv → Priv) : (s.modPriv q f).kerranUp = s.kerranUp := rfl
@[simp] theorem State.modPriv_rerouting (s : State) (q : Nat) (f : Priv → Priv) : (s.modPriv q f).rerouting = s.rerouting := rfl
@[simp] theorem State.modPriv_budget (s : State) (q : Nat) (f : Priv → Priv) : (s.modPriv q f).budget = s.budget := rfl
@[simp] theorem State.modPriv_vatPart (s : State) (q : Nat) (f : Priv → Priv) : (s.modPriv q f).vatPart = s.vatPart := rfl
@[simp] theorem State.modPriv_granPart (s : State) (q : Nat) (f : Priv → Priv) : (s.modPriv q f).granPart = s.granPart := rfl
@[simp] theorem State.modPriv_portPart (s : State) (q : Nat) (f : Priv → Priv) : (s.modPriv q f).portPart = s.portPart := rfl
@[simp] theorem State.modPriv_ports (s : State) (q : Nat) (f : Priv → Priv) : (s.modPriv q f).ports = s.ports := rfl
@[simp] theorem State.modPriv_inbound (s : State) (q : Nat) (f : Priv → Priv) : (s.modPriv q f).inbound = s.inbound := rfl
@[simp] theorem State.modPriv_pool (s : State) (q : Nat) (f : Priv → Priv) : (s.modPriv q f).pool = s.pool := rfl
@[simp] theorem State.modPriv_caltik (s : State) (q : Nat) (f : Priv → Priv) : (s.modPriv q f).caltik = s.caltik := rfl
@[simp] theorem State.modPriv_heldInReset (s : State) (q : Nat) (f : Priv → Priv) : (s.modPriv q f).heldInReset = s.heldInReset := rfl
@[simp] theorem State.modPriv_answer (s : State) (q : Nat) (f : Priv → Priv) : (s.modPriv q f).answer = s.answer := rfl
@[simp] theorem State.modPriv_sched (s : State) (q : Nat) (f : Priv → Priv) : (s.modPriv q f).sched = s.sched := rfl
@[simp] theorem State.modPriv_cur (s : State) (q : Nat) (f : Priv → Priv) : (s.modPriv q f).cur = s.cur := rfl
@[simp] theorem State.modPriv_fresh (s : State) (q : Nat) (f : Priv → Priv) : (s.modPriv q f).fresh = s.fresh := rfl

/-! #### `modStatus` -/

@[simp] theorem State.modStatus_vats (s : State) (q : Nat) (f : Status → Status) : (s.modStatus q f).vats = s.vats := rfl
@[simp] theorem State.modStatus_parts (s : State) (q : Nat) (f : Status → Status) : (s.modStatus q f).parts = s.parts := rfl
@[simp] theorem State.modStatus_mem (s : State) (q : Nat) (f : Status → Status) : (s.modStatus q f).mem = s.mem := rfl
@[simp] theorem State.modStatus_fullBits (s : State) (q : Nat) (f : Status → Status) : (s.modStatus q f).fullBits = s.fullBits := rfl
@[simp] theorem State.modStatus_ue (s : State) (q : Nat) (f : Status → Status) : (s.modStatus q f).ue = s.ue := rfl
@[simp] theorem State.modStatus_behind (s : State) (q : Nat) (f : Status → Status) : (s.modStatus q f).behind = s.behind := rfl
@[simp] theorem State.modStatus_exact (s : State) (q : Nat) (f : Status → Status) : (s.modStatus q f).exact = s.exact := rfl
@[simp] theorem State.modStatus_records (s : State) (q : Nat) (f : Status → Status) : (s.modStatus q f).records = s.records := rfl
@[simp] theorem State.modStatus_res (s : State) (q : Nat) (f : Status → Status) : (s.modStatus q f).res = s.res := rfl
@[simp] theorem State.modStatus_sliceQ (s : State) (q : Nat) (f : Status → Status) : (s.modStatus q f).sliceQ = s.sliceQ := rfl
@[simp] theorem State.modStatus_tagQ (s : State) (q : Nat) (f : Status → Status) : (s.modStatus q f).tagQ = s.tagQ := rfl
@[simp] theorem State.modStatus_monitors (s : State) (q : Nat) (f : Status → Status) : (s.modStatus q f).monitors = s.monitors := rfl
@[simp] theorem State.modStatus_arrivals (s : State) (q : Nat) (f : Status → Status) : (s.modStatus q f).arrivals = s.arrivals := rfl
@[simp] theorem State.modStatus_poolFences (s : State) (q : Nat) (f : Status → Status) : (s.modStatus q f).poolFences = s.poolFences := rfl
@[simp] theorem State.modStatus_flights (s : State) (q : Nat) (f : Status → Status) : (s.modStatus q f).flights = s.flights := rfl
@[simp] theorem State.modStatus_parks (s : State) (q : Nat) (f : Status → Status) : (s.modStatus q f).parks = s.parks := rfl
@[simp] theorem State.modStatus_tc (s : State) (q : Nat) (f : Status → Status) : (s.modStatus q f).tc = s.tc := rfl
@[simp] theorem State.modStatus_time (s : State) (q : Nat) (f : Status → Status) : (s.modStatus q f).time = s.time := rfl
@[simp] theorem State.modStatus_statics (s : State) (q : Nat) (f : Status → Status) : (s.modStatus q f).statics = s.statics := rfl
@[simp] theorem State.modStatus_epochs (s : State) (q : Nat) (f : Status → Status) : (s.modStatus q f).epochs = s.epochs := rfl
@[simp] theorem State.modStatus_pkg (s : State) (q : Nat) (f : Status → Status) : (s.modStatus q f).pkg = s.pkg := rfl
@[simp] theorem State.modStatus_present (s : State) (q : Nat) (f : Status → Status) : (s.modStatus q f).present = s.present := rfl
@[simp] theorem State.modStatus_unreachable (s : State) (q : Nat) (f : Status → Status) : (s.modStatus q f).unreachable = s.unreachable := rfl
@[simp] theorem State.modStatus_kerranUp (s : State) (q : Nat) (f : Status → Status) : (s.modStatus q f).kerranUp = s.kerranUp := rfl
@[simp] theorem State.modStatus_rerouting (s : State) (q : Nat) (f : Status → Status) : (s.modStatus q f).rerouting = s.rerouting := rfl
@[simp] theorem State.modStatus_budget (s : State) (q : Nat) (f : Status → Status) : (s.modStatus q f).budget = s.budget := rfl
@[simp] theorem State.modStatus_vatPart (s : State) (q : Nat) (f : Status → Status) : (s.modStatus q f).vatPart = s.vatPart := rfl
@[simp] theorem State.modStatus_granPart (s : State) (q : Nat) (f : Status → Status) : (s.modStatus q f).granPart = s.granPart := rfl
@[simp] theorem State.modStatus_portPart (s : State) (q : Nat) (f : Status → Status) : (s.modStatus q f).portPart = s.portPart := rfl
@[simp] theorem State.modStatus_ports (s : State) (q : Nat) (f : Status → Status) : (s.modStatus q f).ports = s.ports := rfl
@[simp] theorem State.modStatus_inbound (s : State) (q : Nat) (f : Status → Status) : (s.modStatus q f).inbound = s.inbound := rfl
@[simp] theorem State.modStatus_pool (s : State) (q : Nat) (f : Status → Status) : (s.modStatus q f).pool = s.pool := rfl
@[simp] theorem State.modStatus_caltik (s : State) (q : Nat) (f : Status → Status) : (s.modStatus q f).caltik = s.caltik := rfl
@[simp] theorem State.modStatus_heldInReset (s : State) (q : Nat) (f : Status → Status) : (s.modStatus q f).heldInReset = s.heldInReset := rfl
@[simp] theorem State.modStatus_answer (s : State) (q : Nat) (f : Status → Status) : (s.modStatus q f).answer = s.answer := rfl
@[simp] theorem State.modStatus_sched (s : State) (q : Nat) (f : Status → Status) : (s.modStatus q f).sched = s.sched := rfl
@[simp] theorem State.modStatus_cur (s : State) (q : Nat) (f : Status → Status) : (s.modStatus q f).cur = s.cur := rfl
@[simp] theorem State.modStatus_fresh (s : State) (q : Nat) (f : Status → Status) : (s.modStatus q f).fresh = s.fresh := rfl

/-! #### `modSprig` -/

@[simp] theorem State.modSprig_vats (s : State) (q i : Nat) (f : Sprig → Sprig) : (s.modSprig q i f).vats = s.vats := rfl
@[simp] theorem State.modSprig_parts (s : State) (q i : Nat) (f : Sprig → Sprig) : (s.modSprig q i f).parts = s.parts := rfl
@[simp] theorem State.modSprig_mem (s : State) (q i : Nat) (f : Sprig → Sprig) : (s.modSprig q i f).mem = s.mem := rfl
@[simp] theorem State.modSprig_fullBits (s : State) (q i : Nat) (f : Sprig → Sprig) : (s.modSprig q i f).fullBits = s.fullBits := rfl
@[simp] theorem State.modSprig_ue (s : State) (q i : Nat) (f : Sprig → Sprig) : (s.modSprig q i f).ue = s.ue := rfl
@[simp] theorem State.modSprig_behind (s : State) (q i : Nat) (f : Sprig → Sprig) : (s.modSprig q i f).behind = s.behind := rfl
@[simp] theorem State.modSprig_exact (s : State) (q i : Nat) (f : Sprig → Sprig) : (s.modSprig q i f).exact = s.exact := rfl
@[simp] theorem State.modSprig_records (s : State) (q i : Nat) (f : Sprig → Sprig) : (s.modSprig q i f).records = s.records := rfl
@[simp] theorem State.modSprig_res (s : State) (q i : Nat) (f : Sprig → Sprig) : (s.modSprig q i f).res = s.res := rfl
@[simp] theorem State.modSprig_sliceQ (s : State) (q i : Nat) (f : Sprig → Sprig) : (s.modSprig q i f).sliceQ = s.sliceQ := rfl
@[simp] theorem State.modSprig_tagQ (s : State) (q i : Nat) (f : Sprig → Sprig) : (s.modSprig q i f).tagQ = s.tagQ := rfl
@[simp] theorem State.modSprig_monitors (s : State) (q i : Nat) (f : Sprig → Sprig) : (s.modSprig q i f).monitors = s.monitors := rfl
@[simp] theorem State.modSprig_arrivals (s : State) (q i : Nat) (f : Sprig → Sprig) : (s.modSprig q i f).arrivals = s.arrivals := rfl
@[simp] theorem State.modSprig_poolFences (s : State) (q i : Nat) (f : Sprig → Sprig) : (s.modSprig q i f).poolFences = s.poolFences := rfl
@[simp] theorem State.modSprig_flights (s : State) (q i : Nat) (f : Sprig → Sprig) : (s.modSprig q i f).flights = s.flights := rfl
@[simp] theorem State.modSprig_parks (s : State) (q i : Nat) (f : Sprig → Sprig) : (s.modSprig q i f).parks = s.parks := rfl
@[simp] theorem State.modSprig_tc (s : State) (q i : Nat) (f : Sprig → Sprig) : (s.modSprig q i f).tc = s.tc := rfl
@[simp] theorem State.modSprig_time (s : State) (q i : Nat) (f : Sprig → Sprig) : (s.modSprig q i f).time = s.time := rfl
@[simp] theorem State.modSprig_statics (s : State) (q i : Nat) (f : Sprig → Sprig) : (s.modSprig q i f).statics = s.statics := rfl
@[simp] theorem State.modSprig_epochs (s : State) (q i : Nat) (f : Sprig → Sprig) : (s.modSprig q i f).epochs = s.epochs := rfl
@[simp] theorem State.modSprig_pkg (s : State) (q i : Nat) (f : Sprig → Sprig) : (s.modSprig q i f).pkg = s.pkg := rfl
@[simp] theorem State.modSprig_present (s : State) (q i : Nat) (f : Sprig → Sprig) : (s.modSprig q i f).present = s.present := rfl
@[simp] theorem State.modSprig_unreachable (s : State) (q i : Nat) (f : Sprig → Sprig) : (s.modSprig q i f).unreachable = s.unreachable := rfl
@[simp] theorem State.modSprig_kerranUp (s : State) (q i : Nat) (f : Sprig → Sprig) : (s.modSprig q i f).kerranUp = s.kerranUp := rfl
@[simp] theorem State.modSprig_rerouting (s : State) (q i : Nat) (f : Sprig → Sprig) : (s.modSprig q i f).rerouting = s.rerouting := rfl
@[simp] theorem State.modSprig_budget (s : State) (q i : Nat) (f : Sprig → Sprig) : (s.modSprig q i f).budget = s.budget := rfl
@[simp] theorem State.modSprig_vatPart (s : State) (q i : Nat) (f : Sprig → Sprig) : (s.modSprig q i f).vatPart = s.vatPart := rfl
@[simp] theorem State.modSprig_granPart (s : State) (q i : Nat) (f : Sprig → Sprig) : (s.modSprig q i f).granPart = s.granPart := rfl
@[simp] theorem State.modSprig_portPart (s : State) (q i : Nat) (f : Sprig → Sprig) : (s.modSprig q i f).portPart = s.portPart := rfl
@[simp] theorem State.modSprig_ports (s : State) (q i : Nat) (f : Sprig → Sprig) : (s.modSprig q i f).ports = s.ports := rfl
@[simp] theorem State.modSprig_inbound (s : State) (q i : Nat) (f : Sprig → Sprig) : (s.modSprig q i f).inbound = s.inbound := rfl
@[simp] theorem State.modSprig_pool (s : State) (q i : Nat) (f : Sprig → Sprig) : (s.modSprig q i f).pool = s.pool := rfl
@[simp] theorem State.modSprig_caltik (s : State) (q i : Nat) (f : Sprig → Sprig) : (s.modSprig q i f).caltik = s.caltik := rfl
@[simp] theorem State.modSprig_heldInReset (s : State) (q i : Nat) (f : Sprig → Sprig) : (s.modSprig q i f).heldInReset = s.heldInReset := rfl
@[simp] theorem State.modSprig_answer (s : State) (q i : Nat) (f : Sprig → Sprig) : (s.modSprig q i f).answer = s.answer := rfl
@[simp] theorem State.modSprig_sched (s : State) (q i : Nat) (f : Sprig → Sprig) : (s.modSprig q i f).sched = s.sched := rfl
@[simp] theorem State.modSprig_cur (s : State) (q i : Nat) (f : Sprig → Sprig) : (s.modSprig q i f).cur = s.cur := rfl
@[simp] theorem State.modSprig_fresh (s : State) (q i : Nat) (f : Sprig → Sprig) : (s.modSprig q i f).fresh = s.fresh := rfl

/-! #### `modVat` -/

@[simp] theorem State.modVat_cores (s : State) (v : Nat) (f : Vat → Vat) : (s.modVat v f).cores = s.cores := rfl
@[simp] theorem State.modVat_parts (s : State) (v : Nat) (f : Vat → Vat) : (s.modVat v f).parts = s.parts := rfl
@[simp] theorem State.modVat_mem (s : State) (v : Nat) (f : Vat → Vat) : (s.modVat v f).mem = s.mem := rfl
@[simp] theorem State.modVat_fullBits (s : State) (v : Nat) (f : Vat → Vat) : (s.modVat v f).fullBits = s.fullBits := rfl
@[simp] theorem State.modVat_ue (s : State) (v : Nat) (f : Vat → Vat) : (s.modVat v f).ue = s.ue := rfl
@[simp] theorem State.modVat_behind (s : State) (v : Nat) (f : Vat → Vat) : (s.modVat v f).behind = s.behind := rfl
@[simp] theorem State.modVat_exact (s : State) (v : Nat) (f : Vat → Vat) : (s.modVat v f).exact = s.exact := rfl
@[simp] theorem State.modVat_records (s : State) (v : Nat) (f : Vat → Vat) : (s.modVat v f).records = s.records := rfl
@[simp] theorem State.modVat_res (s : State) (v : Nat) (f : Vat → Vat) : (s.modVat v f).res = s.res := rfl
@[simp] theorem State.modVat_sliceQ (s : State) (v : Nat) (f : Vat → Vat) : (s.modVat v f).sliceQ = s.sliceQ := rfl
@[simp] theorem State.modVat_tagQ (s : State) (v : Nat) (f : Vat → Vat) : (s.modVat v f).tagQ = s.tagQ := rfl
@[simp] theorem State.modVat_monitors (s : State) (v : Nat) (f : Vat → Vat) : (s.modVat v f).monitors = s.monitors := rfl
@[simp] theorem State.modVat_arrivals (s : State) (v : Nat) (f : Vat → Vat) : (s.modVat v f).arrivals = s.arrivals := rfl
@[simp] theorem State.modVat_poolFences (s : State) (v : Nat) (f : Vat → Vat) : (s.modVat v f).poolFences = s.poolFences := rfl
@[simp] theorem State.modVat_flights (s : State) (v : Nat) (f : Vat → Vat) : (s.modVat v f).flights = s.flights := rfl
@[simp] theorem State.modVat_parks (s : State) (v : Nat) (f : Vat → Vat) : (s.modVat v f).parks = s.parks := rfl
@[simp] theorem State.modVat_tc (s : State) (v : Nat) (f : Vat → Vat) : (s.modVat v f).tc = s.tc := rfl
@[simp] theorem State.modVat_time (s : State) (v : Nat) (f : Vat → Vat) : (s.modVat v f).time = s.time := rfl
@[simp] theorem State.modVat_statics (s : State) (v : Nat) (f : Vat → Vat) : (s.modVat v f).statics = s.statics := rfl
@[simp] theorem State.modVat_epochs (s : State) (v : Nat) (f : Vat → Vat) : (s.modVat v f).epochs = s.epochs := rfl
@[simp] theorem State.modVat_pkg (s : State) (v : Nat) (f : Vat → Vat) : (s.modVat v f).pkg = s.pkg := rfl
@[simp] theorem State.modVat_present (s : State) (v : Nat) (f : Vat → Vat) : (s.modVat v f).present = s.present := rfl
@[simp] theorem State.modVat_unreachable (s : State) (v : Nat) (f : Vat → Vat) : (s.modVat v f).unreachable = s.unreachable := rfl
@[simp] theorem State.modVat_kerranUp (s : State) (v : Nat) (f : Vat → Vat) : (s.modVat v f).kerranUp = s.kerranUp := rfl
@[simp] theorem State.modVat_rerouting (s : State) (v : Nat) (f : Vat → Vat) : (s.modVat v f).rerouting = s.rerouting := rfl
@[simp] theorem State.modVat_budget (s : State) (v : Nat) (f : Vat → Vat) : (s.modVat v f).budget = s.budget := rfl
@[simp] theorem State.modVat_vatPart (s : State) (v : Nat) (f : Vat → Vat) : (s.modVat v f).vatPart = s.vatPart := rfl
@[simp] theorem State.modVat_granPart (s : State) (v : Nat) (f : Vat → Vat) : (s.modVat v f).granPart = s.granPart := rfl
@[simp] theorem State.modVat_portPart (s : State) (v : Nat) (f : Vat → Vat) : (s.modVat v f).portPart = s.portPart := rfl
@[simp] theorem State.modVat_ports (s : State) (v : Nat) (f : Vat → Vat) : (s.modVat v f).ports = s.ports := rfl
@[simp] theorem State.modVat_inbound (s : State) (v : Nat) (f : Vat → Vat) : (s.modVat v f).inbound = s.inbound := rfl
@[simp] theorem State.modVat_pool (s : State) (v : Nat) (f : Vat → Vat) : (s.modVat v f).pool = s.pool := rfl
@[simp] theorem State.modVat_caltik (s : State) (v : Nat) (f : Vat → Vat) : (s.modVat v f).caltik = s.caltik := rfl
@[simp] theorem State.modVat_heldInReset (s : State) (v : Nat) (f : Vat → Vat) : (s.modVat v f).heldInReset = s.heldInReset := rfl
@[simp] theorem State.modVat_answer (s : State) (v : Nat) (f : Vat → Vat) : (s.modVat v f).answer = s.answer := rfl
@[simp] theorem State.modVat_sched (s : State) (v : Nat) (f : Vat → Vat) : (s.modVat v f).sched = s.sched := rfl
@[simp] theorem State.modVat_cur (s : State) (v : Nat) (f : Vat → Vat) : (s.modVat v f).cur = s.cur := rfl
@[simp] theorem State.modVat_fresh (s : State) (v : Nat) (f : Vat → Vat) : (s.modVat v f).fresh = s.fresh := rfl

/-! #### `modPart` -/

@[simp] theorem State.modPart_cores (s : State) (p : Nat) (f : Part → Part) : (s.modPart p f).cores = s.cores := rfl
@[simp] theorem State.modPart_vats (s : State) (p : Nat) (f : Part → Part) : (s.modPart p f).vats = s.vats := rfl
@[simp] theorem State.modPart_mem (s : State) (p : Nat) (f : Part → Part) : (s.modPart p f).mem = s.mem := rfl
@[simp] theorem State.modPart_fullBits (s : State) (p : Nat) (f : Part → Part) : (s.modPart p f).fullBits = s.fullBits := rfl
@[simp] theorem State.modPart_ue (s : State) (p : Nat) (f : Part → Part) : (s.modPart p f).ue = s.ue := rfl
@[simp] theorem State.modPart_behind (s : State) (p : Nat) (f : Part → Part) : (s.modPart p f).behind = s.behind := rfl
@[simp] theorem State.modPart_exact (s : State) (p : Nat) (f : Part → Part) : (s.modPart p f).exact = s.exact := rfl
@[simp] theorem State.modPart_records (s : State) (p : Nat) (f : Part → Part) : (s.modPart p f).records = s.records := rfl
@[simp] theorem State.modPart_res (s : State) (p : Nat) (f : Part → Part) : (s.modPart p f).res = s.res := rfl
@[simp] theorem State.modPart_sliceQ (s : State) (p : Nat) (f : Part → Part) : (s.modPart p f).sliceQ = s.sliceQ := rfl
@[simp] theorem State.modPart_tagQ (s : State) (p : Nat) (f : Part → Part) : (s.modPart p f).tagQ = s.tagQ := rfl
@[simp] theorem State.modPart_monitors (s : State) (p : Nat) (f : Part → Part) : (s.modPart p f).monitors = s.monitors := rfl
@[simp] theorem State.modPart_arrivals (s : State) (p : Nat) (f : Part → Part) : (s.modPart p f).arrivals = s.arrivals := rfl
@[simp] theorem State.modPart_poolFences (s : State) (p : Nat) (f : Part → Part) : (s.modPart p f).poolFences = s.poolFences := rfl
@[simp] theorem State.modPart_flights (s : State) (p : Nat) (f : Part → Part) : (s.modPart p f).flights = s.flights := rfl
@[simp] theorem State.modPart_parks (s : State) (p : Nat) (f : Part → Part) : (s.modPart p f).parks = s.parks := rfl
@[simp] theorem State.modPart_tc (s : State) (p : Nat) (f : Part → Part) : (s.modPart p f).tc = s.tc := rfl
@[simp] theorem State.modPart_time (s : State) (p : Nat) (f : Part → Part) : (s.modPart p f).time = s.time := rfl
@[simp] theorem State.modPart_statics (s : State) (p : Nat) (f : Part → Part) : (s.modPart p f).statics = s.statics := rfl
@[simp] theorem State.modPart_epochs (s : State) (p : Nat) (f : Part → Part) : (s.modPart p f).epochs = s.epochs := rfl
@[simp] theorem State.modPart_pkg (s : State) (p : Nat) (f : Part → Part) : (s.modPart p f).pkg = s.pkg := rfl
@[simp] theorem State.modPart_present (s : State) (p : Nat) (f : Part → Part) : (s.modPart p f).present = s.present := rfl
@[simp] theorem State.modPart_unreachable (s : State) (p : Nat) (f : Part → Part) : (s.modPart p f).unreachable = s.unreachable := rfl
@[simp] theorem State.modPart_kerranUp (s : State) (p : Nat) (f : Part → Part) : (s.modPart p f).kerranUp = s.kerranUp := rfl
@[simp] theorem State.modPart_rerouting (s : State) (p : Nat) (f : Part → Part) : (s.modPart p f).rerouting = s.rerouting := rfl
@[simp] theorem State.modPart_budget (s : State) (p : Nat) (f : Part → Part) : (s.modPart p f).budget = s.budget := rfl
@[simp] theorem State.modPart_vatPart (s : State) (p : Nat) (f : Part → Part) : (s.modPart p f).vatPart = s.vatPart := rfl
@[simp] theorem State.modPart_granPart (s : State) (p : Nat) (f : Part → Part) : (s.modPart p f).granPart = s.granPart := rfl
@[simp] theorem State.modPart_portPart (s : State) (p : Nat) (f : Part → Part) : (s.modPart p f).portPart = s.portPart := rfl
@[simp] theorem State.modPart_ports (s : State) (p : Nat) (f : Part → Part) : (s.modPart p f).ports = s.ports := rfl
@[simp] theorem State.modPart_inbound (s : State) (p : Nat) (f : Part → Part) : (s.modPart p f).inbound = s.inbound := rfl
@[simp] theorem State.modPart_pool (s : State) (p : Nat) (f : Part → Part) : (s.modPart p f).pool = s.pool := rfl
@[simp] theorem State.modPart_caltik (s : State) (p : Nat) (f : Part → Part) : (s.modPart p f).caltik = s.caltik := rfl
@[simp] theorem State.modPart_heldInReset (s : State) (p : Nat) (f : Part → Part) : (s.modPart p f).heldInReset = s.heldInReset := rfl
@[simp] theorem State.modPart_answer (s : State) (p : Nat) (f : Part → Part) : (s.modPart p f).answer = s.answer := rfl
@[simp] theorem State.modPart_sched (s : State) (p : Nat) (f : Part → Part) : (s.modPart p f).sched = s.sched := rfl
@[simp] theorem State.modPart_cur (s : State) (p : Nat) (f : Part → Part) : (s.modPart p f).cur = s.cur := rfl
@[simp] theorem State.modPart_fresh (s : State) (p : Nat) (f : Part → Part) : (s.modPart p f).fresh = s.fresh := rfl

/-! #### `modPort` -/

@[simp] theorem State.modPort_cores (s : State) (j : Nat) (f : Port → Port) : (s.modPort j f).cores = s.cores := rfl
@[simp] theorem State.modPort_vats (s : State) (j : Nat) (f : Port → Port) : (s.modPort j f).vats = s.vats := rfl
@[simp] theorem State.modPort_parts (s : State) (j : Nat) (f : Port → Port) : (s.modPort j f).parts = s.parts := rfl
@[simp] theorem State.modPort_mem (s : State) (j : Nat) (f : Port → Port) : (s.modPort j f).mem = s.mem := rfl
@[simp] theorem State.modPort_fullBits (s : State) (j : Nat) (f : Port → Port) : (s.modPort j f).fullBits = s.fullBits := rfl
@[simp] theorem State.modPort_ue (s : State) (j : Nat) (f : Port → Port) : (s.modPort j f).ue = s.ue := rfl
@[simp] theorem State.modPort_behind (s : State) (j : Nat) (f : Port → Port) : (s.modPort j f).behind = s.behind := rfl
@[simp] theorem State.modPort_exact (s : State) (j : Nat) (f : Port → Port) : (s.modPort j f).exact = s.exact := rfl
@[simp] theorem State.modPort_records (s : State) (j : Nat) (f : Port → Port) : (s.modPort j f).records = s.records := rfl
@[simp] theorem State.modPort_res (s : State) (j : Nat) (f : Port → Port) : (s.modPort j f).res = s.res := rfl
@[simp] theorem State.modPort_sliceQ (s : State) (j : Nat) (f : Port → Port) : (s.modPort j f).sliceQ = s.sliceQ := rfl
@[simp] theorem State.modPort_tagQ (s : State) (j : Nat) (f : Port → Port) : (s.modPort j f).tagQ = s.tagQ := rfl
@[simp] theorem State.modPort_monitors (s : State) (j : Nat) (f : Port → Port) : (s.modPort j f).monitors = s.monitors := rfl
@[simp] theorem State.modPort_arrivals (s : State) (j : Nat) (f : Port → Port) : (s.modPort j f).arrivals = s.arrivals := rfl
@[simp] theorem State.modPort_poolFences (s : State) (j : Nat) (f : Port → Port) : (s.modPort j f).poolFences = s.poolFences := rfl
@[simp] theorem State.modPort_flights (s : State) (j : Nat) (f : Port → Port) : (s.modPort j f).flights = s.flights := rfl
@[simp] theorem State.modPort_parks (s : State) (j : Nat) (f : Port → Port) : (s.modPort j f).parks = s.parks := rfl
@[simp] theorem State.modPort_tc (s : State) (j : Nat) (f : Port → Port) : (s.modPort j f).tc = s.tc := rfl
@[simp] theorem State.modPort_time (s : State) (j : Nat) (f : Port → Port) : (s.modPort j f).time = s.time := rfl
@[simp] theorem State.modPort_statics (s : State) (j : Nat) (f : Port → Port) : (s.modPort j f).statics = s.statics := rfl
@[simp] theorem State.modPort_epochs (s : State) (j : Nat) (f : Port → Port) : (s.modPort j f).epochs = s.epochs := rfl
@[simp] theorem State.modPort_pkg (s : State) (j : Nat) (f : Port → Port) : (s.modPort j f).pkg = s.pkg := rfl
@[simp] theorem State.modPort_present (s : State) (j : Nat) (f : Port → Port) : (s.modPort j f).present = s.present := rfl
@[simp] theorem State.modPort_unreachable (s : State) (j : Nat) (f : Port → Port) : (s.modPort j f).unreachable = s.unreachable := rfl
@[simp] theorem State.modPort_kerranUp (s : State) (j : Nat) (f : Port → Port) : (s.modPort j f).kerranUp = s.kerranUp := rfl
@[simp] theorem State.modPort_rerouting (s : State) (j : Nat) (f : Port → Port) : (s.modPort j f).rerouting = s.rerouting := rfl
@[simp] theorem State.modPort_budget (s : State) (j : Nat) (f : Port → Port) : (s.modPort j f).budget = s.budget := rfl
@[simp] theorem State.modPort_vatPart (s : State) (j : Nat) (f : Port → Port) : (s.modPort j f).vatPart = s.vatPart := rfl
@[simp] theorem State.modPort_granPart (s : State) (j : Nat) (f : Port → Port) : (s.modPort j f).granPart = s.granPart := rfl
@[simp] theorem State.modPort_portPart (s : State) (j : Nat) (f : Port → Port) : (s.modPort j f).portPart = s.portPart := rfl
@[simp] theorem State.modPort_inbound (s : State) (j : Nat) (f : Port → Port) : (s.modPort j f).inbound = s.inbound := rfl
@[simp] theorem State.modPort_pool (s : State) (j : Nat) (f : Port → Port) : (s.modPort j f).pool = s.pool := rfl
@[simp] theorem State.modPort_caltik (s : State) (j : Nat) (f : Port → Port) : (s.modPort j f).caltik = s.caltik := rfl
@[simp] theorem State.modPort_heldInReset (s : State) (j : Nat) (f : Port → Port) : (s.modPort j f).heldInReset = s.heldInReset := rfl
@[simp] theorem State.modPort_answer (s : State) (j : Nat) (f : Port → Port) : (s.modPort j f).answer = s.answer := rfl
@[simp] theorem State.modPort_sched (s : State) (j : Nat) (f : Port → Port) : (s.modPort j f).sched = s.sched := rfl
@[simp] theorem State.modPort_cur (s : State) (j : Nat) (f : Port → Port) : (s.modPort j f).cur = s.cur := rfl
@[simp] theorem State.modPort_fresh (s : State) (j : Nat) (f : Port → Port) : (s.modPort j f).fresh = s.fresh := rfl

/-! #### `modRegion` -/

@[simp] theorem State.modRegion_cores (s : State) (r : Nat) (f : Region → Region) : (s.modRegion r f).cores = s.cores := rfl
@[simp] theorem State.modRegion_vats (s : State) (r : Nat) (f : Region → Region) : (s.modRegion r f).vats = s.vats := rfl
@[simp] theorem State.modRegion_parts (s : State) (r : Nat) (f : Region → Region) : (s.modRegion r f).parts = s.parts := rfl
@[simp] theorem State.modRegion_mem (s : State) (r : Nat) (f : Region → Region) : (s.modRegion r f).mem = s.mem := rfl
@[simp] theorem State.modRegion_fullBits (s : State) (r : Nat) (f : Region → Region) : (s.modRegion r f).fullBits = s.fullBits := rfl
@[simp] theorem State.modRegion_ue (s : State) (r : Nat) (f : Region → Region) : (s.modRegion r f).ue = s.ue := rfl
@[simp] theorem State.modRegion_behind (s : State) (r : Nat) (f : Region → Region) : (s.modRegion r f).behind = s.behind := rfl
@[simp] theorem State.modRegion_exact (s : State) (r : Nat) (f : Region → Region) : (s.modRegion r f).exact = s.exact := rfl
@[simp] theorem State.modRegion_records (s : State) (r : Nat) (f : Region → Region) : (s.modRegion r f).records = s.records := rfl
@[simp] theorem State.modRegion_res (s : State) (r : Nat) (f : Region → Region) : (s.modRegion r f).res = s.res := rfl
@[simp] theorem State.modRegion_sliceQ (s : State) (r : Nat) (f : Region → Region) : (s.modRegion r f).sliceQ = s.sliceQ := rfl
@[simp] theorem State.modRegion_tagQ (s : State) (r : Nat) (f : Region → Region) : (s.modRegion r f).tagQ = s.tagQ := rfl
@[simp] theorem State.modRegion_monitors (s : State) (r : Nat) (f : Region → Region) : (s.modRegion r f).monitors = s.monitors := rfl
@[simp] theorem State.modRegion_arrivals (s : State) (r : Nat) (f : Region → Region) : (s.modRegion r f).arrivals = s.arrivals := rfl
@[simp] theorem State.modRegion_poolFences (s : State) (r : Nat) (f : Region → Region) : (s.modRegion r f).poolFences = s.poolFences := rfl
@[simp] theorem State.modRegion_flights (s : State) (r : Nat) (f : Region → Region) : (s.modRegion r f).flights = s.flights := rfl
@[simp] theorem State.modRegion_parks (s : State) (r : Nat) (f : Region → Region) : (s.modRegion r f).parks = s.parks := rfl
@[simp] theorem State.modRegion_tc (s : State) (r : Nat) (f : Region → Region) : (s.modRegion r f).tc = s.tc := rfl
@[simp] theorem State.modRegion_time (s : State) (r : Nat) (f : Region → Region) : (s.modRegion r f).time = s.time := rfl
@[simp] theorem State.modRegion_statics (s : State) (r : Nat) (f : Region → Region) : (s.modRegion r f).statics = s.statics := rfl
@[simp] theorem State.modRegion_epochs (s : State) (r : Nat) (f : Region → Region) : (s.modRegion r f).epochs = s.epochs := rfl
@[simp] theorem State.modRegion_pkg (s : State) (r : Nat) (f : Region → Region) : (s.modRegion r f).pkg = s.pkg := rfl
@[simp] theorem State.modRegion_present (s : State) (r : Nat) (f : Region → Region) : (s.modRegion r f).present = s.present := rfl
@[simp] theorem State.modRegion_unreachable (s : State) (r : Nat) (f : Region → Region) : (s.modRegion r f).unreachable = s.unreachable := rfl
@[simp] theorem State.modRegion_kerranUp (s : State) (r : Nat) (f : Region → Region) : (s.modRegion r f).kerranUp = s.kerranUp := rfl
@[simp] theorem State.modRegion_rerouting (s : State) (r : Nat) (f : Region → Region) : (s.modRegion r f).rerouting = s.rerouting := rfl
@[simp] theorem State.modRegion_budget (s : State) (r : Nat) (f : Region → Region) : (s.modRegion r f).budget = s.budget := rfl
@[simp] theorem State.modRegion_vatPart (s : State) (r : Nat) (f : Region → Region) : (s.modRegion r f).vatPart = s.vatPart := rfl
@[simp] theorem State.modRegion_granPart (s : State) (r : Nat) (f : Region → Region) : (s.modRegion r f).granPart = s.granPart := rfl
@[simp] theorem State.modRegion_portPart (s : State) (r : Nat) (f : Region → Region) : (s.modRegion r f).portPart = s.portPart := rfl
@[simp] theorem State.modRegion_ports (s : State) (r : Nat) (f : Region → Region) : (s.modRegion r f).ports = s.ports := rfl
@[simp] theorem State.modRegion_inbound (s : State) (r : Nat) (f : Region → Region) : (s.modRegion r f).inbound = s.inbound := rfl
@[simp] theorem State.modRegion_caltik (s : State) (r : Nat) (f : Region → Region) : (s.modRegion r f).caltik = s.caltik := rfl
@[simp] theorem State.modRegion_heldInReset (s : State) (r : Nat) (f : Region → Region) : (s.modRegion r f).heldInReset = s.heldInReset := rfl
@[simp] theorem State.modRegion_answer (s : State) (r : Nat) (f : Region → Region) : (s.modRegion r f).answer = s.answer := rfl
@[simp] theorem State.modRegion_sched (s : State) (r : Nat) (f : Region → Region) : (s.modRegion r f).sched = s.sched := rfl
@[simp] theorem State.modRegion_cur (s : State) (r : Nat) (f : Region → Region) : (s.modRegion r f).cur = s.cur := rfl
@[simp] theorem State.modRegion_fresh (s : State) (r : Nat) (f : Region → Region) : (s.modRegion r f).fresh = s.fresh := rfl

/-! ### Reading a part back -/

@[simp] theorem State.core_setCore_same (s : State) (q : Nat) (c : CoreSt) : (s.setCore q c).core q = c := by
  simp [State.core, State.setCore]

theorem State.core_setCore_ne (s : State) {q p : Nat} (h : p ≠ q) (c : CoreSt) : (s.setCore q c).core p = s.core p := by
  simp [State.core, State.setCore, Store.find?_ins_ne _ h]

@[simp] theorem State.core_modCore_same (s : State) (q : Nat) (f : CoreSt → CoreSt) : (s.modCore q f).core q = f (s.core q) := by
  simp [State.modCore]

theorem State.core_modCore_ne (s : State) {q p : Nat} (h : p ≠ q) (f : CoreSt → CoreSt) : (s.modCore q f).core p = s.core p := by
  simp [State.modCore, State.core_setCore_ne s h]

theorem State.core_modCore (s : State) (q p : Nat) (f : CoreSt → CoreSt) :
    (s.modCore q f).core p = if p = q then f (s.core q) else s.core p := by
  by_cases h : p = q
  · simp [h]
  · simp [h, State.core_modCore_ne s h]

@[simp] theorem State.thr_modThr_same (s : State) (q : Nat) (f : Thread → Thread) : (s.modThr q f).thr q = f (s.thr q) := by
  simp [State.modThr, State.thr]

theorem State.core_modThr_ne (s : State) {q p : Nat} (h : p ≠ q) (f : Thread → Thread) : (s.modThr q f).core p = s.core p :=
  State.core_modCore_ne s h _

@[simp] theorem State.core_modThr_same (s : State) (q : Nat) (f : Thread → Thread) :
    (s.modThr q f).core q = { s.core q with thr := f (s.core q).thr } := by simp [State.modThr]

@[simp] theorem State.core_modPriv_same (s : State) (q : Nat) (f : Priv → Priv) :
    (s.modPriv q f).core q = { s.core q with priv := f (s.core q).priv } := by simp [State.modPriv]

@[simp] theorem State.priv_modPriv_same (s : State) (q : Nat) (f : Priv → Priv) : (s.modPriv q f).priv q = f (s.priv q) := by
  simp [State.modPriv, State.priv]

@[simp] theorem State.sprig_modSprig_same (s : State) (q i : Nat) (f : Sprig → Sprig) :
    (s.modSprig q i f).sprig q i = f (s.sprig q i) := by simp [State.modSprig, State.sprig]

theorem State.core_modSprig_ne (s : State) {q p : Nat} (h : p ≠ q) (i : Nat) (f : Sprig → Sprig) :
    (s.modSprig q i f).core p = s.core p := State.core_modCore_ne s h _

@[simp] theorem State.core_modSprig_same (s : State) (q i : Nat) (f : Sprig → Sprig) :
    (s.modSprig q i f).core q = { s.core q with
      arr := { (s.core q).arr with sprigs := Store.ins (s.core q).arr.sprigs i (f (s.sprig q i)) }
      dirty := { (s.core q).dirty with sprig := (s.core q).dirty.sprig ||| BitVec.ofNat 64 (2 ^ i) } } := by
  simp [State.modSprig, State.sprig]

theorem State.sprig_modSprig_ne (s : State) (q : Nat) {i j : Nat} (h : j ≠ i) (f : Sprig → Sprig) :
    (s.modSprig q i f).sprig q j = s.sprig q j := by
  simp [State.modSprig, State.sprig, Store.find?_ins_ne _ h]

@[simp] theorem State.vat_modVat_same (s : State) (v : Nat) (f : Vat → Vat) : (s.modVat v f).vat v = f (s.vat v) := by
  simp [State.vat, State.modVat]

@[simp] theorem State.part_modPart_same (s : State) (p : Nat) (f : Part → Part) : (s.modPart p f).part p = f (s.part p) := by
  simp [State.part, State.modPart]

@[simp] theorem State.port_modPort_same (s : State) (j : Nat) (f : Port → Port) : (s.modPort j f).port j = f (s.port j) := by
  simp [State.port, State.modPort]

@[simp] theorem State.region_modRegion_same (s : State) (r : Nat) (f : Region → Region) :
    (s.modRegion r f).region r = f (s.region r) := by simp [State.region, State.modRegion]


end Sys2Proof.Machine
end

