-- ==== Sys2Proof/Laws/Ops.lean ====
section
/-! SUPPORT. The shared operations over agents: registers, the charge, retirement, and that an instruction which only writes a
register completes with everything else as it was. -/

namespace Sys2Proof.Machine

/-! ### Updates of one core -/

theorem Store.rep_rep {α : Type} (m : Store α) (i : Nat) (v w : α) : Store.rep (Store.rep m i v) i w = Store.rep m i w := by
  induction m with
  | nil => rfl
  | cons e m ih =>
    obtain ⟨k, x⟩ := e
    simp only [Store.rep]
    split
    · simp [Store.rep, *]
    · simp [Store.rep, *]

theorem Store.rep_add {α : Type} (m : Store α) (i : Nat) (v w : α) (h : Store.find? m i = none) :
    Store.rep (Store.add m i v) i w = Store.add m i w := by
  induction m with
  | nil => simp [Store.rep, Store.add]
  | cons e m ih =>
    obtain ⟨k, x⟩ := e
    simp only [Store.find?] at h
    split at h
    · cases h
    · simp only [Store.add]
      split
      · simp [Store.rep]
      · simp [Store.rep, ih h, *]

theorem Store.ins_ins {α : Type} (m : Store α) (i : Nat) (v w : α) : Store.ins (Store.ins m i v) i w = Store.ins m i w := by
  rw [Store.ins, Store.find?_ins_same]
  simp only [Option.isSome_some, if_true]
  unfold Store.ins
  split
  · exact Store.rep_rep m i v w
  · rename_i hn
    exact Store.rep_add m i v w (by simpa using hn)

/-- Two updates of one core are one. -/
theorem State.modCore_modCore (s : State) (q : Nat) (f g : CoreSt → CoreSt) :
    (s.modCore q f).modCore q g = s.modCore q fun c => g (f c) := by
  simp [State.modCore, State.setCore, State.core, Store.ins_ins]

/-- Two updates of one thread are one. -/
theorem State.modThr_modThr (s : State) (q : Nat) (f g : Thread → Thread) :
    (s.modThr q f).modThr q g = s.modThr q fun t => g (f t) := State.modCore_modCore s q _ _

@[simp] theorem State.priv_modThr (s : State) (q p : Nat) (f : Thread → Thread) : (s.modThr q f).priv p = s.priv p := by
  unfold State.priv State.modThr
  rw [State.core_modCore]
  split <;> simp_all

@[simp] theorem State.sprig_modThr (s : State) (q p i : Nat) (f : Thread → Thread) : (s.modThr q f).sprig p i = s.sprig p i := by
  unfold State.sprig State.modThr
  rw [State.core_modCore]
  split <;> simp_all

@[simp] theorem State.priv_modSprig (s : State) (q i p : Nat) (f : Sprig → Sprig) : (s.modSprig q i f).priv p = s.priv p := by
  unfold State.priv State.modSprig
  rw [State.core_modCore]
  split <;> simp_all

@[simp] theorem State.thr_modSprig (s : State) (q i p : Nat) (f : Sprig → Sprig) : (s.modSprig q i f).thr p = s.thr p := by
  unfold State.thr State.modSprig
  rw [State.core_modCore]
  split <;> simp_all

/-- Two updates of one sprig are one. -/
theorem State.modSprig_modSprig (s : State) (q i : Nat) (f g : Sprig → Sprig) :
    (s.modSprig q i f).modSprig q i g = s.modSprig q i fun p => g (f p) := by
  simp [State.modSprig, State.modCore_modCore, Store.ins_ins, BitVec.or_assoc]

/-- An update of a thread before one of a sprig is one after it. -/
theorem State.modSprig_modThr (s : State) (q i : Nat) (f : Sprig → Sprig) (g : Thread → Thread) :
    (s.modSprig q i f).modThr q g = (s.modThr q g).modSprig q i f := by
  simp [State.modSprig, State.modThr, State.modCore_modCore]

/-! ### The registers of a bank are apart -/

/-- Within a bank, registers of other numbers stand elsewhere (R309). -/
theorem gKey_inj (l : Level) (r d : BitVec 5) (h : r ≠ d) : gKey l r.toNat ≠ gKey l d.toNat := by
  have hne : r.toNat ≠ d.toNat := fun e => h (BitVec.eq_of_toNat_eq e)
  have h1 := r.isLt
  have h2 := d.isLt
  cases l <;> simp only [gKey] <;> split <;> split <;> omega

/-! ### Retirement in one update -/

/-- Only what a function does to the present thread matters. -/
theorem State.modThr_congr (s : State) (q : Nat) {f g : Thread → Thread} (h : f (s.thr q) = g (s.thr q)) :
    s.modThr q f = s.modThr q g := by
  simp only [State.modThr, State.modCore]
  exact congrArg (fun t => s.setCore q { s.core q with thr := t }) h

/-- The charge of an instruction moves the energy counter of its thread only (R368, R371). -/
theorem State.chargeInstr_cases (s : State) (a : AgentId) (i : Instr) :
    s.chargeInstr a i = s ∨ ∃ u, s.chargeInstr a i = s.modThr a.core fun t => chargeUnits t u := by
  unfold State.chargeInstr State.charge
  split
  · exact .inl rfl
  · split
    · split
      · exact .inr ⟨_, rfl⟩
      · exact .inl rfl
    · exact .inl rfl

theorem chargeUnits_rest (t : Thread) (u : Nat) :
    chargeUnits t u = { t with energy := (chargeUnits t u).energy, sat := (chargeUnits t u).sat } := by
  unfold chargeUnits
  split <;> rfl

/-- What an instruction's completion does to what its agent holds beside its registers: nothing waits, no instruction is in progress, and
the line read is kept or not. -/
def doneAg (keep : Bool) (g : Agent) : Agent := { g.idle with snap := if keep then g.snap else none }

@[simp] theorem doneAg_sb (keep : Bool) (g : Agent) : (doneAg keep g).sb = g.sb := rfl
@[simp] theorem doneAg_fwd (keep : Bool) (g : Agent) : (doneAg keep g).fwd = g.fwd := rfl
@[simp] theorem doneAg_wait (keep : Bool) (g : Agent) : (doneAg keep g).wait = none := rfl
@[simp] theorem doneAg_inval (keep : Bool) (g : Agent) : (doneAg keep g).inval = false := rfl
@[simp] theorem Agent.wrote_sb (g : Agent) (r : BitVec 5) : (g.wrote r).sb = g.sb := rfl
@[simp] theorem Agent.wrote_snap (g : Agent) (r : BitVec 5) : (g.wrote r).snap = g.snap := rfl

/-- Completion of an instruction of a thread, as one update of the thread. -/
theorem State.retireTo_thread (s : State) (q : Nat) (i : Instr) (target : Word) (keep : Bool) :
    ∃ e b, s.retireTo ⟨q, .thread⟩ i target keep = s.modThr q fun t => { t with
      energy := e, sat := b, retired := t.retired + 1, pc := target, ag := doneAg keep t.ag } := by
  rcases s.chargeInstr_cases ⟨q, .thread⟩ i with h | ⟨u, h⟩
  · refine ⟨(s.thr q).energy, (s.thr q).sat, ?_⟩
    simp only [State.retireTo, h, State.countRetired, State.setPc, State.endWait, State.modThr_modThr]
    exact State.modThr_congr s q rfl
  · refine ⟨(chargeUnits (s.thr q) u).energy, (chargeUnits (s.thr q) u).sat, ?_⟩
    simp only [State.retireTo, h, State.countRetired, State.setPc, State.endWait, State.modThr_modThr]
    apply State.modThr_congr
    rw [chargeUnits_rest]
    rfl

/-- What an instruction's completion does to its sprig. -/
def doneSprig (target : Word) (keep : Bool) (p : Sprig) : Sprig :=
  { p with
    pc := target.setWidth 17
    ag := doneAg keep p.ag
    st := if p.st = .waiting then .running else p.st }

/-- Completion of an instruction of a sprig: the thread is charged, the sprig moves on. -/
theorem State.retireTo_sprig (s : State) (q k : Nat) (i : Instr) (target : Word) (keep : Bool) :
    ∃ e b, s.retireTo ⟨q, .sprig k⟩ i target keep =
      (s.modThr q fun t => { t with energy := e, sat := b }).modSprig q k (doneSprig target keep) := by
  rcases s.chargeInstr_cases ⟨q, .sprig k⟩ i with h | ⟨u, h⟩
  · refine ⟨(s.thr q).energy, (s.thr q).sat, ?_⟩
    simp only [State.retireTo, h, State.countRetired, State.setPc, State.endWait, State.modSprig_modSprig]
    simp only [State.modSprig, State.modThr, State.modCore_modCore]
    exact congrArg (fun c => s.setCore q c) rfl
  · refine ⟨(chargeUnits (s.thr q) u).energy, (chargeUnits (s.thr q) u).sat, ?_⟩
    simp only [State.retireTo, h, State.countRetired, State.setPc, State.endWait, State.modSprig_modSprig]
    have : (s.modThr q fun t => chargeUnits t u) = s.modThr q fun t =>
        { t with energy := (chargeUnits (s.thr q) u).energy, sat := (chargeUnits (s.thr q) u).sat } := by
      apply State.modThr_congr
      rw [chargeUnits_rest]
    rw [this]
    rfl

/-! ### One register, then on -/

/-- Writing a scalar register of a thread, as an update of the thread. -/
theorem State.setG_thread (s : State) (q : Nat) (d : BitVec 5) (v : Word) (h : d ≠ 0) :
    s.setG ⟨q, .thread⟩ d v =
      s.modThr q fun t => { t with g := Store.put t.g 0 (gKey (s.priv q).status.pl d.toNat) v, ag := t.ag.wrote d } := by
  rw [State.setG, if_neg h]

theorem State.setG_sprig (s : State) (q k : Nat) (d : BitVec 5) (v : Word) (h : d ≠ 0) :
    s.setG ⟨q, .sprig k⟩ d v = s.modSprig q k fun p => { p with g := Store.put p.g 0 d.toNat v } := by
  rw [State.setG, if_neg h]

/-- The state in which an instruction of an agent has raised flags, written one register and completed. -/
def State.done (s : State) (a : AgentId) (i : Instr) (d : BitVec 5) (v : Word) (fl : BitVec 6) (pc : Word) (keep : Bool) : State :=
  ((s.raiseFlags a fl).setG a d v).retireTo a i pc keep

/-- A completed instruction of a thread is one update of its thread. -/
theorem State.done_thread (s : State) (q : Nat) (i : Instr) (d : BitVec 5) (v : Word) (fl : BitVec 6) (pc : Word) (keep : Bool) :
    ∃ e b, s.done ⟨q, .thread⟩ i d v fl pc keep = s.modThr q fun t => { t with
      g := if d = 0 then t.g else Store.put t.g 0 (gKey (s.priv q).status.pl d.toNat) v
      fpstat := t.fpstat ||| fl
      energy := e, sat := b, retired := t.retired + 1, pc := pc
      ag := doneAg keep (if d = 0 then t.ag else t.ag.wrote d) } := by
  obtain ⟨e, b, h⟩ := State.retireTo_thread ((s.raiseFlags ⟨q, .thread⟩ fl).setG ⟨q, .thread⟩ d v) q i pc keep
  refine ⟨e, b, ?_⟩
  rw [State.done, h]
  by_cases hf : fl = 0 <;> by_cases hd : d = 0
  · subst hf hd
    simp only [State.raiseFlags, State.setG, if_true]
    apply State.modThr_congr
    simp
  · subst hf
    simp only [State.raiseFlags, if_true]
    rw [State.setG_thread _ _ _ _ hd, State.modThr_modThr]
    apply State.modThr_congr
    simp [show ¬d = 0#5 from hd]
  · subst hd
    simp only [State.raiseFlags, State.setG, if_true, if_neg hf, State.modThr_modThr]
  · rw [State.setG_thread _ _ _ _ hd]
    simp only [State.raiseFlags, if_neg hf, State.modThr_modThr, State.priv_modThr, if_neg hd]

/-- A completed instruction of a sprig is one update of the sprig, and the charge of the thread. -/
theorem State.done_sprig (s : State) (q k : Nat) (i : Instr) (d : BitVec 5) (v : Word) (fl : BitVec 6) (pc : Word) (keep : Bool) :
    ∃ e b, s.done ⟨q, .sprig k⟩ i d v fl pc keep =
      (s.modThr q fun t => { t with energy := e, sat := b }).modSprig q k fun p => { p with
        g := if d = 0 then p.g else Store.put p.g 0 d.toNat v
        fpstat := p.fpstat ||| fl
        pc := pc.setWidth 17
        ag := doneAg keep p.ag
        st := if p.st = .waiting then .running else p.st } := by
  obtain ⟨e, b, h⟩ := State.retireTo_sprig ((s.raiseFlags ⟨q, .sprig k⟩ fl).setG ⟨q, .sprig k⟩ d v) q k i pc keep
  refine ⟨e, b, ?_⟩
  rw [State.done, h]
  by_cases hf : fl = 0 <;> by_cases hd : d = 0
  · subst hf hd
    simp only [State.raiseFlags, State.setG, if_true]
    simp [State.modSprig, doneSprig]
  · subst hf
    simp only [State.raiseFlags, if_true]
    rw [State.setG_sprig _ _ _ _ _ hd, State.modSprig_modThr, State.modSprig_modSprig]
    simp only [if_neg hd]
    simp [State.modSprig, doneSprig]
  · subst hd
    simp only [State.raiseFlags, State.setG, if_true, if_neg hf, State.modSprig_modThr, State.modSprig_modSprig]
    rfl
  · rw [State.setG_sprig _ _ _ _ _ hd]
    simp only [State.raiseFlags, if_neg hf, State.modSprig_modThr, State.modSprig_modSprig, if_neg hd]
    rfl

/-- Completion with one register, flags and a new PC leaves everything else as it was. -/
theorem State.agentDone_done (s : State) (a : AgentId) (i : Instr) (d : BitVec 5) (v : Word) (fl : BitVec 6) (pc : Word)
    (keep : Bool) : AgentDone s (s.done a i d v fl pc keep) a d v fl pc (s.ag a).sb := by
  obtain ⟨q, w⟩ := a
  cases w with
  | thread =>
    obtain ⟨e, b, h⟩ := s.done_thread q i d v fl pc keep
    rw [h]
    constructor
    · intro r
      by_cases hr : r = 0
      · subst hr
        have h0 : ¬((0 : BitVec 5) = d ∧ d ≠ 0) := fun h => h.2 h.1.symm
        rw [if_neg h0]
        simp [State.getG]
      · have hr' : ¬r = 0#5 := hr
        by_cases hd : d = 0
        · simp [State.getG, hr', hd]
        · have hd' : ¬d = 0#5 := hd
          by_cases hrd : r = d
          · subst hrd
            rw [if_pos ⟨rfl, hd⟩]
            simp only [State.getG, if_neg hr, State.thr_modThr_same, State.priv_modThr, Store.get_put_same]
          · rw [if_neg fun h => hrd h.1]
            simp only [State.getG, if_neg hr, State.thr_modThr_same, State.priv_modThr, if_neg hd, Store.get_put]
            rw [if_neg (gKey_inj _ r d hrd)]
    · simp [State.pcOf, landing]
    · simp [State.fpstatOf]
    · simp only [State.ag, State.thr_modThr_same]
      split <;> rfl
    · intro _ j hj
      by_cases hd : d = 0
      · simp [hd]
      · simp only [State.thr_modThr_same, if_neg hd, Store.get_put]
        rw [if_neg (hj.resolve_left hd)]
    · intro _
      simp [ThreadRest]
    · simp
    · simp
    · simp
    · simp
    · simp
    · simp
    · simp
    · intro p hp
      simp [State.core_modThr_ne s hp]
  | sprig k =>
    obtain ⟨e, b, h⟩ := s.done_sprig q k i d v fl pc keep
    rw [h]
    constructor
    · intro r
      by_cases hr : r = 0
      · subst hr
        have h0 : ¬((0 : BitVec 5) = d ∧ d ≠ 0) := fun h => h.2 h.1.symm
        rw [if_neg h0]
        simp [State.getG]
      · have hr' : ¬r = 0#5 := hr
        by_cases hd : d = 0
        · simp [State.getG, hr', hd]
        · by_cases hrd : r = d
          · subst hrd
            rw [if_pos ⟨rfl, hd⟩]
            simp only [State.getG, if_neg hr, State.sprig_modSprig_same, Store.get_put_same]
          · have hne : r.toNat ≠ d.toNat := fun h => hrd (BitVec.eq_of_toNat_eq h)
            rw [if_neg fun h => hrd h.1]
            simp only [State.getG, if_neg hr, State.sprig_modSprig_same, if_neg hd, Store.get_put, State.sprig_modThr]
            rw [if_neg hne]
    · simp [State.pcOf, landing]
    · simp [State.fpstatOf]
    · simp [State.ag]
    · simp
    · simp
    · simp
    · simp [SprigRest]
    · simp
    · intro j hj
      rw [State.sprig_modSprig_ne _ _ fun h => hj (by simp [h])]
      simp
    · simp
    · simp
    · simp
    · intro p hp
      simp [State.core_modSprig_ne _ hp, State.core_modThr_ne s hp]

/-- And nothing outside the core. -/
theorem State.packageKept_done (s : State) (a : AgentId) (i : Instr) (d : BitVec 5) (v : Word) (fl : BitVec 6) (pc : Word)
    (keep : Bool) : PackageKept s (s.done a i d v fl pc keep) := by
  obtain ⟨q, w⟩ := a
  cases w with
  | thread =>
    obtain ⟨e, b, h⟩ := s.done_thread q i d v fl pc keep
    rw [h]
    refine ⟨rfl, fun l => rfl, fun l => rfl, fun p => ?_⟩
    by_cases hp : p = q
    · subst hp; simp
    · simp [State.core_modThr_ne s hp]
  | sprig k =>
    obtain ⟨e, b, h⟩ := s.done_sprig q k i d v fl pc keep
    rw [h]
    refine ⟨rfl, fun l => rfl, fun l => rfl, fun p => ?_⟩
    by_cases hp : p = q
    · subst hp; simp
    · simp [State.core_modSprig_ne _ hp, State.core_modThr_ne s hp]

/-- Writing registers and flags moves neither the PC nor the line read. -/
theorem State.at_setG_raiseFlags (s : State) (a : AgentId) (d : BitVec 5) (v : Word) (fl : BitVec 6) :
    ((s.raiseFlags a fl).setG a d v).pcOf a = s.pcOf a ∧ (((s.raiseFlags a fl).setG a d v).ag a).snap = (s.ag a).snap := by
  obtain ⟨q, w⟩ := a
  cases w <;> simp only [State.raiseFlags, State.setG, State.pcOf, State.ag] <;> split <;> split <;> simp

/-- A completed instruction that goes on at NextPC, as `State.done`. -/
theorem State.retire_eq_done (s : State) (a : AgentId) (i : Instr) (d : BitVec 5) (v : Word) (fl : BitVec 6) :
    ((s.raiseFlags a fl).setG a d v).retire a i =
      s.done a i d v fl (s.nextPc a) (lineBase (s.nextPc a) == lineBase (s.pcOf a)) := by
  obtain ⟨h1, h2⟩ := s.at_setG_raiseFlags a d v fl
  simp only [State.retire, State.done, State.nextPc, h1, h2]

@[simp] theorem State.setG_cur (s : State) (a : AgentId) (d : BitVec 5) (v : Word) : (s.setG a d v).cur = s.cur := by
  unfold State.setG
  split
  · rfl
  · split <;> rfl

@[simp] theorem State.raiseFlags_cur (s : State) (a : AgentId) (fl : BitVec 6) : (s.raiseFlags a fl).cur = s.cur := by
  unfold State.raiseFlags
  split
  · rfl
  · split <;> rfl

/-- Whatever ends in `finishG` over raised flags completes. -/
theorem completes_of_finishG {s : State} {i : Instr} {d : BitVec 5} {v : Word} (fl : BitVec 6)
    (h : exec i s = finishG i d v (s.raiseFlags s.cur fl)) : Completes s i d v fl (s.nextPc s.cur) := by
  have e : exec i s = .next (s.done s.cur i d v fl (s.nextPc s.cur) (lineBase (s.nextPc s.cur) == lineBase (s.pcOf s.cur))) := by
    rw [h, finishG, finish]
    simp only [State.setG_cur, State.raiseFlags_cur]
    rw [State.retire_eq_done]
  exact ⟨_, e, State.agentDone_done .., State.packageKept_done ..⟩

/-- Whatever ends in `finishG` completes without a flag. -/
theorem computes_of_finishG {s : State} {i : Instr} {d : BitVec 5} {v : Word} (h : exec i s = finishG i d v s) :
    Computes s i d v := completes_of_finishG 0 h

/-- Whatever ends in `finish` completes and writes no register. -/
theorem passes_of_finish {s : State} {i : Instr} (h : exec i s = finish i s) : Passes s i := computes_of_finishG h

end Sys2Proof.Machine
end

