-- ==== Sys2Proof/Laws/Memory.lean ====
section
/-! SUPPORT. Every operation that writes memory keeps its canonical form, and what a write of cells leaves readable. -/

namespace Sys2Proof.Machine

/-! ### Operations on the list of bytes -/

/-- What a byte reads as after a write of cells at distinct addresses. -/
theorem Memory.read_writeCells (m : List Host.Cell) (cs : List Host.Cell) (c : Host.Cell) (hc : c ∈ cs)
    (hn : (cs.map fun x => x.1).Nodup) : Memory.read (Memory.writeCells m cs) c.1 = c.2 := by
  induction cs generalizing m with
  | nil => simp at hc
  | cons d ds ih =>
    simp only [List.map_cons, List.nodup_cons, List.mem_map, not_exists, not_and] at hn
    have e : Memory.writeCells m (d :: ds) = Memory.writeCells (Memory.write m d.1 d.2) ds := rfl
    rw [e]
    rcases List.mem_cons.mp hc with rfl | h
    · rw [Memory.read_writeCells_other _ _ _ fun x hx => hn.1 x hx, Memory.read_write]; simp
    · exact ih _ h hn.2

/-- An entry written over a map whose values are not the default. -/
theorem Memory.wf_foldl_ins (es : List (Nat × Byte)) (m : List Host.Cell) (he : ∀ e ∈ es, e.2 ≠ memDefault)
    (h : Memory.wf m = true) : Memory.wf (es.foldl (fun m e => Store.ins m e.1 e.2) m) = true := by
  induction es generalizing m with
  | nil => exact h
  | cons e es ih =>
    exact ih _ (fun x hx => he x (List.mem_cons_of_mem e hx)) (Store.wf_ins m memDefault e.1 e.2 (he e List.mem_cons_self) h)

/-- Moving a range keeps the canonical form (R350). -/
theorem Memory.wf_moveRange (m : List Host.Cell) (old new n : Nat) (h : Memory.wf m = true) :
    Memory.wf (moveRange m old new n) = true := by
  refine Memory.wf_foldl_ins _ _ (fun e he => ?_) (Store.wf_filter m memDefault _ h)
  simp only [shifted, List.mem_map, List.mem_filter] at he
  obtain ⟨x, ⟨hx, -⟩, rfl⟩ := he
  simp only [Memory.wf, Store.wf, Bool.and_eq_true, List.all_eq_true] at h
  simpa using h.2 x hx

/-- A word written keeps the canonical form. -/
theorem Memory.wf_putWord (m : List Host.Cell) (l v : Nat) (h : Memory.wf m = true) : Memory.wf (putWord m l v) = true :=
  Memory.wf_writeCells m _ h

/-- So do the entries of one page of the initial page table. -/
theorem Memory.wf_bootPage (m : List Host.Cell) (t va a frame : Nat) (h : Memory.wf m = true) :
    Memory.wf (bootPage m t va a frame) = true :=
  Memory.wf_putWord _ _ _ (Memory.wf_putWord _ _ _ (Memory.wf_putWord _ _ _ (Memory.wf_putWord _ _ _ h)))

/-- The initial page table keeps the canonical form (R393). -/
theorem Memory.wf_bootTable (m : List Host.Cell) (t va frame n q : Nat) (h : Memory.wf m = true) :
    Memory.wf (bootTable m t va frame n q) = true := by
  have step (ks : List Nat) (m : List Host.Cell) (f g : Nat → Nat) (h : Memory.wf m = true) :
      Memory.wf (ks.foldl (fun m k => bootPage m t va (f k) (g k)) m) = true := by
    induction ks generalizing m with
    | nil => exact h
    | cons k ks ih => exact ih _ (Memory.wf_bootPage _ _ _ _ _ h)
  exact step _ _ _ _ (Memory.wf_putWord _ _ _ h)

/-! ### Operations on the state -/

/-- The registers of an agent have nothing to do with memory. -/
@[simp] theorem State.setG_mem (s : State) (a : AgentId) (r : BitVec 5) (v : Word) : (s.setG a r v).mem = s.mem := by
  unfold State.setG; split
  · rfl
  · split <;> rfl

@[simp] theorem State.ueWrote_mem (s : State) (tag : Bool) (l : Nat) : (s.ueWrote tag l).mem = s.mem := by
  simp only [State.ueWrote]; split
  · rfl
  · split <;> rfl

@[simp] theorem State.dirtyLine_mem (s : State) (line va : Nat) (far : Bool) : (s.dirtyLine line va far).mem = s.mem := by
  unfold State.dirtyLine; repeat' split
  all_goals rfl

@[simp] theorem State.sendPool_mem (s : State) (line : Nat) (b : Behind) : (s.sendPool line b).mem = s.mem := by
  unfold State.sendPool; split <;> rfl

@[simp] theorem State.writeBack_mem (s : State) (line : Nat) : (s.writeBack line).mem = s.mem := by
  unfold State.writeBack; split
  · rfl
  · split <;> simp

/-- A write-back of memory that is no pool memory only forgets what memory held before (R247). -/
theorem State.writeBack_plain (s : State) (line : Nat) (h : isPool (64 * line) = false) :
    (s.writeBack line) = match Store.find? s.behind line with
      | none => s
      | some _ => { s with behind := Store.del s.behind line } := by
  unfold State.writeBack; split <;> simp [*]

@[simp] theorem State.recall_mem (s : State) (q : Nat) (x : Xl) : (s.recall q x).mem = s.mem := by
  unfold State.recall; split <;> simp

/-- Only a line of the core's own window is recalled (R256). -/
theorem State.recall_eq (s : State) (q : Nat) (x : Xl) (h : x.window = false) : s.recall q x = s := by simp [State.recall, h]

/-- Where no other agent holds it dirty, nothing is. -/
theorem State.recall_clean (s : State) (q : Nat) (x : Xl) (h : Store.find? s.behind (x.loc / 64) = none) : s.recall q x = s := by
  unfold State.recall State.writeBack; split
  · simp [h]
  · rfl

@[simp] theorem State.scratchDirty_mem (s : State) (l : Nat) : (s.scratchDirty l).mem = s.mem := by
  unfold State.scratchDirty; split <;> rfl

@[simp] theorem State.setFull_mem (s : State) (l : Nat) (b : Bool) : (s.setFull l b).mem = s.mem := by
  simp only [State.setFull]; split
  · rfl
  · split <;> rfl

@[simp] theorem State.modAg_mem (s : State) (a : AgentId) (f : Agent → Agent) : (s.modAg a f).mem = s.mem := by
  unfold State.modAg; split <;> rfl

@[simp] theorem State.push_mem (s : State) (a : AgentId) (e : SbEntry) : (s.push a e).mem = s.mem := by
  simp [State.push]

/-- Giving a line its bytes back keeps the canonical form (R147). -/
theorem State.wf_restoreLine (s : State) (line : Nat) (b : Behind) (h : Memory.wf s.mem = true) :
    Memory.wf (s.restoreLine line b).mem = true := Memory.wf_writeCells _ _ h

theorem State.wf_discardLine (s : State) (line : Nat) (h : Memory.wf s.mem = true) :
    Memory.wf (s.discardLine line).mem = true := by
  unfold State.discardLine; split
  · exact h
  · exact State.wf_restoreLine s line _ h

/-- Exact state is no byte of memory (R120). -/
@[simp] theorem State.dropExact_mem (s : State) (f : Nat → Bool) : (s.dropExact f).mem = s.mem := by
  unfold State.dropExact; split <;> rfl

/-- The copy of a frame keeps the canonical form (R350). -/
theorem State.wf_copyFrame (s : State) (old new n : Nat) (h : Memory.wf s.mem = true) :
    Memory.wf (s.copyFrame old new n).mem = true := by
  simp only [State.copyFrame, State.dropExact_mem]
  exact Memory.wf_moveRange _ _ _ _ h

@[simp] theorem State.chargeInstr_mem (s : State) (a : AgentId) (i : Instr) : (s.chargeInstr a i).mem = s.mem := by
  rcases s.chargeInstr_cases a i with h | ⟨u, h⟩ <;> rw [h] <;> rfl

@[simp] theorem State.endWait_mem (s : State) (a : AgentId) : (s.endWait a).mem = s.mem := by
  unfold State.endWait; split <;> rfl

@[simp] theorem State.countRetired_mem (s : State) (a : AgentId) : (s.countRetired a).mem = s.mem := by
  unfold State.countRetired; split <;> rfl

@[simp] theorem State.setPc_mem (s : State) (a : AgentId) (v : Word) (keep : Bool) : (s.setPc a v keep).mem = s.mem := by
  unfold State.setPc; split <;> rfl

/-- An instruction that completes writes no memory by that. -/
@[simp] theorem State.retireTo_mem (s : State) (a : AgentId) (i : Instr) (target : Word) (keep : Bool) :
    (s.retireTo a i target keep).mem = s.mem := by simp [State.retireTo]

@[simp] theorem State.retire_mem (s : State) (a : AgentId) (i : Instr) : (s.retire a i).mem = s.mem := by simp [State.retire]

/-! ### Waiting, traps and faults write no memory (R38, R318, R25) -/

/-- Steps that write no memory, one after the other, write none. -/
theorem foldl_mem {α : Type} (f : State → α → State) (h : ∀ s x, (f s x).mem = s.mem) (xs : List α) (s : State) :
    (xs.foldl f s).mem = s.mem := by
  induction xs generalizing s with
  | nil => rfl
  | cons x xs ih => rw [List.foldl_cons, ih, h]

@[simp] theorem State.serveSemQ_mem (s : State) (v n : Nat) (q : List (SemWho × BitVec 32)) : (s.serveSemQ v n q).mem = s.mem := by
  induction q generalizing s with
  | nil => rfl
  | cons e q ih =>
    obtain ⟨w, k⟩ := e
    simp only [State.serveSemQ]
    split
    · rw [ih]; cases w <;> simp [State.engineReady, State.setSem]
    · rfl

@[simp] theorem State.leaveSems_mem (s : State) (v : Nat) (w : SemWho) (xs : List (Nat × Sem)) : (s.leaveSems v w xs).mem = s.mem := by
  induction xs generalizing s with
  | nil => rfl
  | cons e xs ih =>
    obtain ⟨n, m⟩ := e
    simp only [State.leaveSems, ih]
    split <;> simp [State.serveSem, State.setSem]

@[simp] theorem State.serveSlots_mem (s : State) (home : Nat) (rs : List SlotReq) : (s.serveSlots home rs).mem = s.mem := by
  induction rs generalizing s with
  | nil => rfl
  | cons r rs ih =>
    simp only [State.serveSlots]
    split
    · rw [ih]
    · rfl

@[simp] theorem State.slotFreed_mem (s : State) (home : Nat) : (s.slotFreed home).mem = s.mem := by
  unfold State.slotFreed; split <;> simp

@[simp] theorem State.releaseLine_mem (s : State) (line : Nat) : (s.releaseLine line).mem = s.mem := by
  unfold State.releaseLine; split
  · rfl
  · split <;> simp

@[simp] theorem State.releaseHeld_mem (s : State) (a : AgentId) (b : Bool) : (s.releaseHeld a b).mem = s.mem :=
  foldl_mem _ State.releaseLine_mem _ _

/-- An agent that gives up its lines and its places in their queues changes no byte (R245, R348). -/
@[simp] theorem State.giveUpLines_mem (s : State) (a : AgentId) : (s.giveUpLines a).mem = s.mem :=
  foldl_mem _ State.releaseLine_mem _ _

@[simp] theorem State.squash_mem (s : State) (p : Nat) (hit : List PlbEntry → Bool) : (s.squash p hit).mem = s.mem := rfl

/-- A squash leaves every agent as it is: its wait goes on (R351). -/
@[simp] theorem State.squash_cores (s : State) (p : Nat) (hit : List PlbEntry → Bool) : (s.squash p hit).cores = s.cores := rfl

@[simp] theorem State.leaveQueues_mem (s : State) (a : AgentId) : (s.leaveQueues a).mem = s.mem := by
  simp [State.leaveQueues]

@[simp] theorem State.leaveAll_mem (s : State) (a : AgentId) : (s.leaveAll a).mem = s.mem := by simp [State.leaveAll]

@[simp] theorem State.withdraw_mem (s : State) (a : AgentId) : (s.withdraw a).mem = s.mem := by
  simp only [State.withdraw]; split <;> simp

@[simp] theorem State.stopSprigs_mem (s : State) (q : Nat) : (s.stopSprigs q).mem = s.mem :=
  foldl_mem _ (fun s i => by split <;> simp) _ _

@[simp] theorem State.logEvent_mem (s : State) (w : Word) : (s.logEvent w).mem = s.mem := rfl

@[simp] theorem State.queueMCheck_mem (s : State) (q : Nat) (m : MCheck) : (s.queueMCheck q m).mem = s.mem := by
  simp only [State.queueMCheck]; split <;> rfl

@[simp] theorem State.deliverMCheck_mem (s : State) (q : Nat) (v : Option Nat) (d : BitVec 8) (x : Word) :
    (s.deliverMCheck q v d x).mem = s.mem := by
  simp only [State.deliverMCheck]; split
  · split <;> simp
  · simp

@[simp] theorem State.doubleTrap_mem (s : State) (q code : Nat) (pc : Word) : (s.doubleTrap q code pc).mem = s.mem := by
  simp [State.doubleTrap]

/-! #### What an agent holds beside its registers: each operation leaves the other fields -/

@[simp] theorem Agent.inPlace_sb (g : Agent) : g.inPlace.sb = g.sb := rfl
@[simp] theorem Agent.inPlace_fwd (g : Agent) : g.inPlace.fwd = g.fwd := rfl
@[simp] theorem Agent.inPlace_snap (g : Agent) : g.inPlace.snap = g.snap := rfl
@[simp] theorem Agent.inPlace_wait (g : Agent) : g.inPlace.wait = g.wait := rfl
@[simp] theorem Agent.inPlace_ahead (g : Agent) : g.inPlace.ahead = [] := rfl
@[simp] theorem Agent.inPlace_late (g : Agent) : g.inPlace.late = [] := rfl
@[simp] theorem Agent.wrote_late (g : Agent) (r : BitVec 5) : (g.wrote r).late = g.late := rfl
@[simp] theorem Agent.buffered_sb (g : Agent) (e : SbEntry) : (g.buffered e).sb = g.sb ++ [{ e with dep := g.fwd.any id }] := rfl
@[simp] theorem Agent.buffered_snap (g : Agent) (e : SbEntry) : (g.buffered e).snap = g.snap := rfl
@[simp] theorem Agent.buffered_wait (g : Agent) (e : SbEntry) : (g.buffered e).wait = g.wait := rfl
@[simp] theorem Agent.readInPlace_sb (g : Agent) (l n : Nat) (b : Bool) : (g.readInPlace l n b).sb = g.sb := rfl
@[simp] theorem Agent.readInPlace_fwd (g : Agent) (l n : Nat) (b : Bool) : (g.readInPlace l n b).fwd = g.fwd := rfl
@[simp] theorem Agent.readInPlace_snap (g : Agent) (l n : Nat) (b : Bool) : (g.readInPlace l n b).snap = g.snap := rfl
@[simp] theorem Agent.readInPlace_wait (g : Agent) (l n : Nat) (b : Bool) : (g.readInPlace l n b).wait = g.wait := rfl
@[simp] theorem Agent.read_sb (g : Agent) (l n : Nat) (b : Bool) : (g.read l n b).sb = g.sb := rfl
@[simp] theorem Agent.oneStore_snap (g : Agent) (n : Nat) : (g.oneStore n).snap = g.snap := rfl
@[simp] theorem Agent.oneStore_wait (g : Agent) (n : Nat) : (g.oneStore n).wait = g.wait := rfl

/-- A store instruction of `n` entries marks them and changes neither their number nor any line that they write (R73). -/
theorem Agent.oneStore_lines (g : Agent) (n : Nat) : (g.oneStore n).sb.map (fun e => e.lines) = g.sb.map fun e => e.lines := by
  conv_rhs => rw [← List.take_append_drop n g.sb]
  simp only [Agent.oneStore, List.map_append, List.map_map]
  rfl

@[simp] theorem State.noteFetch_mem (s : State) (a : AgentId) (l n : Nat) (b : Bool) : (s.noteFetch a l n b).mem = s.mem := by
  unfold State.noteFetch
  split <;> simp

@[simp] theorem State.dropAhead_mem (s : State) (a : AgentId) : (s.dropAhead a).mem = s.mem := by
  unfold State.dropAhead; split <;> simp

@[simp] theorem State.trapEntry_mem (s : State) (q code detail : Nat) (int : Bool) (pc val : Word) :
    (s.trapEntry q code detail int pc val).mem = s.mem := by
  simp only [State.trapEntry]; split
  · simp
  · simp only [State.modThr_mem, State.setPc_mem, State.modPriv_mem]
    split <;> simp

@[simp] theorem State.wakeIdle_mem (s : State) (q : Nat) : (s.wakeIdle q).mem = s.mem := by
  unfold State.wakeIdle
  split
  · split <;> simp
  all_goals rfl

@[simp] theorem State.sprigFault_mem (s : State) (q i code : Nat) (val : Word) : (s.sprigFault q i code val).mem = s.mem := by
  simp [State.sprigFault]

@[simp] theorem State.condAt_mem (s : State) (a : AgentId) (code detail : Nat) (val : Word) :
    (s.condAt a code detail val).mem = s.mem := by
  unfold State.condAt; split <;> simp

@[simp] theorem State.serveMonitor_mem (s : State) (m : Monitor) (v : Word) : (s.serveMonitor m v).mem = s.mem := by
  unfold State.serveMonitor; split <;> simp

@[simp] theorem State.serveMonitors_mem (s : State) (words : List Nat) (ms : List Monitor) :
    (State.serveMonitors s words ms).mem = s.mem := by
  induction ms generalizing s with
  | nil => rfl
  | cons m ms ih =>
    simp only [State.serveMonitors]; rw [ih]
    split
    · rfl
    · split <;> simp

/-- A write that no home takes: to a package cut off, or to a LOST region (R375, R383). -/
def State.refuses (s : State) (w : LineW) : Bool := w.cells.head?.any fun c => s.cutOff c.1 || s.poolLost c.1

/-- A home that accepts a write writes its cells and no other byte (R266). -/
theorem State.accept_mem (s : State) (w : LineW) :
    (s.accept w).mem = if s.refuses w = true then s.mem else Memory.writeCells s.mem w.cells := by
  unfold State.accept State.refuses
  have fold (cs : List Host.Cell) (s : State) : (cs.foldl (fun s c => s.ueWrote w.tag c.1) s).mem = s.mem := by
    induction cs generalizing s with
    | nil => rfl
    | cons c cs ih => rw [List.foldl_cons, ih]; simp
  split
  · rename_i h; rw [h]; rfl
  · rename_i c rest h
    rw [h]
    by_cases hc : s.cutOff c.1 = true
    · simp [hc]
    · by_cases hp : s.poolLost c.1 = true
      · simp [hc, hp]
      · simp only [hc, hp, List.head?_cons, Option.any_some, Bool.or_self, Bool.false_eq_true, if_false]
        repeat' split
        all_goals simp [fold]

/-- It keeps the canonical form. -/
theorem State.wf_accept (s : State) (w : LineW) (h : Memory.wf s.mem = true) : Memory.wf (s.accept w).mem = true := by
  rw [State.accept_mem]; split
  · exact h
  · exact Memory.wf_writeCells _ _ h

theorem State.wf_acceptLines (s : State) (ls : List LineW) (h : Memory.wf s.mem = true) : Memory.wf (s.acceptLines ls).mem = true := by
  unfold State.acceptLines
  induction ls generalizing s with
  | nil => exact h
  | cons l ls ih => exact ih _ (s.wf_accept l h)

/-- So does draining a store buffer. -/
theorem State.wf_drain (s : State) (a : AgentId) (h : Memory.wf s.mem = true) : Memory.wf (s.drain a).mem = true := by
  have fold (es : List SbEntry) (s : State) (h : Memory.wf s.mem = true) :
      Memory.wf (es.foldl (fun s e => s.acceptLines e.lines) s).mem = true := by
    induction es generalizing s with
    | nil => exact h
    | cons e es ih => exact ih _ (s.wf_acceptLines e.lines h)
  unfold State.drain; dsimp only; split
  · exact h
  · exact fold _ _ (by simpa using h)

/-- So does waiting for the reads forwarded from it (R268). -/
theorem State.wf_performReads (s : State) (a : AgentId) (h : Memory.wf s.mem = true) : Memory.wf (s.performReads a).mem = true := by
  have fold (es : List SbEntry) (s : State) (h : Memory.wf s.mem = true) :
      Memory.wf (es.foldl (fun s e => s.acceptLines e.lines) s).mem = true := by
    induction es generalizing s with
    | nil => exact h
    | cons e es ih => exact ih _ (s.wf_acceptLines e.lines h)
  unfold State.performReads; split
  · exact h
  · exact fold _ _ (by simpa using h)

end Sys2Proof.Machine
end

