-- ==== Sys2Proof/Laws/PerInstr.lean ====
section
/-! SUPPORT. The family TailFits: the tail that the encoder gives an instruction fits in the words its TL names (R62, R71), one
lemma per constructor. -/

namespace Sys2Proof.Laws

/-- TL is a field of three bits, and the tail value fits in TL words of 16 bits. -/
def Code.Fits (c : Code) : Prop := c.tl < 8 ∧ c.tail < 2 ^ (16 * c.tl)

theorem Code.fits_none (op : BitVec 8) (a : BitVec 5) : Code.Fits ⟨op, 0, a, 0⟩ := by simp [Code.Fits]

theorem Code.fits_encRR (op : BitVec 8) (a : BitVec 5) (fn : BitVec 6) (c b : BitVec 5) : Code.Fits (encRR op a fn c b) := by
  have := fn.isLt; have := c.isLt; have := b.isLt
  simp only [Code.Fits, encRR, RR.toTail]; omega

theorem Code.fits_encRI (op : BitVec 8) (a : BitVec 5) (imm : BitVec 16) (fn : BitVec 6) (b : BitVec 5) :
    Code.Fits (encRI op a imm fn b) := by
  have := imm.isLt; have := fn.isLt; have := b.isLt
  simp only [Code.Fits, encRI, RI.toTail, BitVec.ofNat_eq_ofNat, BitVec.toNat_ofNat]; omega

theorem Code.fits_mem (op : BitVec 8) (a : BitVec 5) (f : MemT) : Code.Fits ⟨op, 2, a, f.toTail⟩ := by
  have := f.disp.isLt; have := f.w.isLt; have := f.sc.isLt; have := f.x.isLt; have := f.b.isLt
  simp only [Code.Fits, MemT.toTail]; omega

theorem Code.fits_encMem (op : BitVec 8) (a : BitVec 5) (w : BitVec 3) (m : MemOp) : Code.Fits (encMem op a w m) :=
  Code.fits_mem ..

theorem Code.fits_jmp (op : BitVec 8) (a : BitVec 5) (f : JmpT) : Code.Fits ⟨op, 2, a, f.toTail⟩ := by
  have := f.loff.isLt; have := f.slot.isLt
  simp only [Code.Fits, JmpT.toTail]; omega

theorem Code.fits_br (op : BitVec 8) (a : BitVec 5) (f : BrT) : Code.Fits ⟨op, 3, a, f.toTail⟩ := by
  have := f.loff.isLt; have := f.hint.isLt; have := f.slot.isLt; have := f.c.isLt; have := f.b.isLt
  simp only [Code.Fits, BrT.toTail]; omega

theorem Code.fits_brz (op : BitVec 8) (a : BitVec 5) (f : BrzT) : Code.Fits ⟨op, 2, a, f.toTail⟩ := by
  have := f.loff.isLt; have := f.hint.isLt; have := f.slot.isLt; have := f.b.isLt
  simp only [Code.Fits, BrzT.toTail]; omega

theorem Code.fits_sync (op : BitVec 8) (a : BitVec 5) (f : SyncT) : Code.Fits ⟨op, 2, a, f.toTail⟩ := by
  have := f.imm.isLt; have := f.fn.isLt; have := f.scope.isLt; have := f.c.isLt; have := f.b.isLt
  simp only [Code.Fits, SyncT.toTail]; omega

theorem Code.fits_encSync (op : BitVec 8) (a c : BitVec 5) (hi : BitVec 3) (s : SyncOp) : Code.Fits (encSync op a c hi s) :=
  Code.fits_sync ..

theorem Code.fits_encSem (op : BitVec 8) (a c : BitVec 5) (o : Ordr) (sc : Scope) (sem : BitVec 8) :
    Code.Fits (encSem op a c o sc sem) := Code.fits_sync ..

theorem VecT.toTail_lt (f : VecT) : f.toTail < 2 ^ 48 ∧ (f.imm = 0 → f.toTail < 2 ^ 32) := by
  have := f.imm.isLt; have := f.vc.isLt; have := f.et.isLt; have := f.zm.isLt; have := f.k.isLt; have := f.vb.isLt
  have := f.va.isLt; have := f.vd.isLt
  constructor
  · simp only [VecT.toTail]; omega
  · intro h; simp only [VecT.toTail, h, BitVec.ofNat_eq_ofNat, BitVec.toNat_ofNat]; omega

theorem Code.fits_encV (op : BitVec 8) (a : BitVec 5) (h : VHdr) (vc vb va vd : BitVec 6) : Code.Fits (encV op a h vc vb va vd) :=
  ⟨Nat.le_of_ble_eq_true rfl, (VecT.toTail_lt _).2 rfl⟩

theorem Code.fits_encVX (op : BitVec 8) (a : BitVec 5) (h : VHdr) (imm : BitVec 16) (vb va vd : BitVec 6) :
    Code.Fits (encVX op a h imm vb va vd) := ⟨Nat.le_of_ble_eq_true rfl, (VecT.toTail_lt _).1⟩

theorem Code.fits_tile (op : BitVec 8) (a : BitVec 5) (f : TileT) : Code.Fits ⟨op, 3, a, f.toTail⟩ := by
  have := f.fn.isLt; have := f.c.isLt; have := f.b.isLt; have := f.desc.isLt; have := f.flag.isLt; have := f.fmt.isLt
  have := f.cd.isLt; have := f.zc.isLt; have := f.zb.isLt; have := f.za.isLt
  simp only [Code.Fits, TileT.toTail]; omega

theorem Code.fits_encTM (op : BitVec 8) (a : BitVec 5) (flag : Bool) (fmt : Ty) (cd : BitVec 2) (za : BitVec 3) (desc : BitVec 16)
    (b c : BitVec 5) : Code.Fits (encTM op a flag fmt cd za desc b c) := Code.fits_tile ..

theorem Code.fits_encTR (op : BitVec 8) (a : BitVec 5) (fn : BitVec 6) (flag : Bool) (fmt : BitVec 4) (cd : BitVec 2)
    (zc zb za : BitVec 3) : Code.Fits (encTR op a fn flag fmt cd zc zb za) := Code.fits_tile ..

theorem Code.fits_encCopy (op : BitVec 8) (m : BitVec 2) (desc : BitVec 16) (o : CopyOp) : Code.Fits (encCopy op m desc o) := by
  have := o.sinc.isLt; have := o.ssem.isLt; have := o.wthr.isLt; have := o.wsem.isLt; have := desc.isLt; have := o.l.isLt
  have := o.c.isLt; have := o.b.isLt
  simp only [Code.Fits, encCopy, CopyT.toTail, BitVec.ofNat_eq_ofNat, BitVec.toNat_ofNat]; omega

theorem Code.fits_encSpr (op : BitVec 8) (a : BitVec 5) (n : BitVec 12) : Code.Fits (encSpr op a n) := by
  have := n.isLt
  simp only [Code.Fits, encSpr, SprT.toTail, BitVec.ofNat_eq_ofNat, BitVec.toNat_ofNat]; omega

/-- The tail of the instruction fits. -/
def TailFits.Statement (i : Instr) : Prop := Code.Fits (encode i)

theorem TailFits.add (d b c : BitVec 5) : TailFits.Statement (.add d b c) := Code.fits_encRR ..
theorem TailFits.sub (d b c : BitVec 5) : TailFits.Statement (.sub d b c) := Code.fits_encRR ..
theorem TailFits.and (d b c : BitVec 5) : TailFits.Statement (.and d b c) := Code.fits_encRR ..
theorem TailFits.or (d b c : BitVec 5) : TailFits.Statement (.or d b c) := Code.fits_encRR ..
theorem TailFits.xor (d b c : BitVec 5) : TailFits.Statement (.xor d b c) := Code.fits_encRR ..
theorem TailFits.shl (d b c : BitVec 5) : TailFits.Statement (.shl d b c) := Code.fits_encRR ..
theorem TailFits.shr (d b c : BitVec 5) : TailFits.Statement (.shr d b c) := Code.fits_encRR ..
theorem TailFits.sra (d b c : BitVec 5) : TailFits.Statement (.sra d b c) := Code.fits_encRR ..
theorem TailFits.mul (d b c : BitVec 5) : TailFits.Statement (.mul d b c) := Code.fits_encRR ..
theorem TailFits.mulh (u : Bool) (d b c : BitVec 5) : TailFits.Statement (.mulh u d b c) := Code.fits_encRR ..
theorem TailFits.div (u : Bool) (d b c : BitVec 5) : TailFits.Statement (.div u d b c) := Code.fits_encRR ..
theorem TailFits.rem (u : Bool) (d b c : BitVec 5) : TailFits.Statement (.rem u d b c) := Code.fits_encRR ..
theorem TailFits.min (u : Bool) (d b c : BitVec 5) : TailFits.Statement (.min u d b c) := Code.fits_encRR ..
theorem TailFits.max (u : Bool) (d b c : BitVec 5) : TailFits.Statement (.max u d b c) := Code.fits_encRR ..
theorem TailFits.slt (u : Bool) (d b c : BitVec 5) : TailFits.Statement (.slt u d b c) := Code.fits_encRR ..
theorem TailFits.cmov (d b c : BitVec 5) : TailFits.Statement (.cmov d b c) := Code.fits_encRR ..
theorem TailFits.clz (d b : BitVec 5) : TailFits.Statement (.clz d b) := Code.fits_encRR ..
theorem TailFits.ctz (d b : BitVec 5) : TailFits.Statement (.ctz d b) := Code.fits_encRR ..
theorem TailFits.popc (d b : BitVec 5) : TailFits.Statement (.popc d b) := Code.fits_encRR ..
theorem TailFits.sext (d b : BitVec 5) (n : BitVec 6) : TailFits.Statement (.sext d b n) := Code.fits_encRR ..
theorem TailFits.zext (d b : BitVec 5) (n : BitVec 6) : TailFits.Statement (.zext d b n) := Code.fits_encRR ..
theorem TailFits.addsh (d b c : BitVec 5) (n : BitVec 6) : TailFits.Statement (.addsh d b c n) := Code.fits_encRR ..
theorem TailFits.addi (d b : BitVec 5) (imm : BitVec 16) : TailFits.Statement (.addi d b imm) := Code.fits_encRI ..
theorem TailFits.andi (d b : BitVec 5) (imm : BitVec 16) : TailFits.Statement (.andi d b imm) := Code.fits_encRI ..
theorem TailFits.ori (d b : BitVec 5) (imm : BitVec 16) : TailFits.Statement (.ori d b imm) := Code.fits_encRI ..
theorem TailFits.xori (d b : BitVec 5) (imm : BitVec 16) : TailFits.Statement (.xori d b imm) := Code.fits_encRI ..
theorem TailFits.shli (d b : BitVec 5) (n : BitVec 6) : TailFits.Statement (.shli d b n) := Code.fits_encRI ..
theorem TailFits.shri (d b : BitVec 5) (n : BitVec 6) : TailFits.Statement (.shri d b n) := Code.fits_encRI ..
theorem TailFits.srai (d b : BitVec 5) (n : BitVec 6) : TailFits.Statement (.srai d b n) := Code.fits_encRI ..
theorem TailFits.liTail2 (d : BitVec 5) (imm : BitVec 16) : TailFits.Statement (.liTail2 d imm) := ⟨Nat.le_of_ble_eq_true rfl, imm.isLt⟩
theorem TailFits.liTail4 (d : BitVec 5) (imm : BitVec 32) : TailFits.Statement (.liTail4 d imm) := ⟨Nat.le_of_ble_eq_true rfl, imm.isLt⟩
theorem TailFits.liTail8 (d : BitVec 5) (imm : BitVec 64) : TailFits.Statement (.liTail8 d imm) := ⟨Nat.le_of_ble_eq_true rfl, imm.isLt⟩
theorem TailFits.addpcLine (d : BitVec 5) (imm : BitVec 16) : TailFits.Statement (.addpcLine d imm) :=
  ⟨Nat.le_of_ble_eq_true rfl, imm.isLt⟩
theorem TailFits.addpcByte (d : BitVec 5) (imm : BitVec 32) : TailFits.Statement (.addpcByte d imm) :=
  ⟨Nat.le_of_ble_eq_true rfl, imm.isLt⟩
theorem TailFits.fadd (p : Prec) (r : Rnd) (d b c : BitVec 5) : TailFits.Statement (.fadd p r d b c) := Code.fits_encRR ..
theorem TailFits.fsub (p : Prec) (r : Rnd) (d b c : BitVec 5) : TailFits.Statement (.fsub p r d b c) := Code.fits_encRR ..
theorem TailFits.fmul (p : Prec) (r : Rnd) (d b c : BitVec 5) : TailFits.Statement (.fmul p r d b c) := Code.fits_encRR ..
theorem TailFits.fdiv (p : Prec) (r : Rnd) (d b c : BitVec 5) : TailFits.Statement (.fdiv p r d b c) := Code.fits_encRR ..
theorem TailFits.fsqrt (p : Prec) (r : Rnd) (d b : BitVec 5) : TailFits.Statement (.fsqrt p r d b) := Code.fits_encRR ..
theorem TailFits.fma (p : Prec) (r : Rnd) (d b c : BitVec 5) : TailFits.Statement (.fma p r d b c) := Code.fits_encRR ..
theorem TailFits.fmin (p : Prec) (d b c : BitVec 5) : TailFits.Statement (.fmin p d b c) := Code.fits_encRR ..
theorem TailFits.fmax (p : Prec) (d b c : BitVec 5) : TailFits.Statement (.fmax p d b c) := Code.fits_encRR ..
theorem TailFits.fcmp (q : FCmpCond) (p : Prec) (d b c : BitVec 5) : TailFits.Statement (.fcmp q p d b c) := Code.fits_encRR ..
theorem TailFits.fcvt (k : FCvt) (r : Rnd) (d b : BitVec 5) : TailFits.Statement (.fcvt k r d b) := Code.fits_encRR ..
theorem TailFits.fclass (p : Prec) (d b : BitVec 5) : TailFits.Statement (.fclass p d b) := Code.fits_encRR ..
theorem TailFits.jmp (loff : BitVec 27) (slot : BitVec 5) : TailFits.Statement (.jmp loff slot) := Code.fits_jmp ..
theorem TailFits.call (d : BitVec 5) (loff : BitVec 27) (slot : BitVec 5) : TailFits.Statement (.call d loff slot) := Code.fits_jmp ..
theorem TailFits.jmpr (b : BitVec 5) : TailFits.Statement (.jmpr b) := Code.fits_encRR ..
theorem TailFits.callr (d b : BitVec 5) : TailFits.Statement (.callr d b) := Code.fits_encRR ..
theorem TailFits.br (q : BrCond) (loff : BitVec 32) (hint : Bool) (slot b c : BitVec 5) : TailFits.Statement (.br q loff hint slot b c) :=
  Code.fits_br ..
theorem TailFits.brz (q : BrzCond) (loff : BitVec 21) (hint : Bool) (slot b : BitVec 5) : TailFits.Statement (.brz q loff hint slot b) :=
  Code.fits_brz ..
theorem TailFits.callx (d : BitVec 5) (idx : BitVec 16) : TailFits.Statement (.callx d idx) := Code.fits_encRI ..
theorem TailFits.svc (code : BitVec 16) : TailFits.Statement (.svc code) := Code.fits_encRI ..
theorem TailFits.brk (code : BitVec 16) : TailFits.Statement (.brk code) := Code.fits_encRI ..
theorem TailFits.time (d : BitVec 5) : TailFits.Statement (.time d) := Code.fits_none ..
theorem TailFits.ld (w : MemW) (d : BitVec 5) (m : MemOp) : TailFits.Statement (.ld w d m) := Code.fits_encMem ..
theorem TailFits.st (w : StW) (d : BitVec 5) (m : MemOp) : TailFits.Statement (.st w d m) := Code.fits_encMem ..
theorem TailFits.pref (wr : Bool) (m : MemOp) : TailFits.Statement (.pref wr m) := Code.fits_encMem ..
theorem TailFits.cache (op : CacheOp) (m : MemOp) : TailFits.Statement (.cache op m) := Code.fits_encMem ..
theorem TailFits.fence (kind : FenceKind) (scope : Scope) : TailFits.Statement (.fence kind scope) := Code.fits_sync ..
theorem TailFits.rdsr (d : BitVec 5) (n : BitVec 12) : TailFits.Statement (.rdsr d n) := Code.fits_encSpr ..
theorem TailFits.wrsr (a : BitVec 5) (n : BitVec 12) : TailFits.Statement (.wrsr a n) := Code.fits_encSpr ..
theorem TailFits.migrate (b : BitVec 5) : TailFits.Statement (.migrate b) := Code.fits_encRR ..
theorem TailFits.lrw (d : BitVec 5) (s : SyncOp) : TailFits.Statement (.lrw d s) := Code.fits_encSync ..
theorem TailFits.sch (d c : BitVec 5) (s : SyncOp) : TailFits.Statement (.sch d c s) := Code.fits_encSync ..
theorem TailFits.relq (s : SyncOp) : TailFits.Statement (.relq s) := Code.fits_encSync ..
theorem TailFits.amo (op : AmoOp) (d c : BitVec 5) (s : SyncOp) : TailFits.Statement (.amo op d c s) := Code.fits_encSync ..
theorem TailFits.cas (d c : BitVec 5) (s : SyncOp) : TailFits.Statement (.cas d c s) := Code.fits_encSync ..
theorem TailFits.mcas (d : BitVec 5) (imm : BitVec 14) (scope : Scope) (b : BitVec 5) : TailFits.Statement (.mcas d imm scope b) :=
  Code.fits_encSync ..
theorem TailFits.takew (d : BitVec 5) (s : SyncOp) : TailFits.Statement (.takew d s) := Code.fits_encSync ..
theorem TailFits.peekw (d : BitVec 5) (s : SyncOp) : TailFits.Statement (.peekw d s) := Code.fits_encSync ..
theorem TailFits.putw (c : BitVec 5) (s : SyncOp) : TailFits.Statement (.putw c s) := Code.fits_encSync ..
theorem TailFits.fillw (c : BitVec 5) (s : SyncOp) : TailFits.Statement (.fillw c s) := Code.fits_encSync ..
theorem TailFits.emptyw (s : SyncOp) : TailFits.Statement (.emptyw s) := Code.fits_encSync ..
theorem TailFits.waitne (d c : BitVec 5) (s : SyncOp) : TailFits.Statement (.waitne d c s) := Code.fits_encSync ..
theorem TailFits.cred (op : CredOp) (c : BitVec 5) (s : SyncOp) : TailFits.Statement (.cred op c s) := Code.fits_encSync ..
theorem TailFits.semp (o : Ordr) (scope : Scope) (c : BitVec 5) (sem : BitVec 8) : TailFits.Statement (.semp o scope c sem) :=
  Code.fits_encSem ..
theorem TailFits.semv (o : Ordr) (scope : Scope) (c : BitVec 5) (sem : BitVec 8) : TailFits.Statement (.semv o scope c sem) :=
  Code.fits_encSem ..
theorem TailFits.semrd (o : Ordr) (scope : Scope) (d : BitVec 5) (sem : BitVec 8) : TailFits.Statement (.semrd o scope d sem) :=
  Code.fits_encSem ..
theorem TailFits.bar (o : Ordr) (scope : Scope) (d c : BitVec 5) (level : BitVec 2) : TailFits.Statement (.bar o scope d c level) :=
  Code.fits_sync ..
theorem TailFits.holdLimit (a : AgentId) : TailFits.Statement (.holdLimit a) := Code.fits_none ..
theorem TailFits.waitWithdrawal (a : AgentId) : TailFits.Statement (.waitWithdrawal a) := Code.fits_none ..
theorem TailFits.idleEnd (core : Nat) : TailFits.Statement (.idleEnd core) := Code.fits_none ..
theorem TailFits.sconf (b c : BitVec 5) : TailFits.Statement (.sconf b c) := Code.fits_encRR ..
theorem TailFits.sbcast (b c : BitVec 5) (lend : BitVec 4) : TailFits.Statement (.sbcast b c lend) := Code.fits_encRR ..
theorem TailFits.swait (d c : BitVec 5) : TailFits.Statement (.swait d c) := Code.fits_encRR ..
theorem TailFits.sget (d b : BitVec 5) (sel : BitVec 6) : TailFits.Statement (.sget d b sel) := Code.fits_encRR ..
theorem TailFits.sput (b c : BitVec 5) (sel : BitVec 5) : TailFits.Statement (.sput b c sel) := Code.fits_encRR ..
theorem TailFits.skill (c : BitVec 5) : TailFits.Statement (.skill c) := Code.fits_encRR ..
theorem TailFits.skillSprigStop (core sprig : Nat) : TailFits.Statement (.skillSprigStop core sprig) := Code.fits_none ..
theorem TailFits.bfetch (b : BitVec 5) : TailFits.Statement (.bfetch b) := Code.fits_encRR ..
theorem TailFits.lsend (et : Ty) (va : BitVec 6) (delta : BitVec 6) : TailFits.Statement (.lsend et va delta) := Code.fits_encV ..
theorem TailFits.lrecv (et : Ty) (vd : BitVec 6) (delta : BitVec 6) : TailFits.Statement (.lrecv et vd delta) := Code.fits_encV ..
theorem TailFits.sid (d : BitVec 5) : TailFits.Statement (.sid d) := Code.fits_none ..
theorem TailFits.vadd (h : VHdr) (r : Rnd) (vd va vb : BitVec 6) : TailFits.Statement (.vadd h r vd va vb) := Code.fits_encV ..
theorem TailFits.vsub (h : VHdr) (r : Rnd) (vd va vb : BitVec 6) : TailFits.Statement (.vsub h r vd va vb) := Code.fits_encV ..
theorem TailFits.vmul (h : VHdr) (r : Rnd) (vd va vb : BitVec 6) : TailFits.Statement (.vmul h r vd va vb) := Code.fits_encV ..
theorem TailFits.vfma (h : VHdr) (r : Rnd) (vd va vb vc : BitVec 6) : TailFits.Statement (.vfma h r vd va vb vc) := Code.fits_encV ..
theorem TailFits.vdiv (h : VHdr) (r : Rnd) (vd va vb : BitVec 6) : TailFits.Statement (.vdiv h r vd va vb) := Code.fits_encV ..
theorem TailFits.vmin (h : VHdr) (u : Bool) (vd va vb : BitVec 6) : TailFits.Statement (.vmin h u vd va vb) := Code.fits_encV ..
theorem TailFits.vmax (h : VHdr) (u : Bool) (vd va vb : BitVec 6) : TailFits.Statement (.vmax h u vd va vb) := Code.fits_encV ..
theorem TailFits.vand (h : VHdr) (vd va vb : BitVec 6) : TailFits.Statement (.vand h vd va vb) := Code.fits_encV ..
theorem TailFits.vor (h : VHdr) (vd va vb : BitVec 6) : TailFits.Statement (.vor h vd va vb) := Code.fits_encV ..
theorem TailFits.vxor (h : VHdr) (vd va vb : BitVec 6) : TailFits.Statement (.vxor h vd va vb) := Code.fits_encV ..
theorem TailFits.vshlVec (h : VHdr) (vd va vb : BitVec 6) : TailFits.Statement (.vshlVec h vd va vb) := Code.fits_encV ..
theorem TailFits.vshlImm (h : VHdr) (n : BitVec 6) (vd va : BitVec 6) : TailFits.Statement (.vshlImm h n vd va) := Code.fits_encVX ..
theorem TailFits.vshrVec (h : VHdr) (vd va vb : BitVec 6) : TailFits.Statement (.vshrVec h vd va vb) := Code.fits_encV ..
theorem TailFits.vshrImm (h : VHdr) (n : BitVec 6) (vd va : BitVec 6) : TailFits.Statement (.vshrImm h n vd va) := Code.fits_encVX ..
theorem TailFits.vsraVec (h : VHdr) (vd va vb : BitVec 6) : TailFits.Statement (.vsraVec h vd va vb) := Code.fits_encV ..
theorem TailFits.vsraImm (h : VHdr) (n : BitVec 6) (vd va : BitVec 6) : TailFits.Statement (.vsraImm h n vd va) := Code.fits_encVX ..
theorem TailFits.vcmp (h : VHdr) (q : VCond) (u : Bool) (kd : BitVec 3) (va vb : BitVec 6) : TailFits.Statement (.vcmp h q u kd va vb) :=
  Code.fits_encV ..
theorem TailFits.vsel (et : Ty) (k : BitVec 3) (vd va vb : BitVec 6) : TailFits.Statement (.vsel et k vd va vb) := Code.fits_encV ..
theorem TailFits.vneg (h : VHdr) (abs : Bool) (vd va : BitVec 6) : TailFits.Statement (.vneg h abs vd va) := Code.fits_encV ..
theorem TailFits.vsqrt (h : VHdr) (r : Rnd) (vd va : BitVec 6) : TailFits.Statement (.vsqrt h r vd va) := Code.fits_encV ..
theorem TailFits.vrcp (h : VHdr) (vd va : BitVec 6) : TailFits.Statement (.vrcp h vd va) := Code.fits_encV ..
theorem TailFits.vrsq (h : VHdr) (vd va : BitVec 6) : TailFits.Statement (.vrsq h vd va) := Code.fits_encV ..
theorem TailFits.vexp2 (h : VHdr) (vd va : BitVec 6) : TailFits.Statement (.vexp2 h vd va) := Code.fits_encV ..
theorem TailFits.vlog2 (h : VHdr) (vd va : BitVec 6) : TailFits.Statement (.vlog2 h vd va) := Code.fits_encV ..
theorem TailFits.vcvt (h : VHdr) (src : Ty) (r : Rnd) (sat u : Bool) (vd va : BitVec 6) : TailFits.Statement (.vcvt h src r sat u vd va) :=
  Code.fits_encV ..
theorem TailFits.vcvts (h : VHdr) (src : Ty) (sat : Bool) (vd va vb : BitVec 6) : TailFits.Statement (.vcvts h src sat vd va vb) :=
  Code.fits_encV ..
theorem TailFits.vrng (h : VHdr) (vd va : BitVec 6) : TailFits.Statement (.vrng h vd va) := Code.fits_encV ..
theorem TailFits.vperm (h : VHdr) (m : PermMode) (vd va vb : BitVec 6) : TailFits.Statement (.vperm h m vd va vb) := Code.fits_encV ..
theorem TailFits.valign (h : VHdr) (n : BitVec 6) (vd va vb : BitVec 6) : TailFits.Statement (.valign h n vd va vb) := Code.fits_encVX ..
theorem TailFits.vbcast (h : VHdr) (fromV : Bool) (vd va : BitVec 6) : TailFits.Statement (.vbcast h fromV vd va) := Code.fits_encV ..
theorem TailFits.vextr (et : Ty) (idx : BitVec 16) (gd : BitVec 5) (va : BitVec 6) : TailFits.Statement (.vextr et idx gd va) :=
  Code.fits_encVX ..
theorem TailFits.vins (et : Ty) (idx : BitVec 16) (vd : BitVec 6) (ga : BitVec 5) : TailFits.Statement (.vins et idx vd ga) :=
  Code.fits_encVX ..
theorem TailFits.vred (et : Ty) (k : BitVec 3) (op : RedOp) (u : Bool) (vd va : BitVec 6) : TailFits.Statement (.vred et k op u vd va) :=
  Code.fits_encV ..
theorem TailFits.vscan (h : VHdr) (op : RedOp) (u : Bool) (vd va : BitVec 6) : TailFits.Statement (.vscan h op u vd va) :=
  Code.fits_encV ..
theorem TailFits.vld (h : VHdr) (imm : BitVec 16) (vd : BitVec 6) (ga : BitVec 5) : TailFits.Statement (.vld h imm vd ga) :=
  Code.fits_encVX ..
theorem TailFits.vst (et : Ty) (k : BitVec 3) (imm : BitVec 16) (vd : BitVec 6) (ga : BitVec 5) : TailFits.Statement (.vst et k imm vd ga) :=
  Code.fits_encVX ..
theorem TailFits.vgath (h : VHdr) (sc : BitVec 2) (vd : BitVec 6) (ga : BitVec 6) (vb : BitVec 6) : TailFits.Statement (.vgath h sc vd ga vb) :=
  Code.fits_encV ..
theorem TailFits.vscat (et : Ty) (k : BitVec 3) (sc : BitVec 2) (vd : BitVec 6) (ga : BitVec 6) (vb : BitVec 6) : TailFits.Statement (.vscat et k sc vd ga vb) :=
  Code.fits_encV ..
theorem TailFits.vaddsat (h : VHdr) (sub u : Bool) (vd va vb : BitVec 6) : TailFits.Statement (.vaddsat h sub u vd va vb) :=
  Code.fits_encV ..
theorem TailFits.vmulhi (h : VHdr) (u : Bool) (vd va vb : BitVec 6) : TailFits.Statement (.vmulhi h u vd va vb) := Code.fits_encV ..
theorem TailFits.vbitc (h : VHdr) (clz : Bool) (vd va : BitVec 6) : TailFits.Statement (.vbitc h clz vd va) := Code.fits_encV ..
theorem TailFits.vdot (h : VHdr) (u : Bool) (vd va vb : BitVec 6) : TailFits.Statement (.vdot h u vd va vb) := Code.fits_encV ..
theorem TailFits.viota (h : VHdr) (vd : BitVec 6) : TailFits.Statement (.viota h vd) := Code.fits_encV ..
theorem TailFits.kop (op : KOp) (kd ka kb : BitVec 3) : TailFits.Statement (.kop op kd ka kb) := Code.fits_encV ..
theorem TailFits.kmov (toG : Bool) (k : BitVec 3) (g : BitVec 5) : TailFits.Statement (.kmov toG k g) :=
  by
  cases toG <;> exact Code.fits_encV ..
theorem TailFits.ktest (op : KTest) (g : BitVec 5) (k : BitVec 3) : TailFits.Statement (.ktest op g k) := Code.fits_encV ..
theorem TailFits.crd (et : Ty) (cj : BitVec 2) (vd : BitVec 6) (ga : BitVec 6) (imm : BitVec 5) : TailFits.Statement (.crd et cj vd ga imm) :=
  Code.fits_encVX ..
theorem TailFits.cwr (et : Ty) (cj : BitVec 2) (vd : BitVec 6) (ga : BitVec 6) (imm : BitVec 5) : TailFits.Statement (.cwr et cj vd ga imm) :=
  Code.fits_encVX ..
theorem TailFits.lanePick (core lane : Nat) : TailFits.Statement (.lanePick core lane) := Code.fits_none ..
theorem TailFits.tld (scaled : Bool) (fmt : Ty) (zd : BitVec 3) (desc : BitVec 16) (b c : BitVec 5) : TailFits.Statement (.tld scaled fmt zd desc b c) :=
  Code.fits_encTM ..
theorem TailFits.tldc (fmt : Ty) (cd : BitVec 2) (desc : BitVec 16) (b c : BitVec 5) : TailFits.Statement (.tldc fmt cd desc b c) :=
  Code.fits_encTM ..
theorem TailFits.tst (fmt : Ty) (za : BitVec 3) (desc : BitVec 16) (b c : BitVec 5) : TailFits.Statement (.tst fmt za desc b c) :=
  Code.fits_encTM ..
theorem TailFits.tstc (fmt : Ty) (cd : BitVec 2) (desc : BitVec 16) (b c : BitVec 5) : TailFits.Statement (.tstc fmt cd desc b c) :=
  Code.fits_encTM ..
theorem TailFits.tzero (cd : BitVec 2) : TailFits.Statement (.tzero cd) := Code.fits_encTR ..
theorem TailFits.tmma (fmt : Ty) (ua ub : Bool) (cd : BitVec 2) (za zb : BitVec 3) : TailFits.Statement (.tmma fmt ua ub cd za zb) :=
  Code.fits_encTR ..
theorem TailFits.tmmas (scaled : Bool) (fmt : Ty) (ua ub : Bool) (cd : BitVec 2) (za zb zc : BitVec 3) : TailFits.Statement (.tmmas scaled fmt ua ub cd za zb zc) :=
  Code.fits_encTR ..
theorem TailFits.tmmax (fmt : Ty) (cd : BitVec 2) (za zb : BitVec 3) : TailFits.Statement (.tmmax fmt cd za zb) := Code.fits_encTR ..
theorem TailFits.tcvt (fmt : Ty) (r : Rnd) (sat u : Bool) (zd : BitVec 3) (cs : BitVec 2) : TailFits.Statement (.tcvt fmt r sat u zd cs) :=
  Code.fits_encTR ..
theorem TailFits.ttrans (fmt : Ty) (zd za : BitVec 3) : TailFits.Statement (.ttrans fmt zd za) := Code.fits_encTR ..
theorem TailFits.pressPick (vat press : Nat) : TailFits.Statement (.pressPick vat press) := Code.fits_none ..
theorem TailFits.tileCommandComplete (core : Nat) : TailFits.Statement (.tileCommandComplete core) := Code.fits_none ..
theorem TailFits.tileStoreLineWrite (core line : Nat) : TailFits.Statement (.tileStoreLineWrite core line) := Code.fits_none ..
theorem TailFits.storeBufferWrite (a : AgentId) (entry : Nat) : TailFits.Statement (.storeBufferWrite a entry) := Code.fits_none ..
theorem TailFits.bcopy (o : CopyOp) : TailFits.Statement (.bcopy o) := Code.fits_encCopy ..
theorem TailFits.bcopyt (out : Bool) (desc : BitVec 16) (o : CopyOp) : TailFits.Statement (.bcopyt out desc o) := Code.fits_encCopy ..
theorem TailFits.bfill (o : CopyOp) : TailFits.Statement (.bfill o) := Code.fits_encCopy ..
theorem TailFits.bloadb (o : CopyOp) : TailFits.Statement (.bloadb o) := Code.fits_encCopy ..
theorem TailFits.bcopyc (lines : BitVec 16) (o : CopyOp) : TailFits.Statement (.bcopyc lines o) := Code.fits_encCopy ..
theorem TailFits.copyStart (core : Nat) : TailFits.Statement (.copyStart core) := Code.fits_none ..
theorem TailFits.copyLineMove (core cmd line : Nat) : TailFits.Statement (.copyLineMove core cmd line) := Code.fits_none ..
theorem TailFits.copyComplete (core cmd : Nat) : TailFits.Statement (.copyComplete core cmd) := Code.fits_none ..
theorem TailFits.copyWaitLimit (core cmd : Nat) : TailFits.Statement (.copyWaitLimit core cmd) := Code.fits_none ..
theorem TailFits.rdpr (d : BitVec 5) (n : BitVec 12) : TailFits.Statement (.rdpr d n) := Code.fits_encSpr ..
theorem TailFits.wrpr (a : BitVec 5) (n : BitVec 12) : TailFits.Statement (.wrpr a n) := Code.fits_encSpr ..
theorem TailFits.plbinvOne (b c : BitVec 5) : TailFits.Statement (.plbinvOne b c) := Code.fits_encRR ..
theorem TailFits.plbinvDom (c : BitVec 5) : TailFits.Statement (.plbinvDom c) := Code.fits_encRR ..
theorem TailFits.xlinvPage (b : BitVec 5) : TailFits.Statement (.xlinvPage b) := Code.fits_encRR ..
theorem TailFits.ctxsave (b : BitVec 5) : TailFits.Statement (.ctxsave b) := Code.fits_encRR ..
theorem TailFits.ctxload (b : BitVec 5) : TailFits.Statement (.ctxload b) := Code.fits_encRR ..
theorem TailFits.descw (b c : BitVec 5) : TailFits.Statement (.descw b c) := Code.fits_encRR ..
theorem TailFits.ipi (b c : BitVec 5) : TailFits.Statement (.ipi b c) := Code.fits_encRR ..
theorem TailFits.trapEntry (core : Nat) : TailFits.Statement (.trapEntry core) := Code.fits_none ..
theorem TailFits.timer (core : Nat) : TailFits.Statement (.timer core) := Code.fits_none ..
theorem TailFits.sholdSet (a : BitVec 5) : TailFits.Statement (.sholdSet a) := Code.fits_encSpr ..
theorem TailFits.sholdRelease (a : BitVec 5) : TailFits.Statement (.sholdRelease a) := Code.fits_encSpr ..
theorem TailFits.domainWrite (a : BitVec 5) : TailFits.Statement (.domainWrite a) := Code.fits_encSpr ..
theorem TailFits.spwinWrite (a : BitVec 5) (i : BitVec 3) : TailFits.Statement (.spwinWrite a i) := Code.fits_encSpr ..
theorem TailFits.windowLineWriteback (core seg line : Nat) : TailFits.Statement (.windowLineWriteback core seg line) := Code.fits_none ..
theorem TailFits.pressbindWrite (a : BitVec 5) : TailFits.Statement (.pressbindWrite a) := Code.fits_encSpr ..
theorem TailFits.ipipendWrite (a : BitVec 5) : TailFits.Statement (.ipipendWrite a) := Code.fits_encSpr ..
theorem TailFits.timecmpWrite (a : BitVec 5) : TailFits.Statement (.timecmpWrite a) := Code.fits_encSpr ..
theorem TailFits.barcfgWrite (a : BitVec 5) : TailFits.Statement (.barcfgWrite a) := Code.fits_encSpr ..
theorem TailFits.ptrootWrite (a : BitVec 5) : TailFits.Statement (.ptrootWrite a) := Code.fits_encSpr ..
theorem TailFits.protrootWrite (a : BitVec 5) : TailFits.Statement (.protrootWrite a) := Code.fits_encSpr ..
theorem TailFits.descbaseWrite (a : BitVec 5) : TailFits.Statement (.descbaseWrite a) := Code.fits_encSpr ..
theorem TailFits.wshareWrite (a : BitVec 5) : TailFits.Statement (.wshareWrite a) := Code.fits_encSpr ..
theorem TailFits.fdutyWrite (a : BitVec 5) : TailFits.Statement (.fdutyWrite a) := Code.fits_encSpr ..
theorem TailFits.recover (a : BitVec 5) : TailFits.Statement (.recover a) := Code.fits_encSpr ..
theorem TailFits.migrateArrival (core : Nat) : TailFits.Statement (.migrateArrival core) := Code.fits_none ..
theorem TailFits.replyRedirect (core : Nat) : TailFits.Statement (.replyRedirect core) := Code.fits_none ..
theorem TailFits.parkedRequestResume (a : AgentId) : TailFits.Statement (.parkedRequestResume a) := Code.fits_none ..
theorem TailFits.powerEpoch (m : PowerMeas) : TailFits.Statement (.powerEpoch m) := Code.fits_none ..
theorem TailFits.operatingPointChange (vat : Nat) : TailFits.Statement (.operatingPointChange vat) := Code.fits_none ..
theorem TailFits.vatClockStop (vat : Nat) : TailFits.Statement (.vatClockStop vat) := Code.fits_none ..
theorem TailFits.vatClockRestart (vat : Nat) : TailFits.Statement (.vatClockRestart vat) := Code.fits_none ..
theorem TailFits.retentionExit (vat : Nat) (parityOk : Bool) : TailFits.Statement (.retentionExit vat parityOk) := Code.fits_none ..
theorem TailFits.dirtyUe (core : Nat) (va : Word) (line : Nat) : TailFits.Statement (.dirtyUe core va line) := Code.fits_none ..
theorem TailFits.tileUe (core : Nat) (zmask : BitVec 8) (cmask : BitVec 4) : TailFits.Statement (.tileUe core zmask cmask) :=
  Code.fits_none ..
theorem TailFits.doorbell (core : Nat) (data : BitVec 32) : TailFits.Statement (.doorbell core data) := Code.fits_none ..
theorem TailFits.hostLinkChange (port : Nat) (up flit256 : Bool) : TailFits.Statement (.hostLinkChange port up flit256) :=
  Code.fits_none ..
theorem TailFits.hpctlWrite (port : Nat) (v : Word) : TailFits.Statement (.hpctlWrite port v) := Code.fits_none ..
theorem TailFits.inboundRead (port : Nat) (rid : BitVec 16) (va : Word) (len : Nat) : TailFits.Statement (.inboundRead port rid va len) :=
  Code.fits_none ..
theorem TailFits.inboundWrite (port : Nat) (rid : BitVec 16) (va : Word) (bytes : List Byte) : TailFits.Statement (.inboundWrite port rid va bytes) :=
  Code.fits_none ..
theorem TailFits.fetchadd (port : Nat) (rid : BitVec 16) (va : Word) (size : Nat) (v : Word) : TailFits.Statement (.fetchadd port rid va size v) :=
  Code.fits_none ..
theorem TailFits.swap (port : Nat) (rid : BitVec 16) (va : Word) (size : Nat) (v : Word) : TailFits.Statement (.swap port rid va size v) :=
  Code.fits_none ..
theorem TailFits.inboundCas (port : Nat) (rid : BitVec 16) (va : Word) (size : Nat) (expected new : Word) : TailFits.Statement (.inboundCas port rid va size expected new) :=
  Code.fits_none ..
theorem TailFits.atsTranslationRequest (port : Nat) (rid : BitVec 16) (va : Word) : TailFits.Statement (.atsTranslationRequest port rid va) :=
  Code.fits_none ..
theorem TailFits.pageRequest (port : Nat) (rid : BitVec 16) (va : Word) : TailFits.Statement (.pageRequest port rid va) :=
  Code.fits_none ..
theorem TailFits.kerranLinkChange (port : Nat) (up : Bool) (unreachable : List Nat) : TailFits.Statement (.kerranLinkChange port up unreachable) :=
  Code.fits_none ..
theorem TailFits.poolLinkLost (region : Nat) : TailFits.Statement (.poolLinkLost region) := Code.fits_none ..
theorem TailFits.poolCompletionTimeout (region : Nat) : TailFits.Statement (.poolCompletionTimeout region) := Code.fits_none ..
theorem TailFits.failoverComplete (region : Nat) : TailFits.Statement (.failoverComplete region) := Code.fits_none ..
theorem TailFits.poolLinkRestored (region : Nat) : TailFits.Statement (.poolLinkRestored region) := Code.fits_none ..
theorem TailFits.poolWriteCompletion (region line : Nat) : TailFits.Statement (.poolWriteCompletion region line) := Code.fits_none ..
theorem TailFits.backInvalidate (line : Nat) : TailFits.Statement (.backInvalidate line) := Code.fits_none ..
theorem TailFits.negotiate (tag : BitVec 32) (want : BitVec 128) : TailFits.Statement (.negotiate tag want) := Code.fits_none ..
theorem TailFits.summary (tag : BitVec 32) : TailFits.Statement (.summary tag) := Code.fits_none ..
theorem TailFits.setLimit (tag : BitVec 32) (watts : Nat) : TailFits.Statement (.setLimit tag watts) := Code.fits_none ..
theorem TailFits.partition (tag : BitVec 32) (map : List PartBoot) : TailFits.Statement (.partition tag map) := Code.fits_none ..
theorem TailFits.fwStage (tag : BitVec 32) (offset : Nat) (chunk : List Byte) (valid : Bool) (version secVersion : Nat) : TailFits.Statement (.fwStage tag offset chunk valid version secVersion) :=
  Code.fits_none ..
theorem TailFits.fwActivate (tag : BitVec 32) (watchdog : Nat) (boot : Startup) : TailFits.Statement (.fwActivate tag watchdog boot) :=
  Code.fits_none ..
theorem TailFits.fwConfirm (tag : BitVec 32) : TailFits.Statement (.fwConfirm tag) := Code.fits_none ..
theorem TailFits.fwWatchdogExpiry (boot : Startup) : TailFits.Statement (.fwWatchdogExpiry boot) := Code.fits_none ..
theorem TailFits.spdm (tag : BitVec 32) (msg : List Byte) : TailFits.Statement (.spdm tag msg) := Code.fits_none ..
theorem TailFits.getVersion (tag : BitVec 32) : TailFits.Statement (.getVersion tag) := Code.fits_none ..
theorem TailFits.getCapabilities (tag : BitVec 32) : TailFits.Statement (.getCapabilities tag) := Code.fits_none ..
theorem TailFits.negotiateAlgorithms (tag : BitVec 32) (msg : List Byte) : TailFits.Statement (.negotiateAlgorithms tag msg) :=
  Code.fits_none ..
theorem TailFits.getDigests (tag : BitVec 32) : TailFits.Statement (.getDigests tag) := Code.fits_none ..
theorem TailFits.getCertificate (tag : BitVec 32) (offset len : Nat) : TailFits.Statement (.getCertificate tag offset len) :=
  Code.fits_none ..
theorem TailFits.challenge (tag : BitVec 32) (nonce : List Byte) : TailFits.Statement (.challenge tag nonce) := Code.fits_none ..
theorem TailFits.getMeasurements (tag : BitVec 32) (index : Nat) : TailFits.Statement (.getMeasurements tag index) := Code.fits_none ..
theorem TailFits.keyExchange (tag : BitVec 32) (msg : List Byte) : TailFits.Statement (.keyExchange tag msg) := Code.fits_none ..
theorem TailFits.finish (tag : BitVec 32) (msg : List Byte) : TailFits.Statement (.finish tag msg) := Code.fits_none ..
theorem TailFits.logRead (tag : BitVec 32) (index : Nat) : TailFits.Statement (.logRead tag index) := Code.fits_none ..
theorem TailFits.packageReset (boot : Startup) : TailFits.Statement (.packageReset boot) := Code.fits_none ..
theorem TailFits.coreRestart (core : Nat) : TailFits.Statement (.coreRestart core) := Code.fits_none ..
theorem TailFits.unassignedOpcode (head : BitVec 16) : TailFits.Statement (.unassignedOpcode head) :=
 
  ⟨Nat.mod_lt _ (by decide), Nat.pow_pos (by decide)⟩
theorem TailFits.uncorrectableError (t : UeTarget) : TailFits.Statement (.uncorrectableError t) := Code.fits_none ..
theorem TailFits.deviceInvalidationAck (port : Nat) : TailFits.Statement (.deviceInvalidationAck port) := Code.fits_none ..
theorem TailFits.nop : TailFits.Statement (.nop) := Code.fits_none ..
theorem TailFits.idle : TailFits.Statement (.idle) := Code.fits_none ..
theorem TailFits.stop : TailFits.Statement (.stop) := Code.fits_none ..
theorem TailFits.tsync : TailFits.Statement (.tsync) := Code.fits_encTR ..
theorem TailFits.tret : TailFits.Statement (.tret) := Code.fits_none ..
theorem TailFits.plbinvAll : TailFits.Statement (.plbinvAll) := Code.fits_encRR ..
theorem TailFits.xlinvAll : TailFits.Statement (.xlinvAll) := Code.fits_encRR ..
theorem TailFits.staticCharge : TailFits.Statement (.staticCharge) := Code.fits_none ..
theorem TailFits.kerranRerouteDone : TailFits.Statement (.kerranRerouteDone) := Code.fits_none ..
theorem TailFits.mailboxResponseReady : TailFits.Statement (.mailboxResponseReady) := Code.fits_none ..
theorem TailFits.fwCallVersion : TailFits.Statement (.fwCallVersion) := Code.fits_encRI ..
theorem TailFits.sign : TailFits.Statement (.sign) := Code.fits_encRI ..
theorem TailFits.fwCallSetLimit : TailFits.Statement (.fwCallSetLimit) := Code.fits_encRI ..
theorem TailFits.setRestart : TailFits.Statement (.setRestart) := Code.fits_encRI ..
theorem TailFits.fwCallLogRead : TailFits.Statement (.fwCallLogRead) := Code.fits_encRI ..

end Sys2Proof.Laws
end

