-- ==== Sys2Proof/Laws/Pool.lean ====
section
/-! SUPPORT. What a step of a pool-scope release, and an acceptance of the buffered stores that must leave, can do. -/

namespace Sys2Proof.Machine

/-! ### Releases at pool scope (R283) -/

@[simp] theorem State.setFence_cur (s : State) (w : Option PoolWait) (l : Option Word) : (s.setFence w l).cur = s.cur := rfl
@[simp] theorem State.setFence_mem (s : State) (w : Option PoolWait) (l : Option Word) : (s.setFence w l).mem = s.mem := rfl
@[simp] theorem State.setFence_cores (s : State) (w : Option PoolWait) (l : Option Word) : (s.setFence w l).cores = s.cores := rfl
@[simp] theorem State.setFence_pool (s : State) (w : Option PoolWait) (l : Option Word) : (s.setFence w l).pool = s.pool := rfl

/-- What an instruction was last set to wait for is what it waits for. -/
@[simp] theorem State.fenceWait_setFence (s : State) (w : Option PoolWait) (l : Option Word) : (s.setFence w l).fenceWait = w := by
  have h : (s.poolFences.filter fun f => f.who ≠ s.cur).find? (fun f => f.who = s.cur) = none := by
    rw [List.find?_eq_none]; intro f hf; simpa using (List.mem_filter.mp hf).2
  cases w with
  | none =>
    show Option.map _ ((s.poolFences.filter fun f => f.who ≠ s.cur).find? fun f => f.who = s.cur) = none
    rw [h]; rfl
  | some w =>
    show Option.map _ (((s.poolFences.filter fun f => f.who ≠ s.cur) ++ [(⟨s.cur, w, l⟩ : PoolFence)]).find?
      fun f : PoolFence => f.who = s.cur) = some w
    rw [List.find?_append, h]; simp

/-- A step of a release waits as it did, begins to wait for the writes in flight, is done, or sends the dirty lines. -/
theorem State.poolStep_cases (s : State) (p : Nat) (w : Option PoolWait) :
    (∃ x, w = some x ∧ s.poolWaits p x = true ∧ s.poolStep p w = (s, some x)) ∨
    (w = none ∧ s.poolFlights p ≠ [] ∧ s.poolStep p w = (s, some ⟨s.poolFlights p, none, false⟩)) ∨
    (∃ x, w = some x ∧ s.poolWaits p x = false ∧ x.sent = true ∧ s.poolStep p w = (s, none)) ∨
    s.poolStep p w = s.poolSend p := by
  cases w with
  | none => cases h : s.poolFlights p <;> simp [State.poolStep, h]
  | some x =>
    by_cases hw : s.poolWaits p x = true
    · simp [State.poolStep, hw]
    · cases hx : x.sent <;> simp_all [State.poolStep]

/-- A release that is done has nothing of the kind in flight that it waited for. -/
theorem State.poolStep_done (s : State) (p : Nat) (w : Option PoolWait) (h : (s.poolStep p w).2 = none) :
    (∃ x, w = some x ∧ s.poolWaits p x = false ∧ (s.poolStep p w).1 = s) ∨
    ((s.poolStep p w).1 = s.cleanPool p ∧ (s.cleanPool p).poolFlights p = []) := by
  obtain ⟨x, -, -, e⟩ | ⟨-, -, e⟩ | ⟨x, hw, hx, -, e⟩ | e := s.poolStep_cases p w <;> rw [e] at h ⊢
  · cases h
  · cases h
  · exact .inl ⟨x, hw, hx, rfl⟩
  · refine .inr ⟨rfl, ?_⟩
    simp only [State.poolSend] at h
    split at h
    · assumption
    · cases h

/-! ### Stores that must leave the buffer -/

/-- Every entry that `need` names is among those that leave. -/
theorem splitNeeded_leave (need : SbEntry → Bool) (es : List (SbEntry × Bool)) (o : SbEntry × Bool) (ho : o ∈ es)
    (hn : need o.1 = true) : o ∈ (splitNeeded need es).1 := by
  induction es with
  | nil => cases ho
  | cons e es ih =>
    simp only [splitNeeded]
    rcases List.mem_cons.mp ho with rfl | ho
    · simp [hn]
    · split
      · exact List.mem_cons_of_mem _ (ih ho)
      · exact ih ho

/-- No entry is lost or made: those that leave and those that stay are the buffer's. -/
theorem splitNeeded_mem (need : SbEntry → Bool) (es : List (SbEntry × Bool)) (o : SbEntry × Bool) :
    o ∈ (splitNeeded need es).1 ∨ o ∈ (splitNeeded need es).2 ↔ o ∈ es := by
  induction es with
  | nil => simp [splitNeeded]
  | cons e es ih =>
    simp only [splitNeeded]
    split <;> simp only [List.mem_cons, ← ih] <;> tauto

/-- With nothing named, nothing leaves. -/
theorem State.drainNeeded_none (s : State) (a : AgentId) : s.drainNeeded a (fun _ => false) = some s := by
  have h : ∀ es : List (SbEntry × Bool), (splitNeeded (fun _ => false) es).1 = [] := by
    intro es
    induction es with
    | nil => rfl
    | cons e es ih => simp [splitNeeded, ih]
  simp [State.drainNeeded, h]

end Sys2Proof.Machine
end

