-- ==== Sys2Proof/Tests/Slice0.lean ====
section
/-! SUPPORT. The author's own tests: ill-formed terms, words written out from the encoding tables of the manual (chapter 04), single
steps with results from the manual or by hand, and for each statement a state that meets its hypotheses. -/

namespace Sys2Proof.Tests

set_option Elab.async false
open Sys2Proof.Machine

/-! ### States -/

/-- Core 0's thread at kernel privilege, about to run a `nop` of the line at 0x20_0000, with one page of 2 MiB mapped. -/
def tk : State := State.reset.withFetchWord 16 0x3700

/-- The same at user privilege. -/
def tu : State := tk.modStatus 0 fun st => { st with pl := .user }

/-- Protection on, and a region of domain 0 with every right over the low addresses in the lookaside buffer. -/
def guard (s : State) : State :=
  (s.modPart 0 fun p => { p with protroot := 1 }).modCore 0 fun c => { c with plb := [⟨0, 0, 2 ^ 20, false, 7⟩] }

/-- Sprig 0 of core 0 with 8 vector registers, running. -/
def sp : State := guard { tk.placeBlock (lineOf 0x3700 0) with cur := ⟨0, .sprig 0⟩, sched := [] }

/-- A plain translated address of the page. -/
def xl (l : Nat) : Xl := ⟨l, 0, 0, false, false, 0, false⟩

/-- Give a page attribute to the page: word 0 of its record, and the range of a commutative page. -/
def withAttr (s : State) (w0 : Nat) : State :=
  { s with mem := putWord s.mem 0x10800 w0 }

/-! ### Checks by evaluation -/

def isOk {ε α : Type} [DecidableEq α] (e : Except ε α) (x : α) : Bool :=
  match e with
  | .ok y => decide (y = x)
  | .error _ => false

def isErr {ε α : Type} [DecidableEq ε] (e : Except ε α) (x : ε) : Bool :=
  match e with
  | .ok _ => false
  | .error y => decide (y = x)

theorem ok_of {ε α : Type} [DecidableEq α] {e : Except ε α} {x : α} (h : isOk e x = true) : e = .ok x := by
  cases e with
  | ok y => simp only [isOk, decide_eq_true_eq] at h; rw [h]
  | error y => simp [isOk] at h

theorem err_of {ε α : Type} [DecidableEq ε] {e : Except ε α} {x : ε} (h : isErr e x = true) : e = .error x := by
  cases e with
  | ok y => simp [isErr] at h
  | error y => simp only [isErr, decide_eq_true_eq] at h; rw [h]

def readyB (s : State) (a : AgentId) (rt : Right) (ea : Word) (x : Xl) : Bool :=
  canonical ea && isOk (s.access (s.accOf a) rt ea) x && decide (x.crf = 0) && !s.poolLost x.loc && !isDevice x.loc

theorem ready_of {s : State} {a : AgentId} {rt : Right} {ea : Word} {x : Xl} (h : readyB s a rt ea x = true) : Ready s a rt ea x := by
  simp only [readyB, Bool.and_eq_true, decide_eq_true_eq, Bool.not_eq_true'] at h
  exact ⟨h.1.1.1.1, ok_of h.1.1.1.2, h.1.1.2, h.1.2, h.2⟩

theorem readable_of {s : State} {a : AgentId} {ea : Word} {n : Nat} {x : Xl}
    (h : (readyB s a .r ea x && decide (ea.toNat % n = 0) && !s.ueSeen a x n && !s.blocked a (x.loc / 64) && !s.ucBehind a x &&
      (s.ag a).ahead.isEmpty && (!x.window || (Store.find? s.behind (x.loc / 64)).isNone)) = true) : Readable s a ea n x := by
  simp only [Bool.and_eq_true, decide_eq_true_eq, Bool.not_eq_true', List.isEmpty_iff, Bool.or_eq_true, Option.isNone_iff_eq_none] at h
  exact ⟨ready_of h.1.1.1.1.1.1, h.1.1.1.1.1.2, h.1.1.1.1.2, h.1.1.1.2, h.1.1.2, h.1.2,
    fun w _ => h.2.resolve_left (by simp [w])⟩

theorem ueSeen_clean {s : State} (h : s.ue = []) (h' : s.unreachable = []) (a : AgentId) (x : Xl) (n : Nat) : s.ueSeen a x n = false := by
  simp [State.ueSeen, State.ueAt, State.granuleBad, State.cutOff, h, h']

def syncB (s : State) (ea : Word) (n : Nat) (need : PageNeed) (pool : Bool) (x : Xl) (r : Bool) : Bool :=
  canonical ea && decide (ea.toNat % n = 0) && isOk (s.allowed (s.accOf s.cur) .r ea) true &&
    isOk (s.allowed (s.accOf s.cur) .w ea) true && isOk (s.access (s.accOf s.cur) (if r then .r else .w) ea) x &&
    (match need with
      | .plain => decide (x.crf = 0)
      | .tagged => x.tag
      | .range => decide (x.crf ≠ 0)) && (pool || !isPool x.loc) && !s.poolLost x.loc && !s.ueAt x.loc n && !isDevice x.loc

theorem syncReady_of {s : State} {ea : Word} {n : Nat} {need : PageNeed} {pool : Bool} {x : Xl} (r w : Bool)
    (h : syncB s ea n need pool x r = true) : SyncReady s ea n r w need pool x := by
  simp only [syncB, Bool.and_eq_true, decide_eq_true_eq, Bool.not_eq_true', Bool.or_eq_true] at h
  obtain ⟨⟨⟨⟨⟨⟨⟨⟨⟨h1, h2⟩, h3⟩, h4⟩, h5⟩, h6⟩, h7⟩, h8⟩, h9⟩, h10⟩ := h
  refine ⟨h1, h2, ⟨true, true, ok_of h3, ok_of h4, fun _ => rfl, fun _ => rfl⟩, ok_of h5, ?_, h7, h8, h9, h10⟩
  cases need <;> simpa using h6

theorem performed_of {s : State} (h : ((s.ag s.cur).sb.isEmpty && (s.core s.cur.core).partials.isEmpty &&
    (s.poolFences.all fun f => f.who ≠ s.cur) && (s.behind.all fun e => !isPool (64 * e.1)) &&
    (s.poolFlights (s.partOf s.cur.core)).isEmpty) = true) : Performed s := by
  simp only [Bool.and_eq_true, List.isEmpty_iff, List.all_eq_true, decide_eq_true_eq, Bool.not_eq_true'] at h
  exact ⟨h.1.1.1.1, h.1.1.1.2, h.1.1.2, h.1.2, h.2⟩

def lineFreeB (s : State) (x : Xl) : Bool :=
  (Store.find? s.res (x.loc / 64)).isNone && !s.queuedFor s.cur (x.loc / 64) && decide (s.slotsUsed x.slice < 128) &&
    (Store.get s.sliceQ [] x.slice).isEmpty

theorem lineFree_of {s : State} {x : Xl} (h : lineFreeB s x = true) : LineFree s x := by
  simp only [lineFreeB, Bool.and_eq_true, Option.isNone_iff_eq_none, decide_eq_true_eq, Bool.not_eq_true', List.isEmpty_iff] at h
  exact ⟨h.1.1.1, h.1.1.2, h.1.2, h.2⟩

theorem tk_readable : Readable tk tk.cur 0x200100 8 (xl 0x200100) := readable_of (by decide +kernel)
theorem tk_store : Ready tk tk.cur .w 0x200100 (xl 0x200100) := ready_of (by decide +kernel)
theorem sp_readable : Readable sp sp.cur 0x200100 8 (xl 0x200100) := readable_of (by decide +kernel)
theorem sp_store : Ready sp sp.cur .w 0x200100 (xl 0x200100) := ready_of (by decide +kernel)
theorem tk_sync : SyncReady tk 0x200100 8 true true .plain true (xl 0x200100) := syncReady_of true true (by decide +kernel)
theorem tk_performed : Performed tk := performed_of (by decide +kernel)
theorem tk_free : LineFree tk (xl 0x200100) := lineFree_of (by decide +kernel)

/-- The page is a page of tagged words. -/
def tagged : State := withAttr tk 5
def xt : Xl := { xl 0x200100 with tag := true }
theorem tagged_sync : SyncReady tagged 0x200100 8 true true .tagged false xt := syncReady_of true true (by decide +kernel)

/-- The page is a commutative range of 8-byte words. -/
def ranged : State := { tk with mem := putWord (putWord (putWord tk.mem 0x10800 0x9) 0x10808 0x200000) 0x10810 0x400000 }

/-! ### A state for every hypothesis of the statements -/

/-- Registers of the running agent. -/
def put (s : State) (rs : List (BitVec 5 × Word)) : State := rs.foldl (fun s r => s.setG s.cur r.1 r.2) s

theorem witness_IntegerRegisterResults : (put tk [(3, 1)]).rg 3 ≠ 0 ∧ (put tk [(3, 1)]).rg 4 = 0 := by decide +kernel

theorem witness_FloatResultsAndFlags : (∀ v ∈ [0, 0x8000, 1, 0x3C00, 0x7BFF, 0xFC00], nanF .f16 v = false) ∧ nanF .f16 0x7E00 = true ∧
    nanF .f16 0xFC01 = true := by decide +kernel

theorem witness_NanOperandGivesCanonicalNan :
    ((unpackF .f64 ((put tk [(1, 0x7FF8000000000001)]).rgF .f64 1)).isNan ∧
      (unpackF .f64 ((put tk [(1, 0x7FF0000000000001)]).rgF .f64 1)).isSig ∧ (unpackF .f16 0xFE00).isNan) ∧
    (∀ v ∈ [0, 0x8000, 0x3C00, 0xBC00], nanF .f16 v = false ∧ infF .f16 v = false) ∧ (∀ v ∈ [0x7C00, 0xFC00], infF .f16 v = true) ∧
    signF .f16 0x7C00 = false ∧ valueF .f16 0x8000 = 0 ∧ valueF .f16 0x3C00 ≠ 0 ∧ valueF .f16 0xBC00 < 0 := by decide +kernel

theorem witness_FloatResultsAreRoundedExactValues :
    (∀ f ∈ [Ty.f64, .f32, .f16, .bf16], nanF f 0 = false ∧ infF f 0 = false ∧ nanF f (topF f) = false ∧ infF f (topF f) = false) ∧
    (valueF .f16 0x3C00 ≠ 0 ∧ 0 ≤ valueF .f16 0x3C00) ∧ (∀ p ∈ [(0x3C00, 0xBC00), (0, 1)], nanF .f16 p.1 = false ∧ infF .f16 p.2 = false) ∧
    (nanF .e4m3 0x7E = false ∧ infF .e4m3 0x7E = false ∧ nanF .e4m3 0xFF = true ∧ infF .e5m2 0xFC = true ∧ Ty.b8.isInt = true ∧
      Ty.e8m0.isInt = false ∧ 254 < 255) ∧
    ((-1 : Int) < 0 ∧ 2 * (3 % 2 ^ 1) = 2 ^ 1) := by decide +kernel

theorem witness_TransfersReachTheirTargets :
    (tk.cur.who = .thread ∧ canonical ((tk.pcOf tk.cur &&& ~~~63#64) + 0 * 64 + 2 + 2 * (27#5).setWidth 64) = true) ∧
    (canonical ((put tk [(1, 0x200038)]).rg 1) = true ∧ isHeadAddr ((put tk [(1, 0x200038)]).rg 1).toNat = true) ∧
    (sp.cur.who = .sprig 0 ∧ ((put sp [(1, 0xFFC2)]).rg 1).toNat ≤ 0xFFFF ∧ isHeadAddr ((put sp [(1, 0xFFC2)]).rg 1).toNat = true) ∧
    ((put tk [(1, -1), (2, 1)]).rg 1).toInt < ((put tk [(1, -1), (2, 1)]).rg 2).toInt ∧
    ¬((put tk [(1, -1), (2, 1)]).rg 1).toNat < ((put tk [(1, -1), (2, 1)]).rg 2).toNat := by decide +kernel

/-- A linkage table at 0x20_0100 whose entry 0 holds `e` and whose entry 1 is not bound. -/
def linkedTo (e : Nat) : State :=
  { (tk.modThr 0 fun t => { t with ltbase := 0x200100 }) with mem := putWord (putWord tk.mem 0x200100 e) 0x200108 1 }

def linked : State := linkedTo 0x200002

theorem witness_TargetsAndLinkageAreChecked :
    (canonical ((put tk [(1, 0x80000000000000)]).rg 1) = false ∧ canonical ((put tk [(1, 0x200001)]).rg 1) = true ∧
      isHeadAddr ((put tk [(1, 0x200001)]).rg 1).toNat = false ∧
      canonical ((((tk.modThr 0 fun t => { t with pc := 0x7FFFFFFFFFFFC2 }).pcOf tk.cur &&& ~~~63#64)) + 1 * 64 + 2) = false) ∧
    (sp.cur.who ≠ .thread ∧ 0xFFFF < ((put sp [(1, 0x10000)]).rg 1).toNat ∧ ((put sp [(1, 0xFFFF)]).rg 1).toNat ≤ 0xFFFF ∧
      isHeadAddr ((put sp [(1, 0xFFFF)]).rg 1).toNat = false ∧ 0xFFFF < ((sp.pcOf sp.cur &&& ~~~63#64) + 1024 * 64 + 2).toNat) ∧
    Readable linked linked.cur ((linked.thr 0).ltbase + 8 * (0#16).setWidth 64) 8 (xl 0x200100) ∧
    (let e := BitVec.ofNat 64 (leNat (linked.seenBytes linked.cur 0x200100 8));
      e ≠ 0 ∧ e.toNat % 2 = 0 ∧ canonical e = true ∧ isHeadAddr e.toNat = true) ∧
    Readable linked linked.cur ((linked.thr 0).ltbase + 8 * (1#16).setWidth 64) 8 (xl 0x200108) ∧
    (BitVec.ofNat 64 (leNat (linked.seenBytes linked.cur 0x200108 8))).toNat % 2 = 1 ∧
    (brHolds .eq (tk.rg 1) (tk.rg 2) = true ∧ brzHolds .eqz (tk.rg 1) = true) ∧
    ((linked.ag linked.cur).fwd.any id = false ∧ (linked.ag linked.cur).sb = []) ∧
    (∀ e ∈ [0x80000000000002, 0x200040], Readable (linkedTo e) (linkedTo e).cur 0x200100 8 (xl 0x200100) ∧
      leNat ((linkedTo e).seenBytes (linkedTo e).cur 0x200100 8) = e) ∧
    canonical 0x80000000000002 = false ∧ canonical 0x200040 = true ∧ isHeadAddr 0x200040 = false :=
  ⟨by decide +kernel, by decide +kernel, readable_of (by decide +kernel), by decide +kernel, readable_of (by decide +kernel),
    by decide +kernel, by decide +kernel, by decide +kernel, fun e he => by
      simp only [List.mem_cons, List.not_mem_nil, or_false] at he
      obtain rfl | rfl := he <;> exact ⟨readable_of (by decide +kernel), by decide +kernel⟩, by decide, by decide, by decide⟩

/-- The thread holds the line at 0x20_0100 by `lrw`. -/
def holding : State := { tk with res := [(0x200100 / 64, ⟨0, 0x200100 / 64, some tk.cur, true, 0, []⟩)] }

/-- Sprig 0 waits. -/
def stalled : State := sp.modSprig 0 0 fun p => { p with st := .waiting, ag := { p.ag with wait := some ⟨0, 10, 7, .served, []⟩ } }

/-- In a handler, with core 1 running beside. -/
def nested : State := (tk.modStatus 0 fun st => { st with nest := true }).modThr 1 fun t => { t with run := .running }

theorem witness_TrapEntryAndDoubleTrap :
    (tk.priv 0).status.nest = false ∧ (nested.priv 0).status.nest = true ∧ (∀ p < 1, p ≠ 0 → (nested.thr p).run = .off) ∧
    (nested.thr 1).run = .running ∧ nested.partOf 1 = nested.partOf 0 ∧ (Store.find? nested.cores 1).isSome ∧
    (nested.core 1).mchecks.length < 16 ∧ (0x20 ≠ 0x0D ∧ 0x20 ≠ 0x30) ∧
    (0 < (sp.core 0).arr.n ∧ (sp.sprig 0 0).st = .running ∧ (stalled.sprig 0 0).st = .waiting ∧ (stalled.sprig 0 0).ag.wait.isSome = true) ∧
    holding.res = [(0x200100 / 64, ⟨0, 0x200100 / 64, some ⟨0, .thread⟩, true, 0, []⟩)] ∧ holding.sliceQ = [] ∧
    (let s := { sp with res := [(0x200100 / 64, ⟨0, 0x200100 / 64, some ⟨0, .sprig 0⟩, true, 0, []⟩)] };
      s.res.map (fun e => e.2.holder) = [some ⟨0, .sprig 0⟩] ∧ s.sliceQ = [] ∧ 0 < (s.core 0).arr.n ∧ (s.sprig 0 0).st = .running ∧
        (s.priv 0).status.nest = false) := by decide +kernel

theorem witness_SoftwareTrapsAreTaken :
    tk.cur.who = .thread ∧ (tk.priv 0).status.nest = false ∧ (tk.priv 0).status.pl = .kernel ∧ (0xFF04 : Nat) < (0xFF05#16).toNat ∧
    (tu.priv 0).status.pl = .user ∧ (tu.priv 0).status.nest = false := by decide +kernel

def returning (pc : Word) : State := tk.modPriv 0 fun p => { p with trappc := pc }

theorem witness_ReturnRestoresTheSavedState :
    (tk.priv 0).status.pl = .kernel ∧ (tk.priv 0).status.nest = false ∧
    (canonical ((returning 0x200038).priv 0).trappc = true ∧ isHeadAddr ((returning 0x200038).priv 0).trappc.toNat = true) ∧
    canonical ((returning 0x80000000000000).priv 0).trappc = false ∧
    isHeadAddr ((returning 0x20003A).priv 0).trappc.toNat = false := by decide +kernel

theorem witness_KernelInstructionsTrapAtUserPrivilege :
    (tu.cur.who = .thread ∧ (tu.priv 0).status.pl = .user) ∧ sp.cur.who ≠ .thread := by decide +kernel

def resting : State := tk.modThr 0 fun t => { t with run := .idle 0, waitlim := 10 }

theorem witness_IdleStopsAndEnds :
    (tk.anyPending 0 = false ∧ (tk.core 0).claimed = false) ∧ (tk.modPriv 0 fun p => { p with timecmp := 0 }).anyPending 0 = true ∧
    (({ resting with time := 10 } : State).thr 0).run = .idle 0 ∧ ({ resting with time := 10 } : State).anyPending 0 = false ∧
    (resting.thr 0).waitlim ≠ 0 ∧ (tk.thr 0).waitlim = 0 := by decide +kernel

/-- A deposit of 5 in the word at 0x20_0100. -/
def deposit : Exact := Exact.ofDeposit 0x200100 0 0 0 1 .add 5

def xr : Xl := { xl 0x200100 with crf := 1 }

/-- The page is one of device space. -/
def devicePage : State := withAttr { tk with mem := putWord tk.mem 0x15008 (2 ^ 51 + 3) } 3

def xd (l : Nat) : Xl := { xl (2 ^ 51 + l) with uc := true }

/-- An uncorrectable error in the granule at 0x20_0100. -/
def spoiled : State := { tk with ue := [(0x200100 / 32, ⟨0, 0⟩)] }

/-- A buffered store of eight bytes at a location. -/
def eightBytes (l : Nat) (v : Word) : SbEntry :=
  ⟨[⟨false, false, l / 64, (List.range 8).map fun k => (l + k, BitVec.ofNat 8 (v.toNat / 256 ^ k)), false⟩], false, false, false, 0, 1, []⟩

/-- The thread has a buffered store of the eight bytes at 0x20_0100, whose granule in memory is in error. -/
def forwarding : State := spoiled.modAg tk.cur fun g => { g with sb := [eightBytes 0x200100 7] }

theorem witness_ForwardedLoad :
    Ready forwarding forwarding.cur .r 0x200100 (xl 0x200100) ∧ (∀ k < 8, (sbByte (forwarding.ag forwarding.cur).sb (0x200100 + k)).isSome = true) ∧
    forwarding.blocked forwarding.cur (0x200100 / 64) = false ∧ (forwarding.ag forwarding.cur).ahead = [] ∧ forwarding.ueAt 0x200100 8 = true :=
  ⟨ready_of (by decide +kernel), by decide +kernel, by decide +kernel, by decide +kernel, by decide +kernel⟩

theorem witness_LoadsReturnTheBytesTheAgentSees :
    ((put tk [(1, 0x1FFF00), (2, 0x40)]).rg 1 + (256#17).signExtend 64 + ((put tk [(1, 0x1FFF00), (2, 0x40)]).rg 2 <<< 2) = 0x200100 ∧
      Readable tk tk.cur 0x200100 8 (xl 0x200100) ∧ Readable sp sp.cur 0x200100 8 (xl 0x200100)) ∧
    (∀ s ∈ [ranged, { ranged with exact := [(0x200100, deposit)] }, ranged.modCore 3 fun k => { k with partials := [(0x200100, deposit)] }],
      s.access (s.accOf s.cur) .r 0x200100 = .ok xr ∧ s.poolLost xr.loc = false ∧ s.ueSeen s.cur xr 8 = false ∧ (s.ag s.cur).ahead = [] ∧
      isDevice xr.loc = false ∧ s.blocked s.cur (xr.loc / 64) = false ∧ s.ucBehind s.cur xr = false ∧ (s.ag s.cur).sb = [] ∧
      s.monitors = [] ∧ s.cutOff xr.loc = false ∧ ∀ k < 3, (s.core k).partials = []) ∧
    ((ranged.modCore 3 fun k => { k with partials := [(0x200100, deposit)] }).core 3).partials = [(0x200100, deposit)] ∧
    (deposit.crf = xr.crf ∧ deposit.op = .add ∧ (Exact.ofDeposit 0x200100 0 0 0 1 .max 5).ext = some 5) ∧
    (∀ o ∈ [0x10000, 0x13018, 0x1000], devicePage.access (devicePage.accOf devicePage.cur) .r (0x200000 + BitVec.ofNat 64 o) = .ok (xd o) ∧
      isDevice (xd o).loc = true ∧ devicePage.poolLost (xd o).loc = false ∧ devicePage.ueSeen devicePage.cur (xd o) 8 = false ∧ devicePage.pkg = 0) ∧
    (let e := Exact.ofDeposit 0x200100 0 0 0 2 .add 0x3F800000;
      e.crf ≠ 1 ∧ e.op = .add ∧ e.nan = false ∧ e.pinf = false ∧ e.ninf = false ∧ unpackF (crfTy e.crf) 0x3F800000 = .fin false 8388608 (-23) false ∧
      e.acc.toInt + 8388608 * 2 ^ 126 < (2 : Int) ^ 319 ∧ -(2 ^ 319 : Int) ≤ e.acc.toInt) := by
  refine ⟨⟨by decide +kernel, tk_readable, sp_readable⟩, fun s hs => ?_, by decide +kernel, by decide +kernel, fun o ho => ?_, by decide +kernel⟩
  · simp only [List.mem_cons, List.not_mem_nil, or_false] at hs
    obtain rfl | rfl | rfl := hs <;> exact ⟨ok_of (by decide +kernel), by decide +kernel⟩
  · simp only [List.mem_cons, List.not_mem_nil, or_false] at ho
    obtain rfl | rfl | rfl := ho <;> exact ⟨ok_of (by decide +kernel), by decide +kernel⟩

/-- Segment 0 of core 0 is mapped over the page, and another agent holds the line of 0x20_0100 dirty. -/
def farDirty : State := { (tk.modPriv 0 fun p => { p with spwin := [(0, 0x200001)] }) with behind := [((2 ^ 52 + 0x100) / 64, ⟨0, 0, 0x200100⟩)] }

theorem witness_LoadRecallsTheLine :
    Ready farDirty farDirty.cur .r 0x200100 { xl (2 ^ 52 + 0x100) with window := true } ∧ (0x200100#64).toNat % 8 = 0 ∧
    farDirty.ueSeen farDirty.cur { xl (2 ^ 52 + 0x100) with window := true } 8 = false ∧ (farDirty.ag farDirty.cur).ahead = [] ∧
    farDirty.blocked farDirty.cur ((2 ^ 52 + 0x100) / 64) = false ∧ ({ xl (2 ^ 52 + 0x100) with window := true } : Xl).owner = farDirty.cur.core ∧
    farDirty.ucBehind farDirty.cur { xl (2 ^ 52 + 0x100) with window := true } = false ∧
    (Store.find? farDirty.behind ((2 ^ 52 + 0x100) / 64)).isSome :=
  ⟨ready_of (by decide +kernel), by decide, by decide +kernel, by decide +kernel, by decide +kernel, by decide +kernel, by decide +kernel,
    by decide +kernel⟩

theorem witness_StoresEnterTheStoreBuffer :
    (Ready tk tk.cur .w 0x200100 (xl 0x200100) ∧ Ready sp sp.cur .w 0x200100 (xl 0x200100) ∧ (0x200100#64).toNat % 8 = 0) ∧
    (∀ s ∈ [ranged, ranged.modCore 0 fun k => { k with partials := [(0x200100, deposit)] },
        { (ranged.modCore 0 fun k => { k with partials := [(0x200100, deposit)] }) with exact := [(0x200100, deposit)] }],
      s.access (s.accOf s.cur) .w 0x200100 = .ok xr ∧ s.poolLost xr.loc = false ∧ isDevice xr.loc = false) ∧
    ((ranged.core 0).partials = [] ∧ ((ranged.modCore 0 fun k => { k with partials := [(0x200100, deposit)] }).core 0).partials =
      [(0x200100, deposit)]) ∧
    (∀ o ∈ [0, 0x1000, 0x12018], devicePage.access (devicePage.accOf devicePage.cur) .w (0x200000 + BitVec.ofNat 64 o) = .ok (xd o) ∧
      isDevice (xd o).loc = true ∧ devicePage.poolLost (xd o).loc = false) ∧
    (let s := { devicePage with mem := putWord devicePage.mem 0x15008 (2 ^ 51 + 0x1000000 + 3) };
      s.access (s.accOf s.cur) .w 0x200018 = .ok (xd 0x1000018) ∧ (0x1000018 : Nat) = 0x1000000 + 16 * 1 + 8) ∧
    ((devicePage.ag devicePage.cur).fwd.any id = false ∧ devicePage.monitors = [] ∧ devicePage.canPerform devicePage.cur = true) ∧
    (let e := eightBytes 0x200200 7;
      let s := { devicePage.modAg devicePage.cur (fun g => { g with sb := [e], fwd := [true] }) with res := [(0x200200 / 64, ⟨0, 0, some ⟨4, .thread⟩, true, 0, []⟩)] };
      s.canPerform s.cur = false ∧ s.access (s.accOf s.cur) .w 0x201000 = .ok (xd 0x1000)) := by
  refine ⟨⟨tk_store, sp_store, by decide⟩, fun s hs => ?_, by decide +kernel, fun o ho => ?_,
    ⟨ok_of (by decide +kernel), by decide⟩, by decide +kernel, by decide +kernel, ok_of (by decide +kernel)⟩
  · simp only [List.mem_cons, List.not_mem_nil, or_false] at hs
    obtain rfl | rfl | rfl := hs <;> exact ⟨ok_of (by decide +kernel), by decide +kernel⟩
  · simp only [List.mem_cons, List.not_mem_nil, or_false] at ho
    obtain rfl | rfl | rfl := ho <;> exact ⟨ok_of (by decide +kernel), by decide +kernel⟩

/-- A user thread under protection whose domain has no region: the table at 0 is empty. -/
def bare : State := tu.modPart 0 fun p => { p with protroot := 1 }

theorem witness_RefusedAccessesTrap :
    canonical 0x80000000000000#64 = false ∧ (canonical 0x200101#64 = true ∧ (0x200101#64).toNat % 8 ≠ 0) ∧
    tu.access (tu.accOf tu.cur) .r 0x200100 = .error (.trap 0x04 0) ∧ tu.access (tu.accOf tu.cur) .w 0x200100 = .error (.trap 0x04 0) ∧
    tk.access (tk.accOf tk.cur) .r 0x400000 = .error (.trap 0x05 1) ∧
    (Ready spoiled spoiled.cur .r 0x200100 (xl 0x200100) ∧ (∃ k < 8, spoiled.granuleBad ((0x200100 + k) / 32) = true ∧
        sbByte (spoiled.ag spoiled.cur).sb (0x200100 + k) = none) ∧ spoiled.ucBehind spoiled.cur (xl 0x200100) = false) ∧
    (bit ((guard tu).part 0).protroot 0 = true ∧ inSysWindow 0x200100 = false ∧
      (guard tu).access ((guard tu).accOf tu.cur) .r 0x200100 = .ok (xl 0x200100)) ∧
    bare.regionRights bare.cur (bare.priv 0).domain 0x200100 = .ok none ∧
    (ranged.access (ranged.accOf ranged.cur) .r 0x200100 = .ok xr ∧ ranged.access (ranged.accOf ranged.cur) .w 0x200100 = .ok xr ∧
      memWBytes .s32 ≠ 8 ∧ stWBytes .b4 ≠ 8) :=
  ⟨by decide, by decide, err_of (by decide +kernel), err_of (by decide +kernel), err_of (by decide +kernel),
    ⟨ready_of (by decide +kernel), ⟨0, by decide +kernel⟩, by decide +kernel⟩, ⟨by decide +kernel, by decide +kernel, ok_of (by decide +kernel)⟩,
    ok_of (by decide +kernel), ok_of (by decide +kernel), ok_of (by decide +kernel), by decide, by decide⟩

theorem witness_FencesCompleteWhenWritesArePerformed :
    ((tk.ag tk.cur).sb = [] ∧ (tk.core 0).partials = [] ∧ (∀ f ∈ tk.poolFences, f.who ≠ tk.cur) ∧
      (∀ e ∈ tk.behind, tk.poolOf (tk.partOf 0) e.1 = false) ∧ tk.poolFlights (tk.partOf 0) = []) ∧
    (tk.canDrain tk.cur = true ∧ tk.monitors = [] ∧ tk.unreachable = [] ∧ tk.pool = [] ∧ Region.reset.st ≠ .lost) ∧
    (let x : Exact := Exact.ofDeposit 0x200100 0 0 0 1 .add 5;
      let s := tk.modCore 0 fun c => { c with partials := [(0x200100, x)] };
      (s.ag s.cur).sb = [] ∧ (s.core 0).partials = [(0x200100, x)] ∧ Store.find? s.exact 0x200100 = none) := by
  decide +kernel

/-- A dirty line at 0x20_0100. -/
def dirty : State := { tk with behind := [(0x200100 / 64, ⟨0, 0, 0x200100⟩)] }

/-- Pool region 0, LOST, with a stranded line; the page at 0x20_0000 maps to it. -/
def lostRegion : Region := ⟨2 ^ 28 * 2 ^ 22 + 1, 1, .lost, false, 0, 0, [(2 ^ 44, 7, 0, false)], []⟩
def pooled : State :=
  { tk with pool := [(0, lostRegion)], mem := putWord tk.mem 0x15008 (2 ^ 50 + 3) }

theorem witness_CacheOperationsActOnTheirLine :
    (dirty.access (dirty.accOf dirty.cur) .r 0x200100 = .ok (xl 0x200100) ∧ dirty.access (dirty.accOf dirty.cur) .w 0x200100 = .ok (xl 0x200100)) ∧
    (isDevice 0x200100 = false ∧ isPool 0x200100 = false ∧ (dirty.ag dirty.cur).sb = [] ∧ dirty.blocked dirty.cur (0x200100 / 64) = false ∧
      dirty.poolLost 0x200100 = false ∧ (Store.find? dirty.behind (0x200100 / 64)).isSome ∧ dirty.monitors = [] ∧ dirty.pool = [] ∧
      tk.behind = []) ∧
    (pooled.regionOf (2 ^ 50) = some 0 ∧ (pooled.region 0).st = .lost ∧
      Store.find? (pooled.region 0).stranded (2 ^ 50 / 64) = some (7, 0, false)) ∧
    pooled.access (pooled.accOf pooled.cur) .r 0x200000 = .ok (xl (2 ^ 50)) ∧
    pooled.access (pooled.accOf pooled.cur) .w 0x200000 = .ok (xl (2 ^ 50)) :=
  ⟨⟨ok_of (by decide +kernel), ok_of (by decide +kernel)⟩, by decide +kernel, by decide +kernel, ok_of (by decide +kernel),
    ok_of (by decide +kernel)⟩

theorem witness_SpecialRegistersReadAndWrite :
    ((put tk [(1, 6)]).rg 1).setWidth 3 = 6#3 ∧ (tk.cur.who = .thread ∧ canonical ((put tk [(1, 0x80000000000000)]).rg 1) = false) ∧
    ((put tk [(1, 5)]).rg 1).setWidth 3 = 5#3 ∧ (sp.cur.who = .sprig 0 ∧ ((put sp [(1, 1)]).rg 1).setWidth 3 = 1#3) ∧
    ((tk.cores.map fun e => e.1).Nodup ∧ ∀ e ∈ tk.cores, e.1 < 256) := by decide +kernel

/-! ### Synchronisation -/

theorem tk_holdsNone : HoldsNone tk := by unfold HoldsNone; decide +kernel

theorem witness_ReservationsAreTakenAndHandedOn :
    (put tk [(1, 0x2000F0)]).rg 1 + (0x10#14).signExtend 64 = 0x200100 ∧
    Performed tk ∧ SyncReady tk 0x200100 8 true false .plain true (xl 0x200100) ∧ HoldsNone tk ∧ LineFree tk (xl 0x200100) ∧
    Performed holding ∧ SyncReady holding 0x200100 8 false true .plain true (xl 0x200100) ∧
    SyncReady holding 0x200100 8 true false .plain true (xl 0x200100) ∧
    (Store.find? holding.res (0x200100 / 64) = some ⟨0, 0x200100 / 64, some holding.cur, true, 0, []⟩ ∧
      Store.get holding.sliceQ [] 0 = [] ∧ Unwatched holding 0x200100) ∧
    SyncReady tk 0x200100 8 false true .plain true (xl 0x200100) ∧ tk.holdsLrw tk.cur (0x200100 / 64) = false :=
  ⟨by decide +kernel, tk_performed, syncReady_of true false (by decide +kernel), tk_holdsNone, tk_free,
    performed_of (by decide +kernel), syncReady_of false true (by decide +kernel), syncReady_of true false (by decide +kernel),
    ⟨by decide +kernel, by decide +kernel, fun m hm => absurd hm (by decide +kernel +revert)⟩,
    syncReady_of false true (by decide +kernel), by decide +kernel⟩

theorem tk_unwatched (l : Nat) : Unwatched tk l := by
  have h : tk.monitors = [] := by decide +kernel
  intro m hm; simp [h] at hm

theorem witness_AtomicsReadAndWriteOnce :
    Performed tk ∧ SyncReady tk 0x200100 8 true true .plain true (xl 0x200100) ∧ HoldsNone tk ∧ LineFree tk (xl 0x200100) ∧
    Unwatched tk 0x200100 := ⟨tk_performed, tk_sync, tk_holdsNone, tk_free, tk_unwatched _⟩

/-- A parameter block at 0x20_0100 for the word at 0x20_0140, with a header, an expected and a new value. -/
def entry (header expected : Nat) : State :=
  { tk with mem := putWord (putWord (putWord (putWord tk.mem 0x200100 header) 0x200108 0x200140) 0x200110 expected) 0x200118 9 }

/-- A parameter block at 0x20_0100 of eight entries, for the words at 0x20_0400, 0x20_0440, …, that expects 0 of each. -/
def eight (header : Nat) : State :=
  { tk with
    mem := (List.range 8).foldl (fun m k => putWord (putWord m (0x200108 + 24 * k) (0x200400 + 64 * k)) (0x200118 + 24 * k) 9)
      (putWord tk.mem 0x200100 header) }

/-- Its first two entries name one word. -/
def twice : State := { eight 8 with mem := putWord (eight 8).mem (0x200108 + 24) 0x200400 }

theorem eight_block : ∀ s ∈ [eight 8, eight 0x10008, { eight 8 with mem := putWord (eight 8).mem 0x2005C0 1 }, twice],
    ∀ k < 25, SyncReady s (0x200100 + BitVec.ofNat 64 (8 * k)) 8 true true .plain true (xl (0x200100 + 8 * k)) ∧
      s.blocked s.cur ((xl (0x200100 + 8 * k)).loc / 64) = false := by
  have h : ([eight 8, eight 0x10008, { eight 8 with mem := putWord (eight 8).mem 0x2005C0 1 }, twice].all fun s => (List.range 25).all fun k =>
      syncB s (0x200100 + BitVec.ofNat 64 (8 * k)) 8 .plain true (xl (0x200100 + 8 * k)) true &&
        !s.blocked s.cur ((xl (0x200100 + 8 * k)).loc / 64)) = true := by decide +kernel
  simp only [List.all_eq_true, List.mem_range, Bool.and_eq_true, Bool.not_eq_true'] at h
  exact fun s hs k hk => ⟨syncReady_of true true (h s hs k hk).1, (h s hs k hk).2⟩

theorem eight_words : ∀ k < 8, SyncReady (eight 8) (BitVec.ofNat 64 ((eight 8).rdN (0x200108 + 24 * k) 8)) 8 true true .plain false
      (xl (0x200400 + 64 * k)) ∧ LineFree (eight 8) (xl (0x200400 + 64 * k)) := by
  have h : ((List.range 8).all fun k => syncB (eight 8) (BitVec.ofNat 64 ((eight 8).rdN (0x200108 + 24 * k) 8)) 8 .plain false
      (xl (0x200400 + 64 * k)) true && lineFreeB (eight 8) (xl (0x200400 + 64 * k))) = true := by decide +kernel
  simp only [List.all_eq_true, List.mem_range, Bool.and_eq_true] at h
  exact fun k hk => ⟨syncReady_of true true (h k hk).1, lineFree_of (h k hk).2⟩

theorem witness_MultiWordCompareAndSwapIsAllOrNothing :
    (Performed (eight 8) ∧ HoldsNone (eight 8) ∧ (eight 8).monitors = [] ∧ ((eight 8).ag tk.cur).mcas = none ∧ (eight 8).slotsUsed 0 + 8 ≤ 128) ∧
    (∀ k < 25, SyncReady (eight 8) (0x200100 + BitVec.ofNat 64 (8 * k)) 8 true true .plain true (xl (0x200100 + 8 * k)) ∧
      (eight 8).blocked (eight 8).cur ((xl (0x200100 + 8 * k)).loc / 64) = false) ∧
    (∀ k < 8, SyncReady (eight 8) (BitVec.ofNat 64 ((eight 8).rdN (0x200108 + 24 * k) 8)) 8 true true .plain false
      (xl (0x200400 + 64 * k)) ∧ LineFree (eight 8) (xl (0x200400 + 64 * k))) ∧
    (∀ k < 8, (eight 8).rdN (0x200400 + 64 * k) 8 = (eight 8).rdN (0x200110 + 24 * k) 8) ∧
    (twice.rdN 0x200108 8 = twice.rdN (0x200108 + 24) 8 ∧ twice.rdN 0x200100 8 = 8) :=
  ⟨⟨performed_of (by decide +kernel), by unfold HoldsNone; decide +kernel, by decide +kernel, by decide +kernel, by decide +kernel⟩,
    eight_block _ (by simp), eight_words, by decide +kernel, by decide +kernel⟩

theorem witness_MultiWordCompareAndSwapOfOneEntry :
    Performed (entry 1 0) ∧ HoldsNone (entry 1 0) ∧ ((entry 1 0).monitors = [] ∧ ((entry 1 0).ag tk.cur).mcas = none) ∧
    (∀ k < 4, SyncReady (entry 1 0) (0x200100 + BitVec.ofNat 64 (8 * k)) 8 true true .plain true
      { xl 0x200100 with loc := 0x200100 + 8 * k }) ∧
    (let w := BitVec.ofNat 64 ((entry 1 0).rdN 0x200100 8);
      bits w 63 17 = 0 ∧ bits w 15 10 = 0 ∧ bits w 9 8 = Scope.die.code.toNat ∧ bits w 7 0 = 1) ∧
    SyncReady (entry 1 0) (BitVec.ofNat 64 ((entry 1 0).rdN 0x200108 8)) 8 true true .plain false (xl 0x200140) ∧
    LineFree (entry 1 0) (xl 0x200140) ∧
    (entry 1 0).rdN 0x200140 8 = (entry 1 0).rdN 0x200110 8 ∧ (entry 1 5).rdN 0x200140 8 ≠ (entry 1 5).rdN 0x200110 8 ∧
    (BitVec.ofNat 64 ((entry 0x10001 5).rdN 0x200100 8)).getLsbD 16 = true ∧
    (entry 1 5).access ((entry 1 5).accOf tk.cur) .w 0x200110 = .ok (xl 0x200110) ∧
    bits (BitVec.ofNat 64 ((entry 9 0).rdN 0x200100 8)) 3 0 = 9 :=
  ⟨performed_of (by decide +kernel), by unfold HoldsNone; decide +kernel, by decide +kernel, fun k hk => by
    interval_cases k <;> exact syncReady_of true true (by decide +kernel), by decide +kernel, syncReady_of true true (by decide +kernel),
    lineFree_of (by decide +kernel), by decide +kernel, by decide +kernel, by decide +kernel, ok_of (by decide +kernel), by decide +kernel⟩

theorem witness_TaggedWordsFillAndEmpty :
    Performed tagged ∧ HoldsNone tagged ∧ Unwatched tagged 0x200100 ∧ tagged.blocked tagged.cur (0x200100 / 64) = false ∧
    SyncReady tagged 0x200100 8 true true .tagged false xt ∧ tagged.allowed (tagged.accOf tagged.cur) .w 0x200100 = .ok true ∧
    tagged.access (tagged.accOf tagged.cur) .w 0x200100 = .ok xt ∧ tagged.tagAt 0x200100 = ⟨[], []⟩ ∧ tagged.fullAt 0x200100 = false ∧
    ({ tagged with fullBits := [(0x200100 / 8, true)] } : State).fullAt 0x200100 = true ∧ tagged.arrived tagged.cur = false ∧
    (∀ y ∈ [(⟨⟨1, .thread⟩, 0x200100, true, 5, 0⟩ : TagWaiter), ⟨⟨255, .sprig 63⟩, 0x200100, false, 0, 7⟩], y.who.core ≠ tagged.cur.core ∧
      ({ tagged with tagQ := [(0x200100, ⟨[y], []⟩)] } : State).tagAt 0x200100 = ⟨[y], []⟩ ∧
      ({ tagged with tagQ := [(0x200100, ⟨[], [y]⟩)] } : State).tagAt 0x200100 = ⟨[], [y]⟩) :=
  ⟨performed_of (by decide +kernel), by unfold HoldsNone; decide +kernel, fun m hm => absurd hm (by
    have h : tagged.monitors = [] := by decide +kernel
    simp [h]), by decide +kernel, tagged_sync, ok_of (by decide +kernel), ok_of (by decide +kernel), by decide +kernel, by decide +kernel,
    by decide +kernel, by decide +kernel, by decide +kernel⟩

theorem witness_MonitorsAndDeposits :
    Performed tk ∧ HoldsNone tk ∧ tk.blocked tk.cur (0x200100 / 64) = false ∧
    SyncReady tk 0x200100 8 true false .plain true (xl 0x200100) ∧ tk.arrived tk.cur = false ∧
    (BitVec.ofNat 64 (tk.rdN 0x200100 8) = tk.rg 0 ∧ BitVec.ofNat 64 (tk.rdN 0x200100 8) ≠ (put tk [(3, 1)]).rg 3) ∧
    (crfSize 1 = 8 ∧ Performed ranged ∧ SyncReady ranged 0x200100 8 false true .range false { xl 0x200100 with crf := 1 } ∧
      ranged.translate ranged.cur 0x200100 = .ok { xl 0x200100 with crf := 1 } ∧ ranged.credMustFold 0 0x200100 .add = false) :=
  ⟨tk_performed, tk_holdsNone, by decide +kernel, syncReady_of true false (by decide +kernel), by decide +kernel, by decide +kernel,
    by decide, performed_of (by decide +kernel), syncReady_of false true (by decide +kernel), ok_of (by decide +kernel), by decide +kernel⟩

/-- The thread of core 4 waits for the word at 0x20_0100, whose eight bytes core 0 has in its buffer or in a register. -/
def waking (c : Nat) (sb : List SbEntry) : State :=
  { tk.modAg ⟨4 - c, .thread⟩ fun g => { g with sb := sb } with monitors := [⟨⟨c, .thread⟩, 0x200100, 0x200100, 0, 3⟩] }

theorem witness_WaitneIsCompleted :
    (∀ v, (waking 0 [eightBytes 0x200100 v]).monitors = [⟨⟨0, .thread⟩, 0x200100, 0x200100, 0, 3⟩] ∧ (eightBytes 0x200100 v).lines =
      [⟨false, false, 0x200100 / 64, (List.range 8).map fun k => (0x200100 + k, BitVec.ofNat 8 (v.toNat / 256 ^ k)), false⟩]) ∧
    ((waking 0 [eightBytes 0x200100 5]).ueAt 0x200100 8 = false ∧ ((waking 0 [eightBytes 0x200100 5]).ag ⟨4, .thread⟩).sb = [eightBytes 0x200100 5] ∧
      (∀ l ∈ (eightBytes 0x200100 5).lines, (waking 0 [eightBytes 0x200100 5]).lineFree ⟨4, .thread⟩ l = true) ∧
      (waking 0 [eightBytes 0x200100 5]).cutOff 0x200100 = false ∧ (waking 0 [eightBytes 0x200100 5]).poolLost 0x200100 = false) ∧
    Performed (waking 4 []) ∧ HoldsNone (waking 4 []) ∧ SyncReady (waking 4 []) 0x200100 8 true true .plain true (xl 0x200100) ∧
    LineFree (waking 4 []) (xl 0x200100) :=
  ⟨fun _ => ⟨rfl, rfl⟩, by decide +kernel, performed_of (by decide +kernel), by unfold HoldsNone; decide +kernel,
    syncReady_of true true (by decide +kernel), lineFree_of (by decide +kernel)⟩

/-- Semaphore 3 of vat 0, for which core 1's thread waits with 4 where the last argument says so. -/
def counting (n : BitVec 32) (q : List (SemWho × BitVec 32)) : State := put (tk.setSem 0 3 ⟨n, false, q⟩) [(5, 4)]

theorem witness_SemaphoresCount :
    (0xFFFFFFFF : Nat) < ((put tk [(5, 0x100000000)]).rg 5).toNat ∧ Performed (counting 4 []) ∧ HoldsNone (counting 4 []) ∧
    (((counting 4 []).rg 5).toNat ≤ ((counting 4 []).sem 0 3).count.toNat ∧ ((counting 4 []).sem 0 3).queue = []) ∧
    ((counting 3 []).sem 0 3).count.toNat < ((counting 3 []).rg 5).toNat ∧
    ((counting 0xFFFFFFFF []).sem 0 3).count.toNat + 4 > 0xFFFFFFFF ∧
    ((counting 0 [(.agent ⟨1, .thread⟩, 4)]).sem 0 3).queue = [(.agent ⟨1, .thread⟩, 4)] :=
  ⟨by decide +kernel, performed_of (by decide +kernel), by unfold HoldsNone; decide +kernel, by decide +kernel, by decide +kernel,
    by decide +kernel, by decide +kernel⟩

/-- Cores 0 to `n` - 1 enabled for level 0. -/
def grouped (n : Nat) : State := (List.range n).foldl (fun s q => s.modPriv q fun p => { p with barcfg := 1 }) tk

theorem witness_BarriersCompleteTogether :
    (tk.priv 0).barcfg.getLsbD 0 = false ∧ ((grouped 1).priv 0).barcfg.getLsbD 0 = true ∧
    ((grouped 2).cores.map fun e => e.1).Nodup ∧ (∀ r ∈ (grouped 1).arrivals, r.core ≠ 0) ∧ Performed (grouped 1) ∧ HoldsNone (grouped 1) ∧ (grouped 1).groupOf 0 0 = [0] ∧
    (grouped 2).groupOf 0 0 = [0, 1] :=
  ⟨by decide +kernel, by decide +kernel, by decide +kernel, by decide +kernel, performed_of (by decide +kernel),
    by unfold HoldsNone; decide +kernel, by decide +kernel, by decide +kernel⟩

/-- An agent of core 0 that has waited since 0 with a limit of 10. -/
def waiting (a : AgentId) (now : Nat) : State := { tk.modAg a fun g => { g with wait := some ⟨0, 10, 7, .served, []⟩ } with time := now }

theorem witness_LimitsEndWaitsAndHolds :
    (∀ a ∈ [(⟨0, .thread⟩ : AgentId), ⟨0, .sprig 3⟩], ((waiting a 10).ag a).wait = some ⟨0, 10, 7, .served, []⟩ ∧ 0 + 10 ≤ (waiting a 10).time ∧
      (waiting a 10).granted a ⟨0, 10, 7, .served, []⟩ = false ∧ ((waiting a 10).core 0).til.queue = [] ∧ ((waiting a 10).ag a).sb = [] ∧
      ((waiting a 10).priv 0).status.nest = false ∧ (waiting a 9).time < 0 + 10) ∧
    (sp.setLink 0 0 7 (some 5)).granted ⟨0, .sprig 0⟩ ⟨0, 10, 7, .link 7, []⟩ = true ∧
    holding.res = [(0x200100 / 64, ⟨0, 0x200100 / 64, some ⟨0, .thread⟩, true, 0, []⟩)] ∧ holding.sliceQ = [] := by decide +kernel

/-! ### Vector instructions -/

theorem claimed_of {s : State} {regs : List (BitVec 6)} (h : (regs.all fun r => decide (r.toNat < (s.core s.cur.core).arr.r)) = true) :
    Claimed s regs := by simpa [Claimed, List.all_eq_true] using h

theorem sp_claimed : Claimed sp [7, 7, 7, 7] := claimed_of (by decide +kernel)

theorem witness_IntegerVectorElements : sp.cur.who = .sprig 0 ∧ Claimed sp [7, 0, 1] ∧ (⟨.b8, true, 1⟩ : VHdr).et.isInt = true :=
  ⟨by decide +kernel, claimed_of (by decide +kernel), by decide⟩

theorem witness_FloatVectorElements : sp.cur.who = .sprig 0 ∧ Claimed sp [7, 0, 1, 2] ∧ (⟨.f16, false, 0⟩ : VHdr).et.isFloat = true :=
  ⟨by decide +kernel, claimed_of (by decide +kernel), by decide⟩

theorem witness_SpecialFunctionsAndRandomRounding :
    (finiteF .f16 0x3C00 ∧ valueF .f16 0x3C00 = 1) ∧ (IsSpecial .rcp 1 1 ∧ IsSpecial .rsq 1 1 ∧ IsSpecial .exp2 1 2 ∧ IsSpecial .log2 1 0) ∧
    ((∃ n : ℤ, (1 : ℝ) = n) ∧ (∃ n : ℤ, (0 : ℝ) = n)) ∧ RoundsTo .f16 .rne false false 0 (withSign .f16 false 0, 0) ∧
    (nanF .f16 0x7D00 = true ∧ sigF .f16 0x7D00 = true ∧ nanF .f16 0x8000 = false ∧ valueF .f16 0x8000 = 0 ∧ infF .bf16 0x7F80 = true ∧
      signF .bf16 0x7F80 = false ∧ valueF .f16 0xBC00 < 0) ∧
    (finiteF .f16 0x3C00 ∧ valueF .f16 0x3C00 = valueF .e4m3 0x38 ∧ (0xFFFF : Nat) < 2 ^ 16) ∧
    (infF .f16 0x7C00 = true ∧ valueF .f16 0 = 0 ∧ finiteF .f16 0x3C00 ∧ infF .f32 0xFF800000 = true ∧ signF .f32 0xFF800000 = true) := by
  refine ⟨by unfold finiteF; decide +kernel, ⟨by norm_num [IsSpecial], by norm_num [IsSpecial], by norm_num [IsSpecial], by norm_num [IsSpecial]⟩,
    ⟨⟨1, by norm_num⟩, ⟨0, by norm_num⟩⟩, ⟨fun _ => rfl, fun _ h => absurd rfl h⟩, by decide +kernel, by unfold finiteF; decide +kernel,
    by unfold finiteF; decide +kernel⟩

theorem witness_VectorMovesPlaceElements : sp.cur.who = .sprig 0 ∧ Claimed sp [0, 7, 1] := ⟨by decide +kernel, claimed_of (by decide +kernel)⟩

theorem witness_PredicateResults : sp.cur.who = .sprig 0 ∧ Claimed sp [7, 0] := ⟨by decide +kernel, claimed_of (by decide +kernel)⟩

theorem witness_ReductionsCombineActiveElements : sp.cur.who = .sprig 0 ∧ Claimed sp [7, 0] ∧ (⟨.b64, false, 0⟩ : VHdr).et.isInt = true :=
  ⟨by decide +kernel, claimed_of (by decide +kernel), by decide⟩

/-- Sprig 0 with the address 0x20_0100 in g1 and the offsets 0, 8, … 56 in v1. -/
def gathering : State := (put sp [(1, 0x200100)]).setV 0 0 1 (BitVec.ofNat 512 (sumNat ((List.range 8).map fun e => 8 * e * 2 ^ (64 * e))))

theorem witness_VectorLoadsAndStoresReachEachElement :
    gathering.cur.who = .sprig 0 ∧ Claimed gathering [0, 1] ∧ (0x200100 % 64 = 0 ∧ (gathering.getK 0 0 0).getLsbD 7 = true) ∧
    (∀ e < 8, gathering.rg 1 + (0#16).signExtend 64 + BitVec.ofNat 64 (e * 8) = BitVec.ofNat 64 (0x200100 + 8 * e) ∧
      gathering.rg 1 + (sextN (elem (gathering.getV 0 0 1) 64 e) 64 <<< (0#2).toNat) = BitVec.ofNat 64 (0x200100 + 8 * e)) ∧
    (∀ e < 8, Readable gathering gathering.cur (BitVec.ofNat 64 (0x200100 + 8 * e)) 8 (xl (0x200100 + 8 * e)) ∧
      Ready gathering gathering.cur .w (BitVec.ofNat 64 (0x200100 + 8 * e)) (xl (0x200100 + 8 * e))) ∧
    (∀ e < 8, ∀ e' < 8, e ≠ e' → (xl (0x200100 + 8 * e)).loc + 8 ≤ (xl (0x200100 + 8 * e')).loc ∨
      (xl (0x200100 + 8 * e')).loc + 8 ≤ (xl (0x200100 + 8 * e)).loc) :=
  ⟨by decide +kernel, claimed_of (by decide +kernel), by decide +kernel, by decide +kernel, fun e he => by
    interval_cases e <;> exact ⟨readable_of (by decide +kernel), ready_of (by decide +kernel)⟩, fun e he e' he' h => by
    simp only [xl]; omega⟩

/-- Accumulator 3 of core 0 is lent to sprig 0. -/
def borrowed : State := sp.setLent 0 3 1

theorem witness_LentRowsAndClaimedRegisters :
    (borrowed.cur.who = .sprig 0 ∧ (4#6).toNat % 4 = 0 ∧ (4#6).toNat + 3 < (borrowed.core 0).arr.r ∧
      (borrowed.lentSet 0 3).getLsbD 0 = true ∧ ((put borrowed [(1, 0)]).rg 1 + (31#5).setWidth 64).toNat < 32) ∧
    (sp.lentSet 0 3).getLsbD 0 = false ∧ tk.cur.who = .thread ∧ (sp.cur.who ≠ .thread ∧ (sp.core 0).arr.r ≤ (5#6).toNat + 3 ∧ ¬Claimed sp [8, 0, 1]) ∧
    ((64 + 7) / 8 * 32 ≤ 256 ∧ poolKey 63 32 31 = poolKey 63 32 31) := by
  refine ⟨by decide +kernel, by decide +kernel, by decide +kernel, ⟨by decide +kernel, by decide +kernel, fun h => ?_⟩, by decide +kernel⟩
  have h8 : ¬(8#6).toNat < (sp.core sp.cur.core).arr.r := by decide +kernel
  exact h8 (h 8 (by simp))

/-! ### Sprigs -/

theorem find?_all {α : Type} (f : α → Bool) (m : Store α) (i : Nat) (x : α) (h : m.all (fun e => f e.2) = true)
    (hi : Store.find? m i = some x) : f x = true := by
  induction m with
  | nil => simp [Store.find?] at hi
  | cons e m ih =>
    obtain ⟨k, v⟩ := e
    simp only [List.all_cons, Bool.and_eq_true] at h
    simp only [Store.find?] at hi
    split at hi
    · cases hi; exact h.1
    · exact ih h.2 hi

theorem getD_all {α : Type} (f : α → Bool) (m : Store α) (i : Nat) (d : α) (h : m.all (fun e => f e.2) = true) (hd : f d = true) :
    f ((Store.find? m i).getD d) = true := by
  cases hi : Store.find? m i with
  | none => simpa using hd
  | some x => simpa using find?_all f m i x h hi

theorem reset_no_sprigs : CoreSt.reset.arr.sprigs = [] := rfl

theorem noStores_of {s : State} (h : (s.cores.all fun c => c.2.thr.ag.sb.isEmpty && c.2.arr.sprigs.all fun p => p.2.ag.sb.isEmpty) = true) :
    NoStores s := by
  intro a
  have hc := getD_all (fun c : CoreSt => c.thr.ag.sb.isEmpty && c.arr.sprigs.all fun p => p.2.ag.sb.isEmpty) s.cores a.core
    CoreSt.reset h (by rw [reset_no_sprigs]; rfl)
  simp only [Bool.and_eq_true, List.isEmpty_iff] at hc
  cases hw : a.who with
  | thread => simpa [State.ag, hw, State.thr, State.core] using hc.1
  | sprig i =>
    have := getD_all (fun p : Sprig => p.ag.sb.isEmpty) _ i Sprig.reset hc.2 rfl
    simpa [State.ag, hw, State.sprig, State.core, List.isEmpty_iff] using this

theorem noQueues_of {s : State} (h : (s.res.isEmpty && s.sliceQ.isEmpty && s.vats.all fun v => v.2.sems.isEmpty) = true) : NoQueues s := by
  simp only [Bool.and_eq_true, List.isEmpty_iff] at h
  refine ⟨h.1.1, h.1.2, fun v => ?_⟩
  have := getD_all (fun v : Vat => v.sems.isEmpty) s.vats v Vat.reset h.2 rfl
  simpa [State.vat, List.isEmpty_iff] using this

theorem tk_noStores : NoStores tk := noStores_of (by decide +kernel)
theorem tk_noQueues : NoQueues tk := noQueues_of (by decide +kernel)

/-- Sprig `i` of core 0 with a state and a queue. -/
def sprigAs (s : State) (i : Nat) (st : SprigSt) (q : List Block) : State := s.modSprig 0 i fun p => { p with st := st, queue := q }

/-- The thread, whose core has one sprig. -/
def ta : State := tk.modCore 0 fun c => { c with arr := { c.arr with n := 1, r := 8 } }

theorem ta_noStores : NoStores ta := noStores_of (by decide +kernel)
theorem ta_noQueues : NoQueues ta := noQueues_of (by decide +kernel)

theorem witness_SprigsAreConfiguredReadAndWritten :
    ta.cur.who = .thread ∧
    (let n := ((put ta [(1, 64), (2, 32)]).rg 1).toNat; let r := ((put ta [(1, 64), (2, 32)]).rg 2).toNat
      1 ≤ n ∧ n ≤ 64 ∧ 8 ≤ r ∧ r ≤ 64 ∧ r % 8 = 0 ∧ (n + 7) / 8 * r ≤ 256) ∧
    (∀ i < (ta.core 0).arr.n, ta.sprigDone 0 i = true) ∧
    (∃ i < ((sprigAs ta 0 .running []).core 0).arr.n, (sprigAs ta 0 .running []).sprigDone 0 i = false) ∧
    (ta.ag ta.cur).wait = none ∧ (ta.priv 0).status.nest = false ∧ (ta.rg 1).toNat < 1 ∧ 64 < ((put ta [(1, 65)]).rg 1).toNat ∧
    ¬(64 + 7) / 8 * 40 ≤ 256 ∧ (ta.rg 1).toNat < (ta.core 0).arr.n ∧ (ta.sprig 0 0).st = .idle ∧
    ((sprigAs ta 0 .waiting []).sprig 0 0).st = .waiting ∧ ((sprigAs ta 0 .idle [⟨0, 0⟩, ⟨0, 0⟩, ⟨0, 0⟩, ⟨0, 0⟩]).sprig 0 0).queue.length ≤ 4 ∧
    (ta.core 0).arr.n ≤ ((put ta [(1, 64)]).rg 1).toNat := by
  refine ⟨by decide +kernel, by decide +kernel, by decide +kernel, ⟨0, by decide +kernel, by decide +kernel⟩, ?_⟩
  decide +kernel

/-- The thread names block 0xFFC0 and sprig 0. -/
def naming (s : State) : State := put s [(1, 0xFFC0), (2, 1)]

theorem witness_BlocksRunFromStartToStop :
    (ta.cur.who = .thread ∧ ((naming ta).rg 1).toNat ≤ 0xFFFF ∧ ((naming ta).rg 1).toNat % 64 = 0 ∧ ta.binding 0 ≠ 3 ∧
      ((naming ta).ag ta.cur).sb = [] ∧ (∀ j < ((naming ta).core 0).arr.n, ((naming ta).sprig 0 j).queue.length ≠ 4) ∧
      ((naming ta).rg 2 &&& BitVec.ofNat 64 (2 ^ ((naming ta).core 0).arr.n - 1)).getLsbD 0 = true ∧
      (ta.priv 0).status.shold = false ∧ ta.blockOwned 0 (0xFFC0 / 64) = false ∧ (ta.sprig 0 0).st = .idle ∧ (ta.sprig 0 0).queue = []) ∧
    ((sprigAs ta 0 .faulted []).sprig 0 0).st = .faulted ∧ ((sprigAs ta 0 .running [⟨0, 0⟩]).sprig 0 0).st = .running ∧
    ((ta.modStatus 0 fun st => { st with shold := true }).priv 0).status.shold = true ∧
    (∀ j < (ta.core 0).arr.n, ta.sprigDone 0 j = true) ∧ (sprigAs ta 0 .running []).sprigDone 0 0 = false ∧
    ((ta.modCore 0 fun c => { c with partials := [(0x200100, deposit)] }).core 0).partials = [(0x200100, deposit)] ∧ ta.exact = [] ∧
    NoQueues ta ∧ NoStores ta ∧ (sp.cur.who = .sprig 0 ∧ (sp.ag sp.cur).sb = [] ∧ (sp.sprig 0 0).queue = []) ∧
    ((put sp [(1, 0xFFC2)]).rg 1).toNat ≤ 0xFFFF ∧ isHeadAddr 0xFFC2 = true ∧ isHeadAddr 0xFFC0 = false ∧
    0xFFFF < ((put sp [(1, 0x10000)]).rg 1).toNat ∧
    ((sprigAs sp 0 .running [⟨0x40, 0⟩]).sprig 0 0).queue = [⟨0x40, 0⟩] ∧
    ((sp.modThr 0 fun t => { t with run := .idle 0 }).thr 0).run = .idle 0 ∧ (sp.core 0).claimed = false ∧ (sp.sprig 0 0).st = .running ∧
    (sp.dutyOk 0 = true ∧ sp.coreDead 0 = false ∧ sp.parks = [] ∧ ({ sp with time := 15 }.modPriv 0 fun p => { p with duty := { p.duty with
      cap := 1 } }).dutyOk 0 = false) := by
  refine ⟨by decide +kernel, by decide +kernel, by decide +kernel, by decide +kernel, by decide +kernel, by decide +kernel,
    by decide +kernel, by decide +kernel, ta_noQueues, ta_noStores, ?_⟩
  decide +kernel

/-- Sprigs 0 and 1, of which sprig 0 sends to its neighbour. -/
def two : State := sp.modCore 0 fun c => { c with arr := { c.arr with n := 2 } }

theorem witness_LinksCarryVectorRegisters :
    (two.cur.who = .sprig 0 ∧ (7#6).toNat < (two.core 0).arr.r ∧ (1#6) ≠ 0 ∧ -7 ≤ (1#6).toInt ∧ (1#6).toInt ≤ 7 ∧
      (1 : Int) = (0 : Nat) + (1#6).toInt ∧ 1 < (two.core 0).arr.n) ∧
    ((two.sprig 0 1).full.getLsbD 6 = false ∧ (two.ag two.cur).sb = [] ∧ (two.sprig 0 0).full.getLsbD 7 = false ∧
      (two.ag two.cur).wait = none) ∧
    ((two.setLink 0 1 6 (some 5)).sprig 0 1).full.getLsbD 6 = true ∧ ((two.setLink 0 0 7 (some 5)).sprig 0 0).full.getLsbD 7 = true ∧
    ((0 : Nat) : Int) + (0x3F#6).toInt < 0 ∧ ((two.core 0).arr.n : Int) ≤ (0 : Nat) + (7#6).toInt ∧
    -7 ≤ (0x39#6).toInt := by decide +kernel

/-! ### Tiles and the copy engine -/

/-- The thread's core with a tile queue. -/
def queued (s : State) (l : List TileCmd) : State := s.modCore 0 fun c => { c with til := { c.til with queue := l } }

/-- A command of the thread, not started. -/
def command (i : Instr) : TileCmd := ⟨0x200002, i, 0, 0, 1, none, none, [], []⟩

/-- What it holds once it started in `s`. -/
def begun (s : State) (i : Instr) : TileCmd :=
  let r := s.tileOutcome 0 (command i) true
  { command i with held := some r.2.1, reads := r.2.2 }

/-- A press of whose pool no tile is left. -/
def drained : State := tk.modVat 0 fun v => { v with press0 := { v.press0 with zfree := [], cfree := [] } }

/-- Position 0 of the vat is bound to no press. -/
def unbound : State := tk.modVat 0 fun v => { v with pressbind := 0x53 }

theorem witness_TileCommandsQueueAndRetire :
    (tk.cur.who = .thread ∧ tk.binding 0 ≠ 3 ∧
      ((queued tk (List.replicate 15 (command .tsync))).core 0).til.queue.length < 16 ∧
      (∀ o ∈ ((queued tk (List.replicate 15 (command .tsync))).core 0).til.queue, o.held = none)) ∧
    ((tk.renameFor 0 (.tzero 3)).isSome = true ∧ (tk.renameFor 0 .tsync).isSome = true ∧ (drained.renameFor 0 (.tzero 3)).isNone = true ∧
      (drained.press 0 0).zfree = [] ∧ (drained.press 0 0).cfree = [] ∧ (tk.press 0 0).zfree.isEmpty = false ∧
      (tk.press 0 0).cfree.isEmpty = false) ∧
    (unbound.binding 0 = 3 ∧ (unbound.core 0).til.queue = [] ∧ (unbound.priv 0).status.nest = false) ∧
    (∀ i ∈ [Instr.tzero 3, .tmma .b8 true false 0 1 2, .tmmax .e4m3 1 0 7, .tmmas false .f16 false false 2 0 6 5, .tcvt .f16 .dyn false false 7 3,
      .ttrans .b8 3 4, .tsync], (command i).instr = i ∧ ((queued tk [begun tk i]).core 0).til.queue =
        { command i with held := some (tk.tileOutcome 0 (command i) true).2.1, reads := (tk.tileOutcome 0 (command i) true).2.2 } :: [] ∧ ((queued tk [begun tk i]).thr 0).ag.sb = []) :=
  ⟨by decide +kernel, by decide +kernel, by decide +kernel, fun _ _ => ⟨rfl, rfl, by rfl⟩⟩

theorem reach_of {s : State} {a : AgentId} {rt : Right} {es : List (Word × Nat)}
    (h : (isOk (s.checkAll (s.accOf a) rt es) () && es.all fun e => (List.range e.2).all fun j =>
      isOk (s.access (s.accOf a) rt (e.1 + BitVec.ofNat 64 j)) (xl (e.1 + BitVec.ofNat 64 j).toNat) &&
        !isDevice (e.1 + BitVec.ofNat 64 j).toNat) = true) :
    s.checkAll (s.accOf a) rt es = .ok () ∧ ∀ e ∈ es, ∀ j < e.2,
      s.access (s.accOf a) rt (e.1 + BitVec.ofNat 64 j) = .ok (xl (e.1 + BitVec.ofNat 64 j).toNat) ∧
        isDevice (xl (e.1 + BitVec.ofNat 64 j).toNat).loc = false := by
  simp only [Bool.and_eq_true, List.all_eq_true, List.mem_range, Bool.not_eq_true'] at h
  exact ⟨ok_of h.1, fun e he j hj => ⟨ok_of (h.2 e he j hj).1, (h.2 e he j hj).2⟩⟩

/-- A descriptor of one row of `n` elements at an address, that may be read and written. -/
def rowAt (b n etype : Nat) (scaled : Bool) (dom : Nat) : BitVec 512 :=
  BitVec.ofNat 512 (b + n * 2 ^ 64 + 2 ^ 96 + 2 ^ 128 + 2 ^ 160 +
    (7 + (if scaled then 8 else 0) + 16 * etype + 256 * dom) * 2 ^ 384)

/-- The same at 0x20_0100. -/
def row (n etype : Nat) (scaled : Bool) (dom : Nat) : BitVec 512 := rowAt 0x200100 n etype scaled dom

/-- A descriptor table at 0x40_0000 with its last entry. -/
def tabled (s : State) (d : BitVec 512) : State :=
  { (s.modPart 0 fun p => { p with descbase := 0x400001 }) with
    mem := Memory.writeCells s.mem (cellsOfBytes (0x400000 + 64 * 65535) (leBytes 64 d.toNat)) }

/-- A command that has started, with the table. -/
def described (d : BitVec 512) (i : Instr) : State := tabled (queued tk [begun tk i]) d

/-- A load of one row of a z register. -/
def loading : Instr := .tld false .f64 7 0xFFFF 0 0

/-- Memory reads as it is mapped. -/
def xw (w : Word) : Xl := xl w.toNat

theorem witness_TileLoadsAndStoresThroughDescriptors :
    (∀ (s : State) (i : Instr), ((queued s [begun s i]).core 0).til.queue =
        { command i with held := some (s.tileOutcome 0 (command i) true).2.1, reads := (s.tileOutcome 0 (command i) true).2.2 } :: [] ∧
      cornerOf 0 0 = ⟨0, 0, 0, 0⟩) ∧
    (let s := described (row 1 7 false 0) (.tld false .f64 7 0xFFFF 0 0);
      s.tileDesc 0 0xFFFF true false false .f64 0 = .ok (row 1 7 false 0) ∧
      s.checkAll (s.accOf ⟨0, .thread⟩) .r (tileAccesses (row 1 7 false 0) ⟨0, 0, 0, 0⟩ .f64 false (rowK .f64)) = .ok () ∧
      ∀ e ∈ tileAccesses (row 1 7 false 0) ⟨0, 0, 0, 0⟩ .f64 false (rowK .f64), ∀ j < e.2,
        s.access (s.accOf ⟨0, .thread⟩) .r (e.1 + BitVec.ofNat 64 j) = .ok (xw (e.1 + BitVec.ofNat 64 j)) ∧
          isDevice (xw (e.1 + BitVec.ofNat 64 j)).loc = false) ∧
    (let s := described (row 32 8 true 0) (.tld true .e4m3 7 0xFFFF 0 0);
      s.tileDesc 0 0xFFFF true false true .e4m3 0 = .ok (row 32 8 true 0) ∧
      tileAccesses (row 32 8 true 0) ⟨0, 1, 0, 0⟩ .e4m3 true (rowK .e4m3) = []) ∧
    (let s := described (row 1 7 false 0) (.tldc .f64 3 0xFFFF 0 0);
      s.tileDesc 0 0xFFFF false false false .f64 0 = .ok (row 1 7 false 0) ∧
      s.checkAll (s.accOf ⟨0, .thread⟩) .r (tileAccesses (row 1 7 false 0) ⟨0, 0, 0, 0⟩ .f64 false 32) = .ok () ∧
      ∀ e ∈ tileAccesses (row 1 7 false 0) ⟨0, 0, 0, 0⟩ .f64 false 32, ∀ j < e.2,
        s.access (s.accOf ⟨0, .thread⟩) .r (e.1 + BitVec.ofNat 64 j) = .ok (xw (e.1 + BitVec.ofNat 64 j)) ∧
          isDevice (xw (e.1 + BitVec.ofNat 64 j)).loc = false) ∧
    (let s := described (row 1 7 false 0) (.tstc .f64 3 0xFFFF 0 0);
      s.tileDesc 0 0xFFFF false true false .f64 0 = .ok (row 1 7 false 0) ∧ s.tileDesc 0 0xFFFF true true false .f64 0 = .ok (row 1 7 false 0) ∧
      (s.checkAll (s.accOf ⟨0, .thread⟩) .w (tileAccesses (row 1 7 false 0) ⟨0, 0, 0, 0⟩ .f64 false 32) = .ok () ∧
      ∀ e ∈ tileAccesses (row 1 7 false 0) ⟨0, 0, 0, 0⟩ .f64 false 32, ∀ j < e.2,
        s.access (s.accOf ⟨0, .thread⟩) .w (e.1 + BitVec.ofNat 64 j) = .ok (xw (e.1 + BitVec.ofNat 64 j)) ∧
          isDevice (xw (e.1 + BitVec.ofNat 64 j)).loc = false) ∧
      ((tileStores (row 1 7 false 0) ⟨0, 0, 0, 0⟩ .f64 32 (cElem (s.creg 0 3))).flatMap fun w =>
        (List.range w.2.length).map fun j => (xw (w.1 + BitVec.ofNat 64 j)).loc).Nodup ∧
      ∀ w ∈ tileStores (row 1 7 false 0) ⟨0, 0, 0, 0⟩ .f64 32 (cElem (s.creg 0 3)), w.1 = 0x200100 ∧ w.2.length = 8) ∧
    (let s := described (row 1 7 false 5) (.tld false .f64 7 0xFFFF 0 0);
      s.descEntry ⟨0, .thread⟩ 0xFFFF = .ok (row 1 7 false 5) ∧ descDom (row 1 7 false 5) ≠ (s.priv 0).domain.toNat ∧
        (s.priv 0).status.nest = false) ∧
    (let s := withAttr (described (row 1 7 false 0) loading) 3; s.tileOutcome 0 (command loading) false = (s, .waiting none, [])) ∧
    (let s := tabled tk (row 1 7 false 0); let r := (s.tileOutcome 0 (command loading) false).2.2;
      (∀ e ∈ r, BitVec.ofNat 512 (s.rdN (64 * e.line) 64) = e.data) ∧
      ∃ e ∈ r, BitVec.ofNat 512 (({ s with mem := putWord s.mem 0x200100 9 } : State).rdN (64 * e.line) 64) ≠ e.data) ∧
    (bit (tk.part 0).descbase 0 = false ∧ (loading, true, false) ∈ [(loading, true, false), (.tldc .f64 3 0xFFFF 0 0, false, false)] ∧
      descExt (rowAt 0x200100 3 4 false 0) 0 % 4 ≠ 0) ∧
    (∀ c ∈ [(tk, 0x7FFFFFFFFFFFFC), (bare, 0x200100), (ranged, 0x200100), (pooled, 0x200100), (spoiled, 0x200100)],
      isOk ((tabled c.1 (rowAt c.2 1 7 false 0)).tileDesc 0 0xFFFF true false false .f64 0) (rowAt c.2 1 7 false 0) = true ∧
      tileAccesses (rowAt c.2 1 7 false 0) ⟨0, 0, 0, 0⟩ .f64 false (rowK .f64) = [] ++ (BitVec.ofNat 64 c.2, 8) :: []) ∧
    (canonical (0x7FFFFFFFFFFFFC + 4) = false ∧ ∀ k < 4, canonical (0x7FFFFFFFFFFFFC + BitVec.ofNat 64 k) = true) ∧
    isOk ((tabled bare (row 1 7 false 0)).allowed (bare.accOf tk.cur) .r 0x200100) false = true ∧
    isOk ((tabled ranged (row 1 7 false 0)).access (ranged.accOf tk.cur) .r 0x200100) xr = true ∧
    (isOk ((tabled pooled (row 1 7 false 0)).access (pooled.accOf tk.cur) .r 0x200100) (xl (2 ^ 50 + 0x100)) = true ∧
      (tabled pooled (row 1 7 false 0)).poolLost (2 ^ 50 + 0x100) = true) ∧
    (tabled spoiled (row 1 7 false 0)).ueAt 0x200100 1 = true :=
  ⟨fun s i => ⟨by simp [queued, begun, State.core_modCore_same], by decide +kernel⟩, ⟨ok_of (by decide +kernel), reach_of (by decide +kernel)⟩,
    ⟨ok_of (by decide +kernel), by decide +kernel⟩, ⟨ok_of (by decide +kernel), reach_of (by decide +kernel)⟩,
    ⟨ok_of (by decide +kernel), ok_of (by decide +kernel), reach_of (by decide +kernel), by decide +kernel, by decide +kernel⟩,
    ⟨ok_of (by decide +kernel), by decide +kernel, by decide +kernel⟩, by decide +kernel, by decide +kernel, by decide +kernel,
    by decide +kernel, by decide +kernel, by decide +kernel, by decide +kernel, by decide +kernel, by decide +kernel⟩

/-- Core 0 alone is bound to press 0 of its vat, and has one command. -/
def pressing : State := (queued tk [command (.tzero 0)]).modVat 0 fun v => { v with pressbind := 0x54 }

/-- A write of one byte that an agent's buffer holds. -/
def wrote (l : Nat) (tile : Bool) : SbEntry := ⟨[⟨false, false, l / 64, [(l, 1)], false⟩], tile, false, false, 0, 1, []⟩

/-- An agent with two buffered writes. -/
def buffered (a : AgentId) (x y : SbEntry) : State := tk.modAg a fun g => { g with sb := [x, y] }

theorem witness_StreamsAndBuffersDrain :
    ([0, 1, 2, 3].Pairwise (· < ·) ∧ [0, 1, 2, 3].length ≤ 4 ∧ ∃ c ∈ [0, 1, 2, 3], 0 < (fun c => c) c ∧ (fun _ => true) c = true) ∧
    ((∀ c ∈ [0, 3], (fun _ => true) c = true → (fun _ => 0) c = 0) ∧ (∀ c ∈ [0, 3], (fun _ : Nat => false) c = false)) ∧
    (pressing.boundTo 0 0 = [0] ∧ pressing.eligible 0 = true ∧ 0 < pressing.weight 0 0 ∧
      (splitQueue (pressing.core 0).til.queue).2 = some (command (.tzero 0)) ∧ tileLoadsMem (.tzero 0) = false ∧ tileStoresMem (.tzero 0) = false) ∧
    ((queued pressing []).boundTo 0 0 = [0] ∧ (queued pressing []).eligible 0 = false) ∧
    (∀ a ∈ [(⟨0, .thread⟩ : AgentId)], ((buffered a (wrote 0x200100 true) (wrote 0x200140 true)).ag a).sb =
        [wrote 0x200100 true, wrote 0x200140 true] ∧
      (wrote 0x200100 true).lines.find? (fun x => x.isLine (0x200100 / 64)) = some ⟨false, false, 0x200100 / 64, [(0x200100, 1)], false⟩ ∧
      storeLineTurn (wrote 0x200100 true).lines ⟨false, false, 0x200100 / 64, [(0x200100, 1)], false⟩ = true ∧
      (buffered a (wrote 0x200100 true) (wrote 0x200140 true)).cutOff 0x200100 = false ∧
      (buffered a (wrote 0x200100 true) (wrote 0x200140 true)).poolLost 0x200100 = false ∧
      (buffered a (wrote 0x200100 true) (wrote 0x200140 true)).lineFree a ⟨false, false, 0x200100 / 64, [(0x200100, 1)], false⟩ = true) ∧
    (∀ a ∈ [(⟨0, .thread⟩ : AgentId), ⟨0, .sprig 63⟩],
      ((buffered a (wrote 0x200100 false) (wrote 0x200140 false)).ag a).sb.drop 1 = [wrote 0x200140 false] ∧
      mayPass [wrote 0x200100 false] [] (wrote 0x200140 false) = true ∧ mayPass [wrote 0x200100 false] [] (wrote 0x200101 false) = false ∧
      (∀ x ∈ (wrote 0x200140 false).lines, (buffered a (wrote 0x200100 false) (wrote 0x200140 false)).lineFree a x = true)) := by
  decide +kernel

/-- Operands of a copy in g1, g2 and g3. -/
def op (wthr : BitVec 8) : CopyOp := ⟨0, 0, wthr, 0, 3, 2, 1, .die⟩

def copying (n b c l : Nat) : State :=
  put (tk.modCore 0 fun k => { k with cpy := { k.cpy with cmds := (List.range n).map fun i =>
    ⟨i, .copy, 0x200100, 0x200200, 64, 0, .die, 0, 0, 0, 0, none, .kernel, 0, 0, 1000, .ready, 0, [], [], none⟩ } })
    [(1, BitVec.ofNat 64 b), (2, BitVec.ofNat 64 c), (3, BitVec.ofNat 64 l)]

theorem witness_CopyCommandsEnterTheQueue :
    16 ≤ ((copying 16 0 0 0).core 0).cpy.cmds.length ∧
    (((copying 15 0x200100 0x200200 0x100).core 0).cpy.cmds.length < 16 ∧ ((copying 15 0x200100 0x200200 0x100).ag tk.cur).sb = [] ∧
      ¬0x200200 < ((copying 15 0x200100 0x200200 0x100).rg 1).toNat + 0x100) ∧
    ((copying 0 0x200100 0x2001FF 0x100).rg 2).toNat < ((copying 0 0x200100 0x2001FF 0x100).rg 1).toNat + 0x100 ∧
    ((copying 0 0 0 (2 ^ 40)).rg 3).toNat ≤ 2 ^ 40 ∧ 2 ^ 40 < ((copying 0 0 0 (2 ^ 40 + 1)).rg 3).toNat ∧
    (((copying 0 0xFFC0 0x200100 0x40).rg 1).toNat + 0x40 ≤ 0x10000 ∧ ((copying 0 0xFFC0 0x200100 0x40).rg 2).toNat % 64 = 0) ∧
    ((copying 0 1 0 0x40).rg 1).toNat % 64 ≠ 0 ∧ ((copying 0 0 0 1).rg 3).toNat % 64 ≠ 0 ∧
    (described (row 1 7 false 0) .tsync).copyDesc tk.cur 0xFFFF false = .ok (row 1 7 false 0) ∧
    ((described (row 1 7 false 5) .tsync).descEntry tk.cur 0xFFFF = .ok (row 1 7 false 5) ∧
      descDom (row 1 7 false 5) ≠ ((described (row 1 7 false 5) .tsync).priv 0).domain.toNat) ∧
    (canonical 0x200108 = true ∧ (0x200108#64).toNat % 8 = 0 ∧ tk.access (tk.accOf tk.cur) .w 0x200108 = .ok (xl 0x200108)) ∧
    ((tk.sem 0 0).queue = [] ∧ (1#8).toNat ≤ ((counting 4 []).sem 0 3).count.toNat ∧ ¬(1#8).toNat ≤ (tk.sem 0 0).count.toNat) :=
  ⟨by decide +kernel, by decide +kernel, by decide +kernel, by decide +kernel, by decide +kernel, by decide +kernel, by decide +kernel,
    by decide +kernel, ok_of (by decide +kernel), ⟨ok_of (by decide +kernel), by decide +kernel⟩,
    ⟨by decide, by decide, ok_of (by decide +kernel)⟩, by decide +kernel⟩

/-- One command of core 0: 8 bytes from 0x20_0240 to 0x20_0200, at a stage, with the lines it has moved. -/
def oneCopy (kind : CopyKind) (dst : Word) (stage : CopyStage) (moved : List Nat) (sinc : BitVec 8) : State :=
  tk.modCore 0 fun c => { c with cpy := { c.cpy with cmds :=
    [⟨7, kind, dst, 0x200240, 8, 0x200300, .die, 0, 1, 0, sinc, none, .kernel, 0, 0, 1000, stage, 1, moved, [], none⟩] } }

/-- Its wait stands in semaphore 0. -/
def awaited : State := { (oneCopy .copy 0x200200 .waiting [] 0).setSem 0 0 ⟨0, false, [(.engine 0 7, 1)]⟩ with time := 1000 }

theorem sources_of {s : State} {c : Acc} {bs : List CopyByte} (h : (bs.all fun b => match b.src with
    | .addr a => isOk (s.copyAccess c .r a.toNat 1) (xw a) && !isDevice (xw a).loc
    | .const _ => true) = true) :
    ∀ b ∈ bs, ∀ a, b.src = .addr a → s.copyAccess c .r a.toNat 1 = .ok (xw a) ∧ isDevice (xw a).loc = false := by
  intro b hb a ha
  have := List.all_eq_true.mp h b hb
  simp only [ha, Bool.and_eq_true, Bool.not_eq_true'] at this
  exact ⟨ok_of this.1, this.2⟩

theorem witness_CopyEngineMovesAndCompletes :
    (tk.unreachable = [] ∧ tk.ue = [] ∧ tk.pool = [] ∧ Region.reset.st ≠ .lost) ∧
    4 ≤ ((tk.modCore 0 fun c => { c with cpy := { c.cpy with cmds := (List.range 4).map fun i =>
      ⟨i, .copy, 0, 0, 0, 0, .die, 0, 0, 0, 0, none, .kernel, 0, 0, 1000, if i = 3 then .signal 0 else .started, i, [], [], none⟩ } }).core 0).cpy.cmds.countP
        CopyCmd.begun ∧
    (((oneCopy .copy 0x200200 .ready [] 0).core 0).cpy.cmds.find? fun o =>
      o.stage = .ready && !(oneCopy .copy 0x200200 .ready [] 0).startDelayed 0 o).isSome ∧
    (∀ k ∈ [(CopyKind.copy, 0x200200#64), (.block, 0x40)], (let s := oneCopy k.1 k.2 .started [] 0; ∃ m, s.cmd? 0 7 = some m ∧
      m.stage = .started ∧ k.2.toNat / 64 ∈ m.destLines ∧ k.2.toNat / 64 ∉ m.moved ∧ s.copyCheck 0 m (k.2.toNat / 64) = .ok ∧
      (s.lineTurn 0 m (k.2.toNat / 64) = true ∧ s.nextMover 0 = some m.order ∧ m ∈ (s.core 0).cpy.cmds ∧
        (∃ l ∈ m.unmoved, s.movable 0 m l = true) ∧ s.movable 0 m 0 = false) ∧
      ((m.bytesOf (k.2.toNat / 64)).map fun b => b.dst % 64).Nodup ∧
      (∀ b ∈ m.bytesOf (k.2.toNat / 64), ∀ a, b.src = .addr a → s.copyAccess (m.acc 0) .r a.toNat 1 = .ok (xw a) ∧ isDevice (xw a).loc = false) ∧
      (k.1 = .copy → s.copyAccess (m.acc 0) .w 0x200200 1 = .ok (xl 0x200200)))) ∧
    (∀ k ∈ [(CopyKind.copy, (0 : BitVec 8)), (.copy, 255), (.lines, 0)], (let s := oneCopy k.1 0x200200 .started [0x200200 / 64] k.2;
      ∃ m, s.cmd? 0 7 = some m ∧ m.stage = .started ∧ (∀ l ∈ m.destLines, l ∈ m.moved) ∧ m.scope ≠ .pool ∧ m.kind = k.1 ∧ m.sinc = k.2 ∧
        m.sprig = none ∧ (s.sem 0 m.ssem.toNat).queue = [] ∧ s.access (m.acc 0) .w m.cword = .ok (xl 0x200300) ∧
        s.blocked (engineId 0) (0x200300 / 64) = false)) ∧
    (∃ m, (oneCopy .copy 0x400000 .started [] 0).cmd? 0 7 = some m ∧ m.unmoved ≠ [] ∧ (m.scope ≠ .pool ∧ m.kind ≠ .lines ∧ m.sinc = 0 ∧
      m.sprig = none) ∧
      (oneCopy .copy 0x400000 .started [] 0).copyFailure 0 m = some ⟨0, false, 0x05⟩ ∧
      ∀ l ∈ m.unmoved, ∀ b ∈ m.bytesOf l, 0 ≤ b.off) ∧
    (∃ m, awaited.cmd? 0 7 = some m ∧ m.stage = .waiting ∧ m.since + m.bound ≤ awaited.time ∧ 999 < m.since + m.bound ∧
      (m.scope ≠ .pool ∧ m.kind ≠ .lines ∧ m.sinc = 0 ∧ m.sprig = none) ∧
      (awaited.vat 0).sems = [(m.wsem.toNat, ⟨0, false, [(.engine 0 7, 1)]⟩)] ∧ (awaited.core 0).cpy.reports.length < 16) := by
  refine ⟨by decide +kernel, by decide +kernel, by decide +kernel, ?_, ?_,
    ⟨_, rfl, by decide +kernel, by decide +kernel, by decide +kernel, by decide +kernel⟩, ⟨_, rfl, ?_⟩⟩
  · intro k hk
    simp only [List.mem_cons, List.not_mem_nil, or_false] at hk
    obtain rfl | rfl := hk
    all_goals refine ⟨_, rfl, rfl, by decide +kernel, by decide +kernel, by decide +kernel, by decide +kernel, by decide +kernel,
      sources_of (by decide +kernel), ?_⟩
    · exact fun _ => ok_of (by decide +kernel)
    · exact fun h => by cases h
  · intro k hk
    simp only [List.mem_cons, List.not_mem_nil, or_false] at hk
    obtain rfl | rfl | rfl := hk
    all_goals exact ⟨_, rfl, rfl, by decide +kernel, by decide +kernel, rfl, rfl, rfl, by decide +kernel, ok_of (by decide +kernel), by decide +kernel⟩
  · decide +kernel

/-! ### Privileged registers -/

theorem witness_PrivilegedRegistersReadAndWrite :
    (tk.cur.who = .thread ∧ (tk.priv tk.cur.core).status.pl = .kernel ∧ (tk.priv tk.cur.core).status.nest = false ∧ tk.arrivals = []) ∧
    canonical ((put tk [(1, 0xFF80000000000000)]).rg 1) = true ∧ canonical ((put tk [(1, 0xFF00000000000000)]).rg 1) = false ∧
    (∀ k < (ta.core 0).arr.n, (ta.sprig 0 k).st ≠ .running ∧ (ta.sprig 0 k).st ≠ .waiting) ∧
    (0 < ((sprigAs ta 0 .running []).core 0).arr.n ∧ ((sprigAs ta 0 .running []).sprig 0 0).st = .running) ∧
    (tk.rg 1).getLsbD 48 = false ∧
    (let v := (put tk [(1, 0xA010)]).rg 1; bits v 15 12 ≤ 10 ∧ 1 ≤ bits v 4 0 ∧ bits v 4 0 ≤ 16) ∧
    10 < bits ((put tk [(1, 0xB010)]).rg 1) 15 12 ∧ bits (tk.rg 1) 4 0 = 0 ∧ 16 < bits ((put tk [(1, 0x11)]).rg 1) 4 0 := by decide +kernel

/-- Window 0 stood at 0x20_0000 and is unmapped, with one line left. -/
def leaving : State := tk.modCore 0 fun c => { c with pendWb := [⟨0, 0x20, 1, 4⟩] }

theorem witness_BindingsHoldsAndWindows :
    (tk.cur.who = .thread ∧ (tk.priv tk.cur.core).status.pl = .kernel ∧ (tk.priv 0).status.nest = false) ∧
    (let pos (b j : Nat) : Nat := b / 4 ^ j % 4;
      let new := pos (((put tk [(1, 0xF4)]).rg 1).toNat % 256); let old := pos (tk.vat 0).pressbind.toNat;
      (∀ j < 4, new j ≠ 2) ∧ (∃ j < 4, new j ≠ 0) ∧ (∃ j < 4, new j ≠ 1) ∧ (∀ j < 4, ∀ n < 4, tk.lentSet j n = 0) ∧
        (∀ j < 4, (tk.core j).til.queue = []) ∧
        (∀ n < 2, ((tk.press 0 n).rebind ([0, 1, 2, 3].filter fun j => decide (new j ≠ old j ∧ old j = n))
          ([0, 1, 2, 3].filter fun j => decide (new j ≠ old j ∧ new j = n))).isSome = true) ∧ new 0 = old 0 ∧ new 2 ≠ old 2 ∧ new 3 = 3 ∧ pos 0xFF 0 ≠ 2 ∧ pos 0x02 0 = 2) ∧
    ((queued tk [command .tsync]).core 0).til.queue ≠ [] ∧ (tk.tilesBusy 0 = false ∧ tk.partOf 0 = 0) ∧
    (borrowed.lentSet 0 3 ≠ 0 ∧ (borrowed.vat 0).pressbind.toNat % 4 = 0) ∧
    (((put tk [(1, 0x200000)]).rg 1).getLsbD 3 = false ∧ ((put tk [(1, 0x200000)]).rg 1).getLsbD 21 = true ∧
      ((sprigAs ta 0 .waiting []).sprig 0 0).st = .waiting ∧ 0 < (ta.core 0).arr.n) ∧
    ((tk.rg 1).getLsbD 21 = false ∧ ((sprigAs ta 0 .idle [⟨0x40, 0⟩]).sprig 0 0).queue = [⟨0x40, 0⟩] ∧
      (sprigAs ta 0 .idle [⟨0x40, 0⟩]).blockOwned 0 1 = false) ∧
    ((put tk [(1, 8)]).rg 1).getLsbD 3 = true ∧ NoQueues tk ∧ NoStores tk ∧ tk.behind = [] ∧
    ((Store.get ((tk.modPriv 0 fun p => { p with spwin := [(7, 0x200001)] }).priv 0).spwin 0 7).getLsbD 0 = true ∧
      tk.rg 1 &&& 0xFFFFFFFFFFFF0001 ≠ 0x200001) ∧
    ((leaving.core 0).pendWb = [⟨0, 0x20, 1, 4⟩] ∧ (1#1024).getLsbD 0 = true ∧ (leaving.mapping ⟨0, .thread⟩ 0x200000).toOption.isSome ∧
      leaving.lineBuffered (2 ^ 52 / 64) = false ∧ leaving.cutOff 0x200000 = false ∧ leaving.poolLost 0x200000 = false ∧
      (buffered ⟨0, .thread⟩ (wrote (2 ^ 52) false) (wrote 0x200100 false)).lineBuffered (2 ^ 52 / 64) = true) := by
  refine ⟨by decide +kernel, by decide +kernel, by decide +kernel, by decide +kernel, by decide +kernel, by decide +kernel, by decide +kernel, by decide +kernel, tk_noQueues,
    tk_noStores, by decide +kernel, by decide +kernel, by decide +kernel, by decide +kernel, by decide +kernel⟩

/-- Two windows hold the range at 0x20_0000: number 7 of core 0, and number 0 of core 1. -/
def twoWindows : State := (tk.modPriv 0 fun p => { p with spwin := [(7, 0x200001)] }).modPriv 1 fun p => { p with spwin := [(0, 0x200001)] }

/-- Core 1's window 2 left the same line before window 0 of core 0. -/
def leftTwice : State := leaving.modCore 1 fun c => { c with pendWb := [⟨2, 0x20, 1, 3⟩] }

theorem witness_WindowsInOrder :
    ((twoWindows.cores.map fun e => e.1).Nodup ∧ twoWindows.partOf 1 = twoWindows.partOf 0 ∧
      (Store.get (twoWindows.priv 0).spwin 0 7).getLsbD 0 = true ∧ (1, 0) ≠ ((0 : Nat), (7 : Nat))) ∧
    (∀ c j, (j < 8 ∧ twoWindows.partOf c = twoWindows.partOf 0 ∧ (Store.get (twoWindows.priv c).spwin 0 j).getLsbD 0 = true ∧
        bits (Store.get (twoWindows.priv c).spwin 0 j) 63 16 = bits 0x200001 63 16) ↔ (c, j) = (0, 7) ∨ (c, j) = (1, 0)) ∧
    ((leftTwice.core 0).pendWb = [⟨0, 0x20, 1, 4⟩] ∧ leftTwice.partOf 1 = leftTwice.partOf 0 ∧ ((leftTwice.core 1).pendWb = [⟨2, 0x20, 1, 3⟩]) ∧
      (0x20 : Nat) < 2 ^ 48) ∧
    (∀ o ∈ leaving.pendingAt (leaving.partOf 0) 0x200000, 4 ≤ o.2.num) ∧ (∀ o ∈ leftTwice.pendingAt (leftTwice.partOf 1) 0x200000, 3 ≤ o.2.num) := by
  refine ⟨by decide +kernel, fun c j => ?_, by decide +kernel, by decide +kernel, by decide +kernel⟩
  rcases Nat.lt_or_ge c 2 with h | h
  · have hj : ∀ c < 2, ∀ j < 8, (twoWindows.partOf c = twoWindows.partOf 0 ∧ (Store.get (twoWindows.priv c).spwin 0 j).getLsbD 0 = true ∧
        bits (Store.get (twoWindows.priv c).spwin 0 j) 63 16 = bits 0x200001 63 16) ↔ (c, j) = (0, 7) ∨ (c, j) = (1, 0) := by decide +kernel
    constructor
    · rintro ⟨h8, h'⟩; exact (hj c h j h8).mp h'
    · intro h'
      have h8 : j < 8 := by simp only [Prod.mk.injEq] at h'; omega
      exact ⟨h8, (hj c h j h8).mpr h'⟩
  · have hk : ∀ e ∈ twoWindows.cores, e.1 < 2 := by decide +kernel
    have hn : Store.find? twoWindows.cores c = none := by
      have aux : ∀ m : Store CoreSt, (∀ e ∈ m, e.1 < 2) → Store.find? m c = none := by
        intro m
        induction m with
        | nil => intro _; rfl
        | cons e m ih =>
          intro hm
          obtain ⟨k, v⟩ := e
          have := hm (k, v) (by simp)
          simp only [Store.find?, if_neg (show ¬c = k by simp only at this; omega)]
          exact ih fun e he => hm e (by simp [he])
      exact aux _ hk
    simp only [State.priv, State.core, Store.get, hn, Option.getD_none, Prod.mk.injEq]
    constructor
    · rintro ⟨_, _, h', _⟩; exact absurd h' (by simp [CoreSt.reset, Priv.reset])
    · intro h'; omega

/-- The page at 0x20_0000 is in transit, with its move record at 0x2_0000: from 0x20_0000 to 0x40_0000. -/
def moving : State :=
  { tk with mem := putWord (putWord (putWord tk.mem 0x15008 0x20004) 0x20000 0x200003) 0x20008 0x400003 }

theorem witness_InvalidationsDropTranslations :
    (tk.cur.who = .thread ∧ (tk.priv tk.cur.core).status.pl = .kernel ∧ (tk.priv 0).status.nest = false) ∧
    NoStores tk ∧ NoQueues tk ∧ (∀ x ∈ tk.cores, x.2.partials = []) ∧ tk.exact = [] ∧ tk.behind = [] ∧
    (tk.tilesBusy (tk.partOf 0) = false ∧ (tabled (queued tk [begun (tabled tk (row 1 7 false 0)) loading]) (row 1 7 false 0)).tilesBusy (tk.partOf 0) = true) ∧
    (∀ j < 4, (tk.port j).ats = false ∧ (tk.port j).inval = false) ∧
    ((((tk.modPort 3 fun p => { p with ats := true }).port 3).ats = true) ∧ Store.get tk.portPart 0 3 = tk.partOf 0) ∧
    (canonical ((put tk [(1, 0x200002)]).rg 1) = true ∧ bits ((put tk [(1, 0x200002)]).rg 1) 11 2 = 0 ∧
      ((put tk [(1, 0x200002)]).rg 1).toNat % 2 ^ 56 / 4096 * 4096 % 2097152 = 0) ∧
    tk.transitOf tk.cur 0x200002 = .ok none ∧ moving.transitOf tk.cur 0x200002 = .ok (some (0x20004, 1)) ∧
    (moving.imageHbm 0x20000 = true ∧ moving.ueAt 0x20000 64 = false ∧ moving.moveOk 0x20000 2 1 = true ∧ moving.ownedLoc moving.cur 0x20000 = false ∧ moving.memWf ∧ moving.monitors = [] ∧
      0x20000 + 64 ≤ 0x400000) ∧
    (canonical 0x80000000000000#64 = false ∧ 16383 < ((put tk [(1, 16384)]).rg 1).toNat ∧ bits (4#64) 11 2 ≠ 0) := by
  refine ⟨by decide +kernel, tk_noStores, tk_noQueues, by decide +kernel, by decide +kernel, by decide +kernel,
    ⟨by decide +kernel, by decide +kernel⟩, by decide +kernel, by decide +kernel, by decide +kernel, ok_of (by decide +kernel), ok_of (by decide +kernel), ⟨by decide +kernel, by decide +kernel,
    by decide +kernel, by decide +kernel, by unfold State.memWf; decide +kernel, by decide +kernel, by decide +kernel⟩, by decide +kernel⟩

/-- A write of a byte that was checked against a region of domain 0. -/
def regioned (l : Nat) : SbEntry := { wrote l false with checked := [⟨0, 0x200, 1, false, 7⟩] }

/-- A line that a copy of core 0 owns stands in the buffer of core 1's thread, whose lookaside buffer no longer holds its region. -/
def heldUp : State := (oneCopy .copy 0x200200 .started [] 0).modAg ⟨1, .thread⟩ fun g => { g with sb := [regioned 0x200200] }

/-- The thread of core 4 waits at the word at 0x20_0100 with a monitor, its access checked against a region of domain 5 by a walk. -/
def walked : State :=
  { tk.modAg ⟨4, .thread⟩ fun g => { g with wait := some ⟨0, 0, 0x200100, .served, [⟨5, 0x200, 1, false, 7⟩]⟩ } with
    monitors := [⟨⟨4, .thread⟩, 0x200100, 0x200100, 0, 3⟩] }

theorem witness_InvalidationsSquashWhatTheyChecked :
    NoStores walked ∧ NoQueues walked ∧ (walked.core 4).plb = [] ∧ walked.partOf 4 = walked.partOf walked.cur.core ∧
    ((walked.ag ⟨4, .thread⟩).wait.any fun w => w.checked.any fun x => x.domain.toNat == 5) = true ∧
    ((walked.ag ⟨4, .thread⟩).wait.any fun w => w.checked.any fun x => x.domain.toNat == 0) = false :=
  ⟨noStores_of (by decide +kernel), noQueues_of (by decide +kernel), by decide +kernel, by decide +kernel, by decide +kernel, by decide +kernel⟩

theorem witness_InvalidationsWaitForTheirAccesses :
    (let s := tabled (queued tk [{ begun (tabled tk (row 1 7 false 0)) loading with checked := [⟨0, 0x200, 1, false, 7⟩] }]) (row 1 7 false 0);
      s.tilesChecked (s.partOf 0) (fun cs => cs.any fun _ => true) = true ∧ ∀ u ∈ (s.core 0).til.queue, u.parked = false) ∧
    ((⟨1, .thread⟩ : AgentId) ∈ heldUp.agentsOf (heldUp.partOf 0) ∧ (⟨1, .thread⟩ : AgentId) ≠ heldUp.cur ∧
      (heldUp.ag ⟨1, .thread⟩).sb = [regioned 0x200200] ∧ (∀ l ∈ (regioned 0x200200).lines, heldUp.lineFree ⟨1, .thread⟩ l = false) ∧
      (regioned 0x200200).checked ≠ []) ∧
    (∀ b, b ≠ (⟨1, .thread⟩ : AgentId) → (heldUp.ag b).sb = []) := by
  refine ⟨by decide +kernel, by decide +kernel, fun b hb => ?_⟩
  have h : NoStores (oneCopy .copy 0x200200 .started [] 0) := noStores_of (by decide +kernel)
  have := h b
  obtain ⟨c, w⟩ := b
  rcases Decidable.em (c = 1) with rfl | hc
  · cases w with
    | thread => exact absurd rfl hb
    | sprig i => simp [heldUp, State.ag, State.modAg, State.modThr, State.sprig, State.core_modCore_same] at this ⊢; exact this
  · have hk : (heldUp.core c) = ((oneCopy .copy 0x200200 .started [] 0).core c) := by
      simp [heldUp, State.modAg, State.modThr, State.core_modCore_ne, hc]
    cases w with
    | thread => simpa [State.ag, State.thr, hk] using this
    | sprig i => simpa [State.ag, State.sprig, hk] using this

/-! ### Contexts -/

/-- What makes every address of the page at 0x20_0000 a plain one of the same location, for kernel code of core 0. -/
structure Flat (s : State) : Prop where
  who : s.cur = ⟨0, .thread⟩
  level : (s.priv 0).status.pl = .kernel
  open_ : bit (s.part (s.partOf 0)).protroot 0 = false
  tc : s.tc = []
  en : bit (s.part (s.partOf 0)).ptroot 0 = true
  root : s.ptRoot (s.partOf 0) = 0x10000
  node4 : s.sysRead ⟨0, .thread⟩ 0x10000 = .ok 0x11001
  node3 : s.sysRead ⟨0, .thread⟩ 0x11000 = .ok 0x13001
  node2 : s.sysRead ⟨0, .thread⟩ 0x13000 = .ok 0x15001
  leaf : s.sysRead ⟨0, .thread⟩ 0x15008 = .ok 0x200003
  rec0 : s.record ⟨0, .thread⟩ ⟨0x200003, 2 ^ 21, 0x15008⟩ = .ok ⟨0x200003, 2 ^ 21, 1, 0, 0, 0⟩
  attr : s.attrCheck (s.partOf 0) ⟨0x200003, 2 ^ 21, 1, 0, 0, 0⟩ = none
  windows : ∀ e ∈ s.cores, e.2.priv.spwin = []
  unmapped : ∀ e ∈ s.cores, e.2.pendWb = []
  copies : ∀ e ∈ s.cores, e.2.cpy.cmds = []
  route : s.rerouting = false
  home : s.pkg = 0

theorem flat_walk {s : State} (h : Flat s) {v : Nat} (h1 : 0x200000 ≤ v) (h2 : v < 0x400000) :
    s.walk ⟨0, .thread⟩ (BitVec.ofNat 64 v) = .ok ⟨0x200003, 2 ^ 21, 0x15008⟩ := by
  have hv : va56 (BitVec.ofNat 64 v) = v := by simp only [va56, BitVec.toNat_ofNat]; omega
  have i1 : v / 2 ^ (12 + 9 * (0 + 1)) % 512 = 1 := by omega
  have i2 : v / 2 ^ (12 + 9 * (1 + 1)) % 512 = 0 := by omega
  have i3 : v / 2 ^ (12 + 9 * (2 + 1)) % 512 = 0 := by omega
  have i4 : v / 2 ^ (12 + 9 * (3 + 1)) % 512 = 0 := by omega
  simp only [State.walk, h.en, h.root, State.walkFrom, hv, i4, i3, i2, i1, Nat.mul_zero, Nat.add_zero]
  simp only [h.node4, show (nbits 0x11001 51 12 * 4096) = 0x11000 by decide, h.node3,
    show (nbits 0x13001 51 12 * 4096) = 0x13000 by decide, h.node2, show (nbits 0x15001 51 12 * 4096) = 0x15000 by decide,
    show (0x15000 + 8 * 1) = 0x15008 by decide, h.leaf]
  rfl

theorem flat_access {s : State} (h : Flat s) {v : Nat} (h1 : 0x200000 ≤ v) (h2 : v < 0x400000) (rt : Right) :
    s.access (s.accOf s.cur) rt (BitVec.ofNat 64 v) = .ok (xl v) := by
  have hv : va56 (BitVec.ofNat 64 v) = v := by simp only [va56, BitVec.toNat_ofNat]; omega
  have hw : inSysWindow (BitVec.ofNat 64 v) = false := by
    simp only [inSysWindow, BitVec.toNat_ofNat, beq_eq_false_iff_ne]; omega
  have hm : s.mapping ⟨0, .thread⟩ (BitVec.ofNat 64 v) = .ok ⟨0x200003, 2 ^ 21, 1, 0, 0, 0⟩ := by
    simp only [State.mapping, hw, h.tc, List.find?_nil, State.walkPage, flat_walk h h1 h2, h.rec0, h.attr]
    rfl
  have hws : s.windowsAt (s.partOf 0) (BitVec.ofNat 64 v) = [] := by
    simp only [State.windowsAt, List.flatMap_eq_nil_iff]
    intro e he
    rw [h.windows e he]
    split
    · simp [Store.get, Store.find?, bit]
    · rfl
  have hps : s.pendingAt (s.partOf 0) (BitVec.ofNat 64 v) = [] := by
    simp only [State.pendingAt, List.flatMap_eq_nil_iff]
    intro e he
    rw [h.unmapped e he]
    split <;> rfl
  have ho : ∀ c line, s.owned (s.partOf 0) c line = false := by
    intro c line
    simp only [State.owned, List.any_eq_false, Bool.and_eq_true, not_and]
    intro e he
    rw [h.copies e he]
    simp
  have hl : (0x200000 : Nat) / 2 ^ 21 * 2 ^ 21 + v % 2 ^ 21 = v := by omega
  have hh : isHbm v = true := by simp only [isHbm, Bool.and_eq_true, decide_eq_true_eq]; omega
  have hg : pkgOfLoc v = 0 := by simp only [pkgOfLoc]; omega
  have hp : isPool v = false := by simp only [isPool, Bool.and_eq_false_iff, decide_eq_false_iff_not]; omega
  have ht : s.translate ⟨0, .thread⟩ (BitVec.ofNat 64 v) = .ok (xl v) := by
    simp only [State.translate, hw, hm, hws, hps, hv, show nbits 0x200003 51 12 * 4096 = 0x200000 by decide, hl, hh, hg]
    rfl
  have ha : s.accOf s.cur = ⟨⟨0, .thread⟩, .kernel, (s.priv 0).domain, none⟩ := by
    simp only [State.accOf, h.who, h.level]
  have hr : s.allowed ⟨⟨0, .thread⟩, .kernel, (s.priv 0).domain, none⟩ rt (BitVec.ofNat 64 v) = .ok true := by
    simp only [State.allowed, hw, h.open_]
    rfl
  simp only [State.access, ha, hr, ht, ho, h.route, xl, hp]
  rfl

/-- The thread names an image at 0x20_1000: the magic, version 1, RM 1, and zeros. -/
def image : State :=
  { put tk [(1, 0x201000)] with mem := putWord (putWord tk.mem 0x201000 0x14B564331) 0x201070 1 }

theorem flat_image : Flat image :=
  ⟨by decide +kernel, by decide +kernel, by decide +kernel, by decide +kernel, by decide +kernel, by decide +kernel, ok_of (by decide +kernel),
    ok_of (by decide +kernel), ok_of (by decide +kernel), ok_of (by decide +kernel), ok_of (by decide +kernel), by decide +kernel,
    by decide +kernel, by decide +kernel, by decide +kernel, by decide +kernel, by decide +kernel⟩

theorem image_at (o : Nat) : image.rg 1 + BitVec.ofNat 64 o = BitVec.ofNat 64 (0x201000 + o) := by
  rw [show image.rg 1 = BitVec.ofNat 64 0x201000 by decide +kernel, BitVec.ofNat_add]

theorem image_ready (rt : Right) {o : Nat} (h : o < 0xD6C00) :
    Ready image image.cur rt (image.rg 1 + BitVec.ofNat 64 o) (xl (0x201000 + o)) := by
  rw [image_at]
  refine ⟨?_, flat_access flat_image (by omega) (by omega) rt, rfl, ?_, ?_⟩
  · simp only [canonical, BitVec.toNat_ofNat, Bool.or_eq_true, beq_iff_eq]; omega
  · simp only [State.poolLost, State.regionOf, show image.pool = [] by decide +kernel, List.find?_nil, Option.map_none,
      Bool.and_false]
  · show isDevice (0x201000 + o) = false
    simp only [isDevice, Bool.and_eq_false_iff, decide_eq_false_iff_not]; omega

theorem image_readable {o : Nat} (h : o < 0xD6C00) (h8 : o % 8 = 0) :
    Readable image image.cur (image.rg 1 + BitVec.ofNat 64 o) 8 (xl (0x201000 + o)) := by
  refine ⟨image_ready .r h, ?_, ?_, ?_, rfl, by decide +kernel, fun w => by cases w⟩
  · rw [image_at, BitVec.toNat_ofNat]; omega
  · exact ueSeen_clean (by decide +kernel) (by decide +kernel) _ _ _
  · simp [State.blocked, show image.res = [] by decide +kernel]

theorem find?_none {α : Type} (m : Store α) (l : Nat) (h : ∀ e ∈ m, e.1 ≠ l) : Store.find? m l = none := by
  induction m with
  | nil => rfl
  | cons e m ih =>
    obtain ⟨k, v⟩ := e
    simp only [Store.find?, if_neg fun hk : l = k => h (k, v) (by simp) hk.symm]
    exact ih fun e he => h e (by simp [he])

theorem image_zero (l : Nat) (h1 : 0x201005 ≤ l) (h2 : l ≠ 0x201070) : image.rd1 l = 0 := by
  have hm : ∀ e ∈ image.mem, e.1 < 0x201005 ∨ e.1 = 0x201070 := by decide +kernel
  simp only [State.rd1, Memory.read, Store.get]
  rw [find?_none]; · rfl
  intro e he
  have := hm e he
  omega

/-- The words of the image that are not zero. -/
def imageWords : Store Nat := [(0, 0x14B564331), (0x70, 1)]

theorem image_word {o : Nat} (h8 : o % 8 = 0) : (BitVec.ofNat 64 (image.rdN (xl (0x201000 + o)).loc 8)).toNat = Store.get imageWords 0 o := by
  rcases (by omega : o = 0 ∨ o = 0x70 ∨ (o ≠ 0 ∧ o ≠ 0x70)) with rfl | rfl | ⟨h0, h70⟩
  · decide +kernel
  · decide +kernel
  · have hz : ∀ k < 8, image.rd1 (0x201000 + o + k) = 0 := fun k hk => image_zero _ (by omega) (by omega)
    have h0' := hz 0 (by omega); have h1 := hz 1 (by omega); have h2 := hz 2 (by omega); have h3 := hz 3 (by omega)
    have h4 := hz 4 (by omega); have h5 := hz 5 (by omega); have h6 := hz 6 (by omega); have h7 := hz 7 (by omega)
    simp only [Nat.add_zero] at h0'
    simp only [xl, State.rdN, State.rdBytes, h0', Nat.add_assoc] at *
    simp only [Nat.reduceAdd, h1, h2, h3, h4, h5, h6, h7]
    simp only [Store.get, imageWords, Store.find?, if_neg h0, if_neg h70]
    rfl

theorem get_mapped (l : List Nat) (f : Nat → Nat) (o : Nat) : Store.get (l.map fun k => (k, f k)) 0 o = if o ∈ l then f o else 0 := by
  induction l with
  | nil => simp [Store.get]
  | cons k l ih =>
    simp only [Store.get, List.map_cons, Store.find?, List.mem_cons] at ih ⊢
    by_cases h : o = k
    · simp [h]
    · simp [h, ih]

theorem checked_mod {o : Nat} (h : o ∈ checkedOffsets) : o % 8 = 0 := by
  simp only [checkedOffsets, wordsFrom, List.mem_append, List.mem_map, List.mem_range] at h
  omega

theorem image_good :
    imageFault (checkedOffsets.map fun o => (o, (BitVec.ofNat 64 (image.rdN (xl (0x201000 + o)).loc 8)).toNat)) 0xD6C00 = none := by
  have hg : ∀ o, Store.get (checkedOffsets.map fun o => (o, (BitVec.ofNat 64 (image.rdN (xl (0x201000 + o)).loc 8)).toNat)) 0 o =
      Store.get imageWords 0 o := by
    intro o
    rw [get_mapped checkedOffsets fun o => (BitVec.ofNat 64 (image.rdN (xl (0x201000 + o)).loc 8)).toNat]
    split
    · rename_i ho; exact image_word (checked_mod ho)
    · rename_i ho
      have h0 : o ≠ 0 := fun h => ho (by subst h; simp [checkedOffsets, wordsFrom])
      have h70 : o ≠ 0x70 := fun h => ho (by
        subst h; simp only [checkedOffsets, wordsFrom, List.mem_append, List.mem_map, List.mem_range]; exact Or.inl ⟨14, by omega⟩)
      simp only [Store.get, imageWords, Store.find?, if_neg h0, if_neg h70]; rfl
  have he : imageFault imageWords 0xD6C00 = none := by decide +kernel
  have hf := funext hg
  rw [← he]
  unfold imageFault controlChecks recordChecks zeroWords imgField
  rw [hf]

/-- Logical cores 0 and 1 are core 0 and core 1, which waits for a context where the argument says so. -/
def neighbours (ready : Bool) : State :=
  put (({ tk with mem := putWord tk.mem 0x30000 0x80018000 }.modPriv 0 fun p => { p with coretab := 0x30000 }).modCore 1 fun c =>
    { c with thr := { c.thr with run := .idle 0 }, priv := { c.priv with status := { c.priv.status with acc := ready } } }) [(1, 1)]

/-- A context on its way to core 0. -/
def travelling : Travel := ⟨[(1, 5)], 0x200002, 1, 0, 0, 0, 0, 0, 0, false, 0, 0, 0, false, 0, 0, [], []⟩

theorem witness_ContextsAreSavedLoadedAndMoved :
    (tk.cur.who = .thread ∧ (tk.priv tk.cur.core).status.pl = .kernel ∧ (tk.priv 0).status.nest = false ∧
      canonical ((put tk [(1, 0x80000000000000)]).rg 1) = false ∧ canonical ((put tk [(1, 0x200800)]).rg 1) = true ∧
      ((put tk [(1, 0x200800)]).rg 1).toNat % 4096 ≠ 0) ∧
    (image.cur.who = .thread ∧ (image.priv 0).status.pl = .kernel ∧ canonical (image.rg 1) = true ∧ (image.rg 1).toNat % 4096 = 0 ∧
      (image.core 0).arr.blkUe = [] ∧ image.ue = [] ∧ image.unreachable = [] ∧ image.monitors = [] ∧ image.arrivals = [] ∧
      (image.core 0).cpy.cmds = [] ∧ (image.core 0).partials = [] ∧ (image.core 0).pendWb = [] ∧ (image.priv 0).spwin = []) ∧
    ((image.core 0).arr.n < 128 ∧ (image.core 0).arr.r < 128 ∧ (∀ i < 64, (image.sprig 0 i).queue.length ≤ 4) ∧
      image.tilesBusy (image.partOf 0) = false) ∧
    NoStores image ∧ NoQueues image ∧
    (∀ o, o < 0xD6C00 ∧ o % 8 = 0 → Ready image image.cur .w (image.rg 1 + BitVec.ofNat 64 o) (xl (0x201000 + o)) ∧
      Readable image image.cur (image.rg 1 + BitVec.ofNat 64 o) 8 (xl (0x201000 + o))) ∧
    (∀ o o', o % 8 = 0 → o' % 8 = 0 → o ≠ o' → (xl (0x201000 + o)).loc + 8 ≤ (xl (0x201000 + o')).loc ∨
      (xl (0x201000 + o')).loc + 8 ≤ (xl (0x201000 + o)).loc) ∧
    imageFault (checkedOffsets.map fun o => (o, (BitVec.ofNat 64 (image.rdN (xl (0x201000 + o)).loc 8)).toNat)) 0xD6C00 = none ∧
    (((neighbours true).ag tk.cur).sb = [] ∧ ((neighbours true).rg 1).toNat ≤ 255 ∧ (neighbours true).named tk.cur 0 0 = .core 0 ∧
      (neighbours true).named tk.cur 1 1 = .core 1 ∧ (neighbours true).accepts 1 = true ∧ (neighbours true).sprigsQuiet 0 = true ∧
      (neighbours true).arrivals = [] ∧ (neighbours false).accepts 1 = false ∧ ((neighbours true).priv 0).status.nest = false) ∧
    ((tk.core 0).arrival = none ∧ ((tk.modCore 0 fun c => { c with arrival := some travelling }).core 0).arrival = some travelling ∧
      (∀ e ∈ travelling.g, e.1 < 32) ∧ (∀ i < (tk.core 0).arr.n, tk.sprigDone 0 i = true) ∧
      let t := (sprigAs ta 0 .running []).modCore 0 fun c => { c with arrival := some travelling }
      (t.core 0).arrival = some travelling ∧ ∃ i < (t.core 0).arr.n, t.sprigDone 0 i = false) := by
  refine ⟨by decide +kernel, by decide +kernel, by decide +kernel, noStores_of (by decide +kernel), noQueues_of (by decide +kernel),
    fun o h => ⟨image_ready .w h.1, image_readable h.1 h.2⟩, fun o o' h h' hne => ?_, image_good, by decide +kernel, by decide +kernel, by decide +kernel, by decide +kernel, by decide +kernel,
    by decide +kernel, 0, by decide +kernel, by decide +kernel⟩
  simp only [xl]; omega

theorem witness_MigrateTakesStoresAndDeposits :
    NoStores (neighbours true) ∧ ((neighbours true).core 0).partials = [] ∧
    (let s := (neighbours true).modCore 0 fun c => { c with partials := [(0x200100, deposit)] };
      (s.core 0).partials = [(0x200100, deposit)] ∧ Store.find? s.exact 0x200100 = none ∧ s.accepts 1 = true ∧ s.sprigsQuiet 0 = true ∧
        s.arrivals = []) := ⟨noStores_of (by decide +kernel), by decide +kernel, by decide +kernel⟩

/-- The thread of core 0 with interrupts and their enables. -/
def listening (f : Priv → Priv) : State := tk.modPriv 0 fun p => f { p with status := { p.status with ie := true, ien := 31 } }

theorem witness_InterruptsAndDescriptorsArrive :
    (tk.cur.who = .thread ∧ (tk.priv 0).status.pl = .kernel ∧ (tk.priv 0).status.nest = false ∧ Performed tk) ∧
    (((neighbours true).rg 1).toNat ≤ 255 ∧ (neighbours true).named tk.cur 1 1 = .core 1 ∧ 255 < ((put tk [(1, 256)]).rg 1).toNat ∧
      (neighbours true).named tk.cur 2 2 = .unmapped ∧
      ({ tk.modPriv 0 fun p => { p with coretab := 0x40000000 } with granPart := [(1, 1)] } : State).named tk.cur 2 2 = .trap 0x05 6 2) ∧
    (let s := put (described (row 1 7 false 0) .tsync) [(1, 65535), (2, 0x200100)];
      (s.rg 1).toNat ≤ 65535 ∧ bit (s.part (s.partOf 0)).descbase 0 = true ∧ Readable s s.cur 0x200100 64 (xl 0x200100) ∧
      descFault (BitVec.ofNat 512 (s.rdN 0x200100 64)) = none ∧ s.imageHbm (0x400000 + 64 * 65535) = true ∧
      s.blocked s.cur ((0x400000 + 64 * 65535) / 64) = false ∧ s.monitors = [] ∧ s.ownedLoc s.cur (0x400000 + 64 * 65535) = false ∧
      s.cutOff (0x400000 + 64 * 65535) = false) ∧
    (descFault (row 0 7 false 0) = some 8 ∧ descFault (row 1 15 false 0) = some 48 ∧ 65535 < ((put tk [(1, 65536)]).rg 1).toNat) ∧
    ((tk.modStatus 0 fun st => { st with nest := true }).thr 0).run = .running ∧
    ((tk.thr 0).run = .running ∧ (tk.thr 0).ag.inval = false ∧ (tk.core 0).til.queue = [] ∧ ((tk.modCore 0 fun c => { c with mchecks := [⟨1, 0x40, true⟩] }).core 0).mchecks =
      [⟨1, 0x40, true⟩]) ∧
    (let s := listening fun p => { p with timecmp := 0, ipi := [(255, 7)] };
      (s.core 0).mchecks = [] ∧ (s.priv 0).status.sprigtrap = false ∧ (s.priv 0).duty.events = 0 ∧ (s.priv 0).status.ie = true ∧
      (s.priv 0).status.ien.getLsbD 0 = true ∧ (s.priv 0).timecmp.toNat ≤ s.time) ∧
    (let s := listening fun p => { p with timecmp := 1, ipi := [(255, 7)] };
      s.time < (s.priv 0).timecmp.toNat ∧ (s.priv 0).status.ien.getLsbD 1 = true ∧ (s.priv 0).ipi = [(255, 7)] ∧ (s.core 0).mchecks = [] ∧
      (s.priv 0).duty.events = 0) ∧
    (let s := (listening fun p => { p with timecmp := 1 }).modCore 0 fun c => { c with ext := 4, cpy := { c.cpy with reports := [5] } };
      ¬(s.priv 0).timecmp.toNat ≤ s.time ∧ (s.priv 0).ipi = [] ∧ (s.priv 0).status.ien.getLsbD 2 = true ∧ (s.core 0).ext.getLsbD 2 = true ∧
      (∀ n < 2, (s.core 0).ext.getLsbD n = false) ∧ (s.priv 0).status.ien.getLsbD 3 = true ∧ (s.core 0).cpy.reports = [5]) ∧
    (let s := (listening fun p => { p with status := { p.status with sprigtrap := true }, duty := { p.duty with evlimit := true, evwear := true } }).modCore 0 fun c => { c with unrep := 1 };
      (s.priv 0).status.sprigtrap = true ∧ (s.core 0).unrep ≠ 0 ∧ (s.priv 0).status.ien.getLsbD 4 = true ∧
      ((s.priv 0).duty.evthrottle || (s.priv 0).duty.evrestore || (s.priv 0).duty.evwear || (s.priv 0).duty.evlimit) = true ∧
      ((s.modCore 0 fun c => { c with unrep := 0 }).core 0).unrep = 0) ∧
    ((tk.core 0).claimed = false ∧ (resting.thr 0).run = .idle 0) := by
  refine ⟨⟨by decide +kernel, by decide +kernel, by decide +kernel, tk_performed⟩, by decide +kernel, ⟨by decide +kernel, by decide +kernel,
    readable_of (by decide +kernel), by decide +kernel, by decide +kernel, by decide +kernel, by decide +kernel, by decide +kernel,
    by decide +kernel⟩, by decide +kernel,
    by decide +kernel, by decide +kernel, by decide +kernel, by decide +kernel, by decide +kernel, by decide +kernel, by decide +kernel⟩

/-! ### Power, errors, the pool, host ports -/

theorem witness_PowerAndClocks :
    ((0 : Nat) < 125 / 125 - tk.statics ∧ ({ tk with time := 9999 } : State).time < (tk.epochs + 1) * 10000 ∧
      (tk.epochs + 1) * 10000 ≤ ({ tk with time := 10000 } : State).time) ∧
    (((tk.modVat 63 fun v => { v with next := some 10 }).vat 63).next = some 10 ∧ (tk.vat 63).next = none) ∧
    (∀ now ∈ [0, 9999, 10000, 10001], let s : State := { tk with sched := [.pass 5], time := now };
      s.sched = .pass 5 :: [] ∧ (s.time ≤ (s.epochs + 1) * 10000 ∨ (s.epochs + 1) * 10000 ≤ s.time)) ∧
    tk.time < tk.epochs * 10000 + 2000 ∧
    (∀ c < 4, (State.reset.thr (4 * 63 + c)).run ≠ .running ∧ (State.reset.core (4 * 63 + c)).arr.n = 0 ∧
      (State.reset.core (4 * 63 + c)).til.queue = [] ∧ (State.reset.core (4 * 63 + c)).cpy.cmds = []) ∧
    (tk.thr (4 * 0 + 0)).run = .running ∧
    (let s := (tk.modVat 1 fun v => { v with stopped := true }).modPriv 4 fun p => { p with timecmp := 0 };
      (s.vat 1).stopped = true ∧ (s.priv 4).timecmp.toNat ≤ s.time) ∧
    (let s := State.reset.modVat 63 fun v => { v with stopped := true };
      (s.vat 63).stopped = true ∧ s.inbound = [] ∧ ∀ c < 4, (s.core (4 * 63 + c)).mchecks = [] ∧
        ((s.priv (4 * 63 + c)).duty.evthrottle || (s.priv (4 * 63 + c)).duty.evrestore || (s.priv (4 * 63 + c)).duty.evwear ||
          (s.priv (4 * 63 + c)).duty.evlimit) = false ∧ s.time < (s.priv (4 * 63 + c)).timecmp.toNat ∧ (s.priv (4 * 63 + c)).ipi = [] ∧
        (s.core (4 * 63 + c)).ext = 0 ∧ (s.core (4 * 63 + c)).cpy.reports = []) ∧
    ((tk.vat 1).stopped = false ∧ ((tk.modVat 1 fun v => { v with stopped := true }).vat 1).stopped = true) ∧
    ((tk.modVat 1 fun v => { v with stopped := true }).lowestRunning 0 (some 1) none = some 0 ∧ (tk.core 0).mchecks.length < 16) ∧
    (let s := (tk.modThr 4 fun t => { t with run := .lost }).modPart 0 fun p => { p with restart := some 0x200002 };
      (s.thr 4).run = .lost ∧ (s.part (s.partOf 4)).restart = some 0x200002) ∧
    ((tk.thr 0).run ≠ .lost ∧ (tk.part 0).restart = none) ∧
    (((tk.modCore 0 fun c => { c with resident := true }).core 0).resident = true ∧ (tk.priv 0).duty.cap ≤ 31 ∧ (tk.thr 0).cycle.toNat % 16 < min (tk.priv 0).duty.tree (tk.priv 0).duty.cap) := by
  decide +kernel

theorem witness_ErrorsAreHeldAndReported :
    ((tk.thr 0).run ≠ .halted ∧ (tk.thr 0).run ≠ .lost ∧ (tk.core 0).mchecks.length < 16) ∧
    Store.find? dirty.behind (0x200100 / 64) = some ⟨0, 0, 0x200100⟩ ∧ Store.find? tk.behind 0 = none ∧
    (tk.firstRunning = some 0 ∧ tk.res = [] ∧ tk.sliceQ = [] ∧ tk.tagQ = [] ∧ tk.monitors = [] ∧ tk.parks = [] ∧ tk.behind = []) := by decide +kernel

/-- Pool region 0 of 256 MiB at the start of the aperture, served by port 1, with an alternate, port 2, where the second argument says so. -/
def regionOn (st : PoolSt) (alt : Bool) : Region :=
  ⟨2 ^ 28 * 2 ^ 22 + (if alt then 0x20 + 2 * 8 else 0) + 1 * 2 + 1, 1, st, false, 0, 0, [], []⟩

/-- The region, with the link of a port up or down. -/
def pooling (st : PoolSt) (alt : Bool) (up1 up2 : BitVec 2) : State :=
  { tk with pool := [(0, regionOn st alt)], ports := [(1, { Port.reset with link := up1 }), (2, { Port.reset with link := up2 })] }

/-- A write to the region is in flight. -/
def awaiting : State := { tk with pool := [(0, { regionOn .online false with inFlight := [⟨4, 2 ^ 50 / 64, ⟨0, 0, 2 ^ 50⟩⟩] })] }

theorem witness_PoolRegionsFollowTheirLinks :
    ((pooling .online false 3 0).port (bits ((pooling .online false 3 0).region 0).w0 2 1)).link.getLsbD 0 = true ∧
    (let s := pooling .online true 0 3; let g := s.region 0;
      g.w0.getLsbD 0 = true ∧ g.st = .online ∧ (s.port (bits g.w0 2 1)).link.getLsbD 0 = false ∧ g.w0.getLsbD 5 = true ∧ g.onAlt = false ∧
      (s.port (bits g.w0 4 3)).link.getLsbD 0 = true) ∧
    (let s := pooling .online false 0 3; let g := s.region 0; g.w0.getLsbD 0 = true ∧ g.st = .online ∧ g.w0.getLsbD 5 = false ∧
      (s.port (bits g.w0 2 1)).link.getLsbD 0 = false ∧ s.behind = [] ∧ g.inFlight = [] ∧ g.lostcnt = 0 ∧ g.lostcnt + g.inFlight.length < 2 ^ 48 ∧
      g.holds (64 * (2 ^ 50 / 64)) = true) ∧
    (∀ n, ({ pooling .online false 0 3 with behind := [(2 ^ 50 / 64, ⟨0, 0, 2 ^ 50⟩)] } : State).strandedOn n < 2048) ∧
    (let s := { awaiting with poolFences := [⟨tk.cur, ⟨[4], none, true⟩, some 0x200140⟩] };
      (s.region 0).inFlight = [⟨4, 2 ^ 50 / 64, ⟨0, 0, 2 ^ 50⟩⟩] ∧ (s.region 0).lostcnt = 0 ∧ s.behind = [] ∧ (s.region 0).st = .online ∧
        s.poolFences = [⟨⟨0, .thread⟩, ⟨[4], none, true⟩, some 0x200140⟩] ∧ s.partOf 0 = bits (s.region 0).w0 17 16 ∧
        4 ∈ [4] ∧ s.parks = [] ∧ s.res = [] ∧ s.sliceQ = [] ∧ s.tagQ = [] ∧ s.inbound = [] ∧ s.monitors = [] ∧ (s.priv 0).status.nest = false) ∧
    (let m : Monitor := ⟨⟨4, .thread⟩, 0x200100, 2 ^ 50 + 0x100, 0, 3⟩;
      let s := { pooling .online false 0 3 with monitors := [m] };
      s.behind = [] ∧ (s.region 0).inFlight = [] ∧ s.parks = [] ∧ s.poolFences = [] ∧ s.res = [] ∧ s.sliceQ = [] ∧ s.tagQ = [] ∧ s.inbound = [] ∧ s.monitors = [m] ∧
      (isPool m.loc && (s.region 0).holds m.loc) = true ∧ (s.priv 4).status.nest = false) ∧
    (let k : CopyCmd := ⟨7, .copy, 0x200200, 0x200240, 8, 0, .pool, 0, 0, 0, 0, none, .kernel, 0, 0, 1000, .started, 1, [], [], some ⟨[4], none, true⟩⟩;
      k ∈ ((awaiting.modCore 0 fun c => { c with cpy := { c.cpy with cmds := [k] } }).core 0).cpy.cmds) ∧
    (let s := pooled; (s.region 0).st = .lost ∧ (s.region 0).w0.getLsbD 0 = true ∧ s.regionOf (2 ^ 50 + 64) = some 0 ∧
      isPool (2 ^ 50 + 64) = true ∧ Store.find? (s.region 0).stranded ((2 ^ 50 + 64) / 64) = none ∧ canonical 0x200040 = true) ∧
    (pooled.access (pooled.accOf pooled.cur) .r 0x200040 = .ok (xl (2 ^ 50 + 64)) ∧
      pooled.access (pooled.accOf pooled.cur) .w 0x200040 = .ok (xl (2 ^ 50 + 64))) ∧
    (let s := pooling .failover true 0 0; let g := s.region 0;
      g.w0.getLsbD 0 = true ∧ g.st = .failover ∧ (s.port (bits g.w0 4 3)).link.getLsbD 0 = false) ∧
    (isPool (64 * (2 ^ 44)) = true ∧ isPool (64 * (2 ^ 44 - 1)) = false ∧ (pooling .online false 3 0).regionOf (64 * 2 ^ 44) = some 0) ∧
    (let s := put (pooling .lost false 3 0) [(1, 2 ^ 48)]; let g := s.region 0;
      (s.rg 1).getLsbD 48 = true ∧ bits (s.rg 1) 59 50 = 0 ∧ g.st = .lost ∧ g.stranded = [] ∧
      (s.port (bits g.w0 2 1)).link.getLsbD 0 = true ∧ (s.priv 0).status.pl = .kernel ∧ (s.priv 0).status.nest = false) ∧
    (lostRegion.stranded ≠ [] ∧ ((pooling .lost false 0 0).port 1).link.getLsbD 0 = false ∧
      (regionOn .lost false).w0.getLsbD 5 = false ∧ (pooling .online false 3 0).region 1 = Region.reset ∧ Region.reset.w0.getLsbD 0 = false) := by
  refine ⟨by decide +kernel, by decide +kernel, by decide +kernel, fun n => ?_, by decide +kernel, by decide +kernel, by decide +kernel,
    by decide +kernel, ⟨ok_of (by decide +kernel), ok_of (by decide +kernel)⟩, by decide +kernel, by decide +kernel, by decide +kernel, by decide +kernel⟩
  simp [State.strandedOn, pooling, regionOn, sumNat]

/-- The page at 0x20_0000 maps to a region that is ONLINE, with a dirty line at 0x20_0100. -/
def onPool (flying : List Flight) (fences : List PoolFence) : State :=
  { tk with
    pool := [(0, { regionOn .online false with inFlight := flying })], mem := putWord tk.mem 0x15008 (2 ^ 50 + 3)
    behind := [((2 ^ 50 + 0x100) / 64, ⟨0, 0, 2 ^ 50 + 0x100⟩)], poolFences := fences }

theorem witness_PoolReleases :
    ((awaiting.ag awaiting.cur).sb = [] ∧ (awaiting.core 0).partials = [] ∧ awaiting.poolFences = [] ∧
      awaiting.poolFlights (awaiting.partOf 0) = [4] ∧ tk.poolFences = [] ∧ tk.poolFlights (tk.partOf 0) = []) ∧
    ((onPool [] []).poolFlights 0 = [] ∧ ((onPool [] []).cleanPool 0).poolFlights 0 ≠ []) ∧
    (∀ s ∈ [awaiting, tk], ({ s with poolFences := [⟨s.cur, ⟨[4], none, false⟩, none⟩] } : State).poolFlights 0 = s.poolFlights 0) ∧
    (∀ fs ∈ [[], [(⟨tk.cur, ⟨[4], none, true⟩, some 0x200100⟩ : PoolFence)]], ∀ w ∈ [[], [(⟨4, 2 ^ 44, ⟨0, 0, 2 ^ 50⟩⟩ : Flight)]],
      let s := onPool w fs;
      isOk (s.access (s.accOf s.cur) .r 0x200100) (xl (2 ^ 50 + 0x100)) = true ∧ isPool (2 ^ 50 + 0x100) = true ∧ isDevice (2 ^ 50 + 0x100) = false ∧
        s.poolLost (2 ^ 50 + 0x100) = false ∧ s.regionOf (64 * ((2 ^ 50 + 0x100) / 64)) = some 0 ∧
        (Store.find? s.behind ((2 ^ 50 + 0x100) / 64)).isSome ∧ s.poolFences = fs ∧ s.poolFlights (s.partOf 0) = w.map fun f => f.id) ∧
    (let s := { pooled with pool := [(0, { lostRegion with stranded := [(2 ^ 44, 7, 0, true)] })] };
      isOk (s.access (s.accOf s.cur) .r 0x200000) (xl (2 ^ 50)) = true ∧ Store.find? (s.region 0).stranded (2 ^ 50 / 64) = some (7, 0, true) ∧
        (s.region 0).st = .lost ∧ (s.priv 0).status.pl ≠ .user ∧ (s.ag s.cur).ahead = []) := by decide +kernel

/-- A `bcopyc` of 8 bytes at pool scope that has moved its line, at a stage, with its release. -/
def poolCopy (s : State) (stage : CopyStage) (release : Option PoolWait) : State :=
  s.modCore 0 fun c => { c with cpy := { c.cpy with cmds :=
    [⟨7, .lines, 0x200200, 0x200240, 8, 0x200300, .pool, 0, 1, 0, 1, none, .kernel, 0, 0, 1000, stage, 1, [0x200200 / 64], [], release⟩] } }

theorem witness_PoolCopiesReleaseInStages :
    (∀ g ∈ [CopyStage.started, .signal 8], ∀ r ∈ [none, some (⟨[4], none, false⟩ : PoolWait), some ⟨[4], none, true⟩],
      ∀ s ∈ [awaiting, onPool [] [], tk], ∃ m, (poolCopy s g r).cmd? 0 7 = some m ∧ m.scope = .pool ∧ m.stage = g ∧ (∀ l ∈ m.destLines, l ∈ m.moved) ∧
        m.release = r ∧ m.kind = .lines ∧ m.sinc ≠ 0 ∧ ((poolCopy s g r).sem 0 m.ssem.toNat).queue = [] ∧
        (poolCopy s g r).poolFlights 0 = s.poolFlights 0 ∧ m.sprig = none) ∧
    (awaiting.poolFlights 0 = [4] ∧ (onPool [] []).poolFlights 0 = [] ∧ ((onPool [] []).cleanPool 0).poolFlights 0 ≠ []) ∧
    (let s := poolCopy tk .started (some ⟨[4], none, true⟩); ∃ m, s.cmd? 0 7 = some m ∧ isOk (s.access (m.acc 0) .w m.cword) (xl 0x200300) = true ∧
      s.blocked (engineId 0) (0x200300 / 64) = false ∧ s.unreachable = [] ∧ s.ue = [] ∧ s.pool = [] ∧ s.poolLost 0x200300 = false ∧
      isDevice 0x200300 = false ∧ 4 ∉ s.poolFlights (s.partOf 0)) := by
  refine ⟨?_, by decide +kernel, ⟨_, rfl, by decide +kernel⟩⟩
  intro g hg r hr s hs
  simp only [List.mem_cons, List.not_mem_nil, or_false] at hg hr hs
  obtain rfl | rfl := hg <;> obtain rfl | rfl | rfl := hr <;> obtain rfl | rfl | rfl := hs <;> exact ⟨_, rfl, by decide +kernel⟩

/-- Host port 0 serves function 0xFFFF, whose entry, in a table at 0x30_0000, has domain 5, translation and page requests; domain 5 may do
everything in the low addresses. -/
def ported : State :=
  let s := (tk.modPort 0 fun p => { p with ctl := 0x300001 }).modPart 0 fun p => { p with protroot := 1 }
  { s.modCore 0 fun c => { c with plb := [⟨5, 0, 2 ^ 20, false, 3⟩] } with
    mem := putWord tk.mem (0x300000 + 16 * 0xFFFF) (7 + 5 * 2 ^ 38) }

/-- A request of the function, the first that waits. -/
def asks (r : PortReq) : Inbound := ⟨0, 0, 0xFFFF, r⟩

/-- A function whose domain may only read. -/
def readOnly : State := { ported with cores := Store.mapV (fun _ c => { c with plb := [⟨5, 0, 2 ^ 20, false, 1⟩] }) ported.cores }

theorem witness_AtomicsNeedBothRights :
    readOnly.ioEntry (asks (.page 0x200100)) = .ok (7 + 5 * 2 ^ 38) ∧
    readOnly.allowed (readOnly.ioAcc (asks (.page 0x200100)) (7 + 5 * 2 ^ 38)) .r 0x200100 = .ok true ∧
    readOnly.allowed (readOnly.ioAcc (asks (.page 0x200100)) (7 + 5 * 2 ^ 38)) .w 0x200100 = .ok false :=
  ⟨ok_of (by decide +kernel), ok_of (by decide +kernel), ok_of (by decide +kernel)⟩

def pageAsked : Inbound := asks (.page 0x200100)

/-- Another agent holds the line at 0x20_0100. -/
def contended : State := { ported with res := [(0x200100 / 64, ⟨0, 0x200100 / 64, some ⟨1, .thread⟩, true, 0, []⟩)] }

theorem witness_HostPortsServeRequests :
    (tk.pool = [] ∧ (tk.port 0).ctl.getLsbD 0 = false) ∧ (ported.port 0).ctl.getLsbD 0 = true ∧ ported.inboundId = 0 ∧
    (NoQueues ported ∧ ported.inbound = [] ∧ ported.tagQ = [] ∧ ported.monitors = [] ∧ ported.parks = [] ∧ ported.poolFences = []) ∧
    (∀ n, (ported.vat n).stopped = false) ∧
    (ported.ioEntry pageAsked = .ok (7 + 5 * 2 ^ 38) ∧ ported.ioEntry { pageAsked with rid := 0 } = .error (.trap 0x0E 0)) ∧
    ((0x20013F#64).toNat % 64 + 1 ≤ 64 ∧ (0x200140#64).toNat % 64 + 64 ≤ 64 ∧ (0x200100#64).toNat % 8 = 0) ∧
    (let c := ported.ioAcc pageAsked (7 + 5 * 2 ^ 38);
      ported.access c .r 0x200100 = .ok (xl 0x200100) ∧ ported.access c .w 0x200100 = .ok (xl 0x200100) ∧
      ported.poolLost 0x200100 = false ∧ ported.cutOff 0x200100 = false ∧ isDevice 0x200100 = false ∧
      ported.blocked c.agent (0x200100 / 64) = false ∧ contended.blocked c.agent (0x200100 / 64) = true ∧ ported.ueAt 0x200100 8 = false ∧
      ported.access c .r 0x100000000 = .error (.trap 0x04 0) ∧ ported.allowed c .r 0x200100 = .ok true ∧ ported.allowed c .w 0x200100 = .ok true ∧
      contended.access c .r 0x200100 = .ok (xl 0x200100) ∧ contended.ioEntry pageAsked = .ok (7 + 5 * 2 ^ 38) ∧
      (ported.walkPage c.agent 0x200100).toOption.isSome ∧ ported.walkPage c.agent 0x100000000 = .error (.trap 0x05 1)) ∧
    (canonical 0x200100 = true ∧ canonical 0x80000000000000 = false ∧ inSysWindow 0x200100 = false ∧ inSysWindow 0x100000000 = false) ∧
    ((ported.port 0).fsrc.getLsbD 63 = false ∧ ((ported.modPort 0 fun p => { p with fsrc := 2 ^ 63 }).port 0).fsrc.getLsbD 63 = true ∧
      Nat.testBit (7 + 5 * 2 ^ 38) 1 = true ∧ Nat.testBit (7 + 5 * 2 ^ 38) 2 = true) ∧
    asks (.write 0x200100 [1]) ∈ ({ ported with inbound := [asks (.write 0x200100 [1])] } : State).inbound :=
  ⟨by decide +kernel, by decide +kernel, by decide +kernel, ⟨noQueues_of (by decide +kernel), by decide +kernel, by decide +kernel, by decide +kernel,
    by decide +kernel, by decide +kernel⟩, fun n => by simpa [State.vat] using getD_all (fun v : Vat => !v.stopped) ported.vats n Vat.reset (by decide +kernel) rfl,
    ⟨ok_of (by decide +kernel), err_of (by decide +kernel)⟩, by decide +kernel,
    ⟨ok_of (by decide +kernel), ok_of (by decide +kernel), by decide +kernel, by decide +kernel, by decide +kernel, by decide +kernel,
      by decide +kernel, by decide +kernel, err_of (by decide +kernel), ok_of (by decide +kernel), ok_of (by decide +kernel),
      ok_of (by decide +kernel), ok_of (by decide +kernel), by decide +kernel, err_of (by decide +kernel)⟩,
    by decide +kernel, by decide +kernel, by decide +kernel⟩

/-! ### Caltik, firmware, start-up -/

/-- A schedule of 100 ns under a watchdog that ends at 5. -/
def watched (now : Nat) (sure : Bool) : State :=
  { tk with sched := [.pass 100], time := now, caltik := { tk.caltik with watchdog := some 5, confirmed := sure } }

theorem witness_WatchdogTime :
    ((watched 0 false).sched = [.pass 100] ∧ (watched 0 false).caltik.watchdog = some 5 ∧ (watched 0 false).caltik.confirmed = false ∧
      (watched 0 false).time ≤ 5) ∧ 5 ≤ (watched 5 false).time := by decide +kernel

/-- Caltik after a negotiation of features. -/
def negotiated (f : BitVec 128) : State :=
  { tk with caltik := { tk.caltik with negotiated := true, feature := f, busy := none, log := [7], slot1 := ⟨2, 1, true⟩, image1 := ⟨[], true⟩, active := 0 } }

theorem witness_CaltikAnswersItsCommands :
    (let s := { tk with caltik := { tk.caltik with busy := some ⟨0, 1, 0, 0, 7, .bytes []⟩ } };
      s.caltik.busy = some ⟨0, 1, 0, 0, 7, .bytes []⟩) ∧
    ((negotiated 0xFF).caltik.busy = none ∧ tk.caltik.negotiated = false ∧ (negotiated 0xFE).caltik.feature.getLsbD 0 = false ∧
      (∀ n < 5, (negotiated 0xFF).caltik.feature.getLsbD n = true ∧ (negotiated 0).caltik.feature.getLsbD n = false) ∧
      (negotiated 0xFF).heldInReset = false) ∧
    ((1200 : Nat) ≤ 1200 ∧ (2400 : Nat) ≤ 2400 ∧ ¬(2401 : Nat) ≤ 2400 ∧ (30 : Nat) ≤ 30 ∧ (3600 : Nat) ≤ 3600 ∧ (3600 : Nat) < 3601) ∧
    ((negotiated 0xFF).mapOk [] = true ∧ (negotiated 0xFF).mapFree [] = true ∧
      (negotiated 0xFF).mapFree [⟨[], [], [], 0, 0, 0, 0, []⟩] = false) ∧
    (((negotiated 0xFF).caltik.slot 1).valid = true ∧ (tk.caltik.slot 1).valid = false) ∧
    (1 ≤ (negotiated 0xFF).caltik.log.length ∧ (negotiated 0xFF).caltik.log.length < 2) ∧
    (({ (negotiated 0xFF).caltik with watchdog := some 5, confirmed := false } : Caltik).watchdog = some 5 ∧ (4 : Nat) < 5) ∧
    ((negotiated 0xFF).caltik.minSec ≤ ((negotiated 0xFF).caltik.slot 1).secVersion ∧ ((negotiated 0xFF).caltik.image 1).signed = true ∧
      ({ negotiated 0xFF with heldInReset := true } : State).heldInReset = true ∧ (0x21#8) ≠ 0x20 ∧ (negotiated 0xFF).behind = [] ∧
      (⟨0, [0], []⟩ : Startup).parts = []) ∧
    (([] : List Byte).length ≤ 4088 ∧ 4088 < (List.replicate 4089 (0 : Byte)).length) := by
  refine ⟨by decide +kernel, by decide +kernel, by decide +kernel, by decide +kernel, by decide +kernel, by decide +kernel, by decide +kernel,
    by decide +kernel, by decide, by rw [List.length_replicate]; decide⟩

theorem witness_FirmwareCallsReturnTheirResults :
    (tk.cur.who = .thread ∧ (tk.priv 0).status.nest = false ∧ (tk.priv 0).status.pl = .kernel ∧ (tu.priv 0).status.pl = .user) ∧
    (1200 ≤ ((put tk [(2, 2400)]).rg 2).toNat ∧ ((put tk [(2, 2400)]).rg 2).toNat ≤ 2400 ∧ 2400 < ((put tk [(2, 2401)]).rg 2).toNat) ∧
    (canonical ((put tk [(2, 0x200038)]).rg 2) = true ∧ isHeadAddr ((put tk [(2, 0x200038)]).rg 2).toNat = true ∧
      isHeadAddr ((put tk [(2, 0x200000)]).rg 2).toNat = false) ∧
    (∀ k < 48, Readable tk tk.cur ((put tk [(2, 0x200100)]).rg 2 + BitVec.ofNat 64 k) 1 (xl (0x200100 + k))) ∧
    (∀ k < 96, Ready tk tk.cur .w ((put tk [(3, 0x200200)]).rg 3 + BitVec.ofNat 64 k) (xl (0x200200 + k))) ∧
    (∀ k < 64, ∀ n < 64, k ≠ n → (xl (0x200200 + k)).loc ≠ (xl (0x200200 + n)).loc) ∧
    canonical ((put tk [(2, 0x80000000000000)]).rg 2) = false ∧
    (((put tk [(2, 0)]).rg 2).toNat < (negotiated 0).caltik.log.length ∧ (negotiated 0).caltik.log.length ≤ ((put tk [(2, 1)]).rg 2).toNat) := by
  have h : Flat tk := ⟨by decide +kernel, by decide +kernel, by decide +kernel, by decide +kernel, by decide +kernel, by decide +kernel,
    ok_of (by decide +kernel), ok_of (by decide +kernel), ok_of (by decide +kernel), ok_of (by decide +kernel), ok_of (by decide +kernel),
    by decide +kernel, by decide +kernel, by decide +kernel, by decide +kernel, by decide +kernel, by decide +kernel⟩
  have hr : ∀ (rt : Right) (v : Nat), 0x200000 ≤ v → v < 0x400000 → Ready tk tk.cur rt (BitVec.ofNat 64 v) (xl v) := by
    intro rt v h1 h2
    refine ⟨?_, flat_access h h1 h2 rt, rfl, ?_, ?_⟩
    · simp only [canonical, BitVec.toNat_ofNat, Bool.or_eq_true, beq_iff_eq]; omega
    · simp only [State.poolLost, State.regionOf, show tk.pool = [] by decide +kernel, List.find?_nil, Option.map_none, Bool.and_false]
    · show isDevice v = false
      simp only [isDevice, Bool.and_eq_false_iff, decide_eq_false_iff_not]; omega
  refine ⟨by decide +kernel, by decide +kernel, by decide +kernel, fun k hk => ?_, fun k hk => ?_, fun k _ n _ h => by simp only [xl]; omega,
    by decide +kernel, by decide +kernel⟩
  · rw [show (put tk [(2, 0x200100)]).rg 2 = BitVec.ofNat 64 0x200100 by decide +kernel, ← BitVec.ofNat_add]
    refine ⟨hr .r _ (by omega) (by omega), Nat.mod_one _, ?_, ?_, rfl, by decide +kernel, fun w => by cases w⟩
    · exact ueSeen_clean (by decide +kernel) (by decide +kernel) _ _ _
    · simp [State.blocked, show tk.res = [] by decide +kernel]
  · rw [show (put tk [(3, 0x200200)]).rg 3 = BitVec.ofNat 64 0x200200 by decide +kernel, ← BitVec.ofNat_add]
    exact hr .w _ (by omega) (by omega)

/-- A partition of two vats, of HBM granules 0 and 511 and of ports 0 and 3, whose image of one byte stands in frame 0x20_0000. -/
def bootOne : PartBoot := ⟨[0, 63], [0, 511], [0, 3], 0x200002, 0x200000, 0x200000, 0x10000, [7]⟩

theorem witness_PackageResetStartsThePartitions :
    (tk.caltik.slot0.valid = true ∧ tk.caltik.image0.signed = true ∧ tk.caltik.minSec ≤ tk.caltik.slot0.secVersion ∧ tk.behind = []) ∧
    (let k : Caltik := { tk.caltik with slot0 := ⟨0, 0, false⟩, slot1 := ⟨0, 0, false⟩ }; ¬(k.slot0.valid = true ∨ k.slot1.valid = true)) ∧
    (bootOne.vats.Nodup ∧ bootOne.granules.Nodup ∧ bootOne.ports.Nodup ∧ (∀ v ∈ bootOne.vats, v < 64) ∧ ∀ j ∈ bootOne.ports, j < 4) ∧
    ¬(∀ v ∈ [64], v < 64) ∧
    (let all := [bootOne, { bootOne with vats := [1], granules := [1], ports := [1] }];
      (all.flatMap fun x => x.vats).Nodup ∧ (all.flatMap fun x => x.granules).Nodup ∧ (all.flatMap fun x => x.ports).Nodup ∧ all.length ≤ 4) ∧
    bootOne.tableAt + 0x1000 * (7 + bootOne.image.length / 2 ^ 30) ≤ bootOne.imageAt / 2 ^ 21 * 2 ^ 21 + bootOne.va.toNat % 2 ^ 21 ∧
    (Config.freeVerifies [7] = true ∨ Config.freeVerifies [7] = false) := by
  refine ⟨by decide +kernel, by decide +kernel, by decide +kernel, by decide, by decide +kernel, by decide +kernel, ?_⟩
  cases Config.freeVerifies [7] <;> simp

/-! ### Encoding, the step, the invariant -/

theorem witness_DecodeOfEncode : (Instr.bloadb ⟨1, 2, 3, 4, 5, 6, 7, .pool⟩).encodable = true ∧
    (Instr.bloadb ⟨1, 2, 3, 4, 5, 6, 7, .pool⟩).wellFormed = true := by decide +kernel

theorem witness_EncodeOfDecode : decode 0x4943 0x0000040A = .ok (.mcas 3 0 .pkg 10) ∧ opAssigned ((0x4943#16).toNat / 256) = true ∧
    0x0000040A < 2 ^ (16 * headTl 0x4943) := by decide +kernel

/-- The line of a `nop`. -/
def nopLine : BitVec 512 := lineOf 0x3700 0

theorem witness_StepRunsTheDecodedInstruction :
    (let a : AgentId := ⟨0, .thread⟩; let s := { tk with sched := [.agent a] };
      s.sched = [.agent a] ∧ (s.thr 0).run = .running ∧ s.pendingEvent 0 = none ∧ s.dutyOk 0 = true ∧ (s.core 0).til.queue = [] ∧
      (∀ p ∈ s.parks, p.who ≠ a) ∧ decodeSlot nopLine ((s.pcOf a).toNat % 64 / 2 - 1) = .ok .nop ∧ (s.ag a).snap = none ∧
      Readable s a (s.pcOf a &&& ~~~63#64) 64 (xl 0x200000) ∧ nopLine = BitVec.ofNat 512 (s.rdN 0x200000 64) ∧
      s.partStored (0x200000 / 64) = false ∧ (s.ag a).late = [] ∧
      s.access (s.accOf a) .x (s.pcOf a &&& ~~~63#64) = .ok (xl 0x200000) ∧ lineCheck nopLine ((s.pcOf a).toNat % 64 / 2 - 1) = none ∧
      Instr.nop.isResolved = false ∧
      ((s.modAg a fun g => { g with snap := some ⟨0x200000, nopLine⟩ }).ag a).snap = some ⟨0x200000, nopLine⟩) ∧
    (let b : AgentId := ⟨0, .sprig 0⟩; let s := { sp.modSprig 0 0 fun p => { p with free := true } with sched := [.agent b] };
      (s.sprig 0 0).st = .running ∧ (s.priv 0).status.shold = false ∧ s.dutyOk 0 = true ∧ (∀ p ∈ s.parks, p.who ≠ b) ∧
      s.coreDead 0 = false ∧ (s.ag b).wait = none ∧
      decodeSlot nopLine ((s.pcOf b).toNat % 64 / 2 - 1) = .ok .nop ∧ (s.ag b).snap = none ∧ (s.pcOf b &&& ~~~63#64).toNat < 0x10000 ∧
      (s.sprig 0 0).free = true ∧ s.blockOwned 0 0 = false ∧ (s.core 0).arr.blkUe = [] ∧ nopLine = Store.get (s.core 0).arr.blk 0 0 ∧
      lineCheck nopLine 0 = none) ∧
    ((Instr.timer 0).isEvent = true ∧ (Instr.timer 0).wellFormed = true) :=
  ⟨⟨by decide +kernel, by decide +kernel, by decide +kernel, by decide +kernel, by decide +kernel, by decide +kernel, by decide +kernel,
    by decide +kernel, readable_of (by decide +kernel), by decide +kernel, by decide +kernel, by decide +kernel, ok_of (by decide +kernel),
    by decide +kernel, by decide +kernel, by decide +kernel⟩, by decide +kernel, by decide +kernel⟩

def isNext (o : Host.Outcome State Fault Refusal) : Bool :=
  match o with
  | .next _ => true
  | .fault _ | .refused _ => false

theorem witness_StepKeepsMemoryCanonical : tk.memWf ∧ ∃ t, step tk = .next t := by
  refine ⟨by unfold State.memWf; decide +kernel, ?_⟩
  have h : isNext (step tk) = true := by decide +kernel
  cases hs : step tk with
  | next t => exact ⟨t, rfl⟩
  | fault f => rw [hs] at h; exact absurd h (by simp [isNext])
  | refused r => rw [hs] at h; exact absurd h (by simp [isNext])

/-! ### Ill-formed terms -/

/-- Every term is refused. -/
abbrev Refused (ls : List (List Instr)) : Prop := (ls.all fun l => l.all fun i => !i.wellFormed) = true

theorem test_ill_formed_Scalar : Refused
  [[.fcvt (.toFloat .f64 true .u64) .rne 1 2, .jmp 0 28, .call 0 0 27, .call 1 0 28, .callr 0 1, .br .eq 0 false 31 1 2,
   .brz .ltz 0 false 28 1, .callx 0 1, .rdsr 1 0x00B, .wrsr 1 0xFFF, .unassignedOpcode 0x3700]] := by decide +kernel

theorem test_ill_formed_Sprig : Refused
  [[.sget 1 2 35, .lsend .b8 0 0, .lrecv .b8 0 8, .lsend .b8 0 0x38, .skillSprigStop 0 64, .skillSprigStop 256 0]] := by decide +kernel

theorem test_ill_formed_VectorArithmetic : Refused
  [[.vadd ⟨.b8, false, 0⟩ .rne 0 0 0, .vsub ⟨.e4m3, false, 0⟩ .dyn 0 0 0, .vmul ⟨.e8m0, false, 0⟩ .dyn 0 0 0,
   .vfma ⟨.b32, false, 0⟩ .dyn 0 0 0 0, .vdiv ⟨.b8, false, 0⟩ .dyn 0 0 0, .vmin ⟨.f32, false, 0⟩ true 0 0 0,
   .vmax ⟨.e5m2, false, 0⟩ false 0 0 0, .vand ⟨.f32, false, 0⟩ 0 0 0, .vor ⟨.f64, false, 0⟩ 0 0 0, .vxor ⟨.e8m0, false, 0⟩ 0 0 0],
   [.vshlVec ⟨.f16, false, 0⟩ 0 0 0, .vshlImm ⟨.f16, false, 0⟩ 0 0 0, .vshrVec ⟨.f16, false, 0⟩ 0 0 0, .vshrImm ⟨.f16, false, 0⟩ 0 0 0,
   .vsraVec ⟨.f16, false, 0⟩ 0 0 0, .vsraImm ⟨.f16, false, 0⟩ 0 0 0, .vcmp ⟨.b8, false, 0⟩ .un false 0 0 0,
   .vcmp ⟨.f16, false, 0⟩ .eq true 0 0 0, .vneg ⟨.e4m3, false, 0⟩ false 0 0, .vsqrt ⟨.b64, false, 0⟩ .dyn 0 0],
   [.vrcp ⟨.f64, false, 0⟩ 0 0, .vrsq ⟨.b32, false, 0⟩ 0 0, .vexp2 ⟨.f64, false, 0⟩ 0 0, .vlog2 ⟨.e4m3, false, 0⟩ 0 0,
   .vaddsat ⟨.f32, false, 0⟩ false false 0 0 0, .vmulhi ⟨.f32, false, 0⟩ false 0 0 0, .vbitc ⟨.f32, false, 0⟩ false 0 0,
   .vdot ⟨.f16, false, 0⟩ true 0 0 0, .vdot ⟨.b32, false, 0⟩ false 0 0 0, .vrng ⟨.b64, false, 0⟩ 0 0]] := by decide +kernel

theorem test_ill_formed_VectorMoves : Refused
  [[.vcvt ⟨.f16, false, 0⟩ .f32 .rne false true 0 0, .vcvt ⟨.e8m0, false, 0⟩ .f32 .rne false false 0 0,
   .vcvt ⟨.f32, false, 0⟩ .e8m0 .dyn false true 0 0, .vcvt ⟨.e8m0, false, 0⟩ .e8m0 .dyn true false 0 0,
   .vcvt ⟨.b8, false, 0⟩ .b16 .rne false false 0 0, .vcvts ⟨.f32, false, 0⟩ .f64 false 0 0 0, .vcvts ⟨.f16, false, 0⟩ .b16 false 0 0 0],
   [.vperm ⟨.b16, false, 0⟩ .lo 0 0 0, .vperm ⟨.f16, false, 0⟩ .index 0 0 0, .valign ⟨.b16, false, 0⟩ 0 0 0 0,
   .vbcast ⟨.b8, false, 0⟩ false 0 32, .vextr .b64 8 0 0, .vins .b8 64 0 0, .vred .e4m3 0 .add false 0 0, .vred .f32 0 .and false 0 0,
   .vscan ⟨.b8, false, 0⟩ .add true 0 0, .vscan ⟨.f32, false, 0⟩ .min true 0 0],
   [.vgath ⟨.e4m3, false, 0⟩ 0 0 0 0, .vscat .e8m0 0 0 0 0 0, .viota ⟨.f32, false, 0⟩ 0, .kop .not 1 2 3, .crd .b32 0 0 0 0,
   .cwr .f64 0 2 0 0]] := by decide +kernel

theorem test_ill_formed_TileAndCopy : Refused
  [[.tld false .f32 0 0 0 0, .tld true .f16 0 0 0 0, .tldc .f16 0 0 0 0, .tst .b16 0 0 0 0, .tstc .b8 0 0 0 0, .tmma .b64 false false 0 0 0,
   .tmma .f16 true false 0 0 0, .tmmas false .f64 false false 0 0 0 0, .tmmas true .f16 false false 0 0 0 0, .tmmax .f16 0 0 0,
   .tcvt .b8 .rne false false 0 0, .tcvt .b64 .dyn true false 0 0, .tcvt .f16 .dyn false true 0 0, .ttrans .e2m1 0 0, .ttrans .f32 0 0,
   .bcopyc 0 ⟨0, 0, 0, 0, 0, 0, 0, .die⟩]] := by decide +kernel

theorem test_ill_formed_System : Refused
  [[.rdpr 1 0x0FF, .rdpr 1 0x114, .rdpr 1 0x138, .wrpr 1 0x117, .wrpr 1 0x106, .wrpr 1 0x11F, .ctxsave 23, .ctxload 0]] := by decide +kernel

theorem test_ill_formed_Events : Refused
  [[.holdLimit ⟨256, .thread⟩, .waitWithdrawal ⟨0, .sprig 64⟩, .idleEnd 256, .lanePick 0 8, .pressPick 64 0, .pressPick 0 2,
   .tileCommandComplete 256, .tileStoreLineWrite 256 0, .storeBufferWrite ⟨256, .thread⟩ 0, .copyStart 256, .copyLineMove 256 0 0,
   .copyComplete 256 0, .copyWaitLimit 256 0, .trapEntry 256, .timer 256],
   [.windowLineWriteback 0 8 0, .windowLineWriteback 0 0 1024, .migrateArrival 256, .replyRedirect 256, .parkedRequestResume ⟨0, .sprig 64⟩,
   .powerEpoch ⟨0, [], [], [], []⟩, .operatingPointChange 64, .vatClockStop 64, .vatClockRestart 64, .retentionExit 64 true,
   .dirtyUe 256 0 0, .tileUe 256 0 0, .doorbell 256 0, .hostLinkChange 4 true true, .hpctlWrite 4 0],
   [.inboundRead 4 0 0 1, .inboundRead 0 0 0 0, .inboundWrite 0 0 0 [], .fetchadd 0 0 0 16 0, .swap 0 0 0 2 0, .inboundCas 0 0 0 1 0 0,
   .atsTranslationRequest 4 0 0, .pageRequest 4 0 0, .kerranLinkChange 12 true [], .poolLinkLost 1024, .poolCompletionTimeout 1024,
   .failoverComplete 1024, .poolLinkRestored 1024, .poolWriteCompletion 1024 0, .coreRestart 256],
   [.uncorrectableError (.granule (2 ^ 47)), .uncorrectableError (.blockLine 0 1024), .deviceInvalidationAck 4],
   [.packageReset ⟨8, [8], []⟩, .packageReset ⟨0, [1], []⟩, .packageReset ⟨0, [0], [bootOne, { bootOne with vats := [1], granules := [2] }]⟩,
   .packageReset ⟨0, [0], [{ bootOne with imageAt := 2 ^ 39 }]⟩, .fwWatchdogExpiry ⟨0, [0, 8], []⟩, .fwActivate 0 0 ⟨1, [], []⟩]] := by decide +kernel

/-! ### Words written out from the encoding tables -/

/-- A head and a tail decode to an instruction. -/
def DecodesOne (h : BitVec 16) (t : Nat) (i : Instr) : Bool := 
  match decode h t with
  | .ok j => decide (j = i)
  | .error _ => false

/-- Each head and tail decodes to its instruction. -/
abbrev Decodes (ls : List (List (BitVec 16 × Nat × Instr))) : Prop :=
  (ls.all fun rows => rows.all fun r => DecodesOne r.1 r.2.1 r.2.2) = true
theorem test_decode_ScalarInt : Decodes
  [[(0x0123, 0xA4, .add 3 4 5),
   (0x0223, 0xA4, .sub 3 4 5),
   (0x0323, 0xA4, .and 3 4 5),
   (0x0423, 0xA4, .or 3 4 5),
   (0x0523, 0xA4, .xor 3 4 5),
   (0x0623, 0xA4, .shl 3 4 5),
   (0x0723, 0xA4, .shr 3 4 5),
   (0x0823, 0xA4, .sra 3 4 5),
   (0x0923, 0xA4, .mul 3 4 5),
   (0x0A23, 0xA4, .mulh false 3 4 5),
   (0x0B23, 0x4A4, .div true 3 4 5),
   (0x0C23, 0xA4, .rem false 3 4 5),
   (0x0D23, 0x4A4, .min true 3 4 5),
   (0x0E23, 0xA4, .max false 3 4 5),
   (0x0F23, 0x4A4, .slt true 3 4 5)],
   [(0x1023, 0xA4, .cmov 3 4 5),
   (0x1123, 0x4, .clz 3 4),
   (0x1223, 0x4, .ctz 3 4),
   (0x1323, 0x4, .popc 3 4),
   (0x1423, 0x7C04, .sext 3 4 31),
   (0x1523, 0xFC04, .zext 3 4 63),
   (0x1623, 0xCA4, .addsh 3 4 5 3),
   (0x1743, 0xFFF00004, .addi 3 4 0xFFF0),
   (0x1843, 0xFFF00004, .andi 3 4 0xFFF0),
   (0x1943, 0xFFF00004, .ori 3 4 0xFFF0),
   (0x1A43, 0xFFF00004, .xori 3 4 0xFFF0),
   (0x1B43, 0x7E4, .shli 3 4 63),
   (0x1C43, 0x7E4, .shri 3 4 63),
   (0x1D43, 0x7E4, .srai 3 4 63),
   (0x1E23, 0x8001, .liTail2 3 0x8001)],
   [(0x1E43, 0x80000001, .liTail4 3 0x80000001),
   (0x1E83, 0x8000000000000001, .liTail8 3 0x8000000000000001),
   (0x1F23, 0xFFFE, .addpcLine 3 0xFFFE),
   (0x1F43, 0xFFFFFFFE, .addpcByte 3 0xFFFFFFFE)]] := by decide +kernel

theorem test_decode_ScalarFloat : Decodes
  [[(0x2023, 0x10A4, .fadd .f64 .rne 3 4 5),
   (0x2123, 0x24A4, .fsub .f32 .rtz 3 4 5),
   (0x2223, 0x38A4, .fmul .f16 .rdn 3 4 5),
   (0x2323, 0x4CA4, .fdiv .bf16 .rup 3 4 5),
   (0x2423, 0x5404, .fsqrt .f32 .rna 3 4),
   (0x2523, 0xA4, .fma .f64 .dyn 3 4 5),
   (0x2623, 0x4A4, .fmin .f32 3 4 5),
   (0x2723, 0x8A4, .fmax .f16 3 4 5),
   (0x2823, 0x2CA4, .fcmp .le .bf16 3 4 5),
   (0x2921, 0xA002, .fcvt (.toInt false false .f64) .rtz 1 2),
   (0x2921, 0x1922, .fcvt (.toFloat .f16 true (.float .f32)) .rne 1 2),
   (0x2921, 0x8562, .fcvt (.toInt true true .bf16) .dyn 1 2),
   (0x2921, 0x4A2, .fcvt (.toFloat .f32 false .u64) .dyn 1 2),
   (0x2A23, 0x804, .fclass .f16 3 4)]] := by decide +kernel

theorem test_decode_Control : Decodes
  [[(0x3040, 0xFFFFFFC1, .jmp 0x7FFFFFE 1),
   (0x315F, 0xBB, .call 31 5 27),
   (0x3220, 0x1F, .jmpr 31),
   (0x333E, 0x4, .callr 30 4),
   (0x3464, 0xFFFFFFFE9CA4, .br .ltu 0xFFFFFFFE true 7 4 5),
   (0x3542, 0xFFFFF0E4, .brz .ltz 0x1FFFFE false 7 4),
   (0x365F, 0x12340000, .callx 31 0x1234),
   (0x3700, 0x0, .nop),
   (0x3840, 0x1020000, .svc 0x0102),
   (0x3940, 0x3040000, .brk 0x0304),
   (0x3A00, 0x0, .idle),
   (0x3B09, 0x0, .time 9),
   (0x0000, 0x0, .unassignedOpcode 0),
   (0xFF5F, 0xFFFFFFFF, .unassignedOpcode 0xFF5F)]] := by decide +kernel

theorem test_decode_Memory : Decodes
  [[(0x3C43, 0xFFF868A4, .ld .s32 3 ⟨0x1FFF0, 2, 5, 4⟩),
   (0x3D43, 0x41004, .st .b2 3 ⟨8, 0, 0, 4⟩),
   (0x3E41, 0x434A4, .pref true ⟨8, 1, 5, 4⟩),
   (0x3F43, 0x43004, .cache .drop ⟨8, 0, 0, 4⟩),
   (0x4040, 0x2800, .fence .acq .sys),
   (0x4124, 0x1, .rdsr 4 1),
   (0x4225, 0x3, .wrsr 5 3),
   (0x4320, 0x7, .migrate 7)]] := by decide +kernel

theorem test_decode_Sync : Decodes
  [[(0x4443, 0xFFC02404, .lrw 3 ⟨0x3FF0, .acq, .pkg, 4⟩),
   (0x4543, 0x2040A4, .sch 3 5 ⟨8, .rel, .die, 4⟩),
   (0x4640, 0x200C04, .relq ⟨8, .none, .pool, 4⟩),
   (0x4743, 0x23E8A4, .amo .maxU 3 5 ⟨8, .ar, .sys, 4⟩),
   (0x4843, 0x2000A4, .cas 3 5 ⟨8, .none, .die, 4⟩),
   (0x4943, 0x200404, .mcas 3 8 .pkg 4),
   (0x4A43, 0x202004, .takew 3 ⟨8, .acq, .die, 4⟩),
   (0x4B43, 0x200004, .peekw 3 ⟨8, .none, .die, 4⟩),
   (0x4C40, 0x2040A4, .putw 5 ⟨8, .rel, .die, 4⟩),
   (0x4D40, 0x2000A4, .fillw 5 ⟨8, .none, .die, 4⟩),
   (0x4E40, 0x200004, .emptyw ⟨8, .none, .die, 4⟩),
   (0x4F40, 0x2100A4, .cred .max 5 ⟨8, .none, .die, 4⟩),
   (0x5040, 0x3020A0, .semp .acq .die 5 12),
   (0x5140, 0x3FC44A0, .semv .rel .pkg 5 255),
   (0x5243, 0x300000, .semrd .none .die 3 12)],
   [(0x5343, 0x864A0, .bar .ar .pkg 3 5 2),
   (0x5443, 0x2020A4, .waitne 3 5 ⟨8, .acq, .die, 4⟩)]] := by decide +kernel

theorem test_decode_Sprig : Decodes
  [[(0x5820, 0xA4, .sconf 4 5),
   (0x5920, 0xCE1, .sbcast 1 7 3),
   (0x5A23, 0xA0, .swait 3 5),
   (0x5B23, 0x8804, .sget 3 4 34),
   (0x5C20, 0x7CA4, .sput 4 5 31),
   (0x5D20, 0xA0, .skill 5),
   (0x5E20, 0x4, .bfetch 4),
   (0x5F00, 0x0, .stop),
   (0x6040, 0xE4C00100, .lsend .b64 4 0x39),
   (0x6140, 0x1C000004, .lrecv .b8 4 7),
   (0x6201, 0x0, .sid 1)]] := by decide +kernel

theorem test_decode_Vector : Decodes
  [[(0x7042, 0x1B43081, .vadd ⟨.f32, true, 5⟩ .rtz 1 2 3),
   (0x7140, 0x743081, .vsub ⟨.b16, true, 5⟩ .dyn 1 2 3),
   (0x7245, 0x1F43081, .vmul ⟨.f64, true, 5⟩ .rna 1 2 3),
   (0x7341, 0x11403081, .vfma ⟨.bf16, false, 0⟩ .rne 1 2 3 4),
   (0x7440, 0x1343081, .vdiv ⟨.f16, true, 5⟩ .dyn 1 2 3),
   (0x7541, 0x343081, .vmin ⟨.b8, true, 5⟩ true 1 2 3),
   (0x7640, 0x1B43081, .vmax ⟨.f32, true, 5⟩ false 1 2 3),
   (0x7740, 0xB43081, .vand ⟨.b32, true, 5⟩ 1 2 3),
   (0x7840, 0xF43081, .vor ⟨.b64, true, 5⟩ 1 2 3),
   (0x7940, 0x343081, .vxor ⟨.b8, true, 5⟩ 1 2 3),
   (0x7A40, 0xB43081, .vshlVec ⟨.b32, true, 5⟩ 1 2 3),
   (0x7B40, 0xB43081, .vshrVec ⟨.b32, true, 5⟩ 1 2 3),
   (0x7C40, 0xB43081, .vsraVec ⟨.b32, true, 5⟩ 1 2 3),
   (0x7A60, 0x1F00800081, .vshlImm ⟨.b32, false, 0⟩ 31 1 2),
   (0x7B60, 0x1F00800081, .vshrImm ⟨.b32, false, 0⟩ 31 1 2)],
   [(0x7C60, 0x1F00800081, .vsraImm ⟨.b32, false, 0⟩ 31 1 2),
   (0x7D4D, 0x443087, .vcmp ⟨.b16, false, 1⟩ .ge true 7 2 3),
   (0x7E40, 0x2103081, .vsel .e4m3 4 1 2 3),
   (0x7F41, 0x1000081, .vneg ⟨.f16, false, 0⟩ true 1 2),
   (0x8043, 0x1C00081, .vsqrt ⟨.f64, false, 0⟩ .rdn 1 2),
   (0x8140, 0x1880081, .vrcp ⟨.f32, false, 2⟩ 1 2),
   (0x8240, 0x1880081, .vrsq ⟨.f32, false, 2⟩ 1 2),
   (0x8340, 0x1880081, .vexp2 ⟨.f32, false, 2⟩ 1 2),
   (0x8440, 0x1880081, .vlog2 ⟨.f32, false, 2⟩ 1 2),
   (0x8549, 0x1A000081, .vcvt ⟨.e4m3, false, 0⟩ .f32 .rne true false 1 2),
   (0x8648, 0x1A403081, .vcvts ⟨.e5m2, false, 0⟩ .f32 true 1 2 3),
   (0x8740, 0x800081, .vrng ⟨.b32, false, 0⟩ 1 2),
   (0x8842, 0x3081, .vperm ⟨.b8, false, 0⟩ .hi 1 2 3),
   (0x8960, 0x3F00003081, .valign ⟨.b8, false, 0⟩ 63 1 2 3),
   (0x8A40, 0xC007C1, .vbcast ⟨.b64, false, 0⟩ false 1 31)]] := by decide +kernel

theorem test_decode_VectorMore : Decodes
  [[(0x8B60, 0x700C0009F, .vextr .b64 7 31 2),
   (0x8C60, 0x3F000007C1, .vins .b8 63 1 31),
   (0x8D49, 0x4C0081, .vred .b16 3 .min true 1 2),
   (0x8E45, 0x6C0081, .vscan ⟨.b16, true, 3⟩ .xor false 1 2),
   (0x8F60, 0xFFC001A807C1, .vld ⟨.f32, true, 2⟩ 0xFFC0 1 31),
   (0x9060, 0x40018807C1, .vst .f32 2 64 1 31),
   (0x9143, 0xC83101, .vgath ⟨.b64, false, 2⟩ 3 1 4 3),
   (0x9242, 0x883101, .vscat .b32 2 2 1 4 3),
   (0x9343, 0x3081, .vaddsat ⟨.b8, false, 0⟩ true true 1 2 3),
   (0x9441, 0x803081, .vmulhi ⟨.b32, false, 0⟩ true 1 2 3),
   (0x9541, 0x800081, .vbitc ⟨.b32, false, 0⟩ true 1 2),
   (0x9641, 0x403081, .vdot ⟨.b16, false, 0⟩ true 1 2 3),
   (0x9740, 0x400001, .viota ⟨.b16, false, 0⟩ 1),
   (0x9843, 0x3081, .kop .andn 1 2 3),
   (0x9940, 0x7C7, .kmov false 7 31)],
   [(0x9941, 0x1DF, .kmov true 7 31),
   (0x9A42, 0x1DF, .ktest .count 31 7),
   (0x9B63, 0x1F01C000C8, .crd .f64 3 8 3 31),
   (0x9C61, 0x200C000CC, .cwr .b64 1 12 3 2)]] := by decide +kernel

theorem test_decode_Tile : Decodes
  [[(0xA061, 0x620007C000, .tld true .e4m3 1 7 2 3),
   (0xA163, 0x6200071800, .tldc .b64 3 7 2 3),
   (0xA260, 0x6200072801, .tst .bf16 1 7 2 3),
   (0xA360, 0x6200073C00, .tstc .f64 2 7 2 3),
   (0xA462, 0x0, .tzero 2),
   (0xA561, 0x8000000003E, .tmma .b8 false true 1 6 7),
   (0xA661, 0xE111, .tmmas true .e2m1 false false 1 1 2 4),
   (0xA760, 0x6008, .tmmax .e2m1 0 0 1),
   (0xA863, 0x240000004200, .tcvt .e4m3 .rne true false 3 1),
   (0xA962, 0x2001, .ttrans .f16 2 1),
   (0xAA60, 0x0, .tsync)]] := by decide +kernel

theorem test_decode_Copy : Decodes
  [[(0xB082, 0x1020304000014C7, .bcopy ⟨1, 2, 3, 4, 5, 6, 7, .sys⟩),
   (0xB189, 0x1020304000914C7, .bcopyt true 9 ⟨1, 2, 3, 4, 5, 6, 7, .pkg⟩),
   (0xB280, 0x1020304000014C7, .bfill ⟨1, 2, 3, 4, 5, 6, 7, .die⟩),
   (0xB383, 0x1020304000014C7, .bloadb ⟨1, 2, 3, 4, 5, 6, 7, .pool⟩),
   (0xB481, 0x1020304001014C7, .bcopyc 16 ⟨1, 2, 3, 4, 5, 6, 7, .pkg⟩)]] := by decide +kernel

theorem test_decode_System : Decodes
  [[(0xC000, 0x0, .tret),
   (0xC121, 0x100, .rdpr 1 0x100),
   (0xC225, 0x101, .wrpr 5 0x101),
   (0xC225, 0x106, .domainWrite 5),
   (0xC225, 0x107, .protrootWrite 5),
   (0xC225, 0x108, .ptrootWrite 5),
   (0xC225, 0x109, .descbaseWrite 5),
   (0xC225, 0x10C, .pressbindWrite 5),
   (0xC225, 0x10D, .wshareWrite 5),
   (0xC225, 0x10E, .fdutyWrite 5),
   (0xC225, 0x110, .timecmpWrite 5),
   (0xC225, 0x111, .ipipendWrite 5),
   (0xC225, 0x113, .barcfgWrite 5),
   (0xC225, 0x11F, .spwinWrite 5 7),
   (0xC320, 0xC5, .plbinvOne 5 6)],
   [(0xC320, 0x4C0, .plbinvDom 6),
   (0xC320, 0x800, .plbinvAll),
   (0xC420, 0x5, .xlinvPage 5),
   (0xC420, 0x400, .xlinvAll),
   (0xC520, 0x18, .ctxsave 24),
   (0xC620, 0x1F, .ctxload 31),
   (0xC720, 0xA4, .descw 4 5),
   (0xC820, 0x149, .ipi 9 10)]] := by decide +kernel

/-! ### Words that are refused -/

/-- The decoder names the detail of R85. -/
abbrev RefusesAs (rows : List (BitVec 16 × Nat × Illegal)) : Prop :=
  (rows.all fun r => match decode r.1 r.2.1 with
    | .ok _ => false
    | .error e => e == r.2.2) = true

/-- R64, R85, R86, R88: a length an opcode does not have, a non-zero field that must be zero, a forbidden value, a special register beyond
0x00A; R185, R92, R351: a field of `vcvts`, an element type of `vmin`, a form of `plbinv` outside the set. -/
theorem test_refused_words : RefusesAs
  [(0x01E3, 0, .badTail), (0x3705, 0, .reserved), (0x0123, 0x8000, .reserved), (0x3040, 0x1C, .forbidden),
   (0x4124, 0x000B, .badSpr), (0x4040, 0, .forbidden), (0x8649, 0x1A403081, .forbidden), (0x7541, 0x2103081, .forbidden),
   (0x7541, 0x1B43081, .reserved), (0xC320, 0x0CA4, .forbidden)] := by decide +kernel

/-! ### One step -/

/-- What an instruction's next state satisfies. -/
def after (i : Instr) (s : State) (p : State → Bool) : Bool :=
  match exec i s with
  | .next t => p t
  | .fault _ | .refused _ => false

/-- The instruction gives register 3 a value. -/
def gives (i : Instr) (s : State) (v : Word) : Bool := after i s fun t => t.rg 3 == v

/-- R124: sums wrap; R98: the high half of the largest squares; division by zero and the one overflow. -/
theorem test_integer : gives (.add 3 1 2) (put tk [(1, -1), (2, 1)]) 0 ∧ gives (.mulh true 3 1 1) (put tk [(1, -1)]) (-2) ∧
    gives (.div false 3 1 2) (put tk [(1, 0x8000000000000000), (2, -1)]) 0x8000000000000000 ∧
    gives (.rem false 3 1 2) (put tk [(1, -7), (2, 2)]) (-1) := by decide +kernel

/-- R125, R126: counts of zero, extension from bit 31, a sign-extended immediate. -/
theorem test_bits : gives (.clz 3 1) tk 64 ∧ gives (.sext 3 1 31) (put tk [(1, 0x80000000)]) 0xFFFFFFFF80000000 ∧
    gives (.addi 3 1 0xFFFF) (put tk [(1, 5)]) 4 ∧ gives (.srai 3 1 63) (put tk [(1, 0x8000000000000000)]) (-1) := by decide +kernel

/-- R104, R129: 1 + 2 = 3 exactly; 1 / 3 rounds and raises NX. -/
theorem test_fadd : after (.fadd .f64 .rne 3 1 2) (put tk [(1, 0x3FF0000000000000), (2, 0x4000000000000000)])
    fun t => t.rg 3 == 0x4008000000000000 && (t.thr 0).fpstat == 0 := by decide +kernel

theorem test_fdiv : after (.fdiv .f64 .rne 3 1 2) (put tk [(1, 0x3FF0000000000000), (2, 0x4008000000000000)])
    fun t => t.rg 3 == 0x3FD5555555555555 && (t.thr 0).fpstat == 1 := by decide +kernel

/-- R67: after the last head of a line the next line follows, at its first head. -/
theorem test_step_nop : (match step tk with
    | .next t => t.pcOf ⟨0, .thread⟩ == 0x200042 && (t.thr 0).retired == 1
    | .fault _ | .refused _ => false) = true := by decide +kernel

/-- R143, R3: a signed byte; a store is seen by its agent, little-endian, and waits in its buffer. -/
theorem test_ld : gives (.ld .s8 3 ⟨0x101, 0, 0, 1⟩) (put { tk with mem := putWord tk.mem 0x200100 0x8000 } [(1, 0x200000)])
    0xFFFFFFFFFFFFFF80 := by decide +kernel

theorem test_st : after (.st .b2 2 ⟨0, 0, 0, 1⟩) (put tk [(1, 0x200100), (2, 0x11223344)])
    fun t => t.seen t.cur 0x200100 == 0x44 && t.seen t.cur 0x200101 == 0x33 && t.seen t.cur 0x200102 == 0 && t.rd1 0x200100 == 0 := by
  decide +kernel

/-- R139, R318: `svc` saves NextPC, the code and the status, and goes to the handler of its privilege. -/
theorem test_svc : after (.svc 0x0102) (tu.modPriv 0 fun p => { p with trapvec := 0x300000 }) fun t =>
    (t.priv 0).trapcause == 9 && (t.priv 0).trapval == 0x0102 && (t.priv 0).trappc == 0x200042 && t.pcOf t.cur == 0x300002 &&
    (t.priv 0).status.nest := by decide +kernel

/-- R85: an unassigned opcode is ILLEGAL detail 5 with the head in TRAPVAL, from the second vector at kernel privilege. -/
theorem test_unassigned : after (.unassignedOpcode 0xFF5F) tk fun t =>
    (t.priv 0).trapcause == 0x501 && (t.priv 0).trapval == 0x5FF5F && t.pcOf t.cur == 66 := by decide +kernel

/-- R312: `STATUS` after reset reads 1: kernel privilege. -/
theorem test_rdpr_status : gives (.rdpr 3 0x100) tk 1 := by decide +kernel

/-- R308: at user privilege it is PRIV. -/
theorem test_rdpr_user : after (.rdpr 3 0x100) tu fun t => (t.priv 0).trapcause % 256 == 2 := by decide +kernel

/-- R223: an atomic addition returns the old word. -/
theorem test_amo : after (.amo .add 3 2 ⟨0, .none, .die, 1⟩) (put { tk with mem := putWord tk.mem 0x200100 40 } [(1, 0x200100), (2, 2)])
    fun t => t.rg 3 == 40 && t.rdN 0x200100 8 == 42 := by decide +kernel

/-- R224: a failing compare returns the word and stores nothing. -/
theorem test_cas_fails : after (.cas 3 2 ⟨0, .none, .die, 1⟩) (put { tk with mem := putWord tk.mem 0x200100 40 } [(1, 0x200100), (2, 2), (3, 41)])
    fun t => t.rg 3 == 40 && t.rdN 0x200100 8 == 40 := by decide +kernel

/-- R232: a post adds to the count. -/
theorem test_semv : after (.semv .none .die 2 7) (put tk [(2, 5)]) fun t => (t.sem 0 7).count == 5 := by decide +kernel

/-- R169: the sprig's number. R175: elements of 8 bits wrap, the inactive ones are zeroed under `.zm`. -/
theorem test_vadd : after (.vadd ⟨.b8, true, 1⟩ .dyn 2 0 1) (((sp.setV 0 0 0 0xFFFF).setV 0 0 1 0x0201).setK 0 0 1 1)
    fun t => t.getV 0 0 2 == 0 && elem (t.getV 0 0 2) 8 1 == 0 := by decide +kernel

/-- R187: the sum of sixteen elements of 32 bits. -/
theorem test_vred : after (.vred .b32 0 .add false 2 0) (sp.setV 0 0 0 (BitVec.ofNat 512 (sumNat ((List.range 16).map fun e => e * 2 ^ (32 * e)))))
    fun t => t.getV 0 0 2 == 120 := by decide +kernel

/-- R47: the ninth register of a claim of eight is ILLEGAL detail 12, which faults the sprig. -/
theorem test_unclaimed : after (.vand ⟨.b8, false, 0⟩ 8 0 0) sp fun t => (t.sprig 0 0).st == .faulted && (t.sprig 0 0).fcause == 1 := by
  decide +kernel

/-- R162: nine sprigs of 64 registers ask for 128 of a lane; nothing is configured. -/
theorem test_sconf_limit : after (.sconf 1 2) (put ta [(1, 33), (2, 64)]) fun t => (t.core 0).arr.n == 1 && (t.priv 0).trapcause == 0x0E := by
  decide +kernel

/-- R241: the third byte of a fill with 0x08…030201 is 3. -/
theorem test_fill : after (.copyLineMove 0 7 (0x200200 / 64)) (oneCopy (.fill 0x0807060504030201) 0x200200 .started [] 0)
    fun t => t.rd1 0x200202 == 3 && t.rd1 0x200207 == 8 && t.rd1 0x200208 == 0 := by decide +kernel

/-- R145, R265: before a store of its own the core's deposit in the word stands at the home, where the store's acceptance discards it. -/
theorem test_store_after_deposit : after (.st .b8 2 ⟨0, 0, 0, 1⟩)
    ((put ranged [(1, 0x200100), (2, 9)]).modCore 0 fun c => { c with partials := [(0x200100, Exact.ofDeposit 0x200100 0 0 0 1 .add 5)] })
    fun t => (t.core 0).partials.isEmpty && t.exact.length == 1 && t.seen t.cur 0x200100 == 9 := by decide +kernel

theorem test_store_discards_deposit : after (.storeBufferWrite tk.cur 0)
    { buffered tk.cur (wrote 0x200100 false) (wrote 0x200140 false) with exact := [(0x200100, Exact.ofDeposit 0x200100 0 0 0 1 .add 5)] }
    fun t => t.rd1 0x200100 == 1 && t.exact.isEmpty := by decide +kernel

/-- R187: masking never changes the sign of a zero sum: an inactive element leaves +0 as it is when rounding down. -/
theorem test_vred_zero : after (.vred .f32 1 .add false 2 0) (((sp.setV 0 0 0 0).setK 0 0 1 1).modSprig 0 0 fun p => { p with rm := 3 })
    fun t => t.getV 0 0 2 == 0 := by decide +kernel

/-- R312: a window's reserved bits read as zero. -/
theorem test_spwin : after (.spwinWrite 1 7) (put tk [(1, 0x30FFFF)]) fun t => Store.get (t.priv 0).spwin 0 7 == 0x300001 := by decide +kernel

/-- R180: infinities of opposite sign among the products raise NV beside a quiet NaN in the destination. -/
theorem test_vdot_invalid : after (.vdot ⟨.bf16, false, 0⟩ false 2 0 1)
    (((sp.setV 0 0 0 0x7F807F80).setV 0 0 1 0xBF803F80).setV 0 0 2 0x7FC00000)
    fun t => elem (t.getV 0 0 2) 32 0 == 0x7FC00000 && (t.sprig 0 0).fpstat == 0x10 := by decide +kernel

/-- R265, R269: the write that completes a `waitne` leaves no read that the thread made while it waited. -/
theorem test_waitne_drops_early_reads : after (.storeBufferWrite ⟨4, .thread⟩ 0)
    { (tk.modAg ⟨4, .thread⟩ fun g => { g with sb := [wrote 0x200100 false] }).modAg tk.cur fun g => { g with
        wait := some ⟨0, 0, 7, .served, []⟩, ahead := [⟨⟨0, 0, 0, 1⟩, 0x200140, 0x200140, 8, 0, true⟩] } with monitors := [⟨tk.cur, 0x200100, 0x200100, 0, 3⟩] }
    fun t => t.rg 3 == 1 && (t.ag tk.cur).ahead.isEmpty && t.monitors.isEmpty := by decide +kernel

/-- R202: a tile load is performed again when a line that it read has been written; as the oldest it then delivers the new element. -/
theorem test_tile_load_again : after (.tileCommandComplete 0)
    (let s := tabled tk (row 1 7 false 0); { queued s [begun s loading] with mem := putWord s.mem 0x200100 9 })
    fun t => (t.core 0).til.queue.length == 1 && after (.tileCommandComplete 0) t fun u => zElem (u.zreg 0 7) .f64 0 0 == 9 := by
  decide +kernel

/-- R351: `plbinv.dom` squashes the waiter that was checked against a region of that domain, though no lookaside buffer holds it, and no other. -/
theorem test_plbinv_squashes_its_domain :
    after (.plbinvDom 1) (put walked [(1, 5)]) (fun t => t.monitors.isEmpty) = true ∧
    after (.plbinvDom 1) (put walked [(1, 0)]) (fun t => t.monitors.length == 1) = true := by decide +kernel

/-- The `mcas` of core 0 has read its block, whose eighth word differs, when a copy of core 1 comes to own a line of the block. -/
def ownedBlock : State :=
  ({ eight 8 with mem := putWord (eight 8).mem 0x2005C0 1 } : State).modCore 1 fun c => { c with cpy := { c.cpy with cmds :=
    [⟨7, .copy, 0x200100, 0x200480, 64, 0x200300, .die, 0, 1, 0, 0, none, .kernel, 0, 0, 1000, .started, 1, [], [], none⟩] } }

/-- Its block, as it was read. -/
def readBlock : McasHold := ⟨0x200100, false, (List.range 8).map fun k => ⟨k, BitVec.ofNat 64 (0x200400 + 64 * k), 0, 9⟩, none⟩

/-- R227: on a mismatch the lines are released before the observed values are stored, though a store must wait. -/
theorem test_mcas_releases_first : after (.mcas 3 0x0100 .die 1) ((put ownedBlock [(1, 0x200000)]).beginMcas readBlock)
    fun t => t.res.isEmpty && ((t.ag t.cur).mcas.bind fun h => h.back).isSome && t.pcOf t.cur == ownedBlock.pcOf ownedBlock.cur &&
      after (.mcas 3 0x0100 .die 1) (t.modCore 1 fun c => { c with cpy := { c.cpy with cmds := [] } })
        fun u => u.rg 3 == 8 && (u.ag u.cur).sb.length == 8 && (u.ag u.cur).mcas.isNone := by decide +kernel

/-- R258, R330: another agent's store to a window line leaves a dirty copy, whose loss returns the line to what the scratchpad held. -/
theorem test_dirty_window_line : after (.storeBufferWrite ⟨4, .thread⟩ 0)
    ((tk.modPriv 0 fun p => { p with spwin := [(0, 0x200001)] }).modAg ⟨4, .thread⟩ fun g => { g with
      sb := [⟨[⟨false, false, 0x200100 / 64, [(2 ^ 52 + 0x100, 1)], true⟩], false, false, false, 0, 1, []⟩] })
    fun t => t.behind.length == 1 && t.rd1 (2 ^ 52 + 0x100) == 1 &&
      after (.dirtyUe 4 0x200100 ((2 ^ 52 + 0x100) / 64)) t fun u => u.rd1 (2 ^ 52 + 0x100) == 0 && u.behind.isEmpty := by decide +kernel

/-- R18, R42: the arrival waits while a sprig of the target runs. -/
theorem test_arrival_waits :
    after (.migrateArrival 0) ((sprigAs ta 0 .running []).modCore 0 fun c => { c with arrival := some travelling })
      (fun t => (t.core 0).arrival.isSome && (t.sprig 0 0).st == .running) = true ∧
    after (.migrateArrival 0) ((sprigAs ta 0 .faulted []).modCore 0 fun c => { c with arrival := some travelling })
      (fun t => (t.core 0).arrival.isNone && (t.sprig 0 0).st == .idle && t.rg 1 == 5) = true := by decide +kernel

/-- R361, R364: time stops at the boundary before its reallocation, and a change of point is complete 2 µs after it. -/
theorem test_epoch_and_point :
    ((State.pass { tk with time := 9999 } 20).time = 10000 ∧ (State.pass { tk with time := 10000 } 20).time = 10000) ∧
    let s := State.pass { tk.modVat 1 (fun v => { v with next := some 5 }) with time := 11990, epochs := 1 } 20
    s.time = 12000 ∧ (s.vat 1).opnow = 5 ∧ (s.vat 1).next = none := by decide +kernel

end Sys2Proof.Tests
end

section
/-! PROOFS. The register-register integer instructions (R98, R99, R124): what the model's words are in terms of bit vectors and exact
integers, and the obligation about their results. Completion and its frame come from `computes_of_finishG`. -/

namespace Sys2Proof.Machine

/-! ### What the shared functions compute -/

theorem ltW_unsigned_iff (x y : Word) : ltW true x y = true ↔ x.toNat < y.toNat := by
  simp [ltW, BitVec.ult_eq_decide]

theorem ltW_signed_iff (x y : Word) : ltW false x y = true ↔ x.toInt < y.toInt := BitVec.slt_iff_toInt_lt

/-- R99, unsigned: the quotient of the unsigned values, and all ones for a zero divisor. -/
theorem divW_unsigned (x y : Word) : divW true x y = if y = 0 then BitVec.allOnes 64 else x / y := by
  rw [divW, if_pos rfl, BitVec.udiv_def]

/-- R99, signed: the quotient rounds toward zero and, for the most negative number by -1, wraps as `BitVec.sdiv` does. -/
theorem divW_signed (x y : Word) : divW false x y = if y = 0 then BitVec.allOnes 64 else x.sdiv y := by
  have quotient : BitVec.ofInt 64 (x.toInt.tdiv y.toInt) = x.sdiv y :=
    BitVec.eq_of_toInt_eq (by rw [BitVec.toInt_ofInt, BitVec.toInt_sdiv])
  rw [divW, if_neg Bool.false_ne_true, quotient]

/-- R99, unsigned: the remainder of the unsigned values, and the dividend for a zero divisor. -/
theorem remW_unsigned (x y : Word) : remW true x y = if y = 0 then x else x % y := by
  rw [remW, if_pos rfl, BitVec.umod_def]

/-- R99, signed: the remainder takes the sign of the dividend, and is always in range. -/
theorem remW_signed (x y : Word) : remW false x y = if y = 0 then x else x.srem y := by
  have remainder : BitVec.ofInt 64 (x.toInt.tmod y.toInt) = x.srem y := by
    rw [← BitVec.toInt_srem, BitVec.ofInt_toInt]
  rw [remW, if_neg Bool.false_ne_true, remainder]

/-! ### The instructions with a choice of sign, and `cmov` -/

section
variable (s : State) (d b c : BitVec 5)

theorem computes_div (u : Bool) : Computes s (.div u d b c) d (divW u (s.rg b) (s.rg c)) := computes_of_finishG rfl

theorem computes_rem (u : Bool) : Computes s (.rem u d b c) d (remW u (s.rg b) (s.rg c)) := computes_of_finishG rfl

theorem computes_min (u : Bool) :
    Computes s (.min u d b c) d (if ltW u (s.rg b) (s.rg c) then s.rg b else s.rg c) := computes_of_finishG rfl

theorem computes_max (u : Bool) :
    Computes s (.max u d b c) d (if ltW u (s.rg b) (s.rg c) then s.rg c else s.rg b) := computes_of_finishG rfl

theorem computes_slt (u : Bool) :
    Computes s (.slt u d b c) d (if ltW u (s.rg b) (s.rg c) then 1 else 0) := computes_of_finishG rfl

theorem exec_cmov : exec (.cmov d b c) s =
    if s.rg c = 0 then finish (.cmov d b c) s else finishG (.cmov d b c) d (s.rg b) s := rfl

theorem computes_cmov (h : s.rg c ≠ 0) : Computes s (.cmov d b c) d (s.rg b) :=
  computes_of_finishG (by rw [exec_cmov, if_neg h])

theorem passes_cmov (h : s.rg c = 0) : Passes s (.cmov d b c) :=
  passes_of_finish (by rw [exec_cmov, if_pos h])

end

/-- Settles O1: every instruction ends in `finishG` (an untaken `cmov` in `finish`), and its word is the one stated: by definition for
the sums, logic, shifts and products, by the lemmas above for quotients, remainders and comparisons of either sign. -/
theorem integerRegisterResults : Obligations.IntegerRegisterResults := by
  intro s d b c
  refine ⟨computes_of_finishG rfl, computes_of_finishG rfl, computes_of_finishG rfl, computes_of_finishG rfl,
    computes_of_finishG rfl, computes_of_finishG rfl, computes_of_finishG rfl, computes_of_finishG rfl, computes_of_finishG rfl,
    computes_of_finishG rfl, computes_of_finishG rfl, ?divU, ?divS, ?remU, ?remS, ?minU, ?minS, ?maxU, ?maxS, ?sltU, ?sltS,
    computes_cmov s d b c, passes_cmov s d b c⟩
  case divU => simpa only [divW_unsigned] using computes_div s d b c true
  case divS => simpa only [divW_signed] using computes_div s d b c false
  case remU => simpa only [remW_unsigned] using computes_rem s d b c true
  case remS => simpa only [remW_signed] using computes_rem s d b c false
  case minU => simpa only [ltW_unsigned_iff] using computes_min s d b c true
  case minS => simpa only [ltW_signed_iff] using computes_min s d b c false
  case maxU => simpa only [ltW_unsigned_iff] using computes_max s d b c true
  case maxS => simpa only [ltW_signed_iff] using computes_max s d b c false
  case sltU => simpa only [ltW_unsigned_iff] using computes_slt s d b c true
  case sltS => simpa only [ltW_signed_iff] using computes_slt s d b c false

end Sys2Proof.Machine
end

section
/-! PROOFS. What a head built from its fields decodes to (R62), and the refusal of an `addpc` with an 8-byte tail (R128). -/

namespace Sys2Proof

theorem headOp_head (c : Code) (h : c.tl < 8) : headOp c.head = c.op := by
  have := c.op.isLt; have := c.a.isLt
  apply BitVec.eq_of_toNat_eq
  simp only [headOp, Code.head, BitVec.toNat_ofNat]
  omega

theorem headTl_head (c : Code) (h : c.tl < 8) : headTl c.head = c.tl := by
  have := c.op.isLt; have := c.a.isLt
  simp only [headTl, Code.head, BitVec.toNat_ofNat]
  omega

theorem headA_head (c : Code) : headA c.head = c.a := by
  have := c.a.isLt
  apply BitVec.eq_of_toNat_eq
  simp only [headA, Code.head, BitVec.toNat_ofNat]
  omega

theorem decode_head (c : Code) (h : c.tl < 8) (t : Nat) : decode c.head t = decodeFields c.op c.tl c.a t := by
  rw [decode, headOp_head c h, headTl_head c h, headA_head]

/-- R128: `addpc` has a tail of 2 or 4 bytes. -/
theorem decodeFields_addpc (tl : Nat) (a : BitVec 5) (t : Nat) : decodeFields 0x1F tl a t =
    if tl = 1 then fin (.addpcLine a (fld t 0 16)) else needTl tl 2 (fin (.addpcByte a (fld t 0 32))) := rfl

theorem addpc8_head (a : BitVec 5) : 0x1F80 + a.setWidth 16 = Code.head ⟨0x1F, 4, a, 0⟩ := by
  have := a.isLt
  apply BitVec.eq_of_toNat_eq
  simp only [Code.head, BitVec.toNat_add, BitVec.toNat_setWidth, BitVec.ofNat_eq_ofNat, BitVec.toNat_ofNat]
  omega

/-- R128: the head of an `addpc` with an 8-byte tail is refused, whatever the tail. -/
theorem decode_addpc8 (a : BitVec 5) (t : Nat) : decode (0x1F80 + a.setWidth 16) t = .error .badTail := by
  rw [addpc8_head, decode_head _ (Nat.le_of_ble_eq_true rfl), decodeFields_addpc]
  rfl

end Sys2Proof
end

section
/-! PROOFS. The one-operand, shifted-add and immediate instructions (R125 to R128, R142): what the counts and the sign extension give
bit by bit, and the two obligations about their results. -/

namespace Sys2Proof.Machine

/-! ### Sign extension -/

/-- The model's sign extension of a number is that of bit vectors. -/
theorem sextN_eq_signExtend (v : Nat) {n : Nat} (hn : n ≤ 64) : sextN v n = (BitVec.ofNat n v).signExtend 64 := by
  have hv : v % 2 ^ n < 2 ^ n := Nat.mod_lt _ (Nat.two_pow_pos n)
  have hp : 2 ^ n ≤ 2 ^ 64 := Nat.pow_le_pow_right (by decide) hn
  apply BitVec.eq_of_toNat_eq
  simp only [sextN, BitVec.toNat_signExtend, BitVec.msb_eq_decide, BitVec.toNat_setWidth, BitVec.toNat_ofNat, decide_eq_true_eq]
  by_cases h : v % 2 ^ n < 2 ^ (n - 1)
  · rw [if_pos h, if_neg (Nat.not_le.mpr h), BitVec.toNat_ofNat, Nat.add_zero]
  · rw [if_neg h, if_pos (Nat.not_lt.mp h), BitVec.toNat_ofNat]
    omega

/-- R126, R127: an immediate or a tail of at most 64 bits is sign-extended to a word. -/
theorem sextN_toNat {n : Nat} (imm : BitVec n) (hn : n ≤ 64) : sextN imm.toNat n = imm.signExtend 64 := by
  rw [sextN_eq_signExtend _ hn, BitVec.ofNat_toNat, BitVec.setWidth_eq]

/-- R125: above bit `n` the extension from bit `n` repeats it. -/
theorem getLsbD_sextN_succ (v : Nat) {n j : Nat} (hn : n < 64) (hj : j < 64) :
    (sextN v (n + 1)).getLsbD j = v.testBit (min j n) := by
  rw [sextN_eq_signExtend v hn, BitVec.getLsbD_signExtend, BitVec.msb_eq_getLsbD_last, BitVec.getLsbD_ofNat,
    BitVec.getLsbD_ofNat]
  by_cases h : j < n + 1
  · simp [h, hj, Nat.min_eq_left (Nat.le_of_lt_succ h)]
  · simp [h, hj, Nat.min_eq_right (show n ≤ j by omega)]

/-- R125: the zero extension from bit `n` keeps bits `n` to 0. -/
theorem getLsbD_ofNat_mod_two_pow_succ (v n : Nat) {j : Nat} (hj : j < 64) :
    (BitVec.ofNat 64 (v % 2 ^ (n + 1))).getLsbD j = (decide (j ≤ n) && v.testBit j) := by
  rw [BitVec.getLsbD_ofNat, Nat.testBit_mod_two_pow]
  simp [hj]

/-! ### Counts -/

theorem lowN_le (n v : Nat) : lowN n v ≤ n := by
  induction n generalizing v with
  | zero => exact Nat.le_refl 0
  | succ n ih =>
    have := ih (v / 2)
    rw [lowN]
    split <;> omega

theorem testBit_eq_false_of_lt_lowN {n v j : Nat} (h : j < lowN n v) : v.testBit j = false := by
  induction n generalizing v j with
  | zero => exact absurd h (Nat.not_lt_zero j)
  | succ n ih =>
    rw [lowN] at h
    split at h
    · exact absurd h (Nat.not_lt_zero j)
    · cases j with
      | zero => simpa using ‹¬v % 2 = 1›
      | succ j => rw [Nat.testBit_succ]; exact ih (by omega)

theorem testBit_lowN {n v : Nat} (h : lowN n v < n) : v.testBit (lowN n v) = true := by
  induction n generalizing v with
  | zero => exact absurd h (Nat.not_lt_zero _)
  | succ n ih =>
    rw [lowN] at h ⊢
    split at h
    · simp [*]
    · rw [if_neg ‹_›, Nat.add_comm, Nat.testBit_succ]
      exact ih (by omega)

theorem popN_eq_countP (n v : Nat) : popN n v = (List.range n).countP fun j => v.testBit j := by
  induction n generalizing v with
  | zero => rfl
  | succ n ih =>
    have higher : ((fun j => v.testBit j) ∘ Nat.succ) = fun j => (v / 2).testBit j := funext fun j => Nat.testBit_succ v j
    rw [popN, ih, List.range_succ_eq_map, List.countP_cons, List.countP_map, higher, Nat.testBit_zero]
    rcases Nat.mod_two_eq_zero_or_one v with h | h <;> simp [h, Nat.add_comm]

/-- R125: the leading zeros `k` place the value between two powers of two; 64 of them make it zero. -/
theorem clzW_spec (x : Word) :
    ∃ k, k ≤ 64 ∧ x.toNat < 2 ^ (64 - k) ∧ (k < 64 → 2 ^ (63 - k) ≤ x.toNat) ∧ clzW x = BitVec.ofNat 64 k := by
  by_cases h : x = 0
  · exact ⟨64, Nat.le_refl 64, by simp [h], by omega, if_pos h⟩
  · have hx : x.toNat ≠ 0 := fun e => h (BitVec.eq_of_toNat_eq e)
    have hl : x.toNat.log2 < 64 := (Nat.log2_lt hx).2 x.isLt
    refine ⟨63 - x.toNat.log2, by omega, ?below, fun _ => ?above, if_neg h⟩
    case below =>
      rw [show 64 - (63 - x.toNat.log2) = x.toNat.log2 + 1 by omega]
      exact Nat.lt_log2_self
    case above =>
      rw [show 63 - (63 - x.toNat.log2) = x.toNat.log2 by omega]
      exact Nat.log2_self_le hx

/-! ### The obligations -/

/-- Settles O2: every instruction ends in `finishG`; the lemmas above say what its word is. -/
theorem bitAndExtendResults : Obligations.BitAndExtendResults := by
  intro s d b c n
  refine ⟨?clz, ?ctz, ?popc, ?sext, ?zext, computes_of_finishG rfl⟩
  case clz =>
    obtain ⟨k, hk, below, above, value⟩ := clzW_spec (s.rg b)
    exact ⟨k, hk, below, above, value ▸ computes_of_finishG rfl⟩
  case ctz =>
    exact ⟨lowN 64 (s.rg b).toNat, lowN_le .., fun _ => testBit_eq_false_of_lt_lowN, testBit_lowN, computes_of_finishG rfl⟩
  case popc =>
    have count : Computes s (.popc d b) d (popcW (s.rg b)) := computes_of_finishG rfl
    rwa [popcW, popN_eq_countP] at count
  case sext => exact ⟨_, fun _ => getLsbD_sextN_succ _ n.isLt, computes_of_finishG rfl⟩
  case zext => exact ⟨_, fun _ => getLsbD_ofNat_mod_two_pow_succ _ _, computes_of_finishG rfl⟩

/-- Settles O3: every instruction ends in `finishG`, with its immediate sign-extended as `sextN_toNat` says; the 8-byte tail of `addpc`
is refused by the decoder. -/
theorem immediateResults : Obligations.ImmediateResults := by
  intro s d b i16 i32 i64 n
  have count : n.toNat % 64 = n.toNat := Nat.mod_eq_of_lt n.isLt
  simp only [← sextN_toNat i16 (by decide), ← sextN_toNat i32 (by decide)]
  refine ⟨computes_of_finishG rfl, computes_of_finishG rfl, computes_of_finishG rfl, computes_of_finishG rfl, ?shl, ?shr, ?sra,
    computes_of_finishG rfl, computes_of_finishG rfl, ?li8, computes_of_finishG rfl, computes_of_finishG rfl, decode_addpc8,
    computes_of_finishG rfl⟩
  case shl => rw [← count]; exact computes_of_finishG rfl
  case shr => rw [← count]; exact computes_of_finishG rfl
  case sra => rw [← count]; exact computes_of_finishG rfl
  case li8 =>
    have load : Computes s (.liTail8 d i64) d (sextN i64.toNat 64) := computes_of_finishG rfl
    rwa [sextN_toNat _ (Nat.le_refl 64), BitVec.signExtend_eq] at load

end Sys2Proof.Machine
end

section
/-! PROOFS. What an access changes where it is served (R247, R252, R266): memory, with what the caches and the homes hold for it, and of the
cores the marks of scratchpad chunks (R327). With them the bytes of a stored word. -/

namespace Sys2Proof.Machine

/-! ### Changes of the marks of scratchpad chunks -/

/-- Of the cores, only the marks of scratchpad chunks may change (R327). -/
def OnlyScratchMarks (s u : State) : Prop :=
  ∀ p, u.core p = { s.core p with dirty := { (s.core p).dirty with scr := (u.core p).dirty.scr } }

namespace OnlyScratchMarks
variable {s u : State} (h : OnlyScratchMarks s u)
include h

theorem thr (p : Nat) : u.thr p = s.thr p := (congrArg CoreSt.thr (h p) :)
theorem priv (p : Nat) : u.priv p = s.priv p := (congrArg CoreSt.priv (h p) :)
theorem arr (p : Nat) : (u.core p).arr = (s.core p).arr := (congrArg CoreSt.arr (h p) :)

theorem sprig (p i : Nat) : u.sprig p i = s.sprig p i := by rw [State.sprig, h.arr, State.sprig]

theorem ag (a : AgentId) : u.ag a = s.ag a := by simp only [State.ag, h.thr, h.sprig]

theorem getG (a : AgentId) (r : BitVec 5) : u.getG a r = s.getG a r := by simp only [State.getG, h.thr, h.sprig, h.priv]

theorem pcOf (a : AgentId) : u.pcOf a = s.pcOf a := by simp only [State.pcOf, h.thr, h.sprig]

theorem fpstatOf (a : AgentId) : u.fpstatOf a = s.fpstatOf a := by simp only [State.fpstatOf, h.thr, h.sprig]

theorem nextPc (a : AgentId) : u.nextPc a = s.nextPc a := by simp only [State.nextPc, h.pcOf, h.ag]

theorem trans {t : State} (h' : OnlyScratchMarks u t) : OnlyScratchMarks s t := fun p => by
  rw [h' p, h p]

/-- An instruction that completes after such a change has left the agent as it does without. -/
theorem agentDone {t : State} {a : AgentId} {d : BitVec 5} {v : Word} {fl : BitVec 6} {pc : Word} {sb : List SbEntry}
    (done : AgentDone u t a d v fl pc sb) : AgentDone s t a d v fl pc sb where
  reg r := by rw [done.reg, h.getG]
  pcAt := done.pcAt
  flags := by rw [done.flags, h.fpstatOf]
  buffer := done.buffer
  banks := by simpa only [h.thr, h.priv] using done.banks
  thread := by simpa only [h.thr] using done.thread
  count := by simpa only [h.thr] using done.count
  sprig := by simpa only [h.sprig] using done.sprig
  charged := by simpa only [h.thr] using done.charged
  otherSprigs := by simpa only [h.sprig] using done.otherSprigs
  array := by simpa only [h.arr] using done.array
  core := by
    have e := congrArg (fun c : CoreSt => { c with dirty := (s.core a.core).dirty }) done.core
    rw [h a.core] at e
    exact e
  dirty := by
    have e := congrArg (fun m => { m with scr := (s.core a.core).dirty.scr }) done.dirty
    rw [h a.core] at e
    exact e
  otherCores p hp := by
    have e := congrArg (fun c : CoreSt => { c with dirty := { c.dirty with scr := (s.core p).dirty.scr } }) (done.otherCores p hp)
    rw [h p] at e
    exact e

end OnlyScratchMarks

/-! ### Changes at the homes -/

theorem OnlyMemory.trans {s u t : State} (h : OnlyMemory s u) (h' : OnlyMemory u t) : OnlyMemory s t := by
  have e := congrArg (fun y : State => { y with
    cores := s.cores, mem := s.mem, fullBits := s.fullBits, ue := s.ue, behind := s.behind, exact := s.exact, records := s.records
    tc := s.tc, res := s.res, sliceQ := s.sliceQ, tagQ := s.tagQ, parks := s.parks, pool := s.pool, flights := s.flights }) h'
  exact e.trans h

theorem PackageKept.onlyMemory {s t : State} (h : PackageKept s t) : OnlyMemory s t := by
  have e : OnlyMemory s { t with cores := s.cores } := by rw [h.rest]; rfl
  exact e

/-- The state with its cores, its memory and what the caches and the homes hold for memory as in another; its reservations, queues and
monitors stand. -/
def State.withHomesOf (u s : State) : State :=
  { u with
    cores := s.cores, mem := s.mem, fullBits := s.fullBits, ue := s.ue, behind := s.behind, exact := s.exact
    records := s.records, tc := s.tc, parks := s.parks, pool := s.pool, flights := s.flights }

/-- What an access may change where it is served: memory, with what the caches and the homes hold for it, and the marks of scratchpad
chunks. -/
structure ServedAtHome (s u : State) : Prop where
  rest : u.withHomesOf s = s
  marks : OnlyScratchMarks s u

namespace ServedAtHome

theorem refl (s : State) : ServedAtHome s s := ⟨rfl, fun _ => rfl⟩

theorem trans {s u t : State} (h : ServedAtHome s u) (h' : ServedAtHome u t) : ServedAtHome s t where
  rest := (congrArg (fun y : State => y.withHomesOf s) h'.rest).trans h.rest
  marks := h.marks.trans h'.marks

theorem res {s u : State} (h : ServedAtHome s u) : u.res = s.res := (congrArg State.res h.rest :)
theorem sliceQ {s u : State} (h : ServedAtHome s u) : u.sliceQ = s.sliceQ := (congrArg State.sliceQ h.rest :)
theorem monitors {s u : State} (h : ServedAtHome s u) : u.monitors = s.monitors := (congrArg State.monitors h.rest :)

theorem onlyMemory {s u : State} (h : ServedAtHome s u) : OnlyMemory s u := by
  have e : OnlyMemory s (u.withHomesOf s) := by rw [h.rest]; rfl
  exact e

theorem sendPool (s : State) (line : Nat) (b : Behind) : ServedAtHome s (s.sendPool line b) := by
  unfold State.sendPool
  split <;> exact ⟨rfl, fun _ => rfl⟩

theorem dirtyLine (s : State) (line va : Nat) (far : Bool) : ServedAtHome s (s.dirtyLine line va far) := by
  unfold State.dirtyLine
  repeat' split
  all_goals exact ⟨rfl, fun _ => rfl⟩

theorem ueWrote (s : State) (tag : Bool) (l : Nat) : ServedAtHome s (s.ueWrote tag l) := by
  simp only [State.ueWrote]
  repeat' split
  all_goals exact ⟨rfl, fun _ => rfl⟩

theorem dropExact (s : State) (f : Nat → Bool) : ServedAtHome s (s.dropExact f) := by
  unfold State.dropExact
  split <;> exact ⟨rfl, fun _ => rfl⟩

theorem scratchDirty (s : State) (l : Nat) : ServedAtHome s (s.scratchDirty l) := by
  unfold State.scratchDirty
  split
  · refine ⟨rfl, fun p => ?_⟩
    rw [State.core_modCore]
    split
    · rename_i h; rw [h]
    · rfl
  · exact refl s

theorem foldl {α : Type} (f : State → α → State) (h : ∀ s x, ServedAtHome s (f s x)) (xs : List α) (s : State) :
    ServedAtHome s (xs.foldl f s) := by
  induction xs generalizing s with
  | nil => exact refl s
  | cons x xs ih => exact (h s x).trans (ih _)

end ServedAtHome

/-! ### Acceptance -/

theorem mem_of_mem_dedup {α : Type} [BEq α] [LawfulBEq α] {x : α} {xs : List α} (h : x ∈ dedup xs) : x ∈ xs := by
  induction xs with
  | nil => exact h
  | cons y ys ih =>
    rw [dedup] at h
    split at h
    · exact List.mem_cons_of_mem _ (ih h)
    · exact List.mem_cons.mpr ((List.mem_cons.mp h).imp_right ih)

/-- Monitors on other words do not compare (R230). -/
theorem State.serveMonitors_unwatched (s : State) (words : List Nat) (ms : List Monitor) (h : ∀ m ∈ ms, m.loc ∉ words) :
    s.serveMonitors words ms = s := by
  induction ms with
  | nil => rfl
  | cons m ms ih =>
    have other : (!words.contains m.loc) = true := by simpa using h m List.mem_cons_self
    rw [State.serveMonitors, if_pos other]
    exact ih fun x hx => h x (List.mem_cons_of_mem _ hx)

/-- A write that its home takes and no monitor watches is served at the home alone (R266). -/
theorem State.accept_servedAtHome (s : State) (w : LineW) (taken : s.refuses w = false)
    (unwatched : ∀ m ∈ s.monitors, ∀ c ∈ w.cells, m.loc ≠ c.1 / 8 * 8) : ServedAtHome s (s.accept w) := by
  unfold State.accept
  unfold State.refuses at taken
  split
  · exact .refl s
  · rename_i c rest cells
    rw [cells] at taken unwatched
    simp only [List.head?_cons, Option.any_some, Bool.or_eq_false_iff] at taken
    obtain ⟨reached, online⟩ := taken
    rw [if_neg (Bool.not_eq_true _ ▸ reached), if_neg (Bool.not_eq_true _ ▸ online)]
    extract_lets cs line va aside written noted dropped resumed marked
    have asideServed : ServedAtHome s aside := by
      dsimp only [aside]
      split
      · exact .dirtyLine ..
      · split
        · exact .sendPool ..
        · exact .refl s
    have writtenServed : ServedAtHome aside written := ⟨rfl, fun _ => rfl⟩
    have notedServed : ServedAtHome written noted := by
      dsimp only [noted]
      split
      · exact .refl written
      · exact .foldl _ (fun s c => .ueWrote s w.tag c.1) cs written
    have resumedServed : ServedAtHome dropped resumed := ⟨rfl, fun _ => rfl⟩
    have served : ServedAtHome s marked :=
      asideServed.trans <| writtenServed.trans <| notedServed.trans <| (ServedAtHome.dropExact ..).trans <|
        resumedServed.trans <| .scratchDirty ..
    split
    · exact served
    · rw [marked.serveMonitors_unwatched]
      · exact served
      · intro m hm watched
        obtain ⟨c', hc', e⟩ := List.mem_map.mp (mem_of_mem_dedup watched)
        exact unwatched m (served.monitors ▸ hm) c' hc' e.symm

/-! ### The bytes of a word -/

theorem leNat_lt (bs : List Byte) : leNat bs < 256 ^ bs.length := by
  induction bs with
  | nil => exact Nat.one_pos
  | cons b bs ih =>
    have := b.isLt
    rw [leNat, List.length_cons, Nat.pow_succ]
    omega

theorem State.length_rdBytes (s : State) (l n : Nat) : (s.rdBytes l n).length = n := by
  induction n generalizing l with
  | zero => rfl
  | succ n ih => rw [State.rdBytes, List.length_cons, ih]

theorem State.rdN_lt (s : State) (l n : Nat) : s.rdN l n < 256 ^ n := by
  have h := leNat_lt (s.rdBytes l n)
  rwa [s.length_rdBytes] at h

/-- A little-endian value gives its bytes back (R3). -/
theorem State.byte_of_rdN (s : State) {n k : Nat} (l : Nat) (hk : k < n) :
    BitVec.ofNat 8 (s.rdN l n / 256 ^ k) = s.rd1 (l + k) := by
  induction n generalizing l k with
  | zero => exact absurd hk (Nat.not_lt_zero k)
  | succ n ih =>
    have unfolded : s.rdN l (n + 1) = (s.rd1 l).toNat + 256 * s.rdN (l + 1) n := rfl
    have low := (s.rd1 l).isLt
    cases k with
    | zero =>
      rw [Nat.pow_zero, Nat.div_one, unfolded]
      apply BitVec.eq_of_toNat_eq
      show _ % 256 = (s.rd1 l).toNat
      omega
    | succ k =>
      have high : s.rdN l (n + 1) / 256 = s.rdN (l + 1) n := by omega
      rw [Nat.pow_succ', ← Nat.div_div_eq_div_mul, high, ih (l + 1) (by omega)]
      congr 1
      omega

theorem mem_cellsOf {l n v : Nat} {c : Host.Cell} :
    c ∈ cellsOf l n v ↔ ∃ k < n, (l + k, BitVec.ofNat 8 (v / 2 ^ (8 * k))) = c := by
  simp only [cellsOf, List.mem_map, List.mem_range]

theorem nodup_cellsOf (l n v : Nat) : ((cellsOf l n v).map fun c => c.1).Nodup := by
  rw [cellsOf, List.map_map]
  exact List.nodup_range.map fun a b h => Nat.add_left_cancel h

/-- Writing the cells of a value stores it. -/
theorem stored_of_writeCells {s t : State} {l n v : Nat} (h : t.mem = Memory.writeCells s.mem (cellsOf l n v)) : Stored s t l n v := by
  intro j
  rw [State.rd1, h]
  split
  · rename_i inside
    have cell : (j, BitVec.ofNat 8 (v / 256 ^ (j - l))) ∈ cellsOf l n v :=
      mem_cellsOf.mpr ⟨j - l, by omega, by rw [Nat.pow_mul, Nat.add_sub_cancel' inside.1]⟩
    exact Memory.read_writeCells _ _ _ cell (nodup_cellsOf l n v)
  · rename_i outside
    refine Memory.read_writeCells_other _ _ _ fun c hc => ?_
    obtain ⟨k, hk, rfl⟩ := mem_cellsOf.mp hc
    exact fun e => outside ⟨by omega, by omega⟩

/-- Memory that stands holds the value it held. -/
theorem stored_of_mem_eq {s t : State} {l n : Nat} (h : t.mem = s.mem) : Stored s t l n (s.rdN l n) := by
  intro j
  rw [State.rd1, h]
  split
  · rename_i inside
    rw [s.byte_of_rdN l (by omega), Nat.add_sub_cancel' inside.1, State.rd1]
  · rfl

/-- The word that eight bytes hold is their value. -/
theorem State.toNat_rdN_word (s : State) (l : Nat) : (BitVec.ofNat 64 (s.rdN l 8)).toNat = s.rdN l 8 := by
  rw [BitVec.toNat_ofNat]
  exact Nat.mod_eq_of_lt (s.rdN_lt l 8)

end Sys2Proof.Machine
end

section
/-! PROOFS. What precedes the action of a synchronisation instruction: its checks (R215), the end of the agent's reservations (R220) and
its earlier accesses (R217). -/

namespace Sys2Proof.Machine

theorem State.syncAddr_eq (s : State) (o : SyncOp) : s.syncAddr o = s.rg o.b + o.imm.signExtend 64 := by
  rw [State.syncAddr, sextN_toNat _ (by decide)]

/-- Steps 5 and 6 of R215 pass. -/
theorem SyncReady.attrs {s : State} {ea : Word} {n : Nat} {r w pool : Bool} {need : PageNeed} {x : Xl}
    (h : SyncReady s ea n r w need pool x) (k : Out) : syncAttrs s ea x need pool k = k := by
  have inPool : (!pool && isPool x.loc) = false := by rcases h.inPool with e | e <;> simp [e]
  unfold syncAttrs
  rw [h.online, inPool]
  cases need with
  | plain => simp [show x.crf = 0 from h.page]
  | tagged => simp [show x.tag = true from h.page]
  | range => simp [show x.crf ≠ 0 from h.page]

/-- The checks of R215 pass with the translated address. -/
theorem SyncReady.check {s : State} {ea : Word} {n : Nat} {r w pool : Bool} {need : PageNeed} {x : Xl}
    (h : SyncReady s ea n r w need pool x) (k : Xl → Out) : syncCheck s ea n r w need pool k = k x := by
  obtain ⟨hr, hw, readable, writable, mayRead, mayWrite⟩ := h.rights
  have granted (asked has : Bool) (grant : asked = true → has = true) : (asked && !has) = false := by
    cases asked with
    | false => rfl
    | true => rw [grant rfl]; rfl
  have rights : (r && !hr || w && !hw) = false := by rw [granted r hr mayRead, granted w hw mayWrite]; rfl
  simp only [syncCheck, syncSteps, h.canon, h.aligned, readable, writable, rights, h.access, h.attrs, Bool.not_true,
    Bool.false_eq_true, ne_eq, not_true_eq_false, if_false]

/-- Without a reservation taken by `lrw`, none ends (R220). -/
theorem HoldsNone.beginSync {s : State} (h : HoldsNone s) (keep : Option Nat) : s.beginSync keep = s := by
  rw [State.beginSync, show s.heldLines s.cur true = [] from h]
  rfl

/-- A core written as it is. -/
theorem State.core_setCore_self (s : State) (q p : Nat) : (s.setCore q (s.core q)).core p = s.core p := by
  by_cases h : p = q
  · rw [h, State.core_setCore_same]
  · exact State.core_setCore_ne s h _

/-- A core without partial sums merges none. -/
theorem State.mergeCore_empty (s : State) (q : Nat) (h : (s.core q).partials = []) : s.mergeCore q = s.setCore q (s.core q) := by
  have step : s.mergeCore q = s.setCore q { s.core q with partials := [] } := by
    rw [State.mergeCore, h, List.foldl_nil, State.modCore]
  rw [step, ← h]

theorem drained_of_empty {s : State} (h : (s.ag s.cur).sb = []) (k : State → Out) : drained s k = k s := by
  simp [drained, State.canDrain, State.drain, h]

/-- With nothing to go to the pool's devices and nothing in flight there, a release at pool scope is done. -/
theorem poolRelease_of_clean {s : State} (noFence : ∀ f ∈ s.poolFences, f.who ≠ s.cur)
    (clean : ∀ e ∈ s.behind, isPool (64 * e.1) = false) (landed : s.poolFlights (s.partOf s.cur.core) = []) (k : State → Out) :
    poolRelease s k = k s := by
  have noWait : s.fenceWait = none := by
    rw [State.fenceWait, List.find?_eq_none.mpr fun f hf => by simpa using noFence f hf]
    rfl
  have cleaned : s.cleanPool (s.partOf s.cur.core) = s := by
    rw [State.cleanPool, List.filter_eq_nil_iff.mpr fun e he => by simp [State.poolOf, clean e he]]
    rfl
  have fences : s.setFence none none = s := by
    rw [State.setFence, List.filter_eq_self.mpr fun f hf => by simpa using noFence f hf]
  simp only [poolRelease, State.poolStep, State.poolSend, noWait, landed, cleaned, fences]

/-- An agent with its earlier accesses performed acts at once, whatever the order and scope (R217). -/
theorem Performed.ordered {s : State} (h : Performed s) (o : Ordr) (sc : Scope) (inPool : Bool) (k : State → Out) :
    Machine.ordered s o sc inPool k = k (s.setCore s.cur.core (s.core s.cur.core)) := by
  have merged := s.mergeCore_empty s.cur.core h.partials
  have release (sc : Scope) : releaseAt s sc k = k (s.setCore s.cur.core (s.core s.cur.core)) := by
    rw [releaseAt, drained_of_empty h.buffer, merged]
    cases sc with
    | pool => exact poolRelease_of_clean (s := s.setCore s.cur.core (s.core s.cur.core)) h.noFence h.poolClean h.poolDone k
    | die | pkg | sys => rfl
  cases o with
  | none | acq => rw [Machine.ordered, drained_of_empty h.buffer, merged]
  | rel | ar => exact release _

/-! ### Errors of the word (R252, R375) -/

/-- A location in a package cut off has an error in its granule (R375). -/
theorem State.cutOff_granule (s : State) (l : Nat) (h : s.cutOff l = true) : s.granuleBad (l / 32) = true := by
  have hbm : isHbm (32 * (l / 32)) = isHbm l := by
    simp only [isHbm, Bool.and_eq_decide, decide_eq_true_eq]
    congr 1
    apply propext
    omega
  have pkg : pkgOfLoc (32 * (l / 32)) = pkgOfLoc l := by
    simp only [pkgOfLoc]
    omega
  rw [State.granuleBad, Bool.or_eq_true]
  right
  rwa [State.cutOff, hbm, pkg]

/-- Bytes without an error lie in no package cut off. -/
theorem State.reached_of_sound (s : State) (l n : Nat) (h : s.ueAt l n = false) : s.cutOff l = false := by
  rw [State.ueAt, List.any_eq_false] at h
  by_contra cut
  exact h 0 (List.mem_range.mpr (Nat.succ_pos _)) (s.cutOff_granule l (by simpa using cut))

end Sys2Proof.Machine
end

section
/-! PROOFS. One word, read and written under an internal reservation (R223, R224), and the obligation about `amo` and `cas`. -/

namespace Sys2Proof.Machine

/-! ### The reservation (R218) -/

/-- The reservation an instruction in progress holds alone. -/
def State.internalLine (s : State) (x : Xl) (ea : Word) : ResLine := ⟨x.slice, ea.toNat / 64, some s.cur, false, s.time, []⟩

/-- The state with the line of a word reserved for an instruction in progress; the core is written as it is. -/
def State.reserved (s : State) (x : Xl) (ea : Word) : State :=
  { s.setCore s.cur.core (s.core s.cur.core) with res := Store.ins s.res (x.loc / 64) (s.internalLine x ea) }

theorem State.marks_reserved (s : State) (x : Xl) (ea : Word) : OnlyScratchMarks s (s.reserved x ea) := fun p => by
  rw [show (s.reserved x ea).core p = s.core p from s.core_setCore_self s.cur.core p]

theorem State.onlyMemory_reserved (s : State) (x : Xl) (ea : Word) : OnlyMemory s (s.reserved x ea) := rfl

/-- A free line is granted at once (R218). -/
theorem LineFree.request {s : State} {x : Xl} (h : LineFree s x) (ea : Word) :
    (s.setCore s.cur.core (s.core s.cur.core)).request s.cur false x.slice (x.loc / 64) (ea.toNat / 64) = (true, s.reserved x ea) := by
  have unheld : Store.find? (s.setCore s.cur.core (s.core s.cur.core)).res (x.loc / 64) = none := h.unheld
  have notQueued : (s.setCore s.cur.core (s.core s.cur.core)).queuedFor s.cur (x.loc / 64) = false := h.notQueued
  have slot : (s.setCore s.cur.core (s.core s.cur.core)).slotsUsed x.slice < 128 := h.slot
  simp only [State.request, unheld, notQueued, slot, Bool.false_eq_true, if_false, if_true]
  rfl

theorem Store.mem_of_find? {α : Type} {m : Store α} {i : Nat} {v : α} (h : Store.find? m i = some v) : (i, v) ∈ m := by
  induction m with
  | nil => cases h
  | cons e m ih =>
    rw [Store.find?] at h
    split at h
    · rename_i here
      rw [here, ← Option.some.inj h]
      exact List.mem_cons_self
    · exact List.mem_cons_of_mem _ (ih h)

/-- With no pool line dirty, a recall only forgets what memory held before (R247, R256). -/
theorem State.recall_plain (s : State) (q : Nat) (x : Xl) (clean : ∀ e ∈ s.behind, isPool (64 * e.1) = false) :
    ∃ b, s.recall q x = { s with behind := b } := by
  unfold State.recall State.writeBack
  split
  · split
    · exact ⟨s.behind, rfl⟩
    · rename_i b dirty
      rw [clean _ (Store.mem_of_find? dirty)]
      exact ⟨_, rfl⟩
  · exact ⟨s.behind, rfl⟩

/-- The only reservation of a line ends, and no request waits for the slot it frees (R218). -/
theorem State.releaseLine_last (s : State) (line : Nat) (e : ResLine) (held : Store.find? s.res line = some e) (last : e.queue = [])
    (quiet : Store.get s.sliceQ [] e.home = []) : s.releaseLine line = { s with res := Store.del s.res line } := by
  simp only [State.releaseLine, held, last, State.slotFreed, quiet]

/-! ### The word -/

/-- A word of memory that its home takes and no monitor watches is written at the home alone. -/
theorem State.setWordAt_served {s : State} {x : Xl} (ea : Word) (v : Nat) (memory : isDevice x.loc = false)
    (reached : s.cutOff x.loc = false) (online : s.poolLost x.loc = false) (unwatched : Unwatched s x.loc) :
    ServedAtHome s (s.setWordAt x ea 8 v) ∧ Stored s (s.setWordAt x ea 8 v) x.loc 8 v := by
  have taken : s.refuses ⟨x.tag, x.uc, ea.toNat / 64, cellsOf x.loc 8 v, false⟩ = false := by
    have first : (cellsOf x.loc 8 v).head? = some (x.loc, BitVec.ofNat 8 (v / 2 ^ (8 * 0))) := rfl
    simp only [State.refuses, first, Option.any_some, reached, online, Bool.or_self]
  rw [State.setWordAt, if_neg (by simp [memory])]
  constructor
  · refine s.accept_servedAtHome _ taken fun m hm c hc => ?_
    obtain ⟨k, hk, rfl⟩ := mem_cellsOf.mp hc
    exact unwatched m hm k hk
  · exact stored_of_writeCells (by rw [State.accept_mem, taken, if_neg Bool.false_ne_true])

/-- What an agent needs for a read-modify-write of the word at `x` to act at once. -/
structure RmwReady (s : State) (ea : Word) (x : Xl) : Prop where
  performed : Performed s
  ready : SyncReady s ea 8 true true .plain true x
  holdsNone : HoldsNone s
  free : LineFree s x
  unwatched : Unwatched s x.loc

/-- A read-modify-write under those premises: it completes from a state in which the word's home alone has changed, with the line
released. -/
theorem RmwReady.finishes {s : State} {o : SyncOp} {x : Xl} (h : RmwReady s (s.syncAddr o) x) (i : Instr) (d : BitVec 5)
    (f : Word → Option Word) {old : Word} (read : BitVec.ofNat 64 (s.rdN x.loc 8) = old) :
    ∃ u, rmw i d o f s = finishG i d old (u.releaseLine (x.loc / 64)) ∧ ServedAtHome (s.reserved x (s.syncAddr o)) u ∧
      Stored s u x.loc 8 ((f old).getD old).toNat := by
  obtain ⟨b, recalled⟩ := (s.reserved x (s.syncAddr o)).recall_plain s.cur.core x h.performed.poolClean
  have word : (s.reserved x (s.syncAddr o)).wordAt x 8 = ({ s.reserved x (s.syncAddr o) with behind := b }, s.rdN x.loc 8) := by
    rw [State.wordAt, if_neg (by simp [h.ready.memory])]
    exact Prod.ext recalled rfl
  have home : ServedAtHome (s.reserved x (s.syncAddr o)) { s.reserved x (s.syncAddr o) with behind := b } := ⟨rfl, fun _ => rfl⟩
  have sound : (s.setCore s.cur.core (s.core s.cur.core)).ueAt x.loc 8 = false := h.ready.sound
  unfold rmw
  dsimp only
  rw [h.ready.check, h.holdsNone.beginSync, h.performed.ordered, wordSound, sound, State.setCore_cur, h.free.request, word]
  simp only [Bool.false_eq_true, if_false, if_true, read]
  cases f old with
  | none =>
    refine ⟨_, rfl, home, ?_⟩
    rw [Option.getD_none, ← read, State.toNat_rdN_word]
    exact stored_of_mem_eq rfl
  | some v =>
    obtain ⟨served, stored⟩ := State.setWordAt_served (s := { s.reserved x (s.syncAddr o) with behind := b }) (s.syncAddr o) v.toNat
      h.ready.memory (s.reached_of_sound x.loc 8 h.ready.sound) h.ready.online h.unwatched
    exact ⟨_, rfl, home.trans served, stored⟩

/-- An instruction that ends in `finishG` after changes to memory alone completes, with those changes. -/
theorem finishG_afterMemory {s u : State} (marks : OnlyScratchMarks s u) (memory : OnlyMemory s u) (i : Instr) (d : BitVec 5) (v : Word) :
    ∃ t, finishG i d v u = .next t ∧ AgentDone s t s.cur d v 0 (s.nextPc s.cur) (s.ag s.cur).sb ∧ OnlyMemory s t ∧ t.mem = u.mem ∧
      t.res = u.res := by
  have cur : u.cur = s.cur := (congrArg State.cur memory :)
  have unflagged : u.raiseFlags s.cur 0 = u := if_pos rfl
  have next : finishG i d v u = .next (u.done s.cur i d v 0 (s.nextPc s.cur) (lineBase (s.nextPc s.cur) == lineBase (s.pcOf s.cur))) := by
    rw [finishG, finish, State.setG_cur, cur, ← marks.nextPc, ← marks.pcOf, ← State.retire_eq_done, unflagged]
  have kept := u.packageKept_done s.cur i d v 0 (s.nextPc s.cur) (lineBase (s.nextPc s.cur) == lineBase (s.pcOf s.cur))
  exact ⟨_, next, marks.agentDone (marks.ag s.cur ▸ State.agentDone_done ..), memory.trans kept.onlyMemory,
    (congrArg State.mem kept.rest :), (congrArg State.res kept.rest :)⟩

/-- What an `amo` or a `cas` does (R223, R224): the old word is returned, the new one, or the old one again, stands in memory, and the
line is free. -/
theorem RmwReady.completes {s : State} {o : SyncOp} {x : Xl} (h : RmwReady s (s.syncAddr o) x) (i : Instr) (d : BitVec 5)
    (f : Word → Option Word) {old : Word} (read : BitVec.ofNat 64 (s.rdN x.loc 8) = old) :
    ∃ t, rmw i d o f s = .next t ∧ AgentDone s t s.cur d old 0 (s.nextPc s.cur) [] ∧ Stored s t x.loc 8 ((f old).getD old).toNat ∧
      OnlyBytes s t x.loc 8 ∧ Store.find? t.res (x.loc / 64) = none := by
  obtain ⟨u, runs, served, stored⟩ := h.finishes i d f read
  have released : u.releaseLine (x.loc / 64) = { u with res := Store.del u.res (x.loc / 64) } := by
    refine u.releaseLine_last _ (s.internalLine x (s.syncAddr o)) ?held rfl ?quiet
    case held => rw [served.res]; exact Store.find?_ins_same ..
    case quiet => rw [served.sliceQ]; exact h.free.quiet
  have marks : OnlyScratchMarks s u := (s.marks_reserved x _).trans served.marks
  have memory : OnlyMemory s { u with res := Store.del u.res (x.loc / 64) } :=
    (s.onlyMemory_reserved x _).trans (served.onlyMemory.trans rfl)
  obtain ⟨t, next, done, rest, mem, res⟩ :=
    finishG_afterMemory (u := { u with res := Store.del u.res (x.loc / 64) }) marks memory i d old
  have storedT : Stored s t x.loc 8 ((f old).getD old).toNat := fun l => by rw [State.rd1, mem]; exact stored l
  refine ⟨t, by rw [runs, released, next], h.performed.buffer ▸ done, storedT, ⟨fun l outside => ?bytes, rest⟩, ?free⟩
  case bytes => rw [storedT l, if_neg (by omega)]
  case free => rw [res, Store.find?_del, if_pos rfl]

/-- The new word of each `amo`, with the comparisons on the values of the words (R223). -/
theorem amoNew_eq (op : AmoOp) (old v : Word) : amoNew op old v = match op with
    | .add => old + v | .and => old &&& v | .or => old ||| v | .swap => v
    | .min => if v.toInt < old.toInt then v else old
    | .max => if old.toInt < v.toInt then v else old
    | .minU => if v.toNat < old.toNat then v else old
    | .maxU => if old.toNat < v.toNat then v else old := by
  cases op with
  | add | and | or | swap => rfl
  | min | max => simp only [amoNew, BitVec.slt_eq_decide, decide_eq_true_eq]
  | minU | maxU => simp only [amoNew, BitVec.ult_eq_decide, decide_eq_true_eq]

/-- Settles O21: `amo` and `cas` are the read-modify-write with their own new word; where `cas` finds another word it keeps the old one,
which then still stands. -/
theorem atomicsReadAndWriteOnce : Obligations.AtomicsReadAndWriteOnce := by
  intro s op d c o x ea old v new done performed ready holdsNone free unwatched
  have h : RmwReady s (s.syncAddr o) x := ⟨performed, s.syncAddr_eq o ▸ ready, holdsNone, free, unwatched⟩
  constructor
  · have amo := h.completes (.amo op d c o) d (fun old => some (amoNew op old v)) (old := old) rfl
    rw [Option.getD_some, amoNew_eq] at amo
    exact amo
  · have cas := h.completes (.cas d c o) d (fun old => if old = s.rg d then some v else none) (old := old) rfl
    rw [apply_ite (Option.getD · old), Option.getD_some, Option.getD_none] at cas
    exact cas

end Sys2Proof.Machine
end
